-- ==== Sys2Proof/Word.lean ====
section
/-! DEFINITION. The word types of the Wirtac 3160: what the manual treats as bits, and the two index types. -/

namespace Sys2Proof

/-- One byte of a frame. -/
abbrev Byte := BitVec 8

/-- A 16-bit field. -/
abbrev Half := BitVec 16

/-- A 32-bit count or stamp. -/
abbrev Quad := BitVec 32

/-- A WFL address, 0..63 (R2). -/
abbrev Addr := BitVec 6

/-- A value on an actuator's scale, 0..4095. -/
abbrev Level := BitVec 12

/-- A channel slot, 0..127. -/
abbrev Slot := Fin 128

/-- An output index, 0..15. -/
abbrev OutIdx := Fin 16

end Sys2Proof
end

