-- ==== Sys2Proof/Syntax.lean ====
section
/-! DEFINITION. The commands the part takes: one constructor per row of the spec's table of operations and
events. An operand stands only where the outside of the part decides something. -/

namespace Sys2Proof

/-- The two link ports (section 0.1): F toward the field, S toward the supervisor. -/
inductive Port where
  | f
  | s
  deriving DecidableEq, Repr

/-- The link state of a port (R17). -/
inductive LinkState where
  | down
  | up
  deriving DecidableEq, Repr

/-- What a bank's medium did with the generation and copy it was given (R191: "A fault in either leaves the
target holding something other than the copy"): stored as given, or a fault, with the generation then found. -/
inductive MediumResult where
  | good
  | faulty (generation : Half)
  deriving DecidableEq, Repr

/-- The 45 commands. A request's parameters are no operands: the Executor takes them from the entry it executes
(R155, R159). -/
inductive Instr where
  | frameStart (port : Port)
  | byteArrival (port : Port) (byte : Byte)
  | frameEnd (port : Port)
  | lossOfSignal (port : Port)
  | returnOfSignal (port : Port)
  | tick
  | nodeTableTick
  | nodeSilent
  | channelTableTick
  | channelStale
  | outputUnitTick
  | refresh
  | noticeLogTick
  | goBack
  | sPortStart
  | fPortStart
  | transmissionComplete (port : Port)
  | echo
  | readSystem
  | writeSystem
  | readStats
  | restart
  | enrolNode
  | retireNode
  | readNode
  | bind
  | unbind
  | writeChannel
  | readChannel
  | ackBand
  | writeOutput
  | readOutput
  | forceOutput
  | releaseOutput
  | ackNotices
  | capture
  | readCapture
  | commit
  | readImage
  | unknownRequest
  | erasureEnds
  | writingEnds (medium : MediumResult)
  | readBackEnds
  | resetAsserted
  | hardReset (lineF : LinkState) (lineS : LinkState)
  deriving DecidableEq, Repr

end Sys2Proof
end

