-- ==== Sys2Proof/Decode.lean ====
section
/-! DEFINITION. Decoding of command words. No row of the spec's table of operations and events gives any bits, so no
word spells a command. (Frames and request records are decoded by the machine: Machine/Operands.lean.) -/

namespace Sys2Proof

/-- The command a word spells by the table's bits: none, since the table gives none. -/
def decodeTableWord (_nbits _w : Nat) : Option Instr :=
  none

end Sys2Proof
end

