-- ==== Sys2Proof/Machine/Records.lean ====
section
/-! DEFINITION. The records the part's blocks hold, in the manual's names, as plain data. -/

namespace Sys2Proof.Machine

/-! ## Ports: receiver, statistics, transmitter (chapters 1 and 7) -/

/-- The twelve counts of a port (section 1.10). -/
inductive StatName where
  | rxGood | rxCheckError | rxLengthError | rxFormatError | rxMisdirected | rxQueueFull | rxBlocked
  | rxEmptied | rxOwnedStripped | rxDuplicateRequest | txFrames | txAbandoned
  deriving DecidableEq, Repr

/-- The counts of one port, 32 bits each (section 1.10, R19). -/
structure PortStats where
  rxGood : Quad
  rxCheckError : Quad
  rxLengthError : Quad
  rxFormatError : Quad
  rxMisdirected : Quad
  rxQueueFull : Quad
  rxBlocked : Quad
  rxEmptied : Quad
  rxOwnedStripped : Quad
  rxDuplicateRequest : Quad
  txFrames : Quad
  txAbandoned : Quad
  deriving DecidableEq, Repr

/-- Every count 0 (R19). -/
def PortStats.zero : PortStats :=
  { rxGood := 0, rxCheckError := 0, rxLengthError := 0, rxFormatError := 0, rxMisdirected := 0, rxQueueFull := 0,
    rxBlocked := 0, rxEmptied := 0, rxOwnedStripped := 0, rxDuplicateRequest := 0, txFrames := 0, txAbandoned := 0 }

/-- Where the frame in flight came from (R148, R149). -/
inductive TxSource where
  | forwarded | response | notice | setpoint
  deriving DecidableEq, Repr

/-- A frame in flight, fixed from its start (R150). -/
structure Transmission where
  source : TxSource
  frame : List Byte
  deriving DecidableEq, Repr

/-- One port: its receiver (R6, R17), its counts, its transmitter (R142; `none` is free), and the queue of frames
waiting to be sent on it (R140). The S forward queue is the one of port S. -/
structure PortRecord where
  link : LinkState
  assembly : Option (List Byte)
  stats : PortStats
  transmitter : Option Transmission
  forwardQueue : List (List Byte)
  deriving DecidableEq, Repr

/-! ## Nodes (chapter 2) -/

inductive SeqPolicy where
  | checked | unchecked
  deriving DecidableEq, Repr

inductive NodeState where
  | unknown | live | silent
  deriving DecidableEq, Repr

structure NodeConfig where
  enrolled : Bool
  silenceLimit : Half
  seqPolicy : SeqPolicy
  deriving DecidableEq, Repr

structure NodeRuntime where
  state : NodeState
  lastSeq : Option Byte
  silenceCount : Half
  gapSum : Half
  dupCount : Half
  replayCount : Half
  lastStamp : Option Quad
  deriving DecidableEq, Repr

structure NodeRecord where
  config : NodeConfig
  runtime : NodeRuntime
  deriving DecidableEq, Repr

/-- The configuration part of an unenrolled record (R20). -/
def NodeConfig.empty : NodeConfig :=
  { enrolled := false, silenceLimit := 0, seqPolicy := .checked }

/-- The runtime part at enrolment and after every reset (R33, R37), and of an empty record (R20). -/
def NodeRuntime.clear : NodeRuntime :=
  { state := .unknown, lastSeq := none, silenceCount := 0, gapSum := 0, dupCount := 0, replayCount := 0, lastStamp := none }

/-- The values of a record that is not enrolled (R20). -/
def NodeRecord.empty : NodeRecord :=
  { config := .empty, runtime := .clear }

/-! ## Bindings and channels (chapters 3 and 4) -/

/-- One binding: the key (node, local channel) and the slot it feeds (section 3.1). -/
structure Binding where
  node : Addr
  channel : BitVec 4
  slot : Slot
  deriving DecidableEq, Repr

inductive ForwardPolicy where
  | raw | conditioned | strip
  deriving DecidableEq, Repr

inductive AlarmMode where
  | tracking | latching
  deriving DecidableEq, Repr

/-- The quality of a reading (section 0.6). -/
inductive Quality where
  | good | suspect | bad
  deriving DecidableEq, Repr

inductive ChannelState where
  | off | idle | inBand | high | low | stale | fault
  deriving DecidableEq, Repr

inductive RunDir where
  | none | up | down | release
  deriving DecidableEq, Repr

inductive StaleCause where
  | none | node | channel
  deriving DecidableEq, Repr

/-- The configuration part of a channel record (section 3.2). The limits, `offset` are signed. -/
structure ChannelConfig where
  enabled : Bool
  offset : Half
  gain : BitVec 13
  forward : ForwardPolicy
  lowTrip : Half
  lowClear : Half
  highClear : Half
  highTrip : Half
  assertCount : BitVec 4
  releaseCount : BitVec 4
  mode : AlarmMode
  badLimit : BitVec 4
  silenceLimit : Half
  deriving DecidableEq, Repr

/-- The runtime part of a channel record (section 4.1). `value` is signed. -/
structure ChannelRuntime where
  state : ChannelState
  value : Half
  valueValid : Bool
  quality : Option Quality
  runDir : RunDir
  runCount : BitVec 4
  badCount : BitVec 4
  acked : Bool
  staleCause : StaleCause
  silenceCount : Half
  lastStamp : Option Quad
  deriving DecidableEq, Repr

structure ChannelRecord where
  config : ChannelConfig
  runtime : ChannelRuntime
  deriving DecidableEq, Repr

/-- The factory defaults of section 3.2. -/
def ChannelConfig.factory : ChannelConfig :=
  { enabled := false, offset := 0, gain := 4096, forward := .raw, lowTrip := 0x8000, lowClear := 0x8001,
    highClear := 0x7FFE, highTrip := 0x7FFF, assertCount := 1, releaseCount := 1, mode := .tracking, badLimit := 3,
    silenceLimit := 0 }

/-- The values after clearing (R87). -/
def ChannelRuntime.clear (enabled : Bool) : ChannelRuntime :=
  { state := if enabled then .idle else .off, value := 0, valueValid := false, quality := none, runDir := .none,
    runCount := 0, badCount := 0, acked := false, staleCause := .none, silenceCount := 0, lastStamp := none }

/-- A configuration with its runtime cleared (R62, R87). -/
def ChannelRecord.cleared (c : ChannelConfig) : ChannelRecord :=
  { config := c, runtime := .clear c.enabled }

/-! ## Outputs (chapter 5) -/

inductive FallbackPolicy where
  | hold | safe | ramp
  deriving DecidableEq, Repr

inductive OutputState where
  | off | normal | fallback | forced
  deriving DecidableEq, Repr

/-- One point of a curve; `x` is signed. -/
structure CurvePoint where
  x : Half
  y : Level
  deriving DecidableEq, Repr

/-- The configuration part of an output record (section 5.1). -/
structure OutputConfig where
  enabled : Bool
  targetNode : Addr
  targetIndex : BitVec 4
  source : Slot
  points : List CurvePoint
  deadband : Level
  slew : Level
  refresh : Half
  fallback : FallbackPolicy
  safe : Level
  deriving DecidableEq, Repr

/-- The runtime part of an output record (section 5.2). -/
structure OutputRuntime where
  state : OutputState
  issued : Option Level
  target : Option Level
  forced : Option Level
  refreshCount : Half
  deriving DecidableEq, Repr

structure OutputRecord where
  config : OutputConfig
  runtime : OutputRuntime
  deriving DecidableEq, Repr

/-- The factory defaults of section 5.1 for the output of the given index. -/
def OutputConfig.factory (index : BitVec 4) : OutputConfig :=
  { enabled := false, targetNode := 1, targetIndex := index, source := 0,
    points := [{ x := 0x8000, y := 0 }, { x := 0x7FFF, y := 4095 }], deadband := 0, slew := 0, refresh := 0,
    fallback := .hold, safe := 0 }

/-- issued, target and forced none and refresh_count 0, in the given state (R91, R106, R117). -/
def OutputRuntime.cleared (state : OutputState) : OutputRuntime :=
  { state := state, issued := none, target := none, forced := none, refreshCount := 0 }

/-- One item of the setpoint set (R109). -/
structure SetpointItem where
  output : OutIdx
  node : Addr
  index : BitVec 4
  value : Level
  deriving DecidableEq, Repr

/-! ## The Notice Log (chapter 6) -/

inductive NoticeClass where
  | band | health | node | output | system
  deriving DecidableEq, Repr

inductive NoticeKind where
  | enterHigh | enterLow | ret | stale | fault | recover | nodeSilent | nodeBack | seqGap | nodeRestart
  | fallbackEnter | fallbackExit | restarted | commitDone | commitFailed | overflow
  deriving DecidableEq, Repr

/-- The subject of a notice with its category (R118). -/
inductive Subject where
  | channel (slot : Slot)
  | node (address : Addr)
  | output (index : OutIdx)
  | none
  deriving DecidableEq, Repr

inductive SendState where
  | new | sent | resend
  deriving DecidableEq, Repr

/-- One entry of the log (R120). -/
structure NoticeEntry where
  number : Half
  kind : NoticeKind
  subject : Subject
  value : Half
  stamp : Quad
  coalesceCount : Byte
  sendState : SendState
  sentStamp : Option Quad
  deriving DecidableEq, Repr

/-- The log, oldest entry first, with its two numbers (section 6.2). -/
structure NoticeLog where
  entries : List NoticeEntry
  nextNumber : Half
  lostSinceMarker : Half
  deriving DecidableEq, Repr

/-- The log a reset leaves: emptied, then RESTARTED appended as number 0 (R138, R139). -/
def NoticeLog.restarted (value : Half) : NoticeLog :=
  { entries := [{ number := 0, kind := .restarted, subject := .none, value := value, stamp := 0, coalesceCount := 0,
                  sendState := .new, sentStamp := none }],
    nextNumber := 1, lostSinceMarker := 0 }

/-! ## Requests (chapter 8) -/

inductive Status where
  | ok | unknownRequest | badLength | badIndex | invalidRecord | duplicate | inUse | notEnrolled | notBound
  | notEnabled | notForced | notLatched | badAckRange | notCaptured | busy
  deriving DecidableEq, Repr

/-- The three counts of the summary (R137). -/
structure Summary where
  exceptional : Byte
  fallback : Byte
  occupancy : Byte
  deriving DecidableEq, Repr

/-- The response built at execution (R161). -/
structure Response where
  tag : Byte
  opcode : Byte
  status : Status
  repeated : Bool
  lost : Byte
  summary : Summary
  results : List Byte
  deriving DecidableEq, Repr

inductive EntryState where
  | waiting | done | sending
  deriving DecidableEq, Repr

/-- One entry of the Request Queue (R155). -/
structure RequestEntry where
  tag : Byte
  seq : Byte
  opcode : Byte
  params : List Byte
  state : EntryState
  response : Option Response
  deriving DecidableEq, Repr

/-- The last-response memory's contents (R158). -/
structure SavedResponse where
  tag : Byte
  seq : Byte
  response : Response
  deriving DecidableEq, Repr

/-- The Request Queue, oldest entry first, with the lost-request count, the last-response memory and whether a
restart is pending (R155, R157, R158, R170). -/
structure RequestQueue where
  entries : List RequestEntry
  lostCount : Byte
  memory : Option SavedResponse
  restartPending : Bool
  deriving DecidableEq, Repr

/-- The queue after either form of reset (R164, R171). -/
def RequestQueue.empty : RequestQueue :=
  { entries := [], lostCount := 0, memory := none, restartPending := false }

/-! ## Egress (chapter 7) and time base (chapter 9) -/

inductive Turn where
  | forward | setpoint
  deriving DecidableEq, Repr

/-- The arbiters' own state (R145, R146, R147). -/
structure Egress where
  starvationCount : Nat
  nextTurn : Turn
  seqS : Byte
  seqF : Byte
  deriving DecidableEq, Repr

/-- The arbiters after either form of reset (R153, R154). -/
def Egress.clear : Egress :=
  { starvationCount := 0, nextTurn := .forward, seqS := 0, seqF := 0 }

/-- For each of the four owners of a tick, whether a tick was handed on to it that it has not taken (R173, R175). -/
structure TickOwners where
  nodeTable : Bool
  channelTable : Bool
  outputUnit : Bool
  noticeLog : Bool
  deriving DecidableEq, Repr

/-- No owner has a tick to take. -/
def TickOwners.idle : TickOwners :=
  { nodeTable := false, channelTable := false, outputUnit := false, noticeLog := false }

/-- The Time Base: the tick counter, the length of the interval now measured in milliseconds, and the ticks handed
on and not yet taken (section 9.1, R173). The tick period is in the System Record. -/
structure TimeBase where
  counter : Quad
  interval : Half
  handedOn : TickOwners
  deriving DecidableEq, Repr

/-- Work that an owner's tick event has found and has still to carry out (R28, R79, R100, R134), in ascending
order: the records gone silent, the channels gone stale, the outputs to refresh, and the go-back. -/
structure DueWork where
  silent : List Addr
  stale : List Slot
  refresh : List OutIdx
  goBack : Bool
  deriving DecidableEq, Repr

/-- No tick event is open. -/
def DueWork.none : DueWork :=
  { silent := [], stale := [], refresh := [], goBack := false }

/-! ## System Record, capture, stored image (chapters 8, 9, 10) -/

inductive UnenrolledPolicy where
  | pass | block
  deriving DecidableEq, Repr

/-- The System Record (R166). `classMask` has bit 0 BAND, 1 HEALTH, 2 NODE, 3 OUTPUT (section 12.5). -/
structure SystemRecord where
  ownAddress : Addr
  tickPeriod : Half
  resendTicks : Half
  classMask : BitVec 4
  policy : UnenrolledPolicy
  deriving DecidableEq, Repr

/-- The factory defaults of the System Record (R188). -/
def SystemRecord.factory : SystemRecord :=
  { ownAddress := 62, tickPeriod := 10, resendTicks := 100, classMask := 0xF, policy := .pass }

structure ChannelSnapshot where
  state : ChannelState
  value : Half
  valueValid : Bool
  quality : Option Quality
  deriving DecidableEq, Repr

structure OutputSnapshot where
  state : OutputState
  issued : Option Level
  deriving DecidableEq, Repr

structure NodeSnapshot where
  used : Bool
  enrolled : Bool
  state : NodeState
  silenceCount : Half
  deriving DecidableEq, Repr

/-- One capture (R176). The buffer holds one or none; with none, capture_number reads 0. -/
structure Capture where
  number : Byte
  stamp : Quad
  channels : Vector ChannelSnapshot 128
  outputs : Vector OutputSnapshot 16
  nodes : Vector NodeSnapshot 64
  deriving DecidableEq, Repr

/-- The image: the configuration of the part (R183). -/
structure Image where
  system : SystemRecord
  nodes : Vector NodeConfig 62
  bindings : List Binding
  channels : Vector ChannelConfig 128
  outputs : Vector OutputConfig 16
  deriving DecidableEq, Repr

/-- What the image part of a bank holds: erased (all ones), an image, or what a fault of the medium left. -/
inductive StoredImage where
  | erased
  | intact (image : Image)
  | damaged
  deriving DecidableEq, Repr

/-- One bank (R183). -/
structure Bank where
  generation : Half
  integrity : Quad
  image : StoredImage
  deriving DecidableEq, Repr

/-- An erased bank reads all ones (R184). -/
def Bank.erased : Bank :=
  { generation := 0xFFFF, integrity := 0xFFFFFFFF, image := .erased }

inductive BankId where
  | a | b
  deriving DecidableEq, Repr

inductive CommitPhase where
  | erasing | writing | verifying
  deriving DecidableEq, Repr

/-- A commit in flight: its phase, target, target_generation, copy and written_since_start (R185). -/
structure CommitJob where
  phase : CommitPhase
  target : BankId
  generation : Half
  copy : Image
  writtenSinceStart : Bool
  deriving DecidableEq, Repr

inductive LastResult where
  | none | done | failed
  deriving DecidableEq, Repr

/-- The Image Store. `current` none is NONE; `commit` none is commit_state IDLE, when target, target_generation
and copy are none and written_since_start is no (R185). -/
structure ImageStore where
  bankA : Bank
  bankB : Bank
  current : Option BankId
  commit : Option CommitJob
  lastResult : LastResult
  dirty : Bool
  deriving DecidableEq, Repr

end Sys2Proof.Machine
end

