-- ==== Sys2Proof/Config.lean ====
section
/-! DEFINITION. What an implementation fixes and the spec does not give. It is uninterpreted: no proof can see its value. -/

namespace Sys2Proof.Config

/-- The bytes of a bank's generation and image "in the order they are stored" (R184), over which the bank's check
word runs. The spec gives no order and no stored form. DESIGN CHOICE (log 8): left free; safe. -/
opaque bankOctets : Half → Machine.StoredImage → List Byte

end Sys2Proof.Config
end

