-- ==== Sys2Proof/Machine/Bytes.lean ====
section
/-! DEFINITION. Bytes, multi-byte fields, the check word, saturating counts, and tables of a fixed size. -/

namespace Sys2Proof.Machine

/-- The byte at an offset, 0 beyond the end. -/
def byteAt (l : List Byte) (i : Nat) : Byte :=
  l.getD i 0

/-- A 16-bit field at an offset, most significant byte first (R200). -/
def halfAt (l : List Byte) (i : Nat) : Half :=
  byteAt l i ++ byteAt l (i + 1)

/-- A 16-bit field as bytes, most significant first (R200). -/
def halfBytes (h : Half) : List Byte :=
  [h.extractLsb' 8 8, h.extractLsb' 0 8]

/-- A 32-bit field as bytes, most significant first (R200). -/
def quadBytes (q : Quad) : List Byte :=
  [q.extractLsb' 24 8, q.extractLsb' 16 8, q.extractLsb' 8 8, q.extractLsb' 0 8]

/-- One bit of the check word's computation, polynomial x^16 + x^12 + x^5 + 1 (R5). -/
def checkBit (c : Half) : Half :=
  if c.msb then (c <<< 1) ^^^ 0x1021#16 else c <<< 1

/-- One byte of the check word's computation, most significant bit first (R5). -/
def checkByte (c : Half) (b : Byte) : Half :=
  let x := c ^^^ (b ++ 0#8)
  checkBit (checkBit (checkBit (checkBit (checkBit (checkBit (checkBit (checkBit x)))))))

/-- The check word of R5: starting value 65535, no inversion. -/
def checkWord (l : List Byte) : Half :=
  l.foldl checkByte 0xFFFF#16

/-- A saturating increment (section 0.5 "Counts"). -/
def satInc {w : Nat} (x : BitVec w) : BitVec w :=
  if x = BitVec.allOnes w then x else x + 1

/-- A saturating sum (R32, R135). -/
def satAdd {w : Nat} (x y : BitVec w) : BitVec w :=
  if x.toNat + y.toNat < 2 ^ w then x + y else BitVec.allOnes w

/-- Applies f to the first element that satisfies p. -/
def updateFirst {α : Type} (p : α → Bool) (f : α → α) : List α → List α
  | [] => []
  | a :: l => if p a then f a :: l else a :: updateFirst p f l

/-- A table's entries, each mapped. -/
def tableMap {α β : Type} {n : Nat} (f : α → β) (v : Vector α n) : Vector β n :=
  ⟨(v.toList.map f).toArray, by simp⟩

/-- Two tables of one size, combined entry by entry. -/
def tableZip {α β γ : Type} {n : Nat} (f : α → β → γ) (v : Vector α n) (w : Vector β n) : Vector γ n :=
  ⟨(v.toList.zipWith f w.toList).toArray, by simp⟩

/-- The table whose entry i is f i. -/
def tableOf {α : Type} (n : Nat) (f : Nat → α) : Vector α n :=
  ⟨((List.range n).map f).toArray, by simp⟩

/-- The slots 0..127, ascending. -/
def allSlots : List Slot :=
  (List.range 128).map (Fin.ofNat 128)

/-- The output indexes 0..15, ascending. -/
def allOutputs : List OutIdx :=
  (List.range 16).map (Fin.ofNat 16)

/-- The node addresses 1..62, ascending (R2). -/
def allNodes : List Addr :=
  (List.range 62).map fun i => BitVec.ofNat 6 (i + 1)

/-- An index as a byte. -/
def indexByte {n : Nat} (i : Fin n) : Byte :=
  BitVec.ofNat 8 i.val

end Sys2Proof.Machine
end

