-- ==== Sys2Proof/Machine/Codes.lean ====
section
/-! DEFINITION. The codes of chapter 12: frame kinds, statuses, notice kinds, opcodes, record codes, and the bytes of
the records the part returns. -/

namespace Sys2Proof.Machine

/-- The seven kinds and the unknown kind (R3). -/
inductive FrameKind where
  | sample | status | command | setpoint | request | response | notice | unknown
  deriving DecidableEq, Repr

/-- The kind a code names (table 12.6): every other code is an unknown kind. -/
def FrameKind.ofCode (b : Byte) : FrameKind :=
  if b = 0x01 then .sample
  else if b = 0x02 then .status
  else if b = 0x03 then .command
  else if b = 0x04 then .setpoint
  else if b = 0x05 then .request
  else if b = 0x06 then .response
  else if b = 0x07 then .notice
  else .unknown

/-- The statuses' codes (table 12.7). -/
def Status.code : Status → Byte
  | .ok => 0x00
  | .unknownRequest => 0x01
  | .badLength => 0x02
  | .badIndex => 0x03
  | .invalidRecord => 0x04
  | .duplicate => 0x05
  | .inUse => 0x06
  | .notEnrolled => 0x07
  | .notBound => 0x08
  | .notEnabled => 0x09
  | .notForced => 0x0A
  | .notLatched => 0x0B
  | .badAckRange => 0x0C
  | .notCaptured => 0x0D
  | .busy => 0x0E

/-- The notice kinds' codes (table 12.8). -/
def NoticeKind.code : NoticeKind → Byte
  | .enterHigh => 0x01
  | .enterLow => 0x02
  | .ret => 0x03
  | .stale => 0x04
  | .fault => 0x05
  | .recover => 0x06
  | .nodeSilent => 0x07
  | .nodeBack => 0x08
  | .seqGap => 0x09
  | .nodeRestart => 0x0A
  | .fallbackEnter => 0x0B
  | .fallbackExit => 0x0C
  | .restarted => 0x0D
  | .commitDone => 0x0E
  | .commitFailed => 0x0F
  | .overflow => 0x10

/-- The requests of the catalogue (section 8.5). -/
inductive RequestKind where
  | echo | readSystem | writeSystem | readStats | restart | enrolNode | retireNode | readNode | bind | unbind
  | writeChannel | readChannel | ackBand | writeOutput | readOutput | forceOutput | releaseOutput | ackNotices
  | capture | readCapture | commit | readImage
  deriving DecidableEq, Repr

/-- The opcodes (table 12.9). -/
def RequestKind.opcode : RequestKind → Byte
  | .echo => 0x01
  | .readSystem => 0x02
  | .writeSystem => 0x03
  | .readStats => 0x04
  | .restart => 0x05
  | .enrolNode => 0x10
  | .retireNode => 0x11
  | .readNode => 0x12
  | .bind => 0x20
  | .unbind => 0x21
  | .writeChannel => 0x22
  | .readChannel => 0x23
  | .ackBand => 0x24
  | .writeOutput => 0x30
  | .readOutput => 0x31
  | .forceOutput => 0x32
  | .releaseOutput => 0x33
  | .ackNotices => 0x40
  | .capture => 0x50
  | .readCapture => 0x51
  | .commit => 0x60
  | .readImage => 0x61

/-- Whether a parameter field of this length suits the request (R160, table 12.9). -/
def RequestKind.lengthOk : RequestKind → Nat → Bool
  | .echo, n => n ≤ 232
  | .readSystem, n => n = 0
  | .writeSystem, n => n = 7
  | .readStats, n => n = 1
  | .restart, n => n = 0
  | .enrolNode, n => n = 4
  | .retireNode, n => n = 1
  | .readNode, n => n = 1
  | .bind, n => n = 3
  | .unbind, n => n = 1
  | .writeChannel, n => n = 21
  | .readChannel, n => n = 1
  | .ackBand, n => n = 1
  | .writeOutput, n => n = 47
  | .readOutput, n => n = 1
  | .forceOutput, n => n = 3
  | .releaseOutput, n => n = 1
  | .ackNotices, n => n = 2
  | .capture, n => n = 0
  | .readCapture, n => n = 2
  | .commit, n => n = 0
  | .readImage, n => n = 0

/-- The requests, in the order of table 12.9. -/
def RequestKind.all : List RequestKind :=
  [.echo, .readSystem, .writeSystem, .readStats, .restart, .enrolNode, .retireNode, .readNode, .bind, .unbind,
   .writeChannel, .readChannel, .ackBand, .writeOutput, .readOutput, .forceOutput, .releaseOutput, .ackNotices,
   .capture, .readCapture, .commit, .readImage]

/-- Whether an opcode names a request of the catalogue (R160). -/
def knownOpcode (b : Byte) : Bool :=
  RequestKind.all.any fun k => k.opcode = b

/-! ## Codes of record fields (section 12.5) -/

def boolCode (b : Bool) : Byte :=
  if b then 0x01 else 0x00

def SeqPolicy.code : SeqPolicy → Byte
  | .checked => 0x00
  | .unchecked => 0x01

def ForwardPolicy.code : ForwardPolicy → Byte
  | .raw => 0x00
  | .conditioned => 0x01
  | .strip => 0x02

def AlarmMode.code : AlarmMode → Byte
  | .tracking => 0x00
  | .latching => 0x01

def FallbackPolicy.code : FallbackPolicy → Byte
  | .hold => 0x00
  | .safe => 0x01
  | .ramp => 0x02

def UnenrolledPolicy.code : UnenrolledPolicy → Byte
  | .pass => 0x00
  | .block => 0x01

def NodeState.code : NodeState → Byte
  | .unknown => 0x00
  | .live => 0x01
  | .silent => 0x02

def ChannelState.code : ChannelState → Byte
  | .off => 0x00
  | .idle => 0x01
  | .inBand => 0x02
  | .high => 0x03
  | .low => 0x04
  | .stale => 0x05
  | .fault => 0x06

def Quality.code : Quality → Byte
  | .good => 0x00
  | .suspect => 0x01
  | .bad => 0x02

/-- The quality of a record, which may be none. -/
def qualityCode : Option Quality → Byte
  | some q => q.code
  | none => 0x03

def RunDir.code : RunDir → Byte
  | .none => 0x00
  | .up => 0x01
  | .down => 0x02
  | .release => 0x03

def StaleCause.code : StaleCause → Byte
  | .none => 0x00
  | .node => 0x01
  | .channel => 0x02

def OutputState.code : OutputState → Byte
  | .off => 0x00
  | .normal => 0x01
  | .fallback => 0x02
  | .forced => 0x03

def linkCode : LinkState → Byte
  | .down => 0x00
  | .up => 0x01

/-- A bank (current, target): A, B or NONE. -/
def bankCode : Option BankId → Byte
  | some .a => 0x00
  | some .b => 0x01
  | none => 0x02

/-- commit_state: IDLE when no commit is in flight. -/
def phaseCode : Option CommitPhase → Byte
  | none => 0x00
  | some .erasing => 0x01
  | some .writing => 0x02
  | some .verifying => 0x03

def LastResult.code : LastResult → Byte
  | .none => 0x00
  | .done => 0x01
  | .failed => 0x02

/-- A 16-bit field that may be none reads FFFFh when none. -/
def halfOrNone : Option Half → List Byte
  | some h => halfBytes h
  | none => [0xFF, 0xFF]

/-- A level that may be none, in a 16-bit field. -/
def levelOrNone (l : Option Level) : List Byte :=
  halfOrNone (l.map fun x => x.zeroExtend 16)

/-- A stamp that may be none: a presence byte, then 4 bytes that read 0 when none. -/
def stampOrNone : Option Quad → List Byte
  | some q => 0x01 :: quadBytes q
  | none => [0x00, 0, 0, 0, 0]

/-! ## Records as bytes (sections 12.4, 12.9, 12.10) -/

def Summary.bytes (s : Summary) : List Byte :=
  [s.exceptional, s.fallback, s.occupancy]

/-- The channel record, 20 bytes. -/
def ChannelConfig.bytes (c : ChannelConfig) : List Byte :=
  [boolCode c.enabled] ++ halfBytes c.offset ++ halfBytes (c.gain.zeroExtend 16) ++ [c.forward.code]
    ++ halfBytes c.lowTrip ++ halfBytes c.lowClear ++ halfBytes c.highClear ++ halfBytes c.highTrip
    ++ [c.assertCount.zeroExtend 8, c.releaseCount.zeroExtend 8, c.mode.code, c.badLimit.zeroExtend 8]
    ++ halfBytes c.silenceLimit

/-- The runtime part in the order of section 12.10, READ_CHANNEL. -/
def ChannelRuntime.bytes (r : ChannelRuntime) : List Byte :=
  [r.state.code] ++ halfBytes r.value ++ [boolCode r.valueValid, qualityCode r.quality, r.runDir.code,
    r.runCount.zeroExtend 8, r.badCount.zeroExtend 8, boolCode r.acked, r.staleCause.code]
    ++ halfBytes r.silenceCount ++ stampOrNone r.lastStamp

def CurvePoint.bytes (p : CurvePoint) : List Byte :=
  halfBytes p.x ++ halfBytes (p.y.zeroExtend 16)

/-- The output record, 46 bytes: pairs beyond the point count read as (0, 0) (R89, R108). -/
def OutputConfig.bytes (c : OutputConfig) : List Byte :=
  [boolCode c.enabled, c.targetNode.zeroExtend 8, c.targetIndex.zeroExtend 8, indexByte c.source,
    BitVec.ofNat 8 c.points.length]
    ++ ((c.points ++ List.replicate (8 - c.points.length) (CurvePoint.mk 0 0)).flatMap CurvePoint.bytes)
    ++ halfBytes (c.deadband.zeroExtend 16) ++ halfBytes (c.slew.zeroExtend 16) ++ halfBytes c.refresh
    ++ [c.fallback.code] ++ halfBytes (c.safe.zeroExtend 16)

/-- The subject byte of a notice; 0 for SYSTEM (R129). -/
def Subject.byte : Subject → Byte
  | .channel k => indexByte k
  | .node a => a.zeroExtend 8
  | .output i => indexByte i
  | .none => 0

/-- One entry of a NOTICE payload, 11 bytes (R129, section 12.4). -/
def NoticeEntry.bytes (e : NoticeEntry) : List Byte :=
  halfBytes e.number ++ [e.kind.code, e.subject.byte] ++ halfBytes e.value ++ quadBytes e.stamp ++ [e.coalesceCount]

/-- A RESPONSE payload (section 12.3). -/
def Response.bytes (r : Response) : List Byte :=
  [r.tag, r.opcode, r.status.code, boolCode r.repeated, r.lost] ++ r.summary.bytes ++ r.results

def ChannelSnapshot.bytes (c : ChannelSnapshot) : List Byte :=
  [c.state.code] ++ halfBytes c.value ++ [boolCode c.valueValid, qualityCode c.quality]

def OutputSnapshot.bytes (o : OutputSnapshot) : List Byte :=
  [o.state.code] ++ levelOrNone o.issued

def NodeSnapshot.bytes (n : NodeSnapshot) : List Byte :=
  [boolCode n.used, boolCode n.enrolled, n.state.code] ++ halfBytes n.silenceCount

end Sys2Proof.Machine
end

