-- ==== Sys2Proof/Machine/Operands.lean ====
section
/-! DEFINITION. Reading what arrives: the fields of a frame, the items of its payload, and the parameter records of
the requests with their validity conditions. -/

namespace Sys2Proof.Machine

/-! ## Frames (section 12.1) -/

/-- A frame as its bytes, check word included. -/
structure Frame where
  bytes : List Byte
  deriving DecidableEq, Repr

/-- An address is bits 5..0 of its byte (R200). -/
def addressOf (b : Byte) : Addr :=
  b.extractLsb' 0 6

def Frame.dst (f : Frame) : Addr :=
  addressOf (byteAt f.bytes 0)

def Frame.src (f : Frame) : Addr :=
  addressOf (byteAt f.bytes 1)

def Frame.kind (f : Frame) : FrameKind :=
  .ofCode (byteAt f.bytes 2)

def Frame.flags (f : Frame) : Byte :=
  byteAt f.bytes 3

def Frame.seq (f : Frame) : Byte :=
  byteAt f.bytes 4

/-- The bytes between the header and the check word. -/
def Frame.payload (f : Frame) : List Byte :=
  (f.bytes.drop 6).take (f.bytes.length - 8)

/-- What the judgement at a frame's end finds (R8). -/
inductive Judgement where
  | lengthError | checkError | good
  deriving DecidableEq, Repr

/-- The three tests of R8, in order. -/
def judgeFrame (l : List Byte) : Judgement :=
  if l.length < 8 ∨ 248 < l.length then .lengthError
  else if checkWord (l.take (l.length - 2)) ≠ halfAt l (l.length - 2) then .checkError
  else if (byteAt l 5).toNat ≠ l.length - 8 then .lengthError
  else .good

/-- A frame with the given header bytes and payload, its len and check word as R1 and R5 state. -/
def buildFrame (dst src kind flags seq : Byte) (payload : List Byte) : List Byte :=
  let body := [dst, src, kind, flags, seq, BitVec.ofNat 8 payload.length] ++ payload
  body ++ halfBytes (checkWord body)

/-! ## SAMPLE payloads (section 12.2, R14) -/

/-- A reading: its first byte (local channel, quality, two bits not judged) and its value. -/
structure Reading where
  head : Byte
  value : Half
  deriving DecidableEq, Repr

def Reading.channel (r : Reading) : BitVec 4 :=
  r.head.extractLsb' 0 4

/-- The quality a reading carries; code 3 is the invalid code. -/
def Reading.quality (r : Reading) : Option Quality :=
  let q : BitVec 2 := r.head.extractLsb' 4 2
  if q = 0 then some .good else if q = 1 then some .suspect else if q = 2 then some .bad else none

/-- The 3-byte readings of a payload after its count. -/
def readingsOf : List Byte → List Reading
  | h :: a :: b :: rest => { head := h, value := a ++ b } :: readingsOf rest
  | _ => []

def Reading.bytes (r : Reading) : List Byte :=
  r.head :: halfBytes r.value

/-- The SAMPLE payload format check (R14); `none` is a format error. An empty payload has no reading count and fails
(DEDUCED, log 12). -/
def sampleReadings (payload : List Byte) : Option (List Reading) :=
  match payload with
  | [] => none
  | n :: rest =>
    if n = 0 ∨ 12 < n.toNat ∨ payload.length ≠ 1 + 3 * n.toNat then none
    else if (readingsOf rest).any fun r => r.quality.isNone then none
    else some (readingsOf rest)

/-- A SAMPLE payload with these readings (R54). -/
def samplePayload (rs : List Reading) : List Byte :=
  BitVec.ofNat 8 rs.length :: rs.flatMap Reading.bytes

/-! ## SETPOINT payloads (section 12.2, R15) -/

/-- One item of a supervisor's SETPOINT frame: the index byte and the value. -/
structure FrameItem where
  index : Byte
  value : Half
  deriving DecidableEq, Repr

def frameItemsOf : List Byte → List FrameItem
  | h :: a :: b :: rest => { index := h, value := a ++ b } :: frameItemsOf rest
  | _ => []

def FrameItem.bytes (i : FrameItem) : List Byte :=
  i.index :: halfBytes i.value

/-- The SETPOINT payload format check (R15); `none` is a format error. An empty payload fails (DEDUCED, log 12). -/
def setpointItems (payload : List Byte) : Option (List FrameItem) :=
  match payload with
  | [] => none
  | n :: rest =>
    if n = 0 ∨ 16 < n.toNat ∨ payload.length ≠ 1 + 3 * n.toNat then none
    else if (frameItemsOf rest).any fun i => decide (15 < i.index.toNat ∨ 4095 < i.value.toNat) then none
    else some (frameItemsOf rest)

/-- A SETPOINT payload with these items (R112, R115). -/
def setpointPayload (is : List FrameItem) : List Byte :=
  BitVec.ofNat 8 is.length :: is.flatMap FrameItem.bytes

/-! ## Indexes and codes in parameters (R200) -/

/-- A slot byte, 0..127. -/
def slotOf (b : Byte) : Option Slot :=
  if h : b.toNat < 128 then some ⟨b.toNat, h⟩ else none

/-- An output byte, 0..15. -/
def outputOf (b : Byte) : Option OutIdx :=
  if h : b.toNat < 16 then some ⟨b.toNat, h⟩ else none

/-- A node address byte, 1..62 as a whole byte (R33, R35, R36, R40). -/
def nodeOf (b : Byte) : Option Addr :=
  if 1 ≤ b.toNat ∧ b.toNat ≤ 62 then some (b.setWidth 6) else none

/-- A four-bit index byte, 0..15: a local channel (R40) or a target index (R89). -/
def nibbleOf (b : Byte) : Option (BitVec 4) :=
  if b.toNat ≤ 15 then some (b.setWidth 4) else none

/-- A count byte, 1..15 (R44). -/
def countOf (b : Byte) : Option (BitVec 4) :=
  if 1 ≤ b.toNat ∧ b.toNat ≤ 15 then some (b.setWidth 4) else none

/-- A value field, 0..4095. -/
def levelOf (h : Half) : Option Level :=
  if h.toNat ≤ 4095 then some (h.setWidth 12) else none

def boolOf (b : Byte) : Option Bool :=
  if b = 0 then some false else if b = 1 then some true else none

def seqPolicyOf (b : Byte) : Option SeqPolicy :=
  if b = 0 then some .checked else if b = 1 then some .unchecked else none

def forwardOf (b : Byte) : Option ForwardPolicy :=
  if b = 0 then some .raw else if b = 1 then some .conditioned else if b = 2 then some .strip else none

def modeOf (b : Byte) : Option AlarmMode :=
  if b = 0 then some .tracking else if b = 1 then some .latching else none

def fallbackOf (b : Byte) : Option FallbackPolicy :=
  if b = 0 then some .hold else if b = 1 then some .safe else if b = 2 then some .ramp else none

def policyOf (b : Byte) : Option UnenrolledPolicy :=
  if b = 0 then some .pass else if b = 1 then some .block else none

/-! ## Parameter records (section 12.9) -/

/-- The strict order of a channel's limits, as signed numbers, and the ranges R44 puts on its counts. -/
def ChannelConfig.valid (c : ChannelConfig) : Bool :=
  c.lowTrip.toInt < c.lowClear.toInt && c.lowClear.toInt ≤ c.highClear.toInt && c.highClear.toInt < c.highTrip.toInt
    && c.gain.toNat ≤ 8191 && 1 ≤ c.assertCount.toNat && 1 ≤ c.releaseCount.toNat && 1 ≤ c.badLimit.toNat

/-- The channel record of WRITE_CHANNEL, read and judged (R44, R57); `none` is INVALID_RECORD. -/
def channelConfigOf (p : List Byte) : Option ChannelConfig := do
  let enabled ← boolOf (byteAt p 0)
  let forward ← forwardOf (byteAt p 5)
  let mode ← modeOf (byteAt p 16)
  let assertCount ← countOf (byteAt p 14)
  let releaseCount ← countOf (byteAt p 15)
  let badLimit ← countOf (byteAt p 17)
  let gain := halfAt p 3
  let c : ChannelConfig :=
    { enabled := enabled, offset := halfAt p 1, gain := gain.setWidth 13, forward := forward, lowTrip := halfAt p 6,
      lowClear := halfAt p 8, highClear := halfAt p 10, highTrip := halfAt p 12, assertCount := assertCount,
      releaseCount := releaseCount, mode := mode, badLimit := badLimit, silenceLimit := halfAt p 18 }
  if gain.toNat ≤ 8191 ∧ c.valid then some c else none

/-- Whether each x is strictly greater than the x before it, as signed numbers (R89). -/
def risingPoints : List CurvePoint → Bool
  | p :: q :: rest => p.x.toInt < q.x.toInt && risingPoints (q :: rest)
  | _ => true

/-- The conditions of R89 that a typed configuration can still fail, against the own address in force. -/
def OutputConfig.valid (own : Addr) (c : OutputConfig) : Bool :=
  1 ≤ c.targetNode.toNat && c.targetNode.toNat ≤ 62 && c.targetNode != own && 2 ≤ c.points.length
    && c.points.length ≤ 8 && risingPoints c.points

/-- The first n of the eight pairs that start at offset i; `none` when one of them has a y above 4095 (R89). -/
def pointsAt (p : List Byte) : Nat → Nat → Option (List CurvePoint)
  | _, 0 => some []
  | i, n + 1 => do
    let y ← levelOf (halfAt p (i + 2))
    let rest ← pointsAt p (i + 4) n
    some ({ x := halfAt p i, y := y } :: rest)

/-- The output record of WRITE_OUTPUT, read and judged (R89, R105); `none` is INVALID_RECORD. An out-of-range
source or target index fails R89 too (log 13). -/
def outputConfigOf (own : Addr) (p : List Byte) : Option OutputConfig := do
  let enabled ← boolOf (byteAt p 0)
  let targetNode ← nodeOf (byteAt p 1)
  let targetIndex ← nibbleOf (byteAt p 2)
  let source ← slotOf (byteAt p 3)
  let count := (byteAt p 4).toNat
  let points ← if 2 ≤ count ∧ count ≤ 8 then pointsAt p 5 count else none
  let deadband ← levelOf (halfAt p 37)
  let slew ← levelOf (halfAt p 39)
  let fallback ← fallbackOf (byteAt p 43)
  let safe ← levelOf (halfAt p 44)
  let c : OutputConfig :=
    { enabled := enabled, targetNode := targetNode, targetIndex := targetIndex, source := source, points := points,
      deadband := deadband, slew := slew, refresh := halfAt p 41, fallback := fallback, safe := safe }
  if c.valid own then some c else none

/-- The System Record of WRITE_SYSTEM under check 1 of R167; `none` is INVALID_RECORD. -/
def systemRecordOf (p : List Byte) : Option SystemRecord := do
  let own ← nodeOf (byteAt p 0)
  let policy ← policyOf (byteAt p 6)
  let period := halfAt p 1
  let resend := halfAt p 3
  let mask := byteAt p 5
  if 1 ≤ period.toNat ∧ period.toNat ≤ 1000 ∧ resend ≠ 0 ∧ mask.toNat < 16 then
    some { ownAddress := own, tickPeriod := period, resendTicks := resend, classMask := mask.setWidth 4, policy := policy }
  else none

/-- The sections of a capture (section 12.5). -/
inductive CaptureSection where
  | channels | outputs | nodes
  deriving DecidableEq, Repr

def sectionOf (b : Byte) : Option CaptureSection :=
  if b = 0 then some .channels else if b = 1 then some .outputs else if b = 2 then some .nodes else none

/-- How many pages a section has (R180). -/
def CaptureSection.pages : CaptureSection → Nat
  | .channels => 8
  | .outputs => 1
  | .nodes => 4

end Sys2Proof.Machine
end

