-- ==== Sys2Proof/Machine/Flags.lean ====
section
/-! DEFINITION. The flags of frames and notices: RESTART and MODIFIED of a frame's flags byte, the class of a notice
kind and the class mask's enables. -/

namespace Sys2Proof.Machine

/-- RESTART is bit 0 of the flags byte (section 12.1, R4). -/
def Frame.restartFlag (f : Frame) : Bool :=
  f.flags.getLsbD 0

/-- The flags with MODIFIED, bit 1, set and every other position as it was (R1, R4). -/
def withModified (flags : Byte) : Byte :=
  flags ||| 0x02

/-- The class of a kind (R118). -/
def NoticeKind.noticeClass : NoticeKind → NoticeClass
  | .enterHigh => .band
  | .enterLow => .band
  | .ret => .band
  | .stale => .health
  | .fault => .health
  | .recover => .health
  | .nodeSilent => .node
  | .nodeBack => .node
  | .seqGap => .node
  | .nodeRestart => .node
  | .fallbackEnter => .output
  | .fallbackExit => .output
  | .restarted => .system
  | .commitDone => .system
  | .commitFailed => .system
  | .overflow => .system

/-- Whether the mask enables a class; SYSTEM has no enable and is always logged (R119, section 12.5). -/
def NoticeClass.enabledIn (c : NoticeClass) (mask : BitVec 4) : Bool :=
  match c with
  | .band => mask.getLsbD 0
  | .health => mask.getLsbD 1
  | .node => mask.getLsbD 2
  | .output => mask.getLsbD 3
  | .system => true

/-- A channel state in which the channel's value is a current measurement (R63, R83). -/
def ChannelState.isValid : ChannelState → Bool
  | .inBand => true
  | .high => true
  | .low => true
  | .off => false
  | .idle => false
  | .stale => false
  | .fault => false

/-- A channel state the summary counts as exceptional (R86). -/
def ChannelState.isExceptional : ChannelState → Bool
  | .high => true
  | .low => true
  | .stale => true
  | .fault => true
  | .off => false
  | .idle => false
  | .inBand => false

end Sys2Proof.Machine
end

