-- ==== Sys2Proof/Machine/State.lean ====
section
/-! DEFINITION. The state of the part, the reasons a step can stop, and the state right after a hard reset. -/

namespace Sys2Proof.Machine

/-- Reasons to stop with a fault: the spec names none. Every event it describes leaves the part in a next state
(bad frames are counted, bad requests are answered), so nothing raises a fault. Safe. -/
inductive Fault where
  deriving DecidableEq, Repr

/-- Reasons to refuse a command. -/
inductive Refusal where
  /-- Raised only by exec's arm of a command without a meaning (there is none). Safe. -/
  | notModelled (mnemonic : String)
  deriving DecidableEq, Repr

/-- The part: the state of its fourteen blocks (section 0.2), the queue of commands that wait, whether RESET holds
the part (R196), and the work an open tick event has still to do. -/
structure State where
  pending : List Instr
  held : Bool
  portF : PortRecord
  portS : PortRecord
  nodes : Vector NodeRecord 62
  bindings : List Binding
  channels : Vector ChannelRecord 128
  outputs : Vector OutputRecord 16
  setpoints : List SetpointItem
  log : NoticeLog
  queue : RequestQueue
  egress : Egress
  time : TimeBase
  due : DueWork
  system : SystemRecord
  capture : Option Capture
  store : ImageStore
  deriving DecidableEq, Repr

/-- A port right after a hard reset, its line showing signal (R18, R19, R153).
DESIGN CHOICE (log 6), unsafe: the spec takes the link state from the line; the model names UP. -/
def PortRecord.reset : PortRecord :=
  { link := .up, assembly := none, stats := .zero, transmitter := none, forwardQueue := [] }

/-- The part right after a hard reset that found no valid bank (R188, R197).
DESIGN CHOICE (log 7), unsafe: the banks are erased; the spec does not say what they hold before the first commit. -/
def State.reset : State :=
  { pending := []
    held := false
    portF := .reset
    portS := .reset
    nodes := Vector.replicate 62 .empty
    bindings := []
    channels := Vector.replicate 128 (.cleared .factory)
    outputs := ⟨((List.range 16).map fun i =>
        { config := .factory (BitVec.ofNat 4 i), runtime := .cleared .off }).toArray, by simp⟩
    setpoints := []
    log := .restarted 0
    queue := .empty
    egress := .clear
    time := { counter := 0, interval := 10, handedOn := .idle }
    due := .none
    system := .factory
    capture := none
    store :=
      { bankA := .erased, bankB := .erased, current := none, commit := none, lastResult := .none, dirty := false } }

end Sys2Proof.Machine
end

