-- ==== Sys2Proof/Machine/Ops.lean ====
section
/-! DEFINITION. Reading and writing the state: ports and their counts, node, channel and output records, the Binding
Table, the forward queues, and the summary. -/

namespace Sys2Proof.Machine

/-! ## Ports -/

def State.port (s : State) : Port → PortRecord
  | .f => s.portF
  | .s => s.portS

def State.setPort (s : State) (p : Port) (r : PortRecord) : State :=
  match p with
  | .f => { s with portF := r }
  | .s => { s with portS := r }

/-- The other port: a frame received on one leaves on the other (R12). -/
def otherPort : Port → Port
  | .f => .s
  | .s => .f

def PortStats.get (t : PortStats) : StatName → Quad
  | .rxGood => t.rxGood
  | .rxCheckError => t.rxCheckError
  | .rxLengthError => t.rxLengthError
  | .rxFormatError => t.rxFormatError
  | .rxMisdirected => t.rxMisdirected
  | .rxQueueFull => t.rxQueueFull
  | .rxBlocked => t.rxBlocked
  | .rxEmptied => t.rxEmptied
  | .rxOwnedStripped => t.rxOwnedStripped
  | .rxDuplicateRequest => t.rxDuplicateRequest
  | .txFrames => t.txFrames
  | .txAbandoned => t.txAbandoned

/-- One count incremented, saturating (R19). -/
def PortStats.inc (t : PortStats) : StatName → PortStats
  | .rxGood => { t with rxGood := satInc t.rxGood }
  | .rxCheckError => { t with rxCheckError := satInc t.rxCheckError }
  | .rxLengthError => { t with rxLengthError := satInc t.rxLengthError }
  | .rxFormatError => { t with rxFormatError := satInc t.rxFormatError }
  | .rxMisdirected => { t with rxMisdirected := satInc t.rxMisdirected }
  | .rxQueueFull => { t with rxQueueFull := satInc t.rxQueueFull }
  | .rxBlocked => { t with rxBlocked := satInc t.rxBlocked }
  | .rxEmptied => { t with rxEmptied := satInc t.rxEmptied }
  | .rxOwnedStripped => { t with rxOwnedStripped := satInc t.rxOwnedStripped }
  | .rxDuplicateRequest => { t with rxDuplicateRequest := satInc t.rxDuplicateRequest }
  | .txFrames => { t with txFrames := satInc t.txFrames }
  | .txAbandoned => { t with txAbandoned := satInc t.txAbandoned }

/-- The twelve counts in the order of section 1.10. -/
def StatName.all : List StatName :=
  [.rxGood, .rxCheckError, .rxLengthError, .rxFormatError, .rxMisdirected, .rxQueueFull, .rxBlocked, .rxEmptied,
   .rxOwnedStripped, .rxDuplicateRequest, .txFrames, .txAbandoned]

/-- A count of a port incremented (R19). -/
def State.count (s : State) (p : Port) (n : StatName) : State :=
  s.setPort p { s.port p with stats := (s.port p).stats.inc n }

/-- A frame offered to the forward queue of the port it leaves by: it joins the tail while the queue holds fewer than
8, else it is discarded and counted on the port it arrived on (R13, R140). -/
def State.offerForward (s : State) (arrived : Port) (frame : List Byte) : State :=
  let out := otherPort arrived
  let r := s.port out
  if r.forwardQueue.length < 8 then s.setPort out { r with forwardQueue := r.forwardQueue ++ [frame] }
  else s.count arrived .rxQueueFull

/-! ## Node records -/

/-- The record of an address. The table holds records for 1..62; any other address reads as an empty record. -/
def State.node (s : State) (a : Addr) : NodeRecord :=
  if a = 0 then .empty else s.nodes[a.toNat - 1]?.getD .empty

def State.setNode (s : State) (a : Addr) (r : NodeRecord) : State :=
  { s with nodes := if a = 0 then s.nodes else s.nodes.setIfInBounds (a.toNat - 1) r }

/-! ## Channel and output records -/

def State.channel (s : State) (k : Slot) : ChannelRecord :=
  s.channels[k.val]

def State.setChannel (s : State) (k : Slot) (r : ChannelRecord) : State :=
  { s with channels := s.channels.set k.val r }

/-- The runtime part of one channel changed, its configuration kept. -/
def State.setRuntime (s : State) (k : Slot) (r : ChannelRuntime) : State :=
  s.setChannel k { config := (s.channel k).config, runtime := r }

def State.output (s : State) (i : OutIdx) : OutputRecord :=
  s.outputs[i.val]

def State.setOutput (s : State) (i : OutIdx) (r : OutputRecord) : State :=
  { s with outputs := s.outputs.set i.val r }

/-- The runtime part of one output changed, its configuration kept. -/
def State.setOutputRuntime (s : State) (i : OutIdx) (r : OutputRuntime) : State :=
  s.setOutput i { config := (s.output i).config, runtime := r }

/-! ## The Binding Table (section 3.1) -/

/-- The slot a key is bound to, or none (R39). -/
def State.boundSlot (s : State) (node : Addr) (channel : BitVec 4) : Option Slot :=
  (s.bindings.find? fun b => b.node = node ∧ b.channel = channel).map (·.slot)

/-- The binding that names a slot, or none (R39). -/
def State.bindingOf (s : State) (k : Slot) : Option Binding :=
  s.bindings.find? fun b => b.slot = k

/-- How many bindings name a node (R36). -/
def State.bindingCount (s : State) (a : Addr) : Nat :=
  s.bindings.countP fun b => b.node = a

/-- The slots bound to a node, ascending (R29). -/
def State.slotsOf (s : State) (a : Addr) : List Slot :=
  allSlots.filter fun k => s.bindings.any fun b => b.node = a ∧ b.slot = k

/-- A binding entered in its place: the table is ordered by slot (section 3.1). -/
def insertBinding (b : Binding) : List Binding → List Binding
  | [] => [b]
  | c :: l => if b.slot < c.slot then b :: c :: l else c :: insertBinding b l

/-! ## The summary (R86, R91, R137) -/

/-- Channel records in HIGH, LOW, STALE or FAULT (R86). -/
def State.exceptionalCount (s : State) : Nat :=
  s.channels.toList.countP fun c => c.runtime.state.isExceptional

/-- Output records in FALLBACK (R91). -/
def State.fallbackCount (s : State) : Nat :=
  s.outputs.toList.countP fun o => o.runtime.state = .fallback

/-- The summary as the state stands (R137). -/
def State.summary (s : State) : Summary :=
  { exceptional := BitVec.ofNat 8 s.exceptionalCount, fallback := BitVec.ofNat 8 s.fallbackCount,
    occupancy := BitVec.ofNat 8 s.log.entries.length }

end Sys2Proof.Machine
end

