-- ==== Sys2Proof/Machine/Notices.lean ====
section
/-! DEFINITION. The Notice Log: raising an event, building a NOTICE, acknowledging, going back (chapter 6). -/

namespace Sys2Proof.Machine

/-- How many entries are not OVERFLOW entries (R122). -/
def NoticeLog.ordinaryCount (l : NoticeLog) : Nat :=
  l.entries.countP fun e => e.kind ≠ .overflow

/-- A new entry at the tail, taking next_number (R124). -/
def NoticeLog.append (l : NoticeLog) (now : Quad) (kind : NoticeKind) (subject : Subject) (value : Half) : NoticeLog :=
  { l with
    entries := l.entries ++ [{ number := l.nextNumber, kind := kind, subject := subject, value := value, stamp := now,
                               coalesceCount := 0, sendState := .new, sentStamp := none }]
    nextNumber := l.nextNumber + 1 }

/-- Whether an entry can take in an event about a subject (R122 check 2). -/
def NoticeEntry.takesIn (subject : Subject) (e : NoticeEntry) : Bool :=
  e.sendState = .new ∧ e.subject = subject

/-- An entry with an event folded in (R123). -/
def NoticeEntry.coalesce (e : NoticeEntry) (now : Quad) (kind : NoticeKind) (value : Half) : NoticeEntry :=
  { e with kind := kind, value := value, stamp := now, coalesceCount := satInc e.coalesceCount }

/-- An event that found no room (R125). -/
def NoticeLog.lose (l : NoticeLog) (now : Quad) : NoticeLog :=
  match l.entries.find? fun e => e.kind = .overflow with
  | none => l.append now .overflow .none 1
  | some e =>
    if e.sendState = .sent then { l with lostSinceMarker := satInc l.lostSinceMarker }
    else
      { l with
        entries := updateFirst (fun e => e.kind = .overflow)
          (fun e => { e with value := satInc e.value, stamp := now }) l.entries }

/-- An event raised toward the log, handled by the first of the four checks that applies (R119, R122). -/
def NoticeLog.raise (l : NoticeLog) (mask : BitVec 4) (now : Quad) (kind : NoticeKind) (subject : Subject)
    (value : Half) : NoticeLog :=
  if ¬ kind.noticeClass.enabledIn mask then l
  else if kind.noticeClass ≠ .system ∧ l.entries.any (NoticeEntry.takesIn subject) then
    { l with entries := updateFirst (NoticeEntry.takesIn subject) (fun e => e.coalesce now kind value) l.entries }
  else if l.ordinaryCount < 31 then l.append now kind subject value
  else l.lose now

/-- An event raised at the tick counter and class mask as they stand (R122). -/
def State.raise (s : State) (kind : NoticeKind) (subject : Subject) (value : Half) : State :=
  { s with log := s.log.raise s.system.classMask s.time.counter kind subject value }

/-- Whether an entry has been carried and is not yet to be carried again. -/
def NoticeEntry.isSent (e : NoticeEntry) : Bool :=
  e.sendState = .sent

/-- Whether a notice turn is available (R127). -/
def NoticeLog.turnAvailable (l : NoticeLog) : Bool :=
  l.entries.any fun e => ! e.isSent

/-- The entries the next NOTICE frame carries: at most 8, from the first after the SENT prefix (R128). -/
def NoticeLog.selected (l : NoticeLog) : List NoticeEntry :=
  (l.entries.dropWhile NoticeEntry.isSent).take 8

/-- The log once its selected entries have become SENT at the tick counter (R128). -/
def NoticeLog.afterSend (l : NoticeLog) (now : Quad) : NoticeLog :=
  { l with
    entries := l.entries.takeWhile NoticeEntry.isSent
      ++ (l.selected.map fun e => { e with sendState := .sent, sentStamp := some now })
      ++ (l.entries.dropWhile NoticeEntry.isSent).drop 8 }

/-- The payload of the NOTICE frame (R129). -/
def noticePayload (summary : Summary) (es : List NoticeEntry) : List Byte :=
  summary.bytes ++ [BitVec.ofNat 8 es.length] ++ es.flatMap NoticeEntry.bytes

/-- The entries from the head through a number and the entries after it, when the number names an entry of the SENT
prefix (R131). -/
def ackSplit (number : Half) : List NoticeEntry → Option (List NoticeEntry × List NoticeEntry)
  | [] => none
  | e :: l =>
    if ¬ e.isSent then none
    else if e.number = number then some ([e], l)
    else (ackSplit number l).map fun r => (e :: r.1, r.2)

/-- The log after an acknowledgement through a number, or none where it is refused with BAD_ACK_RANGE. Where the
OVERFLOW entry is removed and events were lost since, a new one is appended (R131, R132). -/
def NoticeLog.acknowledge (l : NoticeLog) (now : Quad) (number : Half) : Option NoticeLog :=
  (ackSplit number l.entries).map fun r =>
    let kept := { l with entries := r.2 }
    if (r.1.any fun e => e.kind = .overflow) ∧ l.lostSinceMarker ≠ 0 then
      { kept.append now .overflow .none l.lostSinceMarker with lostSinceMarker := 0 }
    else kept

/-- Whether the go-back's conditions hold: the head is SENT and has waited resend_ticks (R134). -/
def NoticeLog.goBackDue (l : NoticeLog) (now : Quad) (resendTicks : Half) : Bool :=
  match l.entries with
  | [] => false
  | e :: _ =>
    match e.sentStamp with
    | none => false
    | some at' => e.isSent && decide (resendTicks.toNat ≤ (now - at').toNat)

/-- One entry at a go-back: SENT becomes RESEND, and the OVERFLOW entry takes in lost_since_marker (R134, R135). -/
def NoticeEntry.goBack (now : Quad) (lost : Half) (e : NoticeEntry) : NoticeEntry :=
  if ¬ e.isSent then e
  else if e.kind = .overflow ∧ lost ≠ 0 then
    { e with sendState := .resend, value := satAdd e.value lost, stamp := now }
  else { e with sendState := .resend }

/-- The go-back (R134, R135). -/
def NoticeLog.goBack (l : NoticeLog) (now : Quad) : NoticeLog :=
  { l with
    entries := l.entries.map (NoticeEntry.goBack now l.lostSinceMarker)
    lostSinceMarker :=
      if l.entries.any fun e => e.isSent ∧ e.kind = .overflow then 0 else l.lostSinceMarker }

end Sys2Proof.Machine
end

