-- ==== Sys2Proof/Machine/Outputs.lean ====
section
/-! DEFINITION. The Output Unit: curves, issues and the setpoint set, the NORMAL computation, fallback, refresh, and the
hand-over from the channels (chapter 5, R84). -/

namespace Sys2Proof.Machine

/-! ## Curve, step and ramp -/

/-- The value between two points, the quotient truncated toward zero (R94). -/
def interpolate (p q : CurvePoint) (v : Int) : Level :=
  BitVec.ofInt 12
    ((p.y.toNat : Int) + Int.tdiv ((v - p.x.toInt) * ((q.y.toNat : Int) - (p.y.toNat : Int))) (q.x.toInt - p.x.toInt))

/-- The curve from point p on, for a value at or beyond its x. -/
def curveFrom (v : Int) : CurvePoint → List CurvePoint → Level
  | p, [] => p.y
  | p, q :: rest => if v < q.x.toInt then interpolate p q v else curveFrom v q rest

/-- The curve of an output at a source value (R94). -/
def curve (points : List CurvePoint) (v : Half) : Level :=
  match points with
  | [] => 0
  | p :: rest => if v.toInt ≤ p.x.toInt then p.y else curveFrom v.toInt p rest

/-- The distance between two levels. -/
def distance (x y : Level) : Nat :=
  (x.toNat - y.toNat) + (y.toNat - x.toNat)

/-- A value moved toward a goal by slew; the goal itself when slew is 0 or the distance is at most slew. -/
def approach (from' goal slew : Level) : Level :=
  if slew = 0 ∨ distance from' goal ≤ slew.toNat then goal
  else if from' < goal then from' + slew else from' - slew

/-- Steps 3 to 5 of the NORMAL computation: the step to issue, if any (R95). -/
def normalStep (deadband slew target issued : Level) : Option Level :=
  if target = issued ∨ distance target issued < deadband.toNat then none
  else some (approach issued target slew)

/-- The ramp step (R99). -/
def rampStep (slew safe : Level) : Option Level → Level
  | none => safe
  | some issued => approach issued safe slew

/-! ## Issues and the setpoint set (R93, R109 to R111) -/

/-- The set after an issue: the output's item takes the value, or a new item joins the tail (R110). -/
def placeItem (set : List SetpointItem) (item : SetpointItem) : List SetpointItem :=
  if set.any fun i => i.output = item.output then
    updateFirst (fun i => i.output = item.output) (fun i => { i with value := item.value }) set
  else set ++ [item]

/-- Output i issues w (R93). -/
def State.issue (s : State) (i : OutIdx) (w : Level) : State :=
  let o := s.output i
  let s := s.setOutputRuntime i { o.runtime with issued := some w }
  { s with
    setpoints := placeItem s.setpoints
      { output := i, node := o.config.targetNode, index := o.config.targetIndex, value := w } }

/-- The output's pending item discarded unsent (R111). -/
def State.dropItem (s : State) (i : OutIdx) : State :=
  { s with setpoints := s.setpoints.filter fun it => it.output ≠ i }

/-- The pending item of an output (R108). -/
def State.pendingItem (s : State) (i : OutIdx) : Option SetpointItem :=
  s.setpoints.find? fun it => it.output = i

/-! ## The source (R92) -/

/-- Whether an output's source is valid (R92). -/
def State.sourceValid (s : State) (i : OutIdx) : Bool :=
  (s.channel (s.output i).config.source).runtime.state.isValid

/-- An output's source value (R92). -/
def State.sourceValue (s : State) (i : OutIdx) : Half :=
  (s.channel (s.output i).config.source).runtime.value

/-! ## NORMAL (R95), fallback (R98), refresh (R100) -/

/-- The NORMAL computation for a source value (R95). -/
def State.normalCompute (s : State) (i : OutIdx) (v : Half) : State :=
  let o := s.output i
  let t := curve o.config.points v
  let s := s.setOutputRuntime i { o.runtime with target := some t }
  match o.runtime.issued with
  | none => s.issue i t
  | some issued =>
    match normalStep o.config.deadband o.config.slew t issued with
    | none => s
    | some w => s.issue i w

/-- The entry action of the fallback policy (R98). -/
def State.entryAction (s : State) (i : OutIdx) : State :=
  let o := s.output i
  match o.config.fallback with
  | .hold => s
  | .safe => s.issue i o.config.safe
  | .ramp => s.issue i (rampStep o.config.slew o.config.safe o.runtime.issued)

/-- An output enters FALLBACK with its FALLBACK_ENTER notice and its entry action (R98). -/
def State.enterFallback (s : State) (i : OutIdx) : State :=
  let o := s.output i
  let s := s.setOutputRuntime i { o.runtime with state := .fallback, forced := none }
  let s := s.raise .fallbackEnter (.output i) (BitVec.ofNat 16 i.val)
  s.entryAction i

/-- An output in FALLBACK returns to NORMAL: state, FALLBACK_EXIT, then the NORMAL computation (R97, R107). -/
def State.exitFallback (s : State) (i : OutIdx) (v : Half) : State :=
  let o := s.output i
  let s := s.setOutputRuntime i { o.runtime with state := .normal }
  let s := s.raise .fallbackExit (.output i) (BitVec.ofNat 16 i.val)
  s.normalCompute i v

/-- The refresh action of an output's state (R100). -/
def State.refreshAction (s : State) (i : OutIdx) : State :=
  let o := s.output i
  match o.runtime.state with
  | .off => s
  | .normal =>
    match o.runtime.issued, o.runtime.target with
    | some issued, some target =>
      match normalStep o.config.deadband o.config.slew target issued with
      | some w => s.issue i w
      | none => s.issue i issued
    | some issued, none => s.issue i issued
    | none, _ => s
  | .fallback =>
    match o.config.fallback with
    | .hold =>
      match o.runtime.issued with
      | some issued => s.issue i issued
      | none => s
    | .safe => s.issue i o.config.safe
    | .ramp => s.issue i (rampStep o.config.slew o.config.safe o.runtime.issued)
  | .forced =>
    match o.runtime.forced with
    | some w => s.issue i w
    | none => s

/-- Whether an output counts ticks toward its refresh (R100). -/
def OutputRecord.refreshes (o : OutputRecord) : Bool :=
  o.runtime.state ≠ .off ∧ o.config.refresh ≠ 0

/-- One tick at an output: refresh_count incremented where it counts (R100). -/
def OutputRecord.tick (o : OutputRecord) : OutputRecord :=
  if o.refreshes then { o with runtime := { o.runtime with refreshCount := satInc o.runtime.refreshCount } } else o

/-- Whether a tick has just brought an output to its refresh (R100). -/
def OutputRecord.refreshDue (o : OutputRecord) : Bool :=
  o.refreshes && decide (o.config.refresh ≤ o.runtime.refreshCount)

/-- refresh_count back to 0 and the refresh action (R100). -/
def State.refreshOutput (s : State) (i : OutIdx) : State :=
  let o := s.output i
  let s := s.setOutputRuntime i { o.runtime with refreshCount := 0 }
  s.refreshAction i

/-! ## Channels and outputs (R84, R96) -/

/-- Whether an output is enabled and names a slot as its source. -/
def OutputRecord.follows (o : OutputRecord) (k : Slot) : Bool :=
  o.config.enabled ∧ o.config.source = k

/-- One output at the hand-over of a slot: NORMAL passes into FALLBACK, any other stays (R84). -/
def State.handOverOne (k : Slot) (s : State) (i : OutIdx) : State :=
  if (s.output i).follows k ∧ (s.output i).runtime.state = .normal then s.enterFallback i else s

/-- The hand-over of a slot's outputs, in ascending output order (R84). -/
def State.handOver (s : State) (k : Slot) : State :=
  allOutputs.foldl (State.handOverOne k) s

/-- One output at a GOOD or SUSPECT reading of a slot (R96, R97). -/
def State.outputReadingOne (k : Slot) (v : Half) (s : State) (i : OutIdx) : State :=
  let o := s.output i
  if ¬ o.follows k then s
  else
    match o.runtime.state with
    | .off => s
    | .normal => s.normalCompute i v
    | .fallback => s.exitFallback i v
    | .forced => s.setOutputRuntime i { o.runtime with target := some (curve o.config.points v) }

/-- Every enabled output naming the slot acts on a GOOD or SUSPECT reading, in ascending output order (R96). -/
def State.outputReading (s : State) (k : Slot) (v : Half) : State :=
  allOutputs.foldl (State.outputReadingOne k v) s

/-! ## The ownership filter (R114) -/

/-- Whether an enabled output owns the target (d, i); to the broadcast address, at any node (R114). -/
def State.ownsTarget (s : State) (dst : Addr) (index : Byte) : Bool :=
  s.outputs.toList.any fun o =>
    o.config.enabled ∧ o.config.targetIndex.toNat = index.toNat ∧ (o.config.targetNode = dst ∨ dst = 63)

end Sys2Proof.Machine
end

