-- ==== Sys2Proof/Machine/Supervision.lean ====
section
/-! DEFINITION. The Band Supervisor: what a reading, a silence, a clearing and an acknowledgement do to a channel
(chapter 4). -/

namespace Sys2Proof.Machine

/-- run_dir NONE and run_count 0 (section 4.1). -/
def ChannelRuntime.clearRuns (r : ChannelRuntime) : ChannelRuntime :=
  { r with runDir := .none, runCount := 0 }

/-- Raises a channel's notice (R85). -/
def State.raiseChannel (s : State) (k : Slot) (kind : NoticeKind) (value : Half) : State :=
  s.raise kind (.channel k) value

/-- The slot number as a notice value. -/
def slotValue (k : Slot) : Half :=
  BitVec.ofNat 16 k.val

/-- The hand-over, on a transition from a valid state to an invalid one (R84). -/
def State.handOverFrom (s : State) (k : Slot) (before : ChannelState) : State :=
  if before.isValid then s.handOver k else s

/-! ## Readings -/

/-- A reading first refreshes the channel's silence (R65). -/
def ChannelRuntime.refreshed (r : ChannelRuntime) (now : Quad) (q : Quality) : ChannelRuntime :=
  { r with silenceCount := 0, lastStamp := some now, quality := some q }

/-- The runtime part on entry into FAULT, bad_count as the reading brought it (R67). -/
def ChannelRuntime.faulted (r : ChannelRuntime) : ChannelRuntime :=
  { r.clearRuns with state := .fault, valueValid := false, acked := false, staleCause := .none }

/-- A BAD reading at an enabled channel (R65 to R68). -/
def State.badReading (s : State) (k : Slot) : State :=
  let c := s.channel k
  let r := c.runtime.refreshed s.time.counter .bad
  match r.state with
  | .off => s
  | .fault => s.setRuntime k r
  | .idle | .inBand | .high | .low | .stale =>
    let r := { r with badCount := satInc r.badCount }
    if c.config.badLimit ≤ r.badCount then
      ((s.setRuntime k r.faulted).raiseChannel k .fault (slotValue k)).handOverFrom k r.state
    else s.setRuntime k r

/-- The direction a value in IN_BAND counts toward: UP at or above high_trip, DOWN at or below low_trip (R71). -/
def ChannelConfig.tripDir (c : ChannelConfig) (v : Half) : RunDir :=
  if c.highTrip.toInt ≤ v.toInt then .up else if v.toInt ≤ c.lowTrip.toInt then .down else .none

/-- The run's count after one more reading in a direction. -/
def ChannelRuntime.runAfter (r : ChannelRuntime) (d : RunDir) : BitVec 4 :=
  if r.runDir = d then satInc r.runCount else 1

/-- The runtime part on entry into HIGH or LOW (R71). -/
def ChannelRuntime.alarmed (r : ChannelRuntime) (st : ChannelState) : ChannelRuntime :=
  { r.clearRuns with state := st, acked := false }

/-- A valid reading judged in IN_BAND: the runtime part after it, and the notice it raises (R71). -/
def ChannelRuntime.judgeInBand (r : ChannelRuntime) (c : ChannelConfig) (v : Half) :
    ChannelRuntime × Option NoticeKind :=
  match c.tripDir v with
  | .up =>
    let n := r.runAfter .up
    if c.assertCount ≤ n then (r.alarmed .high, some .enterHigh) else ({ r with runDir := .up, runCount := n }, none)
  | .down =>
    let n := r.runAfter .down
    if c.assertCount ≤ n then (r.alarmed .low, some .enterLow) else ({ r with runDir := .down, runCount := n }, none)
  | .none | .release => (r.clearRuns, none)

/-- Whether a value counts toward release from HIGH or LOW (R72). -/
def ChannelConfig.insideClear (c : ChannelConfig) (st : ChannelState) (v : Half) : Bool :=
  if st = .high then v.toInt ≤ c.highClear.toInt else c.lowClear.toInt ≤ v.toInt

/-- The release run after a reading inside the clear limit, held at release_count (R72). -/
def ChannelRuntime.releaseAfter (r : ChannelRuntime) (c : ChannelConfig) : BitVec 4 :=
  if r.runDir = .release then (if r.runCount < c.releaseCount then r.runCount + 1 else c.releaseCount) else 1

/-- A return to IN_BAND at a qualified release (R73, R77): acked is kept. -/
def ChannelRuntime.returned (r : ChannelRuntime) : ChannelRuntime :=
  { r.clearRuns with state := .inBand }

/-- A valid reading judged in HIGH or LOW (R72, R73). A qualified release under TRACKING raises RETURN by R73 and R85, also
after a change of mode from LATCHING, where R74's last sentence can be read to deny it (DESIGN CHOICE, safe: log 20). -/
def ChannelRuntime.judgeAlarm (r : ChannelRuntime) (c : ChannelConfig) (v : Half) :
    ChannelRuntime × Option NoticeKind :=
  if ¬ c.insideClear r.state v then (r.clearRuns, none)
  else
    let n := r.releaseAfter c
    if n = c.releaseCount ∧ (c.mode = .tracking ∨ r.acked) then (r.returned, some .ret)
    else ({ r with runDir := .release, runCount := n }, none)

/-- Recovery into IN_BAND, before the reading is judged (R70). -/
def ChannelRuntime.recovered (r : ChannelRuntime) : ChannelRuntime :=
  { r.clearRuns with state := .inBand, staleCause := .none }

/-- A channel's runtime part written and its notice, if any, raised with a value. -/
def State.settleChannel (s : State) (k : Slot) (v : Half) (r : ChannelRuntime × Option NoticeKind) : State :=
  let s := s.setRuntime k r.1
  match r.2 with
  | none => s
  | some kind => s.raiseChannel k kind v

/-- A GOOD or SUSPECT reading at an enabled channel, with its conditioned value and quality (R65, R69 to R73). -/
def State.validReading (s : State) (k : Slot) (v : Half) (q : Quality) : State :=
  let c := s.channel k
  let r := { c.runtime.refreshed s.time.counter q with value := v, valueValid := true, badCount := 0 }
  match r.state with
  | .off => s
  | .idle => s.settleChannel k v (r.recovered.judgeInBand c.config v)
  | .stale | .fault =>
    ((s.setRuntime k r.recovered).raiseChannel k .recover v).settleChannel k v (r.recovered.judgeInBand c.config v)
  | .inBand => s.settleChannel k v (r.judgeInBand c.config v)
  | .high | .low => s.settleChannel k v (r.judgeAlarm c.config v)

/-! ## Silence (section 4.5) -/

/-- The runtime part on entry into STALE (R80). -/
def ChannelRuntime.staled (r : ChannelRuntime) (cause : StaleCause) : ChannelRuntime :=
  { r.clearRuns with state := .stale, staleCause := cause, valueValid := false, acked := false }

/-- A channel enters STALE: fields, notice, hand-over (R80). -/
def State.enterStale (s : State) (k : Slot) (cause : StaleCause) : State :=
  let r := (s.channel k).runtime
  ((s.setRuntime k (r.staled cause)).raiseChannel k .stale (slotValue k)).handOverFrom k r.state

/-- Whether a channel counts its silence (R79). -/
def ChannelRecord.countsSilence (c : ChannelRecord) : Bool :=
  c.config.enabled && c.config.silenceLimit ≠ 0 &&
    (match c.runtime.state with
      | .idle | .inBand | .high | .low => true
      | .off | .stale | .fault => false)

/-- One tick at a channel: silence_count incremented where it counts (R79). -/
def ChannelRecord.tick (c : ChannelRecord) : ChannelRecord :=
  if c.countsSilence then { c with runtime := { c.runtime with silenceCount := satInc c.runtime.silenceCount } } else c

/-- Whether a tick has just brought a channel to its silence_limit (R79). With silence_limit 1 a count of 1 is at the limit,
although R81 says that a reading taken first keeps the channel from STALE (DESIGN CHOICE, safe: log 21). -/
def ChannelRecord.staleDue (c : ChannelRecord) : Bool :=
  c.countsSilence && decide (c.config.silenceLimit ≤ c.runtime.silenceCount)

/-- One channel at its node's silence: enabled and not STALE enters STALE with cause NODE (R29). -/
def State.nodeStaleOne (s : State) (k : Slot) : State :=
  let c := s.channel k
  if c.config.enabled ∧ c.runtime.state ≠ .stale then s.enterStale k .node else s

/-! ## Clearing and acknowledging -/

/-- The runtime part cleared by the configuration's enabled (R87), and the outputs handed over where a valid value was
lost (R43, R58, R84). -/
def State.clearChannel (s : State) (k : Slot) : State :=
  let c := s.channel k
  (s.setRuntime k (.clear c.config.enabled)).handOverFrom k c.runtime.state

/-- Whether a release is qualified and held (R73, R77). -/
def ChannelRecord.releaseHeld (c : ChannelRecord) : Bool :=
  c.runtime.runDir = .release ∧ c.runtime.runCount = c.config.releaseCount

/-- Whether a channel has a latched alarm to acknowledge (R76). -/
def ChannelRecord.latched (c : ChannelRecord) : Bool :=
  c.config.enabled ∧ (c.runtime.state = .high ∨ c.runtime.state = .low) ∧ c.config.mode = .latching

/-- An acknowledgement taken for a latched alarm (R77). -/
def State.acknowledgeBand (s : State) (k : Slot) : State :=
  let c := s.channel k
  if c.releaseHeld then (s.setRuntime k c.runtime.returned).raiseChannel k .ret c.runtime.value
  else s.setRuntime k { c.runtime with acked := true }

end Sys2Proof.Machine
end

