-- ==== Sys2Proof/Machine/NodeTable.lean ====
section
/-! DEFINITION. The Node Table: sequence judgement, freshness and silence (chapter 2). -/

namespace Sys2Proof.Machine

/-- What the sequence judgement finds (R23 to R25). -/
inductive SeqJudgement where
  | restarted
  | inOrder
  | gap (missing : Nat)
  | duplicate
  | replay
  deriving DecidableEq, Repr

/-- The judgement of a frame's seq against a record (R23 to R25). -/
def NodeRecord.judgeSeq (r : NodeRecord) (restart : Bool) (seq : Byte) : SeqJudgement :=
  if restart then .restarted
  else
    match r.config.seqPolicy, r.runtime.lastSeq with
    | .unchecked, _ => .inOrder
    | .checked, none => .inOrder
    | .checked, some last =>
      let d := (seq - last).toNat
      if d = 0 then .duplicate
      else if d = 1 then .inOrder
      else if d ≤ 128 then .gap (d - 1)
      else .replay

/-- The record once a frame is accepted: last_seq, gap_sum, and the freshness update (R23, R24, R27). -/
def NodeRuntime.accepted (r : NodeRuntime) (seq : Byte) (missing : Nat) (now : Quad) : NodeRuntime :=
  { r with
    lastSeq := some seq, gapSum := satAdd r.gapSum (BitVec.ofNat 16 missing), silenceCount := 0, lastStamp := some now,
    state := .live }

/-- The sequence notice of an accepted frame, if any: its kind and value (R23, R24). -/
def seqNotice (seq : Byte) : SeqJudgement → Option (NoticeKind × Half)
  | .restarted => some (.nodeRestart, seq.setWidth 16)
  | .gap missing => some (.seqGap, BitVec.ofNat 16 missing)
  | .inOrder => none
  | .duplicate => none
  | .replay => none

/-- An accepted frame at the Node Table: the record, the sequence notice, then NODE_BACK where the node was SILENT
(R21, R27). -/
def State.acceptFrame (s : State) (a : Addr) (seq : Byte) (j : SeqJudgement) : State :=
  let r := s.node a
  let missing := match j with | .gap n => n | _ => 0
  let s := s.setNode a { r with runtime := r.runtime.accepted seq missing s.time.counter }
  let s := match seqNotice seq j with
    | some n => s.raise n.1 (.node a) n.2
    | none => s
  if r.runtime.state = .silent then s.raise .nodeBack (.node a) (seq.setWidth 16) else s

/-- A SAMPLE or STATUS frame of an enrolled node judged, and whether it is accepted (R21, R24, R26). -/
def State.nodeArrival (s : State) (a : Addr) (restart : Bool) (seq : Byte) : State × Bool :=
  let r := s.node a
  match r.judgeSeq restart seq with
  | .duplicate => (s.setNode a { r with runtime := { r.runtime with dupCount := satInc r.runtime.dupCount } }, false)
  | .replay =>
    (s.setNode a { r with runtime := { r.runtime with replayCount := satInc r.runtime.replayCount } }, false)
  | .restarted => (s.acceptFrame a seq .restarted, true)
  | .inOrder => (s.acceptFrame a seq .inOrder, true)
  | .gap n => (s.acceptFrame a seq (.gap n), true)

/-- Whether a record counts its silence (R28). -/
def NodeRecord.countsSilence (r : NodeRecord) : Bool :=
  r.config.enrolled ∧ r.runtime.state ≠ .silent ∧ r.config.silenceLimit ≠ 0

/-- One tick at a record: silence_count incremented where it counts (R28). -/
def NodeRecord.tick (r : NodeRecord) : NodeRecord :=
  if r.countsSilence then { r with runtime := { r.runtime with silenceCount := satInc r.runtime.silenceCount } } else r

/-- Whether a tick has just brought a record to its silence_limit (R28). With silence_limit 1 a count of 1 is at the limit,
although R30 says that a frame taken first keeps the node from SILENT (DESIGN CHOICE, safe: log 21). -/
def NodeRecord.silentDue (r : NodeRecord) : Bool :=
  r.countsSilence && decide (r.config.silenceLimit ≤ r.runtime.silenceCount)

/-- A record's SILENT entry, carried out in full: state, NODE_SILENT, then its bound channels in ascending slot order
(R28, R29). -/
def State.silenceNode (s : State) (a : Addr) : State :=
  let r := s.node a
  let s := s.setNode a { r with runtime := { r.runtime with state := .silent } }
  let s := s.raise .nodeSilent (.node a) r.config.silenceLimit
  (s.slotsOf a).foldl State.nodeStaleOne s

end Sys2Proof.Machine
end

