-- ==== Sys2Proof/Machine/SamplePath.lean ====
section
/-! DEFINITION. The sample path: binding lookup, conditioning, supervision and outputs, and the frame rebuilt for
forwarding (section 3.3). -/

namespace Sys2Proof.Machine

/-- The quotient of R48 steps 1 to 3: exact sum and product, truncated toward zero. -/
def ChannelConfig.scaled (c : ChannelConfig) (raw : Half) : Int :=
  Int.tdiv ((raw.toInt + c.offset.toInt) * (c.gain.toNat : Int)) 4096

/-- The conditioned value and quality of a GOOD or SUSPECT reading (R48, R49). -/
def ChannelConfig.condition (c : ChannelConfig) (raw : Half) (q : Quality) : Half × Quality :=
  let x := c.scaled raw
  if 32767 < x then (0x7FFF, .suspect)
  else if x < -32768 then (0x8000, .suspect)
  else (BitVec.ofInt 16 x, q)

/-- A reading rewritten: quality bits and value replaced, every other bit as it arrived (R52, R200). -/
def Reading.rewritten (r : Reading) (v : Half) (q : Quality) : Reading :=
  { head := (r.head &&& 0xCF) ||| (q.code <<< 4), value := v }

/-- The sample path part-way through a frame: the state, the readings kept so far in order, and whether any reading was
rewritten or removed (R54). -/
structure PathState where
  state : State
  kept : List Reading
  changed : Bool

/-- A reading kept exactly as received. -/
def PathState.keep (p : PathState) (r : Reading) : PathState :=
  { p with kept := p.kept ++ [r] }

/-- The forward policy applied to a reading of an enabled channel; `done` holds its conditioned value and quality, none
for a BAD reading (R52, R53). -/
def PathState.forward (p : PathState) (policy : ForwardPolicy) (r : Reading) (done : Option (Half × Quality)) :
    PathState :=
  match policy, done with
  | .raw, _ => p.keep r
  | .strip, _ => { p with changed := true }
  | .conditioned, none => p.keep r
  | .conditioned, some d => { p with kept := p.kept ++ [r.rewritten d.1 d.2], changed := true }

/-- A valid reading at its channel and then at the outputs that name it (R50). -/
def State.takeReading (s : State) (k : Slot) (d : Half × Quality) : State :=
  (s.validReading k d.1 d.2).outputReading k d.1

/-- One reading carried through every stage (R46, R47, R50). -/
def PathState.reading (src : Addr) (p : PathState) (r : Reading) : PathState :=
  match p.state.boundSlot src r.channel with
  | none => p.keep r
  | some k =>
    let c := (p.state.channel k).config
    if ¬ c.enabled then p.keep r
    else
      match r.quality with
      | none => p.keep r
      | some .bad => { p with state := p.state.badReading k }.forward c.forward r none
      | some .good =>
        let d := c.condition r.value .good
        { p with state := p.state.takeReading k d }.forward c.forward r (some d)
      | some .suspect =>
        let d := c.condition r.value .suspect
        { p with state := p.state.takeReading k d }.forward c.forward r (some d)

/-- An accepted SAMPLE frame: its readings in frame order, then the forwarded frame (R45, R46, R54 to R56). -/
def State.samplePath (s : State) (f : Frame) (rs : List Reading) : State :=
  let p := rs.foldl (PathState.reading f.src) { state := s, kept := [], changed := false }
  if ¬ p.changed then p.state.offerForward .f f.bytes
  else if p.kept = [] then p.state.count .f .rxEmptied
  else
    p.state.offerForward .f
      (buildFrame (byteAt f.bytes 0) (byteAt f.bytes 1) (byteAt f.bytes 2) (withModified f.flags) f.seq
        (samplePayload p.kept))

end Sys2Proof.Machine
end

