-- ==== Sys2Proof/Machine/RequestQueue.lean ====
section
/-! DEFINITION. The Request Queue and the Executor's frame: acceptance, execution of the oldest WAITING entry, and the
response built for it (sections 8.2 to 8.4). -/

namespace Sys2Proof.Machine

/-- Whether an entry has a tag and seq (R156). -/
def RequestEntry.matches (tag seq : Byte) (e : RequestEntry) : Bool :=
  e.tag = tag ∧ e.seq = seq

/-- An arrival judged by the four checks of R156. -/
def State.acceptRequest (s : State) (tag seq opcode : Byte) (params : List Byte) : State :=
  let q := s.queue
  if q.entries.any (RequestEntry.matches tag seq) then s.count .s .rxDuplicateRequest
  else if 4 ≤ q.entries.length then { s with queue := { q with lostCount := satInc q.lostCount } }
  else
    let new : RequestEntry :=
      { tag := tag, seq := seq, opcode := opcode, params := params, state := .waiting, response := none }
    let entry : RequestEntry :=
      match q.memory with
      | none => new
      | some m =>
        if m.tag = tag ∧ m.seq = seq then
          { new with state := .done, response := some { m.response with repeated := true } }
        else new
    { s with queue := { q with entries := q.entries ++ [entry] } }

/-- What an execution comes to: the state with the request's changes made, the status, and the results (R161). -/
structure Answer where
  state : State
  status : Status
  results : List Byte

/-- A request refused with a status: nothing is changed (R161). -/
def State.refuse (s : State) (status : Status) : Answer :=
  { state := s, status := status, results := [] }

/-- A request answered OK without results. -/
def State.okay (s : State) : Answer :=
  { state := s, status := .ok, results := [] }

/-- A request answered OK with results. -/
def State.okayWith (s : State) (results : List Byte) : Answer :=
  { state := s, status := .ok, results := results }

/-- A table write answered OK sets dirty, and written_since_start while a commit is in flight (R186). -/
def State.tableWritten (s : State) : State :=
  { s with
    store := { s.store with dirty := true, commit := s.store.commit.map fun j => { j with writtenSinceStart := true } } }

/-- Whether an entry waits for its execution. -/
def RequestEntry.isWaiting (e : RequestEntry) : Bool :=
  e.state = .waiting

/-- The oldest WAITING entry, which the Executor executes next; none while a restart is pending (R159, R170). -/
def State.nextToExecute (s : State) : Option RequestEntry :=
  if s.queue.restartPending then none else s.queue.entries.find? RequestEntry.isWaiting

/-- The response of an execution, its summary formed after the request's own effects (R161). -/
def Answer.response (a : Answer) (e : RequestEntry) : Response :=
  { tag := e.tag, opcode := e.opcode, status := a.status, repeated := false, lost := a.state.queue.lostCount,
    summary := a.state.summary, results := a.results }

/-- The execution completed: lost_count copied and cleared, the entry DONE with its response (R157, R159, R161). -/
def Answer.finish (a : Answer) (e : RequestEntry) : State :=
  let q := a.state.queue
  { a.state with
    queue :=
      { q with
        lostCount := 0
        entries :=
          updateFirst RequestEntry.isWaiting (fun e' => { e' with state := .done, response := some (a.response e) })
            q.entries } }

/-- The execution of a request of one kind: the parameter length first, then the owning rule (R160). The command has no
occasion where the oldest WAITING entry is of another kind (log 1). -/
def State.executeRequest (s : State) (kind : RequestKind) (body : State → List Byte → Answer) : State :=
  match s.nextToExecute with
  | none => s
  | some e =>
    if e.opcode ≠ kind.opcode then s
    else if kind.lengthOk e.params.length then (body s e.params).finish e
    else (s.refuse .badLength).finish e

/-- The execution of an entry whose opcode names no request (R160). -/
def State.executeUnknown (s : State) : State :=
  match s.nextToExecute with
  | none => s
  | some e => if knownOpcode e.opcode then s else (s.refuse .unknownRequest).finish e

/-- Whether an entry holds the response built by a RESTART answered OK under R170; a REPEATED copy is none (R171). -/
def RequestEntry.isRestart (e : RequestEntry) : Bool :=
  match e.response with
  | none => false
  | some r => r.opcode = RequestKind.restart.opcode ∧ r.status = .ok ∧ r.repeated = false

end Sys2Proof.Machine
end

