-- ==== Sys2Proof/Machine/ImageStore.lean ====
section
/-! DEFINITION. The Image Store: banks and their validity, selection, loading, and the commit's phases (chapter 10). -/

namespace Sys2Proof.Machine

/-- The integrity word written over a generation and image: the check word and its complement (R184). -/
def integrityWord (generation : Half) (image : StoredImage) : Quad :=
  let upper := checkWord (Config.bankOctets generation image)
  upper ++ ~~~ upper

/-- Whether a bank is valid: the lower half of its integrity word complements the upper, and the upper is the check
word over what the bank holds (R184). -/
def Bank.valid (b : Bank) : Bool :=
  decide (b.integrity.extractLsb' 0 16 = ~~~ (b.integrity.extractLsb' 16 16))
    && decide (b.integrity.extractLsb' 16 16 = checkWord (Config.bankOctets b.generation b.image))

/-- The image a valid bank loads. A bank that holds no whole image loads none (DEDUCED, log 10). -/
def Bank.load (b : Bank) : Option Image :=
  match b.image with
  | .intact img => if b.valid then some img else none
  | .erased => none
  | .damaged => none

/-- Whether generation x is newer than generation y (R187). -/
def newer (x y : Half) : Bool :=
  1 ≤ (x - y).toNat && (x - y).toNat ≤ 32767

def ImageStore.bank (st : ImageStore) : BankId → Bank
  | .a => st.bankA
  | .b => st.bankB

def ImageStore.setBank (st : ImageStore) (id : BankId) (b : Bank) : ImageStore :=
  match id with
  | .a => { st with bankA := b }
  | .b => { st with bankB := b }

/-- The bank a hard reset selects and its image; none is NONE (R187). -/
def ImageStore.select (st : ImageStore) : Option (BankId × Image) :=
  match st.bankA.load, st.bankB.load with
  | none, none => none
  | some x, none => some (.a, x)
  | none, some y => some (.b, y)
  | some x, some y =>
    if newer st.bankB.generation st.bankA.generation then some (.b, y) else some (.a, x)

/-- The whole live configuration (R183, R190). -/
def State.liveImage (s : State) : Image :=
  { system := s.system, nodes := tableMap (·.config) s.nodes, bindings := s.bindings,
    channels := tableMap (·.config) s.channels, outputs := tableMap (·.config) s.outputs }

/-- The factory defaults as an image (R188). -/
def Image.factory : Image :=
  { system := .factory, nodes := Vector.replicate 62 .empty, bindings := [],
    channels := Vector.replicate 128 .factory, outputs := tableOf 16 fun i => .factory (BitVec.ofNat 4 i) }

/-- The live tables replaced whole by an image; the runtime parts as they were (R188). -/
def State.loadImage (s : State) (img : Image) : State :=
  { s with
    system := img.system
    nodes := tableZip (fun c (r : NodeRecord) => { r with config := c }) img.nodes s.nodes
    bindings := img.bindings
    channels := tableZip (fun c (r : ChannelRecord) => { r with config := c }) img.channels s.channels
    outputs := tableZip (fun c (r : OutputRecord) => { r with config := c }) img.outputs s.outputs }

/-- The bank a commit targets: the one that is not current (R189). -/
def ImageStore.nextTarget (st : ImageStore) : BankId :=
  match st.current with
  | some .a => .b
  | some .b => .a
  | none => .a

/-- The generation a commit writes (R189). -/
def ImageStore.nextGeneration (st : ImageStore) : Half :=
  match st.current with
  | some id => (st.bank id).generation + 1
  | none => 1

/-- The generation READ_IMAGE reports (R195). -/
def ImageStore.reportedGeneration (st : ImageStore) : Half :=
  match st.current with
  | some id => (st.bank id).generation
  | none => 0

/-- A commit started: target erased, generation and copy taken, commit_state ERASING (R189, R191). R191 names the integrity
word and the image; that the generation word is erased with them is the model's choice (DESIGN CHOICE, safe: log 22). -/
def State.startCommit (s : State) : State :=
  let st := s.store.setBank s.store.nextTarget .erased
  { s with
    store :=
      { st with
        commit := some { phase := .erasing, target := s.store.nextTarget, generation := s.store.nextGeneration,
                         copy := s.liveImage, writtenSinceStart := false } } }

/-- The erasure ends: WRITING (R191). -/
def State.endErasure (s : State) : State :=
  match s.store.commit with
  | none => s
  | some j =>
    if j.phase = .erasing then { s with store := { s.store with commit := some { j with phase := .writing } } } else s

/-- What the target holds once the writing has ended (R191): its integrity word is still erased. -/
def CommitJob.written (j : CommitJob) : MediumResult → Bank
  | .good => { generation := j.generation, integrity := 0xFFFFFFFF, image := .intact j.copy }
  | .faulty g => { generation := g, integrity := 0xFFFFFFFF, image := .damaged }

/-- The writing ends: VERIFYING (R191). Until this event the target holds what its erasure left, also where a reset cuts the
writing short and the spec leaves open what part of the copy reached it (R194; DESIGN CHOICE, safe: log 22). -/
def State.endWriting (s : State) (medium : MediumResult) : State :=
  match s.store.commit with
  | none => s
  | some j =>
    if j.phase = .writing then
      let st := s.store.setBank j.target (j.written medium)
      { s with store := { st with commit := some { j with phase := .verifying } } }
    else s

/-- A commit's success (R192). -/
def State.commitSucceeds (s : State) (j : CommitJob) : State :=
  let b := s.store.bank j.target
  let st := s.store.setBank j.target { b with integrity := integrityWord b.generation b.image }
  let s := { s with
    store := { st with current := some j.target, lastResult := .done, dirty := j.writtenSinceStart, commit := none } }
  s.raise .commitDone .none j.generation

/-- A commit's failure (R193). -/
def State.commitFails (s : State) (j : CommitJob) : State :=
  let b := s.store.bank j.target
  let st := s.store.setBank j.target { b with integrity := 0xFFFFFFFF }
  let s := { s with store := { st with lastResult := .failed, dirty := true, commit := none } }
  s.raise .commitFailed .none j.generation

/-- The read-back ends: the target compared with target_generation and the copy (R191 to R193). -/
def State.endReadBack (s : State) : State :=
  match s.store.commit with
  | none => s
  | some j =>
    if j.phase = .verifying then
      let b := s.store.bank j.target
      if b.generation = j.generation ∧ b.image = .intact j.copy then s.commitSucceeds j else s.commitFails j
    else s

end Sys2Proof.Machine
end

