-- ==== Sys2Proof/Machine/Reception.lean ====
section
/-! DEFINITION. What happens to a good frame at its end: source check, direction table, payload format check, and the
hand-off to its consumer (sections 1.5 to 1.8, 2.2, 5.9). -/

namespace Sys2Proof.Machine

/-- What the direction table names for a frame (R11). -/
inductive Route where
  | misdirected | forward | sample | status | setpoint | request
  deriving DecidableEq, Repr

/-- The direction table, its rows from the top (R11). -/
def directionTable (p : Port) (kind : FrameKind) (toOwn : Bool) (fromSupervisor : Bool) : Route :=
  match p with
  | .f =>
    if toOwn then .misdirected
    else
      match kind with
      | .sample => .sample
      | .status => .status
      | .request | .response | .notice | .command | .setpoint => .misdirected
      | .unknown => .forward
  | .s =>
    if toOwn then (if kind = .request ∧ fromSupervisor then .request else .misdirected)
    else
      match kind with
      | .command => .forward
      | .setpoint => .setpoint
      | .request => .forward
      | .sample | .status | .response | .notice => .misdirected
      | .unknown => .forward

/-- Whether an F-port frame's src fails the source check (R10). -/
def State.badSource (s : State) (src : Addr) : Bool :=
  src = 0 ∨ src = 63 ∨ src = s.system.ownAddress

/-- A SAMPLE or STATUS frame at the Node Table: the unenrolled-source policy, or the judgement and then `accepted`
(R21, R22). -/
def State.nodeTable (s : State) (f : Frame) (accepted : State → State) : State :=
  if (s.node f.src).config.enrolled then
    let r := s.nodeArrival f.src f.restartFlag f.seq
    if r.2 then accepted r.1 else r.1
  else
    match s.system.policy with
    | .pass => s.offerForward .f f.bytes
    | .block => s.count .f .rxBlocked

/-- A supervisor's SETPOINT frame at the ownership filter (R114, R115). -/
def State.ownershipFilter (s : State) (f : Frame) (items : List FrameItem) : State :=
  let kept := items.filter fun i => ! s.ownsTarget f.dst i.index
  let removed := items.length - kept.length
  let counted := (List.range removed).foldl (fun s _ => s.count .s .rxOwnedStripped) s
  if removed = 0 then counted.offerForward .s f.bytes
  else if kept = [] then counted.count .s .rxEmptied
  else
    counted.offerForward .s
      (buildFrame (byteAt f.bytes 0) (byteAt f.bytes 1) (byteAt f.bytes 2) (withModified f.flags) f.seq
        (setpointPayload kept))

/-- A routed frame's payload check and hand-off (R14, R15, R16). -/
def State.handOff (s : State) (p : Port) (f : Frame) : Route → State
  | .misdirected => s.count p .rxMisdirected
  | .forward => s.offerForward p f.bytes
  | .sample =>
    match sampleReadings f.payload with
    | none => s.count p .rxFormatError
    | some rs => s.nodeTable f fun s => s.samplePath f rs
  | .status => s.nodeTable f fun s => s.offerForward .f f.bytes
  | .setpoint =>
    match setpointItems f.payload with
    | none => s.count p .rxFormatError
    | some items => s.ownershipFilter f items
  | .request =>
    match f.payload with
    | tag :: opcode :: params => s.acceptRequest tag f.seq opcode params
    | _ => s.count p .rxFormatError

/-- A good frame taken through the stages of R9. -/
def State.goodFrame (s : State) (p : Port) (f : Frame) : State :=
  let s := s.count p .rxGood
  if p = .f ∧ s.badSource f.src then s.count p .rxFormatError
  else s.handOff p f (directionTable p f.kind (f.dst = s.system.ownAddress) (f.src = 0))

/-- The end of a frame whose bytes the receiver holds (R8). -/
def State.judgeEnd (s : State) (p : Port) (bytes : List Byte) : State :=
  match judgeFrame bytes with
  | .lengthError => s.count p .rxLengthError
  | .checkError => s.count p .rxCheckError
  | .good => s.goodFrame p { bytes := bytes }

end Sys2Proof.Machine
end

