-- ==== Sys2Proof/Machine/Restart.lean ====
section
/-! DEFINITION. Hard reset and soft restart: what each sets in every block (R171, R197, R198). -/

namespace Sys2Proof.Machine

/-- A port's receiver, counts and forward queue at either form of reset; link and transmitter are kept (R18, R19,
R153, R154). -/
def PortRecord.restarted (r : PortRecord) : PortRecord :=
  { r with assembly := none, stats := .zero, forwardQueue := [] }

/-- An output's runtime at either form of reset, before its entry action (R117). -/
def OutputRecord.atReset (o : OutputRecord) : OutputRecord :=
  { o with runtime := .cleared (if o.config.enabled then .fallback else .off) }

/-- The entry action of one output at a reset: no FALLBACK_ENTER (R98, R117). -/
def State.resetEntry (s : State) (i : OutIdx) : State :=
  if (s.output i).config.enabled then s.entryAction i else s

/-- What both forms of reset set in every block, from the tables as they stand; `value` is RESTARTED's (R37, R87, R117,
R138, R139, R153, R154, R164, R175, R182). -/
def State.restartBlocks (s : State) (value : Half) : State :=
  let s := { s with
    portF := s.portF.restarted
    portS := s.portS.restarted
    nodes := tableMap (fun r => { r with runtime := .clear }) s.nodes
    channels := tableMap (fun c => .cleared c.config) s.channels
    outputs := tableMap OutputRecord.atReset s.outputs
    setpoints := []
    queue := .empty
    egress := .clear
    time := { counter := 0, interval := s.system.tickPeriod, handedOn := .idle }
    due := .none
    capture := none
    log := .restarted value }
  allOutputs.foldl State.resetEntry s

/-- The soft restart (R171, R198, R199): tables, System Record, link states and Image Store are kept, and so is a
transmission in flight. -/
def State.softRestart (s : State) : State :=
  s.restartBlocks 1

/-- A transmission and a commit in flight end without completion (R153, R194, R196). The commit's target keeps what its
erasure left, where the spec leaves open what part of the copy reached it (DESIGN CHOICE, safe: log 22). -/
def State.endInFlight (s : State) : State :=
  { s with
    portF := { s.portF with transmitter := none }
    portS := { s.portS with transmitter := none }
    store := { s.store with commit := none } }

/-- The Image Store's part of the hard reset: a bank selected and loaded, or the factory defaults (R187, R188). -/
def State.startUp (s : State) : State :=
  let s :=
    match s.store.select with
    | some r => { s.loadImage r.2 with store := { s.store with current := some r.1 } }
    | none => { s.loadImage .factory with store := { s.store with current := none } }
  { s with store := { s.store with commit := none, lastResult := .none, dirty := false } }

/-- The hard reset event, each line showing signal or not (R18, R196, R197). -/
def State.hardReset (s : State) (lineF lineS : LinkState) : State :=
  let s := s.endInFlight.startUp.restartBlocks 0
  { s with
    held := false
    portF := { s.portF with link := lineF }
    portS := { s.portS with link := lineS } }

end Sys2Proof.Machine
end

