-- ==== Sys2Proof/Machine/Egress.lean ====
section
/-! DEFINITION. The Egress Arbiters and the transmitters: choosing and building the next frame, completion and
abandonment (chapter 7). -/

namespace Sys2Proof.Machine

/-- A frame the part originates, flags clear, src the own address in force (R1, R4, R200). -/
def State.ownFrame (s : State) (dst : Addr) (kind seq : Byte) (payload : List Byte) : List Byte :=
  buildFrame (dst.setWidth 8) (s.system.ownAddress.setWidth 8) kind 0 seq payload

/-- Whether a port's arbiter may start: UP and its transmitter free (R142). -/
def State.mayStart (s : State) (p : Port) : Bool :=
  (s.port p).link = .up ∧ (s.port p).transmitter = none

/-- A transmission begun on a port. -/
def State.transmit (s : State) (p : Port) (source : TxSource) (frame : List Byte) : State :=
  s.setPort p { s.port p with transmitter := some { source := source, frame := frame } }

/-- The head of a port's forward queue taken for transmission (R140). -/
def State.startForwarded (s : State) (p : Port) : State :=
  match (s.port p).forwardQueue with
  | [] => s
  | frame :: rest => (s.setPort p { s.port p with forwardQueue := rest }).transmit p .forwarded frame

/-! ## The S-port (section 7.3) -/

/-- The response of the oldest entry, when it is DONE (R143). -/
def RequestQueue.offered (q : RequestQueue) : Option Response :=
  match q.entries with
  | [] => none
  | e :: _ => if e.state = .done then e.response else none

/-- The source the S-port arbiter takes: by the bound, a response, a notice, a forwarded frame (R143). -/
def State.chooseS (s : State) : Option TxSource :=
  if s.portS.forwardQueue ≠ [] ∧ s.egress.starvationCount = 4 then some .forwarded
  else if s.queue.offered.isSome then some .response
  else if s.log.turnAvailable then some .notice
  else if s.portS.forwardQueue ≠ [] then some .forwarded
  else none

/-- The S-side counter and starvation_count after a RESPONSE or NOTICE start (R145, R147). -/
def Egress.afterOwnStart (e : Egress) : Egress :=
  { e with starvationCount := min 4 (e.starvationCount + 1), seqS := e.seqS + 1 }

/-- The head entry becomes SENDING (R144). -/
def RequestQueue.headSending (q : RequestQueue) : RequestQueue :=
  match q.entries with
  | [] => q
  | e :: rest => { q with entries := { e with state := .sending } :: rest }

/-- A start of a response (R144). -/
def State.startResponse (s : State) : State :=
  match s.queue.offered with
  | none => s
  | some r =>
    { s.transmit .s .response (s.ownFrame 0 0x06 s.egress.seqS r.bytes) with
      queue := s.queue.headSending, egress := s.egress.afterOwnStart }

/-- A start of a NOTICE frame (R128, R129): the summary is formed in this event, which changes no count of it. -/
def State.startNotice (s : State) : State :=
  { s.transmit .s .notice (s.ownFrame 0 0x07 s.egress.seqS (noticePayload s.summary
        (s.log.selected.map fun e => { e with sendState := .sent, sentStamp := some s.time.counter }))) with
    log := s.log.afterSend s.time.counter, egress := s.egress.afterOwnStart }

/-- A start on the S-port, where there is an occasion (R142, R143, R145). -/
def State.startS (s : State) : State :=
  if ¬ s.mayStart .s then s
  else
    match s.chooseS with
    | none => s
    | some .forwarded =>
      let s := s.startForwarded .s
      { s with egress := { s.egress with starvationCount := 0 } }
    | some .response => s.startResponse
    | some .notice => s.startNotice
    | some .setpoint => s

/-! ## The F-port (section 7.4) -/

/-- The items a SETPOINT frame carries to a node, in ascending output order (R112). -/
def State.itemsFor (s : State) (node : Addr) : List SetpointItem :=
  allOutputs.filterMap fun i => s.setpoints.find? fun it => it.output = i ∧ it.node = node

/-- An item as it stands in a frame (section 12.2). -/
def SetpointItem.frameItem (i : SetpointItem) : FrameItem :=
  { index := i.index.setWidth 8, value := i.value.setWidth 16 }

/-- A start of a SETPOINT frame for the head node, whose items leave the set (R112). -/
def State.startSetpoint (s : State) : State :=
  match s.setpoints with
  | [] => s
  | head :: _ =>
    { s.transmit .f .setpoint (s.ownFrame head.node 0x04 s.egress.seqF
          (setpointPayload ((s.itemsFor head.node).map SetpointItem.frameItem))) with
      setpoints := s.setpoints.filter fun it => it.node ≠ head.node
      egress := { s.egress with seqF := s.egress.seqF + 1 } }

/-- The source the F-port arbiter takes (R146). -/
def State.chooseF (s : State) : Option Turn :=
  match s.portF.forwardQueue.isEmpty, s.setpoints.isEmpty with
  | true, true => none
  | true, false => some .setpoint
  | false, true => some .forward
  | false, false => some s.egress.nextTurn

/-- A start on the F-port, where there is an occasion (R142, R146). -/
def State.startF (s : State) : State :=
  if ¬ s.mayStart .f then s
  else
    match s.chooseF with
    | none => s
    | some .forward =>
      let s := s.startForwarded .f
      { s with egress := { s.egress with nextTurn := .setpoint } }
    | some .setpoint =>
      let s := s.startSetpoint
      { s with egress := { s.egress with nextTurn := .forward } }

/-! ## Completion and abandonment (section 7.6) -/

/-- The head entry freed at its response's end; on completion its response becomes the memory; the response of a
RESTART whose restart is pending then restarts the part (R162, R171). -/
def State.releaseResponse (s : State) (completed : Bool) : State :=
  match s.queue.entries with
  | [] => s
  | e :: rest =>
    if e.state ≠ .sending then s
    else
      let memory :=
        match completed, e.response with
        | true, some r => some { tag := e.tag, seq := e.seq, response := r }
        | _, _ => s.queue.memory
      let freed := { s with queue := { s.queue with entries := rest, memory := memory } }
      if s.queue.restartPending ∧ e.isRestart then freed.softRestart else freed

/-- The end of a port's transmission: the transmitter free, the count of the end, and the source told (R148, R149). -/
def State.endTransmission (s : State) (p : Port) (completed : Bool) : State :=
  match (s.port p).transmitter with
  | none => s
  | some t =>
    let s := s.setPort p { s.port p with transmitter := none }
    let s := s.count p (if completed then .txFrames else .txAbandoned)
    if t.source = .response then s.releaseResponse completed else s

end Sys2Proof.Machine
end

