-- ==== Sys2Proof/Machine/Events.lean ====
section
/-! DEFINITION. Taking an event: RESET holds the part (R196), and a tick event at one owner is whole (R28, R79, R100,
R134): what it has still to do is done before any other event is taken. -/

namespace Sys2Proof.Machine

/-- The records gone silent carry out their SILENT entries, in ascending order (R28). -/
def State.settleSilent (s : State) : State :=
  let s' := s.due.silent.foldl State.silenceNode s
  { s' with due := { s'.due with silent := [] } }

/-- A channel whose own silence limit ran out (R79, R80). -/
def State.staleByLimit (s : State) (k : Slot) : State :=
  s.enterStale k .channel

/-- The channels gone stale enter STALE, in ascending order (R79). -/
def State.settleStale (s : State) : State :=
  let s' := s.due.stale.foldl State.staleByLimit s
  { s' with due := { s'.due with stale := [] } }

/-- The outputs that reached their refresh carry out their refresh actions, in ascending order (R100). -/
def State.settleRefresh (s : State) : State :=
  let s' := s.due.refresh.foldl State.refreshOutput s
  { s' with due := { s'.due with refresh := [] } }

/-- The go-back, when the Notice Log's tick found it due (R134). -/
def State.settleGoBack (s : State) : State :=
  let s' := if s.due.goBack then { s with log := s.log.goBack s.time.counter } else s
  { s' with due := { s'.due with goBack := false } }

/-- The open tick event, if any, carried to its end (log 3). -/
def State.settle (s : State) : State :=
  if s.due = .none then s else s.settleSilent.settleStale.settleRefresh.settleGoBack

/-- An event taken: not while RESET holds the part; after any open tick event; then its own effect. -/
def State.take (s : State) (effect : State → State) : Host.Outcome State Fault Refusal :=
  .next (if s.held then s else effect s.settle)

/-- A step of an open tick event itself: not while RESET holds the part. -/
def State.takeWithin (s : State) (effect : State → State) : Host.Outcome State Fault Refusal :=
  .next (if s.held then s else effect s)

end Sys2Proof.Machine
end

