-- ==== Sys2Proof/Machine/ChannelRequests.lean ====
section
/-! DEFINITION. The binding and channel requests BIND, UNBIND, WRITE_CHANNEL, READ_CHANNEL, ACK_BAND (chapters 3, 4). -/

namespace Sys2Proof.Machine

/-- BIND's own rule: the four checks, the binding entered, an enabled channel cleared to IDLE (R40, R41). -/
def State.doBind (s : State) (p : List Byte) : Answer :=
  match nodeOf (byteAt p 0), nibbleOf (byteAt p 1), slotOf (byteAt p 2) with
  | some a, some ch, some k =>
    if ¬ (s.node a).config.enrolled then s.refuse .notEnrolled
    else if (s.boundSlot a ch).isSome then s.refuse .duplicate
    else if (s.bindingOf k).isSome then s.refuse .inUse
    else
      let s := { s with bindings := insertBinding { node := a, channel := ch, slot := k } s.bindings }
      (s.clearChannel k).tableWritten.okay
  | _, _, _ => s.refuse .badIndex

/-- BIND (R40, R41). -/
def execBind (s : State) : Host.Outcome State Fault Refusal :=
  s.take fun s => s.executeRequest .bind State.doBind

/-- UNBIND's own rule: the binding removed, an enabled channel cleared to IDLE and its outputs handed over (R42, R43). -/
def State.doUnbind (s : State) (p : List Byte) : Answer :=
  match slotOf (byteAt p 0) with
  | none => s.refuse .badIndex
  | some k =>
    if (s.bindingOf k).isNone then s.refuse .notBound
    else
      let s := { s with bindings := s.bindings.filter fun b => b.slot ≠ k }
      (s.clearChannel k).tableWritten.okay

/-- UNBIND (R42, R43). -/
def execUnbind (s : State) : Host.Outcome State Fault Refusal :=
  s.take fun s => s.executeRequest .unbind State.doUnbind

/-- The runtime part of a channel rewritten enabled to enabled: the run cleared, acked set by a change from LATCHING to
TRACKING in HIGH or LOW (R59, R60). -/
def ChannelRuntime.rewritten (r : ChannelRuntime) (before after : AlarmMode) : ChannelRuntime :=
  { r.clearRuns with
    acked := r.acked || decide (before = .latching ∧ after = .tracking ∧ (r.state = .high ∨ r.state = .low)) }

/-- A channel's configuration replaced, and its runtime by the old and new enabled (R57 to R60). -/
def State.rewriteChannel (s : State) (k : Slot) (c : ChannelConfig) : State :=
  let old := s.channel k
  if old.config.enabled ∧ c.enabled then
    s.setChannel k { config := c, runtime := old.runtime.rewritten old.config.mode c.mode }
  else (s.setChannel k { config := c, runtime := old.runtime }).clearChannel k

/-- WRITE_CHANNEL's own rule (R57). -/
def State.doWriteChannel (s : State) (p : List Byte) : Answer :=
  match slotOf (byteAt p 0) with
  | none => s.refuse .badIndex
  | some k =>
    match channelConfigOf (p.drop 1) with
    | none => s.refuse .invalidRecord
    | some c => (s.rewriteChannel k c).tableWritten.okay

/-- WRITE_CHANNEL (R57 to R60). -/
def execWriteChannel (s : State) : Host.Outcome State Fault Refusal :=
  s.take fun s => s.executeRequest .writeChannel State.doWriteChannel

/-- The binding part of READ_CHANNEL's results: bound, node, local_channel; zeros when unbound (R61). -/
def bindingBytes : Option Binding → List Byte
  | none => [0x00, 0, 0]
  | some b => [0x01, b.node.setWidth 8, b.channel.setWidth 8]

/-- The results of READ_CHANNEL (R61, section 12.10). -/
def State.channelResults (s : State) (k : Slot) : List Byte :=
  [indexByte k] ++ (s.channel k).config.bytes ++ (s.channel k).runtime.bytes ++ bindingBytes (s.bindingOf k)

/-- READ_CHANNEL's own rule (R61). -/
def State.doReadChannel (s : State) (p : List Byte) : Answer :=
  match slotOf (byteAt p 0) with
  | none => s.refuse .badIndex
  | some k => s.okayWith (s.channelResults k)

/-- READ_CHANNEL (R61). -/
def execReadChannel (s : State) : Host.Outcome State Fault Refusal :=
  s.take fun s => s.executeRequest .readChannel State.doReadChannel

/-- ACK_BAND's own rule (R76, R77). -/
def State.doAckBand (s : State) (p : List Byte) : Answer :=
  match slotOf (byteAt p 0) with
  | none => s.refuse .badIndex
  | some k => if (s.channel k).latched then (s.acknowledgeBand k).okay else s.refuse .notLatched

/-- ACK_BAND (R76, R77). -/
def execAckBand (s : State) : Host.Outcome State Fault Refusal :=
  s.take fun s => s.executeRequest .ackBand State.doAckBand

end Sys2Proof.Machine
end

