-- ==== Sys2Proof/Machine/EgressEvents.lean ====
section
/-! DEFINITION. The starts of transmissions on the two ports and a transmission's completion. -/

namespace Sys2Proof.Machine

/-- S_PORT_START (R142, R143). -/
def execSPortStart (s : State) : Host.Outcome State Fault Refusal :=
  s.take State.startS

/-- F_PORT_START (R142, R146). -/
def execFPortStart (s : State) : Host.Outcome State Fault Refusal :=
  s.take State.startF

/-- TRANSMISSION_COMPLETE on a port (R148). -/
def execTransmissionComplete (p : Port) (s : State) : Host.Outcome State Fault Refusal :=
  s.take fun s => s.endTransmission p true

end Sys2Proof.Machine
end

