-- ==== Sys2Proof/Machine/ImageEvents.lean ====
section
/-! DEFINITION. The requests COMMIT and READ_IMAGE, and the three ends of a commit's phases (chapter 10). -/

namespace Sys2Proof.Machine

/-- COMMIT's own rule (R189). -/
def State.doCommit (s : State) (_ : List Byte) : Answer :=
  if s.store.commit.isSome then s.refuse .busy
  else s.startCommit.okayWith (bankCode (some s.store.nextTarget) :: halfBytes s.store.nextGeneration)

/-- COMMIT (R189, R190). -/
def execCommit (s : State) : Host.Outcome State Fault Refusal :=
  s.take fun s => s.executeRequest .commit State.doCommit

/-- The results of READ_IMAGE (R195). -/
def State.imageResults (s : State) : List Byte :=
  [bankCode s.store.current] ++ halfBytes s.store.reportedGeneration
    ++ [phaseCode (s.store.commit.map (·.phase)), s.store.lastResult.code, boolCode s.store.dirty]

/-- READ_IMAGE's own rule (R195). -/
def State.doReadImage (s : State) (_ : List Byte) : Answer :=
  s.okayWith s.imageResults

/-- READ_IMAGE (R195). -/
def execReadImage (s : State) : Host.Outcome State Fault Refusal :=
  s.take fun s => s.executeRequest .readImage State.doReadImage

/-- ERASURE_ENDS (R191). -/
def execErasureEnds (s : State) : Host.Outcome State Fault Refusal :=
  s.take State.endErasure

/-- WRITING_ENDS, the medium having stored what it was given or not (R191). -/
def execWritingEnds (m : MediumResult) (s : State) : Host.Outcome State Fault Refusal :=
  s.take fun s => s.endWriting m

/-- READ_BACK_ENDS (R191 to R193). -/
def execReadBackEnds (s : State) : Host.Outcome State Fault Refusal :=
  s.take State.endReadBack

end Sys2Proof.Machine
end

