-- ==== Sys2Proof/Machine/LineEvents.lean ====
section
/-! DEFINITION. The line events of a port: FRAME_START, BYTE_ARRIVAL, FRAME_END, LOSS_OF_SIGNAL, RETURN_OF_SIGNAL. -/

namespace Sys2Proof.Machine

/-- A frame starts: a new assembly; an open one is discarded and counted; nothing while DOWN (R6, R17). -/
def State.frameStart (p : Port) (s : State) : State :=
  if (s.port p).link ≠ .up then s
  else
    let s := if (s.port p).assembly.isSome then s.count p .rxLengthError else s
    s.setPort p { s.port p with assembly := some [] }

/-- FRAME_START (R6). -/
def execFrameStart (p : Port) (s : State) : Host.Outcome State Fault Refusal :=
  s.take (State.frameStart p)

/-- A byte arrives: appended to the open assembly, the 249th closes it and is counted; ignored with none open (R6, R7). -/
def State.byteArrival (p : Port) (b : Byte) (s : State) : State :=
  if (s.port p).link ≠ .up then s
  else
    match (s.port p).assembly with
    | none => s
    | some l =>
      if 248 ≤ l.length then (s.setPort p { s.port p with assembly := none }).count p .rxLengthError
      else s.setPort p { s.port p with assembly := some (l ++ [b]) }

/-- BYTE_ARRIVAL (R6, R7). -/
def execByteArrival (p : Port) (b : Byte) (s : State) : Host.Outcome State Fault Refusal :=
  s.take (State.byteArrival p b)

/-- A frame ends: the assembly closed and judged; ignored with none open (R6, R8). -/
def State.frameEnd (p : Port) (s : State) : State :=
  if (s.port p).link ≠ .up then s
  else
    match (s.port p).assembly with
    | none => s
    | some l => (s.setPort p { s.port p with assembly := none }).judgeEnd p l

/-- FRAME_END (R8, R9). -/
def execFrameEnd (p : Port) (s : State) : Host.Outcome State Fault Refusal :=
  s.take (State.frameEnd p)

/-- The link goes DOWN, the open assembly discarded uncounted, the transmission in flight abandoned (R17, R149). -/
def State.lossOfSignal (p : Port) (s : State) : State :=
  if (s.port p).link ≠ .up then s
  else (s.setPort p { s.port p with link := .down, assembly := none }).endTransmission p false

/-- LOSS_OF_SIGNAL (R17). -/
def execLossOfSignal (p : Port) (s : State) : Host.Outcome State Fault Refusal :=
  s.take (State.lossOfSignal p)

/-- The link becomes UP with no assembly open (R17). -/
def State.returnOfSignal (p : Port) (s : State) : State :=
  if (s.port p).link = .up then s else s.setPort p { s.port p with link := .up, assembly := none }

/-- RETURN_OF_SIGNAL (R17). -/
def execReturnOfSignal (p : Port) (s : State) : Host.Outcome State Fault Refusal :=
  s.take (State.returnOfSignal p)

end Sys2Proof.Machine
end

