-- ==== Sys2Proof/Machine/LogRequests.lean ====
section
/-! DEFINITION. The requests ACK_NOTICES, CAPTURE and READ_CAPTURE (chapters 6 and 9). -/

namespace Sys2Proof.Machine

/-- ACK_NOTICES's own rule (R131, R132). -/
def State.doAckNotices (s : State) (p : List Byte) : Answer :=
  match s.log.acknowledge s.time.counter (halfAt p 0) with
  | none => s.refuse .badAckRange
  | some l => { s with log := l }.okay

/-- ACK_NOTICES (R131, R132). -/
def execAckNotices (s : State) : Host.Outcome State Fault Refusal :=
  s.take fun s => s.executeRequest .ackNotices State.doAckNotices

/-- capture_number: 0 when the buffer holds no capture (R176, R178). -/
def State.captureNumber (s : State) : Byte :=
  match s.capture with
  | none => 0
  | some c => c.number

/-- The number the next capture takes: from 255 it goes to 1 (R178). -/
def State.nextCaptureNumber (s : State) : Byte :=
  if s.captureNumber = 255 then 1 else s.captureNumber + 1

def ChannelRecord.snapshot (c : ChannelRecord) : ChannelSnapshot :=
  { state := c.runtime.state, value := c.runtime.value, valueValid := c.runtime.valueValid, quality := c.runtime.quality }

def OutputRecord.snapshot (o : OutputRecord) : OutputSnapshot :=
  { state := o.runtime.state, issued := o.runtime.issued }

/-- The node entry of an address: unused for 0, 63 and the own address (R176). -/
def State.nodeSnapshot (s : State) (a : Addr) : NodeSnapshot :=
  if a = 0 ∨ a = 63 ∨ a = s.system.ownAddress then
    { used := false, enrolled := false, state := .unknown, silenceCount := 0 }
  else
    let r := s.node a
    { used := true, enrolled := r.config.enrolled, state := r.runtime.state, silenceCount := r.runtime.silenceCount }

/-- A coherent copy of every channel, output and node under the next number (R177, R179). -/
def State.takeCapture (s : State) : Capture :=
  { number := s.nextCaptureNumber, stamp := s.time.counter, channels := tableMap ChannelRecord.snapshot s.channels,
    outputs := tableMap OutputRecord.snapshot s.outputs, nodes := tableOf 64 fun a => s.nodeSnapshot (BitVec.ofNat 6 a) }

/-- CAPTURE's own rule (R177). -/
def State.doCapture (s : State) (_ : List Byte) : Answer :=
  let c := s.takeCapture
  { s with capture := some c }.okayWith (c.number :: quadBytes c.stamp)

/-- CAPTURE (R177, R178). -/
def execCapture (s : State) : Host.Outcome State Fault Refusal :=
  s.take fun s => s.executeRequest .capture State.doCapture

/-- The 16 entries of a page as bytes (R180). -/
def Capture.page (c : Capture) (sec : CaptureSection) (page : Nat) : List Byte :=
  match sec with
  | .channels => ((c.channels.toList.drop (16 * page)).take 16).flatMap ChannelSnapshot.bytes
  | .outputs => ((c.outputs.toList.drop (16 * page)).take 16).flatMap OutputSnapshot.bytes
  | .nodes => ((c.nodes.toList.drop (16 * page)).take 16).flatMap NodeSnapshot.bytes

/-- READ_CAPTURE's own rule (R180). -/
def State.doReadCapture (s : State) (p : List Byte) : Answer :=
  match sectionOf (byteAt p 0) with
  | none => s.refuse .badIndex
  | some sec =>
    if sec.pages ≤ (byteAt p 1).toNat then s.refuse .badIndex
    else
      match s.capture with
      | none => s.refuse .notCaptured
      | some c =>
        s.okayWith ([byteAt p 0, byteAt p 1, c.number] ++ quadBytes c.stamp ++ c.page sec (byteAt p 1).toNat)

/-- READ_CAPTURE (R180). -/
def execReadCapture (s : State) : Host.Outcome State Fault Refusal :=
  s.take fun s => s.executeRequest .readCapture State.doReadCapture

end Sys2Proof.Machine
end

