-- ==== Sys2Proof/Machine/NodeRequests.lean ====
section
/-! DEFINITION. The node requests ENROL_NODE, RETIRE_NODE, READ_NODE (section 2.7). -/

namespace Sys2Proof.Machine

/-- The record an enrolment leaves: a new one starts with a clear runtime, an enrolled one keeps its own (R33). -/
def NodeRecord.enrol (r : NodeRecord) (limit : Half) (policy : SeqPolicy) : NodeRecord :=
  { config := { enrolled := true, silenceLimit := limit, seqPolicy := policy }
    runtime := if r.config.enrolled then r.runtime else .clear }

/-- ENROL_NODE's own rule (R33). -/
def State.doEnrolNode (s : State) (p : List Byte) : Answer :=
  match nodeOf (byteAt p 0) with
  | none => s.refuse .badIndex
  | some a =>
    if a = s.system.ownAddress then s.refuse .badIndex
    else
      match seqPolicyOf (byteAt p 3) with
      | none => s.refuse .invalidRecord
      | some policy => (s.setNode a ((s.node a).enrol (halfAt p 1) policy)).tableWritten.okay

/-- ENROL_NODE (R33, R34). -/
def execEnrolNode (s : State) : Host.Outcome State Fault Refusal :=
  s.take fun s => s.executeRequest .enrolNode State.doEnrolNode

/-- RETIRE_NODE's own rule (R35). -/
def State.doRetireNode (s : State) (p : List Byte) : Answer :=
  match nodeOf (byteAt p 0) with
  | none => s.refuse .badIndex
  | some a =>
    if a = s.system.ownAddress then s.refuse .badIndex
    else if ¬ (s.node a).config.enrolled then s.refuse .notEnrolled
    else if s.bindings.any fun b => b.node = a then s.refuse .inUse
    else (s.setNode a .empty).tableWritten.okay

/-- RETIRE_NODE (R35). -/
def execRetireNode (s : State) : Host.Outcome State Fault Refusal :=
  s.take fun s => s.executeRequest .retireNode State.doRetireNode

/-- The results of READ_NODE (R36, section 12.10). -/
def State.nodeResults (s : State) (a : Addr) : List Byte :=
  let r := s.node a
  [a.setWidth 8, boolCode r.config.enrolled] ++ halfBytes r.config.silenceLimit
    ++ [r.config.seqPolicy.code, r.runtime.state.code] ++ halfOrNone (r.runtime.lastSeq.map fun x => x.setWidth 16)
    ++ halfBytes r.runtime.silenceCount ++ halfBytes r.runtime.gapSum ++ halfBytes r.runtime.dupCount
    ++ halfBytes r.runtime.replayCount ++ stampOrNone r.runtime.lastStamp ++ [BitVec.ofNat 8 (s.bindingCount a)]

/-- READ_NODE's own rule (R36). -/
def State.doReadNode (s : State) (p : List Byte) : Answer :=
  match nodeOf (byteAt p 0) with
  | none => s.refuse .badIndex
  | some a => s.okayWith (s.nodeResults a)

/-- READ_NODE (R36). -/
def execReadNode (s : State) : Host.Outcome State Fault Refusal :=
  s.take fun s => s.executeRequest .readNode State.doReadNode

end Sys2Proof.Machine
end

