-- ==== Sys2Proof/Machine/OutputRequests.lean ====
section
/-! DEFINITION. The output requests WRITE_OUTPUT, READ_OUTPUT, FORCE_OUTPUT, RELEASE_OUTPUT (section 5.7). -/

namespace Sys2Proof.Machine

/-- Whether another enabled output holds a target pair (R105 check 3). -/
def State.targetHeld (s : State) (i : OutIdx) (node : Addr) (index : BitVec 4) : Bool :=
  allOutputs.any fun j =>
    j ≠ i ∧ (s.output j).config.enabled ∧ (s.output j).config.targetNode = node ∧
      (s.output j).config.targetIndex = index

/-- An output placed in NORMAL without a notice, following its source's current value (R104, R106, R107). -/
def State.followSource (s : State) (i : OutIdx) : State :=
  let o := s.output i
  (s.setOutputRuntime i { o.runtime with state := .normal, forced := none }).normalCompute i (s.sourceValue i)

/-- An output judged afresh against its source: NORMAL without a notice, or FALLBACK with its notice (R98, R104,
R106, R107). -/
def State.judgeAfresh (s : State) (i : OutIdx) : State :=
  if s.sourceValid i then s.followSource i else s.enterFallback i

/-- WRITE_OUTPUT on an enabled output that stays enabled with its target pair unchanged (R107). -/
def State.rewriteSameTarget (s : State) (i : OutIdx) : State :=
  match (s.output i).runtime.state with
  | .forced => s
  | .off => s
  | .normal => if s.sourceValid i then s.normalCompute i (s.sourceValue i) else s.enterFallback i
  | .fallback => if s.sourceValid i then s.exitFallback i (s.sourceValue i) else s.entryAction i

/-- WRITE_OUTPUT on an enabled output that stays enabled with its target pair changed (R107). -/
def State.rewriteNewTarget (s : State) (i : OutIdx) : State :=
  let s := s.dropItem i
  let o := s.output i
  let s := s.setOutputRuntime i { o.runtime with issued := none, forced := none }
  if s.sourceValid i then s.followSource i
  else if o.runtime.state = .fallback then s.entryAction i
  else s.enterFallback i

/-- An output's configuration replaced, and its runtime by the old and new enabled (R105 to R107). -/
def State.rewriteOutput (s : State) (i : OutIdx) (c : OutputConfig) : State :=
  let old := s.output i
  if ¬ c.enabled then (s.dropItem i).setOutput i { config := c, runtime := .cleared .off }
  else if ¬ old.config.enabled then (s.setOutput i { config := c, runtime := .cleared .off }).judgeAfresh i
  else
    let s := s.setOutput i { config := c, runtime := old.runtime }
    if c.targetNode = old.config.targetNode ∧ c.targetIndex = old.config.targetIndex then s.rewriteSameTarget i
    else s.rewriteNewTarget i

/-- WRITE_OUTPUT's own rule (R105). -/
def State.doWriteOutput (s : State) (p : List Byte) : Answer :=
  match outputOf (byteAt p 0) with
  | none => s.refuse .badIndex
  | some i =>
    match outputConfigOf s.system.ownAddress (p.drop 1) with
    | none => s.refuse .invalidRecord
    | some c =>
      if c.enabled ∧ s.targetHeld i c.targetNode c.targetIndex then s.refuse .duplicate
      else (s.rewriteOutput i c).tableWritten.okay

/-- WRITE_OUTPUT (R105 to R107). -/
def execWriteOutput (s : State) : Host.Outcome State Fault Refusal :=
  s.take fun s => s.executeRequest .writeOutput State.doWriteOutput

/-- The pending part of READ_OUTPUT's results; FFFFh when there is none (R108). -/
def pendingBytes : Option SetpointItem → List Byte
  | none => [0x00, 0xFF, 0xFF]
  | some it => 0x01 :: halfBytes (it.value.setWidth 16)

/-- The results of READ_OUTPUT (R108, section 12.10). -/
def State.outputResults (s : State) (i : OutIdx) : List Byte :=
  let o := s.output i
  [indexByte i] ++ o.config.bytes ++ [o.runtime.state.code] ++ levelOrNone o.runtime.issued
    ++ levelOrNone o.runtime.target ++ levelOrNone o.runtime.forced ++ halfBytes o.runtime.refreshCount
    ++ pendingBytes (s.pendingItem i)

/-- READ_OUTPUT's own rule (R108). -/
def State.doReadOutput (s : State) (p : List Byte) : Answer :=
  match outputOf (byteAt p 0) with
  | none => s.refuse .badIndex
  | some i => s.okayWith (s.outputResults i)

/-- READ_OUTPUT (R108). -/
def execReadOutput (s : State) : Host.Outcome State Fault Refusal :=
  s.take fun s => s.executeRequest .readOutput State.doReadOutput

/-- An output forced to a value, issued at once (R102). -/
def State.force (s : State) (i : OutIdx) (w : Level) : State :=
  let o := s.output i
  (s.setOutputRuntime i { o.runtime with state := .forced, forced := some w }).issue i w

/-- FORCE_OUTPUT's own rule (R102). -/
def State.doForceOutput (s : State) (p : List Byte) : Answer :=
  match outputOf (byteAt p 0) with
  | none => s.refuse .badIndex
  | some i =>
    if ¬ (s.output i).config.enabled then s.refuse .notEnabled
    else
      match levelOf (halfAt p 1) with
      | none => s.refuse .invalidRecord
      | some w => (s.force i w).okay

/-- FORCE_OUTPUT (R102). -/
def execForceOutput (s : State) : Host.Outcome State Fault Refusal :=
  s.take fun s => s.executeRequest .forceOutput State.doForceOutput

/-- RELEASE_OUTPUT's own rule (R104). -/
def State.doReleaseOutput (s : State) (p : List Byte) : Answer :=
  match outputOf (byteAt p 0) with
  | none => s.refuse .badIndex
  | some i =>
    if (s.output i).runtime.state = .forced then (s.judgeAfresh i).okay else s.refuse .notForced

/-- RELEASE_OUTPUT (R104). -/
def execReleaseOutput (s : State) : Host.Outcome State Fault Refusal :=
  s.take fun s => s.executeRequest .releaseOutput State.doReleaseOutput

end Sys2Proof.Machine
end

