-- ==== Sys2Proof/Machine/ResetEvents.lean ====
section
/-! DEFINITION. RESET_ASSERTED and HARD_RESET (section 10.6). -/

namespace Sys2Proof.Machine

/-- RESET asserted or the supply too low: transmissions and a commit in flight end, and no event is taken (R153, R194,
R196). -/
def State.assertReset (s : State) : State :=
  { s.endInFlight with held := true }

/-- RESET_ASSERTED (R196). -/
def execResetAsserted (s : State) : Host.Outcome State Fault Refusal :=
  s.take State.assertReset

/-- HARD_RESET, with the signal each line shows (R196, R197). It is taken whether RESET was held or not: a power-up or
a release (log 9). -/
def execHardReset (lineF lineS : LinkState) (s : State) : Host.Outcome State Fault Refusal :=
  .next (s.hardReset lineF lineS)

end Sys2Proof.Machine
end

