-- ==== Sys2Proof/Machine/SystemRequests.lean ====
section
/-! DEFINITION. The requests of chapter 8: ECHO, READ_SYSTEM, WRITE_SYSTEM, READ_STATS, RESTART, and an unknown opcode. -/

namespace Sys2Proof.Machine

/-- ECHO's own rule: its parameter bytes unchanged (R165). -/
def State.doEcho (s : State) (p : List Byte) : Answer :=
  s.okayWith p

/-- ECHO (R165). -/
def execEcho (s : State) : Host.Outcome State Fault Refusal :=
  s.take fun s => s.executeRequest .echo State.doEcho

/-- The results of READ_SYSTEM, the fixed identity included (R166, section 12.10). -/
def State.systemResults (s : State) : List Byte :=
  [s.system.ownAddress.setWidth 8] ++ halfBytes s.system.tickPeriod ++ halfBytes s.system.resendTicks
    ++ [s.system.classMask.setWidth 8, s.system.policy.code, 0x0A, 0x31, 0x0C, 0x58, 0x42]
    ++ quadBytes s.time.counter

/-- READ_SYSTEM's own rule (R166). -/
def State.doReadSystem (s : State) (_ : List Byte) : Answer :=
  s.okayWith s.systemResults

/-- READ_SYSTEM (R166). -/
def execReadSystem (s : State) : Host.Outcome State Fault Refusal :=
  s.take fun s => s.executeRequest .readSystem State.doReadSystem

/-- Whether an address is in use by an enrolled node or as an output's target (R167 check 2). -/
def State.addressInUse (s : State) (a : Addr) : Bool :=
  (s.node a).config.enrolled || s.outputs.toList.any fun o => o.config.targetNode = a

/-- WRITE_SYSTEM's own rule (R167, R168). -/
def State.doWriteSystem (s : State) (p : List Byte) : Answer :=
  match systemRecordOf p with
  | none => s.refuse .invalidRecord
  | some r =>
    if s.addressInUse r.ownAddress then s.refuse .inUse
    else { s with system := r }.tableWritten.okay

/-- WRITE_SYSTEM (R167, R168). -/
def execWriteSystem (s : State) : Host.Outcome State Fault Refusal :=
  s.take fun s => s.executeRequest .writeSystem State.doWriteSystem

/-- The statistics of one port as bytes (R169). -/
def PortRecord.statsBytes (r : PortRecord) : List Byte :=
  linkCode r.link :: StatName.all.flatMap fun n => quadBytes (r.stats.get n)

/-- Both ports' counts set to 0 (R19, R169). -/
def State.clearStats (s : State) : State :=
  { s with portF := { s.portF with stats := .zero }, portS := { s.portS with stats := .zero } }

/-- READ_STATS's own rule: the values before the clear (R169). -/
def State.doReadStats (s : State) (p : List Byte) : Answer :=
  match boolOf (byteAt p 0) with
  | none => s.refuse .invalidRecord
  | some clear => (if clear then s.clearStats else s).okayWith (s.portF.statsBytes ++ s.portS.statsBytes)

/-- READ_STATS (R169). -/
def execReadStats (s : State) : Host.Outcome State Fault Refusal :=
  s.take fun s => s.executeRequest .readStats State.doReadStats

/-- RESTART's own rule (R170). -/
def State.doRestart (s : State) (_ : List Byte) : Answer :=
  if s.store.commit.isSome then s.refuse .busy
  else { s with queue := { s.queue with restartPending := true } }.okay

/-- RESTART (R170). -/
def execRestart (s : State) : Host.Outcome State Fault Refusal :=
  s.take fun s => s.executeRequest .restart State.doRestart

/-- UNKNOWN_REQUEST: an entry whose opcode names no request (R160). -/
def execUnknownRequest (s : State) : Host.Outcome State Fault Refusal :=
  s.take State.executeUnknown

end Sys2Proof.Machine
end

