-- ==== Sys2Proof/Machine/TickEvents.lean ====
section
/-! DEFINITION. The Time Base's tick and the tick events of its four owners. An owner's tick event counts first and
then carries out what it found due; both parts are one event (R28, R79, R100, R134; log 3). -/

namespace Sys2Proof.Machine

/-- A tick: the counter advances, a new interval of the current tick period begins, and the tick is handed on to the
four owners. The next tick cannot come before all four have taken the present one (R172, R173; log 4). -/
def State.tick (s : State) : State :=
  if s.time.handedOn ≠ .idle then s
  else
    { s with
      time := { counter := s.time.counter + 1, interval := s.system.tickPeriod,
                handedOn := { nodeTable := true, channelTable := true, outputUnit := true, noticeLog := true } } }

/-- TICK (R172). -/
def execTick (s : State) : Host.Outcome State Fault Refusal :=
  s.take State.tick

/-- The Node Table takes a tick: the counting records count, and those at their limit are due to go SILENT (R28). -/
def State.nodeTableTick (s : State) : State :=
  if ¬ s.time.handedOn.nodeTable then s
  else
    let s := { s with
      time := { s.time with handedOn := { s.time.handedOn with nodeTable := false } }
      nodes := tableMap NodeRecord.tick s.nodes }
    { s with due := { s.due with silent := allNodes.filter fun a => (s.node a).silentDue } }

/-- NODE_TABLE_TICK (R28). -/
def execNodeTableTick (s : State) : Host.Outcome State Fault Refusal :=
  s.take State.nodeTableTick

/-- The next record due goes SILENT, in full (R28, R29). -/
def State.nextSilent (s : State) : State :=
  match s.due.silent with
  | [] => s.settle
  | a :: rest => { s.silenceNode a with due := { s.due with silent := rest } }

/-- NODE_SILENT (R28, R29). -/
def execNodeSilent (s : State) : Host.Outcome State Fault Refusal :=
  s.takeWithin State.nextSilent

/-- The Channel Table takes a tick: the counting channels count, and those at their limit are due to go STALE (R79). -/
def State.channelTableTick (s : State) : State :=
  if ¬ s.time.handedOn.channelTable then s
  else
    let s := { s with
      time := { s.time with handedOn := { s.time.handedOn with channelTable := false } }
      channels := tableMap ChannelRecord.tick s.channels }
    { s with due := { s.due with stale := allSlots.filter fun k => (s.channel k).staleDue } }

/-- CHANNEL_TABLE_TICK (R79). -/
def execChannelTableTick (s : State) : Host.Outcome State Fault Refusal :=
  s.take State.channelTableTick

/-- The next channel due enters STALE with cause CHANNEL, in full (R79, R80). -/
def State.nextStale (s : State) : State :=
  match s.due.stale with
  | [] => s.settle
  | k :: rest => { s.staleByLimit k with due := { s.due with stale := rest } }

/-- CHANNEL_STALE (R80). -/
def execChannelStale (s : State) : Host.Outcome State Fault Refusal :=
  s.takeWithin State.nextStale

/-- The Output Unit takes a tick: the refreshing outputs count, and those at their refresh are due (R100). -/
def State.outputUnitTick (s : State) : State :=
  if ¬ s.time.handedOn.outputUnit then s
  else
    let s := { s with
      time := { s.time with handedOn := { s.time.handedOn with outputUnit := false } }
      outputs := tableMap OutputRecord.tick s.outputs }
    { s with due := { s.due with refresh := allOutputs.filter fun i => (s.output i).refreshDue } }

/-- OUTPUT_UNIT_TICK (R100). -/
def execOutputUnitTick (s : State) : Host.Outcome State Fault Refusal :=
  s.take State.outputUnitTick

/-- The next output due: refresh_count reset and the refresh action carried out (R100). -/
def State.nextRefresh (s : State) : State :=
  match s.due.refresh with
  | [] => s.settle
  | i :: rest => { s.refreshOutput i with due := { s.due with refresh := rest } }

/-- REFRESH (R100). -/
def execRefresh (s : State) : Host.Outcome State Fault Refusal :=
  s.takeWithin State.nextRefresh

/-- The Notice Log takes a tick: the go-back condition is checked (R134). -/
def State.noticeLogTick (s : State) : State :=
  if ¬ s.time.handedOn.noticeLog then s
  else
    { s with
      time := { s.time with handedOn := { s.time.handedOn with noticeLog := false } }
      due := { s.due with goBack := s.log.goBackDue s.time.counter s.system.resendTicks } }

/-- NOTICE_LOG_TICK (R134). -/
def execNoticeLogTick (s : State) : Host.Outcome State Fault Refusal :=
  s.take State.noticeLogTick

/-- The go-back found due: every SENT entry becomes RESEND (R134, R135). -/
def State.takeGoBack (s : State) : State :=
  if s.due.goBack then s.settleGoBack else s.settle

/-- GO_BACK (R134, R135). -/
def execGoBack (s : State) : Host.Outcome State Fault Refusal :=
  s.takeWithin State.takeGoBack

end Sys2Proof.Machine
end

