-- ==== Sys2Proof/Machine/Dispatch.lean ====
section
/-! DEFINITION. exec: one arm per command, each one direct call of its meaning. -/

namespace Sys2Proof.Machine

/-- A command's effect on everything but the queue of commands. -/
def exec (i : Instr) (s : State) : Host.Outcome State Fault Refusal :=
  match i with
  -- line events
  | .frameStart port => Sys2Proof.Machine.execFrameStart port s
  | .byteArrival port byte => Sys2Proof.Machine.execByteArrival port byte s
  | .frameEnd port => Sys2Proof.Machine.execFrameEnd port s
  | .lossOfSignal port => Sys2Proof.Machine.execLossOfSignal port s
  | .returnOfSignal port => Sys2Proof.Machine.execReturnOfSignal port s
  -- the time base and the four owners of a tick
  | .tick => Sys2Proof.Machine.execTick s
  | .nodeTableTick => Sys2Proof.Machine.execNodeTableTick s
  | .nodeSilent => Sys2Proof.Machine.execNodeSilent s
  | .channelTableTick => Sys2Proof.Machine.execChannelTableTick s
  | .channelStale => Sys2Proof.Machine.execChannelStale s
  | .outputUnitTick => Sys2Proof.Machine.execOutputUnitTick s
  | .refresh => Sys2Proof.Machine.execRefresh s
  | .noticeLogTick => Sys2Proof.Machine.execNoticeLogTick s
  | .goBack => Sys2Proof.Machine.execGoBack s
  -- egress
  | .sPortStart => Sys2Proof.Machine.execSPortStart s
  | .fPortStart => Sys2Proof.Machine.execFPortStart s
  | .transmissionComplete port => Sys2Proof.Machine.execTransmissionComplete port s
  -- executions of requests
  | .echo => Sys2Proof.Machine.execEcho s
  | .readSystem => Sys2Proof.Machine.execReadSystem s
  | .writeSystem => Sys2Proof.Machine.execWriteSystem s
  | .readStats => Sys2Proof.Machine.execReadStats s
  | .restart => Sys2Proof.Machine.execRestart s
  | .enrolNode => Sys2Proof.Machine.execEnrolNode s
  | .retireNode => Sys2Proof.Machine.execRetireNode s
  | .readNode => Sys2Proof.Machine.execReadNode s
  | .bind => Sys2Proof.Machine.execBind s
  | .unbind => Sys2Proof.Machine.execUnbind s
  | .writeChannel => Sys2Proof.Machine.execWriteChannel s
  | .readChannel => Sys2Proof.Machine.execReadChannel s
  | .ackBand => Sys2Proof.Machine.execAckBand s
  | .writeOutput => Sys2Proof.Machine.execWriteOutput s
  | .readOutput => Sys2Proof.Machine.execReadOutput s
  | .forceOutput => Sys2Proof.Machine.execForceOutput s
  | .releaseOutput => Sys2Proof.Machine.execReleaseOutput s
  | .ackNotices => Sys2Proof.Machine.execAckNotices s
  | .capture => Sys2Proof.Machine.execCapture s
  | .readCapture => Sys2Proof.Machine.execReadCapture s
  | .commit => Sys2Proof.Machine.execCommit s
  | .readImage => Sys2Proof.Machine.execReadImage s
  | .unknownRequest => Sys2Proof.Machine.execUnknownRequest s
  -- the image store's phases
  | .erasureEnds => Sys2Proof.Machine.execErasureEnds s
  | .writingEnds medium => Sys2Proof.Machine.execWritingEnds medium s
  | .readBackEnds => Sys2Proof.Machine.execReadBackEnds s
  -- reset
  | .resetAsserted => Sys2Proof.Machine.execResetAsserted s
  | .hardReset lineF lineS => Sys2Proof.Machine.execHardReset lineF lineS s

end Sys2Proof.Machine
end

