-- ==== Sys2Proof/Safety.lean ====
section
/-! DEFINITION. What counts as a safe state: the laws the spec says hold at all times, block by block, and the words the
statements use (ready, an answer). -/

namespace Sys2Proof.Machine

/-! ## Words of the statements -/

/-- The part takes events, and no tick event is open: the usual state between two events. -/
abbrev State.Ready (s : State) : Prop :=
  s.held = false ∧ s.due = .none

/-- The Executor's next entry is a request of this opcode with these parameters (R159, R160). -/
abbrev State.Executes (s : State) (e : RequestEntry) (kind : RequestKind) (params : List Byte) : Prop :=
  s.Ready ∧ s.nextToExecute = some e ∧ e.opcode = kind.opcode ∧ e.params = params

/-- t once the entry e has been answered in it: the oldest WAITING entry is DONE with a response of this status and these
results, whose lost count is the one t stands at and whose summary is t's; lost_count is then 0 (R157, R159, R161). -/
def State.withAnswer (t : State) (e : RequestEntry) (status : Status) (results : List Byte) : State :=
  { t with
    queue :=
      { t.queue with
        lostCount := 0
        entries := updateFirst RequestEntry.isWaiting
          (fun e' => { e' with
            state := .done
            response := some { tag := e.tag, opcode := e.opcode, status := status, repeated := false,
                               lost := t.queue.lostCount, summary := t.summary, results := results } })
          t.queue.entries } }

/-- The command that executes a request of a kind. -/
def RequestKind.command : RequestKind → Instr
  | .echo => .echo
  | .readSystem => .readSystem
  | .writeSystem => .writeSystem
  | .readStats => .readStats
  | .restart => .restart
  | .enrolNode => .enrolNode
  | .retireNode => .retireNode
  | .readNode => .readNode
  | .bind => .bind
  | .unbind => .unbind
  | .writeChannel => .writeChannel
  | .readChannel => .readChannel
  | .ackBand => .ackBand
  | .writeOutput => .writeOutput
  | .readOutput => .readOutput
  | .forceOutput => .forceOutput
  | .releaseOutput => .releaseOutput
  | .ackNotices => .ackNotices
  | .capture => .capture
  | .readCapture => .readCapture
  | .commit => .commit
  | .readImage => .readImage

/-- A port that is UP has assembled the bytes l of a frame, and the part takes events (R6). -/
abbrev State.Receives (s : State) (p : Port) (l : List Byte) : Prop :=
  s.Ready ∧ (s.port p).link = .up ∧ (s.port p).assembly = some l

/-- The F-port has assembled a good frame that passes the source check and is not for the part (R8, R10, R11). -/
abbrev State.FromField (s : State) (l : List Byte) : Prop :=
  s.Receives .f l ∧ judgeFrame l = .good ∧ addressOf (byteAt l 1) ≠ 0 ∧ addressOf (byteAt l 1) ≠ 63 ∧
    addressOf (byteAt l 1) ≠ s.system.ownAddress ∧ addressOf (byteAt l 0) ≠ s.system.ownAddress

/-- The state once a good frame's assembly is closed and rx_good has counted it (R8, R9). -/
def State.received (s : State) (p : Port) : State :=
  s.setPort p { s.port p with assembly := none, stats := (s.port p).stats.inc .rxGood }

/-- The sequence judgement of an accepted frame: how many frames are missing before it and the notice it raises (R23,
R24, R25). -/
def NodeRecord.acceptedAs (r : NodeRecord) (restart : Bool) (seq : Byte) (missing : Nat)
    (notice : Option (NoticeKind × Half)) : Prop :=
  (restart = true ∧ missing = 0 ∧ notice = some (.nodeRestart, seq.setWidth 16)) ∨
    (restart = false ∧ missing = 0 ∧ notice = none ∧
      (r.config.seqPolicy = .unchecked ∨ r.runtime.lastSeq = none ∨
        ∃ last, r.runtime.lastSeq = some last ∧ (seq - last).toNat = 1)) ∨
    (restart = false ∧ r.config.seqPolicy = .checked ∧
      ∃ last, r.runtime.lastSeq = some last ∧ 2 ≤ (seq - last).toNat ∧ (seq - last).toNat ≤ 128 ∧
        missing = (seq - last).toNat - 1 ∧ notice = some (.seqGap, BitVec.ofNat 16 ((seq - last).toNat - 1)))

/-- The log after the notices of an accepted frame: the sequence notice, then NODE_BACK of a SILENT node (R27). -/
def State.acceptedLog (s : State) (a : Addr) (seq : Byte) (notice : Option (NoticeKind × Half)) : NoticeLog :=
  let l :=
    match notice with
    | none => s.log
    | some n => s.log.raise s.system.classMask s.time.counter n.1 (.node a) n.2
  if (s.node a).runtime.state = .silent then
    l.raise s.system.classMask s.time.counter .nodeBack (.node a) (seq.setWidth 16)
  else l

/-- What an output issues on entry into FALLBACK, by its policy (R98, R99); none for nothing. -/
def OutputRecord.entryIssue (o : OutputRecord) : Option Level :=
  match o.config.fallback with
  | .hold => none
  | .safe => some o.config.safe
  | .ramp => some (rampStep o.config.slew o.config.safe o.runtime.issued)

/-- What an output issues at its refresh, by its state and policy (R100); none for nothing. -/
def OutputRecord.refreshIssue (o : OutputRecord) : Option Level :=
  match o.runtime.state with
  | .off => none
  | .normal =>
    match o.runtime.issued, o.runtime.target with
    | some issued, some target =>
      some ((normalStep o.config.deadband o.config.slew target issued).getD issued)
    | some issued, none => some issued
    | none, _ => none
  | .fallback =>
    match o.config.fallback with
    | .hold => o.runtime.issued
    | .safe => some o.config.safe
    | .ramp => some (rampStep o.config.slew o.config.safe o.runtime.issued)
  | .forced => o.runtime.forced

/-- An output's record with a value issued, if any (R93). -/
def OutputRecord.withIssue (o : OutputRecord) : Option Level → OutputRecord
  | none => o
  | some w => { o with runtime := { o.runtime with issued := some w } }

/-- An output's record once it has entered FALLBACK with its entry action (R98). -/
def OutputRecord.fellBack (o : OutputRecord) : OutputRecord :=
  { o with runtime := { o.runtime with state := .fallback, forced := none } }.withIssue o.entryIssue

/-- What the NORMAL computation issues toward a target, if anything (R95 steps 2 to 5). -/
def OutputRecord.normalIssue (o : OutputRecord) (target : Level) : Option Level :=
  match o.runtime.issued with
  | none => some target
  | some issued => normalStep o.config.deadband o.config.slew target issued

/-- The setpoint set once an output has issued a value, if any (R110). -/
def State.withItem (s : State) (i : OutIdx) : Option Level → List SetpointItem
  | none => s.setpoints
  | some w =>
    placeItem s.setpoints
      { output := i, node := (s.output i).config.targetNode, index := (s.output i).config.targetIndex, value := w }

/-- The setpoint set once the outputs of a list have issued, in the list's order, what `issue` says of each, if anything
(R110). -/
def State.withItems (s : State) (issue : OutputRecord → Option Level) (l : List OutIdx) : List SetpointItem :=
  l.foldl (fun set i => State.withItem { s with setpoints := set } i (issue (s.output i))) s.setpoints

/-- A log once a notice has been raised for each output of a list, in the list's order, its value the output's index
(R97, R98). -/
def State.outputNotices (s : State) (log : NoticeLog) (kind : NoticeKind) (l : List OutIdx) : NoticeLog :=
  l.foldl (fun log i => log.raise s.system.classMask s.time.counter kind (.output i) (BitVec.ofNat 16 i.val)) log

/-- The outputs handed over when the channel at a slot leaves the state it is in for one without a valid value, in
ascending order: enabled, naming the slot and in NORMAL; none where it holds no valid value (R84). -/
def State.handedOver (s : State) (k : Slot) : List OutIdx :=
  allOutputs.filter fun i => decide ((s.channel k).runtime.state.isValid = true ∧ (s.output i).follows k = true ∧
    (s.output i).runtime.state = .normal)

/-- An output's record after a valid reading of its source with value v (R96, R97). -/
def OutputRecord.afterReading (o : OutputRecord) (v : Half) : OutputRecord :=
  match o.runtime.state with
  | .off => o
  | .forced => { o with runtime := { o.runtime with target := some (curve o.config.points v) } }
  | .normal | .fallback =>
    { o with runtime := { o.runtime with state := .normal, target := some (curve o.config.points v) } }.withIssue
      (o.normalIssue (curve o.config.points v))

/-- What an output issues at a valid reading of its source with value v (R96, R97); none for nothing. -/
def OutputRecord.readingIssue (v : Half) (o : OutputRecord) : Option Level :=
  match o.runtime.state with
  | .off => none
  | .forced => none
  | .normal | .fallback => o.normalIssue (curve o.config.points v)

/-- The slot at which a reading of a node is supervised: the one its key is bound to, if its channel is enabled (R47). -/
def State.supervisedAt (s : State) (a : Addr) (r : Reading) : Option Slot :=
  (s.boundSlot a r.channel).filter fun k => (s.channel k).config.enabled

/-- The value and quality of a reading at a slot after conditioning, none for a BAD reading (R48, R49). -/
def State.conditioned (s : State) (k : Slot) (r : Reading) : Option (Half × Quality) :=
  r.quality.bind fun q => if q = .bad then none else some ((s.channel k).config.condition r.value q)

/-- The tables once a reading of a node has been carried through its stages (R46, R47, R50): the channel first, then the
outputs that name its slot. -/
def State.readingTaken (s : State) (a : Addr) (u : State) (r : Reading) : State :=
  match s.supervisedAt a r with
  | none => u
  | some k =>
    match s.conditioned k r with
    | none => u.badReading k
    | some d => (u.validReading k d.1 d.2).outputReading k d.1

/-- What a reading of a node leaves in the forwarded frame, by the channel's forward policy: the reading as received, the
reading rewritten, or nothing (R52, R53). -/
def State.readingKept (s : State) (a : Addr) (r : Reading) : Option Reading :=
  match s.supervisedAt a r with
  | none => some r
  | some k =>
    match (s.channel k).config.forward, s.conditioned k r with
    | .raw, _ => some r
    | .strip, _ => none
    | .conditioned, none => some r
    | .conditioned, some d => some { head := (r.head &&& 0xCF) ||| (d.2.code <<< 4), value := d.1 }

/-- A reading of a node is rewritten under R52 or removed under R53. -/
def State.readingChanges (s : State) (a : Addr) (r : Reading) : Prop :=
  ∃ k, s.supervisedAt a r = some k ∧
    ((s.channel k).config.forward = .strip ∨
      ((s.channel k).config.forward = .conditioned ∧ s.conditioned k r ≠ none))

/-- The 46 bytes of an output record spell a configuration: every byte but those of the pairs beyond the point count, which
are not part of the configuration (R89, section 12.9). -/
def OutputConfig.spelledBy (c : OutputConfig) (record : List Byte) : Prop :=
  record.length = 46 ∧ ∀ j, j < 5 + 4 * c.points.length ∨ (37 ≤ j ∧ j < 46) → byteAt record j = byteAt c.bytes j

/-- A field of an output record fails a condition of R89, the own address being `own` (section 12.9). -/
def outputRecordBad (own : Addr) (record : List Byte) : Prop :=
  1 < (byteAt record 0).toNat ∨ (byteAt record 1).toNat = 0 ∨ 62 < (byteAt record 1).toNat ∨
    byteAt record 1 = own.setWidth 8 ∨ 15 < (byteAt record 2).toNat ∨ 127 < (byteAt record 3).toNat ∨
    (byteAt record 4).toNat < 2 ∨ 8 < (byteAt record 4).toNat ∨
    (∃ j, j < (byteAt record 4).toNat ∧ 4095 < (halfAt record (7 + 4 * j)).toNat) ∨
    (∃ j, j + 1 < (byteAt record 4).toNat ∧ (halfAt record (9 + 4 * j)).toInt ≤ (halfAt record (5 + 4 * j)).toInt) ∨
    4095 < (halfAt record 37).toNat ∨ 4095 < (halfAt record 39).toNat ∨ 2 < (byteAt record 43).toNat ∨
    4095 < (halfAt record 44).toNat

/-- The store after a table write answered OK: dirty, and written_since_start while a commit is in flight (R186). -/
abbrev State.storeWritten (s : State) : ImageStore :=
  { s.store with dirty := true, commit := s.store.commit.map fun j => { j with writtenSinceStart := true } }

/-! ## Ports (R6, R7, R17, R140) -/

/-- A forward queue holds at most 8 frames, an assembly at most 248 bytes, and a port that is DOWN has neither an open
assembly nor a transmission. -/
abbrev PortRecord.Lawful (r : PortRecord) : Prop :=
  r.forwardQueue.length ≤ 8 ∧ (∀ l ∈ r.assembly, l.length ≤ 248) ∧
    (r.link = .down → r.assembly = none ∧ r.transmitter = none)

abbrev State.PortsLawful (s : State) : Prop :=
  s.portF.Lawful ∧ s.portS.Lawful ∧ s.egress.starvationCount ≤ 4

/-- Every frame waiting in a forward queue or in flight passes the three tests of R8 (R1, R141). -/
abbrev State.FramesGood (s : State) : Prop :=
  (∀ f ∈ s.portF.forwardQueue ++ s.portS.forwardQueue, judgeFrame f = .good) ∧
    (∀ t ∈ s.portF.transmitter, judgeFrame t.frame = .good) ∧ (∀ t ∈ s.portS.transmitter, judgeFrame t.frame = .good)

/-- Every response held has at most 232 bytes of results, so that its frame's payload is at most 240 (section 12.3). -/
abbrev State.ResultsFit (s : State) : Prop :=
  (∀ e ∈ s.queue.entries, ∀ r ∈ e.response, r.results.length ≤ 232) ∧
    (∀ m ∈ s.queue.memory, m.response.results.length ≤ 232)

/-! ## The Notice Log (R118, R120, R121, R123, R125) -/

/-- The entries' numbers run on by one, modulo 65536, from a first number (R121). -/
def numberedFrom : Half → List NoticeEntry → Bool
  | _, [] => true
  | n, e :: l => decide (e.number = n) && numberedFrom (n + 1) l

/-- SENT before RESEND before NEW (R120). -/
def SendState.rank : SendState → Nat
  | .sent => 0
  | .resend => 1
  | .new => 2

/-- The log's laws: numbers consecutive up to next_number (R121); SENT, then RESEND, then NEW (R120); at most 31
entries that are not OVERFLOW and at most one that is (R120); at most one NEW entry for a subject (R123); a subject none
exactly for the SYSTEM kinds (R118); sent_stamp none exactly while NEW; lost_since_marker other than 0 only while the
OVERFLOW entry is SENT (R125). -/
abbrev NoticeLog.Lawful (l : NoticeLog) : Prop :=
  numberedFrom (l.nextNumber - BitVec.ofNat 16 l.entries.length) l.entries = true ∧
    l.entries.Pairwise (fun e e' => e.sendState.rank ≤ e'.sendState.rank) ∧
    l.ordinaryCount ≤ 31 ∧
    l.entries.countP (fun e => e.kind = .overflow) ≤ 1 ∧
    l.entries.Pairwise (fun e e' =>
      ¬ (e.sendState = .new ∧ e'.sendState = .new ∧ e.subject = e'.subject ∧ e.subject ≠ .none)) ∧
    (∀ e ∈ l.entries, (e.subject = .none ↔ e.kind.noticeClass = .system)) ∧
    (∀ e ∈ l.entries, (e.sendState = .new ↔ e.sentStamp = none)) ∧
    (l.lostSinceMarker ≠ 0 → ∃ e ∈ l.entries, e.kind = .overflow ∧ e.sendState = .sent)

/-! ## The Request Queue (R155, R156, R162, R171) -/

/-- The queue's laws: at most 4 entries; a response exactly in an entry that is not WAITING; only the head SENDING, and
it is SENDING exactly while its response is in flight; no two entries with one tag and seq; a pending restart has its
RESTART's answer in the queue. While RESET holds the part its transmissions have ended, so the flight is not asked. -/
abbrev State.QueueLawful (s : State) : Prop :=
  s.queue.entries.length ≤ 4 ∧
    (∀ e ∈ s.queue.entries, (e.state = .waiting ↔ e.response = none)) ∧
    (∀ e ∈ s.queue.entries.tail, e.state ≠ .sending) ∧
    s.queue.entries.Pairwise (fun e e' => ¬ (e.tag = e'.tag ∧ e.seq = e'.seq)) ∧
    (s.queue.restartPending = true → ∃ e ∈ s.queue.entries, e.isRestart = true) ∧
    (s.held = false →
      ((∃ e ∈ s.queue.entries.head?, e.state = .sending) ↔
        ∃ t ∈ s.portS.transmitter, t.source = .response)) ∧
    (∀ t ∈ s.portF.transmitter, t.source ≠ .response)

/-! ## The configuration (R20, R38, R44, R89, R90, R167, R183) -/

/-- The node configuration of an address in an image. -/
def Image.nodeAt (img : Image) (a : Addr) : NodeConfig :=
  if a = 0 then .empty else img.nodes[a.toNat - 1]?.getD .empty

/-- The laws an image, and the live tables, obey: the System Record in its ranges (R167); the own address not enrolled,
an unenrolled record empty (R20); the Binding Table's three laws and its order (R38); every channel configuration valid
(R44); every output configuration valid and no two enabled outputs with one target pair (R89, R90). -/
abbrev Image.Lawful (img : Image) : Prop :=
  (1 ≤ img.system.ownAddress.toNat ∧ img.system.ownAddress.toNat ≤ 62) ∧
    (1 ≤ img.system.tickPeriod.toNat ∧ img.system.tickPeriod.toNat ≤ 1000) ∧
    img.system.resendTicks ≠ 0 ∧
    (img.nodeAt img.system.ownAddress).enrolled = false ∧
    (∀ a : Addr, (img.nodeAt a).enrolled = false → img.nodeAt a = .empty) ∧
    img.bindings.Pairwise (fun b b' => b.slot < b'.slot) ∧
    img.bindings.Pairwise (fun b b' => ¬ (b.node = b'.node ∧ b.channel = b'.channel)) ∧
    (∀ b ∈ img.bindings, (img.nodeAt b.node).enrolled = true) ∧
    (∀ k : Slot, img.channels[k.val].valid = true) ∧
    (∀ i : OutIdx, img.outputs[i.val].valid img.system.ownAddress = true) ∧
    (∀ i j : OutIdx, i ≠ j → img.outputs[i.val].enabled = true → img.outputs[j.val].enabled = true →
      ¬ (img.outputs[i.val].targetNode = img.outputs[j.val].targetNode ∧
        img.outputs[i.val].targetIndex = img.outputs[j.val].targetIndex))

/-- The image a bank's storage holds whole, if any. -/
def StoredImage.held : StoredImage → Option Image
  | .intact img => some img
  | .erased => none
  | .damaged => none

/-- A bank holds a lawful image or none (R183). -/
abbrev Bank.Lawful (b : Bank) : Prop :=
  ∀ img ∈ b.image.held, img.Lawful

/-- The live tables are lawful, and an unenrolled record's runtime is empty (R20, R183). -/
abbrev State.TablesLawful (s : State) : Prop :=
  s.liveImage.Lawful ∧ (∀ a : Addr, (s.node a).config.enrolled = false → s.node a = .empty)

/-- Every image the store holds is lawful: the two banks' and a commit's copy (R183, R190). -/
abbrev ImageStore.ImagesLawful (st : ImageStore) : Prop :=
  st.bankA.Lawful ∧ st.bankB.Lawful ∧ (∀ j ∈ st.commit, j.copy.Lawful)

/-- The Image Store's laws: the bank being written is never the current bank and has an erased integrity word; the
current bank is valid (R184, R185, R191). -/
abbrev ImageStore.Lawful (st : ImageStore) : Prop :=
  (∀ j ∈ st.commit, st.current ≠ some j.target ∧ (st.bank j.target).integrity = 0xFFFFFFFF) ∧
    (∀ id ∈ st.current, (st.bank id).load.isSome = true)

/-! ## Channels (R63, R64, R80) -/

/-- The laws of a channel record: OFF exactly when disabled, a valid value exactly in IN_BAND, HIGH and LOW, a stale
cause exactly in STALE, and a run only in the states and within the counts R64 names. -/
abbrev ChannelRecord.Lawful (c : ChannelRecord) : Prop :=
  (c.runtime.state = .off ↔ c.config.enabled = false) ∧
    c.runtime.valueValid = c.runtime.state.isValid ∧
    (c.runtime.staleCause = .none ↔ c.runtime.state ≠ .stale) ∧
    (c.runtime.runDir = .none → c.runtime.runCount = 0) ∧
    (c.runtime.runDir = .up ∨ c.runtime.runDir = .down →
      c.runtime.state = .inBand ∧ c.runtime.runCount ≤ c.config.assertCount) ∧
    (c.runtime.runDir = .release →
      (c.runtime.state = .high ∨ c.runtime.state = .low) ∧ c.runtime.runCount ≤ c.config.releaseCount)

/-- Every channel record is lawful, and a channel with a valid value is named by a binding (R63). -/
abbrev State.ChannelsLawful (s : State) : Prop :=
  ∀ k : Slot, (s.channel k).Lawful ∧
    ((s.channel k).runtime.state.isValid = true → ∃ b ∈ s.bindings, b.slot = k)

/-! ## Outputs (R91, R92, R109) -/

/-- The laws of an output record's runtime: OFF exactly when disabled, and then cleared; forced held exactly in FORCED;
in NORMAL, issued and target are held (R91, R100). -/
abbrev OutputRecord.Lawful (o : OutputRecord) : Prop :=
  (o.runtime.state = .off ↔ o.config.enabled = false) ∧
    (o.runtime.state = .off → o.runtime = .cleared .off) ∧
    (o.runtime.forced.isSome = true ↔ o.runtime.state = .forced) ∧
    (o.runtime.state = .normal → o.runtime.issued.isSome = true ∧ o.runtime.target.isSome = true)

/-- Every output record is lawful; an output in NORMAL has a valid source and one in FALLBACK an invalid one (R92). -/
abbrev State.OutputsLawful (s : State) : Prop :=
  ∀ i : OutIdx, (s.output i).Lawful ∧
    ((s.output i).runtime.state = .normal → s.sourceValid i = true) ∧
    ((s.output i).runtime.state = .fallback → s.sourceValid i = false)

/-- The setpoint set holds at most one item per output, each of an enabled output with its target pair (R109). -/
abbrev State.SetpointsLawful (s : State) : Prop :=
  s.setpoints.Pairwise (fun x y => x.output ≠ y.output) ∧
    ∀ it ∈ s.setpoints, (s.output it.output).config.enabled = true ∧
      it.node = (s.output it.output).config.targetNode ∧ it.index = (s.output it.output).config.targetIndex

/-! ## Open tick events (R28, R79, R100, R134) -/

/-- At most one owner's tick event is open, and what it has still to do is due: each once. -/
abbrev State.DueLawful (s : State) : Prop :=
  s.due.silent.Nodup ∧ (∀ a ∈ s.due.silent, (s.node a).silentDue = true) ∧
    s.due.stale.Nodup ∧ (∀ k ∈ s.due.stale, (s.channel k).staleDue = true) ∧
    s.due.refresh.Nodup ∧ (∀ i ∈ s.due.refresh, (s.output i).refreshDue = true) ∧
    (s.due.silent ≠ [] → s.due.stale = [] ∧ s.due.refresh = [] ∧ s.due.goBack = false) ∧
    (s.due.stale ≠ [] → s.due.refresh = [] ∧ s.due.goBack = false) ∧
    (s.due.refresh ≠ [] → s.due.goBack = false)

/-- All the laws together: a safe state. -/
abbrev State.Safe (s : State) : Prop :=
  s.PortsLawful ∧ s.FramesGood ∧ s.ResultsFit ∧ s.log.Lawful ∧ s.QueueLawful ∧ s.TablesLawful ∧
    s.store.ImagesLawful ∧ s.store.Lawful ∧ s.ChannelsLawful ∧ s.OutputsLawful ∧ s.SetpointsLawful ∧ s.DueLawful

end Sys2Proof.Machine
end

