-- ==== Sys2Proof/Certificates/Slice0/Obligations.lean ====
section
/-! DEFINITION. The statements for the provers. Each def states one property of the model; OBLIGATIONS.json says which
rules of the spec it rests on. -/

open Sys2Proof Sys2Proof.Machine

/-! ## The machine as a whole -/

/-- A step runs the command at the front of the queue on the state with the queue's rest, and idles on an empty queue
(the model's own convention, log 2). -/
def Obligations.StepTakesFrontCommand : Prop :=
  (∀ (s : State) (c : Instr) (rest : List Instr), s.pending = c :: rest → step s = exec c { s with pending := rest }) ∧
    (∀ s : State, s.pending = [] → step s = .next s)

/-- Every command completes in every state, and none touches the queue of commands. -/
def Obligations.EveryCommandCompletes : Prop :=
  ∀ (c : Instr) (s : State), ∃ t : State, exec c s = .next t ∧ t.pending = s.pending

/-- RESET_ASSERTED ends what is in flight and holds the part, changing nothing else; while it holds the part, every command
but the hard reset leaves the state as it is (R153, R194, R196). That a bank whose writing is cut short still holds what
its erasure left is the model's choice (log 22). -/
def Obligations.ResetHoldsThePart : Prop :=
  (∀ (c : Instr) (s : State), s.held = true → (∀ lineF lineS, c ≠ .hardReset lineF lineS) → exec c s = .next s) ∧
  (∀ s : State, s.Ready →
    exec .resetAsserted s = .next { s with
      held := true
      portF := { s.portF with transmitter := none }
      portS := { s.portS with transmitter := none }
      store := { s.store with commit := none } })

/-- Every other event finds an open tick event carried to its end (R28, R79, R100, R134; the model's reading, log 3):
carried to its end, the event leaves nothing due, and the command acts as on the state so reached. The end is the one the
tick event's own commands reach: with nothing due it is the state itself, each of them that finds work of its kind at the
front leads to a state with the same end, and one that finds none of its kind goes to the end at once. -/
def Obligations.OpenTickEventEndsFirst : Prop :=
  (∀ (c : Instr) (s : State), s.held = false →
    (∀ lineF lineS, c ≠ .hardReset lineF lineS) → c ≠ .nodeSilent → c ≠ .channelStale → c ≠ .refresh → c ≠ .goBack →
    s.settle.due = .none ∧ s.settle.held = false ∧ exec c s = exec c s.settle) ∧
  (∀ s : State, s.due = .none → s.settle = s) ∧
  (∀ s : State, s.held = false →
    (s.due.silent ≠ [] → ∃ t : State, exec .nodeSilent s = .next t ∧ t.settle = s.settle) ∧
    (s.due.silent = [] → exec .nodeSilent s = .next s.settle) ∧
    (s.due.silent = [] → s.due.stale ≠ [] → ∃ t : State, exec .channelStale s = .next t ∧ t.settle = s.settle) ∧
    (s.due.stale = [] → exec .channelStale s = .next s.settle) ∧
    (s.due.silent = [] → s.due.stale = [] → s.due.refresh ≠ [] →
      ∃ t : State, exec .refresh s = .next t ∧ t.settle = s.settle) ∧
    (s.due.refresh = [] → exec .refresh s = .next s.settle) ∧
    (s.due.silent = [] → s.due.stale = [] → s.due.refresh = [] → s.due.goBack = true →
      ∃ t : State, exec .goBack s = .next t ∧ t.settle = s.settle) ∧
    (s.due.goBack = false → exec .goBack s = .next s.settle))

/-! ## Reset -/

/-- The values the spec gives the part right after a hard reset that found no valid bank (R19, R20, R87, R117, R138,
R153, R164, R175, R182, R185, R188). -/
def Obligations.ResetValues : Prop :=
  State.reset.system = { ownAddress := 62, tickPeriod := 10, resendTicks := 100, classMask := 0xF, policy := .pass } ∧
    (∀ a : Addr, State.reset.node a =
      { config := { enrolled := false, silenceLimit := 0, seqPolicy := .checked }
        runtime := { state := .unknown, lastSeq := none, silenceCount := 0, gapSum := 0, dupCount := 0, replayCount := 0,
                     lastStamp := none } }) ∧
    State.reset.bindings = [] ∧
    (∀ k : Slot, State.reset.channel k =
      { config := { enabled := false, offset := 0, gain := 4096, forward := .raw, lowTrip := 0x8000, lowClear := 0x8001,
                    highClear := 0x7FFE, highTrip := 0x7FFF, assertCount := 1, releaseCount := 1, mode := .tracking,
                    badLimit := 3, silenceLimit := 0 }
        runtime := { state := .off, value := 0, valueValid := false, quality := none, runDir := .none, runCount := 0,
                     badCount := 0, acked := false, staleCause := .none, silenceCount := 0, lastStamp := none } }) ∧
    (∀ i : OutIdx, State.reset.output i =
      { config := { enabled := false, targetNode := 1, targetIndex := BitVec.ofNat 4 i.val, source := 0,
                    points := [{ x := 0x8000, y := 0 }, { x := 0x7FFF, y := 4095 }], deadband := 0, slew := 0,
                    refresh := 0, fallback := .hold, safe := 0 }
        runtime := { state := .off, issued := none, target := none, forced := none, refreshCount := 0 } }) ∧
    State.reset.setpoints = [] ∧
    State.reset.log =
      { entries := [{ number := 0, kind := .restarted, subject := .none, value := 0, stamp := 0, coalesceCount := 0,
                      sendState := .new, sentStamp := none }]
        nextNumber := 1
        lostSinceMarker := 0 } ∧
    State.reset.queue = { entries := [], lostCount := 0, memory := none, restartPending := false } ∧
    State.reset.egress = { starvationCount := 0, nextTurn := .forward, seqS := 0, seqF := 0 } ∧
    (∀ p : Port, (State.reset.port p).assembly = none ∧ (State.reset.port p).transmitter = none ∧
      (State.reset.port p).forwardQueue = [] ∧ ∀ n : StatName, (State.reset.port p).stats.get n = 0) ∧
    State.reset.time.counter = 0 ∧ State.reset.time.interval = 10 ∧ State.reset.capture = none ∧
    State.reset.store.current = none ∧ State.reset.store.commit = none ∧ State.reset.store.lastResult = .none ∧
    State.reset.store.dirty = false

/-- The reset state is safe: it obeys every law of the part. -/
def Obligations.ResetIsSafe : Prop :=
  State.reset.Safe

/-- The bank a hard reset loads, and every block's state after it (R18, R19, R37, R62, R87, R117, R138, R153, R164,
R175, R182, R188, R197). The live configuration is the selected bank's image, or the factory defaults. The words of these
values are spelled: what clears a channel, a node, a port's counts, the log, the queue and the egress, the factory image,
and the image the live tables make (R19, R20, R44, R89). The banks stand as they were, also one whose writing was cut short:
the model's choice (log 22). -/
def Obligations.HardResetState : Prop :=
  (∀ (s : State) (lineF lineS : LinkState), ∃ t : State, exec (.hardReset lineF lineS) s = .next t ∧
    t.pending = s.pending ∧ t.held = false ∧
    (∀ id img, s.store.select = some (id, img) → t.liveImage = img ∧ t.store.current = some id) ∧
    (s.store.select = none → t.liveImage = .factory ∧ t.store.current = none) ∧
    t.store.bankA = s.store.bankA ∧ t.store.bankB = s.store.bankB ∧ t.store.commit = none ∧
    t.store.lastResult = .none ∧ t.store.dirty = false ∧
    t.portF = { link := lineF, assembly := none, stats := .zero, transmitter := none, forwardQueue := [] } ∧
    t.portS = { link := lineS, assembly := none, stats := .zero, transmitter := none, forwardQueue := [] } ∧
    (∀ a : Addr, (t.node a).runtime = .clear) ∧
    (∀ k : Slot, (t.channel k).runtime = .clear (t.channel k).config.enabled) ∧
    (∀ i : OutIdx, (t.output i).runtime =
      if (t.output i).config.enabled = true then
        { state := .fallback, target := none, forced := none, refreshCount := 0,
          issued :=
            match (t.output i).config.fallback with
            | .hold => none
            | .safe => some (t.output i).config.safe
            | .ramp => some (t.output i).config.safe }
      else { state := .off, issued := none, target := none, forced := none, refreshCount := 0 }) ∧
    t.setpoints = (allOutputs.filter fun i =>
        (t.output i).config.enabled && decide ((t.output i).config.fallback ≠ .hold)).map
      (fun i => { output := i, node := (t.output i).config.targetNode, index := (t.output i).config.targetIndex,
                  value := (t.output i).config.safe }) ∧
    t.log = .restarted 0 ∧ t.queue = .empty ∧ t.egress = .clear ∧
    t.time = { counter := 0, interval := t.system.tickPeriod, handedOn := .idle } ∧ t.due = .none ∧ t.capture = none) ∧
  ((∀ enabled : Bool, ChannelRuntime.clear enabled =
      { state := if enabled = true then .idle else .off, value := 0, valueValid := false, quality := none, runDir := .none,
        runCount := 0, badCount := 0, acked := false, staleCause := .none, silenceCount := 0, lastStamp := none }) ∧
    NodeRuntime.clear = { state := .unknown, lastSeq := none, silenceCount := 0, gapSum := 0, dupCount := 0,
                          replayCount := 0, lastStamp := none } ∧
    PortStats.zero = { rxGood := 0, rxCheckError := 0, rxLengthError := 0, rxFormatError := 0, rxMisdirected := 0,
                       rxQueueFull := 0, rxBlocked := 0, rxEmptied := 0, rxOwnedStripped := 0, rxDuplicateRequest := 0,
                       txFrames := 0, txAbandoned := 0 } ∧
    (∀ cause : Half, NoticeLog.restarted cause =
      { entries := [{ number := 0, kind := .restarted, subject := .none, value := cause, stamp := 0, coalesceCount := 0,
                      sendState := .new, sentStamp := none }]
        nextNumber := 1
        lostSinceMarker := 0 }) ∧
    RequestQueue.empty = { entries := [], lostCount := 0, memory := none, restartPending := false } ∧
    Egress.clear = { starvationCount := 0, nextTurn := .forward, seqS := 0, seqF := 0 }) ∧
  (Image.factory.system = { ownAddress := 62, tickPeriod := 10, resendTicks := 100, classMask := 0xF, policy := .pass } ∧
    (∀ a : Addr, Image.factory.nodeAt a = { enrolled := false, silenceLimit := 0, seqPolicy := .checked }) ∧
    Image.factory.bindings = [] ∧
    (∀ k : Slot, Image.factory.channels[k.val] =
      { enabled := false, offset := 0, gain := 4096, forward := .raw, lowTrip := 0x8000, lowClear := 0x8001,
        highClear := 0x7FFE, highTrip := 0x7FFF, assertCount := 1, releaseCount := 1, mode := .tracking, badLimit := 3,
        silenceLimit := 0 }) ∧
    (∀ i : OutIdx, Image.factory.outputs[i.val] =
      { enabled := false, targetNode := 1, targetIndex := BitVec.ofNat 4 i.val, source := 0,
        points := [{ x := 0x8000, y := 0 }, { x := 0x7FFF, y := 4095 }], deadband := 0, slew := 0, refresh := 0,
        fallback := .hold, safe := 0 })) ∧
  (∀ s : State, s.liveImage.system = s.system ∧ s.liveImage.bindings = s.bindings ∧
    (∀ a : Addr, s.liveImage.nodeAt a = (s.node a).config) ∧
    (∀ k : Slot, s.liveImage.channels[k.val] = (s.channel k).config) ∧
    (∀ i : OutIdx, s.liveImage.outputs[i.val] = (s.output i).config))

/-- Which bank a hard reset selects (R187), for banks that hold a whole image whenever they are valid. -/
def Obligations.HardResetSelectsNewerBank : Prop :=
  ∀ st : ImageStore,
    (st.bankA.valid = true → ∃ img, st.bankA.image = .intact img) →
    (st.bankB.valid = true → ∃ img, st.bankB.image = .intact img) →
    (st.bankA.valid = false → st.bankB.valid = false → st.select = none) ∧
    (st.bankA.valid = true → st.bankB.valid = false → st.select.map (·.1) = some .a) ∧
    (st.bankA.valid = false → st.bankB.valid = true → st.select.map (·.1) = some .b) ∧
    (st.bankA.valid = true → st.bankB.valid = true →
      (1 ≤ (st.bankB.generation - st.bankA.generation).toNat →
        (st.bankB.generation - st.bankA.generation).toNat ≤ 32767 → st.select.map (·.1) = some .b) ∧
      ((st.bankB.generation - st.bankA.generation).toNat = 0 ∨
        32768 ≤ (st.bankB.generation - st.bankA.generation).toNat → st.select.map (·.1) = some .a)) ∧
    (∀ id img, st.select = some (id, img) → (st.bank id).image = .intact img)

/-! ## Check words, frames and records -/

/-- The check word's reference point, and the remainder over a whole frame: 0 exactly when its last two bytes are the
check word, most significant byte first (R5). -/
def Obligations.CheckWordRemainder : Prop :=
  checkWord [49, 50, 51, 52, 53, 54, 55, 56, 57] = 10673 ∧
    ∀ (body : List Byte) (a b : Byte), checkWord (body ++ [a, b]) = 0 ↔ a ++ b = checkWord body

/-- Every frame the part builds from header bytes and a payload of at most 240 bytes passes the three tests of R8, and
reads back as it was built. Fields of two and four bytes are spelled and read most significant byte first (R1, R141,
R200). -/
def Obligations.BuiltFramesAreGood : Prop :=
  (∀ (dst src kind flags seq : Byte) (payload : List Byte), payload.length ≤ 240 →
    judgeFrame (buildFrame dst src kind flags seq payload) = .good ∧
    (buildFrame dst src kind flags seq payload).length = payload.length + 8 ∧
    ({ bytes := buildFrame dst src kind flags seq payload } : Frame).payload = payload ∧
    (buildFrame dst src kind flags seq payload).take 6 =
      [dst, src, kind, flags, seq, BitVec.ofNat 8 payload.length]) ∧
  (∀ a b c d : Byte, halfBytes (a ++ b) = [a, b] ∧ quadBytes (a ++ b ++ c ++ d) = [a, b, c, d]) ∧
  (∀ (pre post : List Byte) (a b : Byte), halfAt (pre ++ a :: b :: post) pre.length = a ++ b)

/-- Every valid channel configuration survives its record: the 20 bytes read back as the configuration (R44, R61,
R200). -/
def Obligations.ChannelRecordRoundTrip : Prop :=
  ∀ c : ChannelConfig, c.valid = true → c.bytes.length = 20 ∧ channelConfigOf c.bytes = some c

/-- Every valid output configuration survives its record: the 46 bytes read back as the configuration (R89, R108,
R200). -/
def Obligations.OutputRecordRoundTrip : Prop :=
  ∀ (own : Addr) (c : OutputConfig), c.valid own = true → c.bytes.length = 46 ∧ outputConfigOf own c.bytes = some c

/-! ## The receivers -/

/-- FRAME_START opens an assembly, counting the one it breaks; BYTE_ARRIVAL appends to it; neither, nor a FRAME_END
without an assembly, does anything else. A count of a port goes up by one and no other with it, and stays at its maximum
(R6, R19). -/
def Obligations.AssemblyOpensAndGrows : Prop :=
  (∀ (s : State) (p : Port), s.Ready → (s.port p).link = .up →
    (∀ l, (s.port p).assembly = some l →
      exec (.frameStart p) s = .next (s.setPort p { s.port p with
        assembly := some [], stats := (s.port p).stats.inc .rxLengthError }) ∧
      (l.length < 248 → ∀ b, exec (.byteArrival p b) s = .next (s.setPort p { s.port p with assembly := some (l ++ [b]) }))) ∧
    ((s.port p).assembly = none →
      exec (.frameStart p) s = .next (s.setPort p { s.port p with assembly := some [] }) ∧
      (∀ b, exec (.byteArrival p b) s = .next s) ∧ exec (.frameEnd p) s = .next s)) ∧
  (∀ t : PortStats,
    t.inc .rxGood = { t with rxGood := satInc t.rxGood } ∧
    t.inc .rxCheckError = { t with rxCheckError := satInc t.rxCheckError } ∧
    t.inc .rxLengthError = { t with rxLengthError := satInc t.rxLengthError } ∧
    t.inc .rxFormatError = { t with rxFormatError := satInc t.rxFormatError } ∧
    t.inc .rxMisdirected = { t with rxMisdirected := satInc t.rxMisdirected } ∧
    t.inc .rxQueueFull = { t with rxQueueFull := satInc t.rxQueueFull } ∧
    t.inc .rxBlocked = { t with rxBlocked := satInc t.rxBlocked } ∧
    t.inc .rxEmptied = { t with rxEmptied := satInc t.rxEmptied } ∧
    t.inc .rxOwnedStripped = { t with rxOwnedStripped := satInc t.rxOwnedStripped } ∧
    t.inc .rxDuplicateRequest = { t with rxDuplicateRequest := satInc t.rxDuplicateRequest } ∧
    t.inc .txFrames = { t with txFrames := satInc t.txFrames } ∧
    t.inc .txAbandoned = { t with txAbandoned := satInc t.txAbandoned }) ∧
  (∀ x : Quad, (satInc x).toNat = min (x.toNat + 1) 4294967295) ∧
  (∀ (s : State) (p : Port) (n : StatName),
    s.count p n = s.setPort p { s.port p with stats := (s.port p).stats.inc n })

/-- The 249th byte of a frame closes its assembly and counts it once; the bytes and the end that follow are ignored
(R7). -/
def Obligations.OverlongFrameCountedOnce : Prop :=
  ∀ (s : State) (p : Port) (l : List Byte) (b : Byte), s.Receives p l → l.length = 248 →
    ∃ t : State, exec (.byteArrival p b) s = .next t ∧
      t = s.setPort p { s.port p with assembly := none, stats := (s.port p).stats.inc .rxLengthError } ∧
      (∀ b', exec (.byteArrival p b') t = .next t) ∧ exec (.frameEnd p) t = .next t

/-- The three tests at the end of a frame, in order: a frame that fails one is discarded and counted once (R8). -/
def Obligations.FrameEndDiscardsBadFrames : Prop :=
  ∀ (s : State) (p : Port) (l : List Byte), s.Receives p l →
    (l.length < 8 ∨ 248 < l.length →
      exec (.frameEnd p) s = .next (s.setPort p { s.port p with
        assembly := none, stats := (s.port p).stats.inc .rxLengthError })) ∧
    (8 ≤ l.length → l.length ≤ 248 → checkWord (l.take (l.length - 2)) ≠ halfAt l (l.length - 2) →
      exec (.frameEnd p) s = .next (s.setPort p { s.port p with
        assembly := none, stats := (s.port p).stats.inc .rxCheckError })) ∧
    (8 ≤ l.length → l.length ≤ 248 → checkWord (l.take (l.length - 2)) = halfAt l (l.length - 2) →
      (byteAt l 5).toNat ≠ l.length - 8 →
      exec (.frameEnd p) s = .next (s.setPort p { s.port p with
        assembly := none, stats := (s.port p).stats.inc .rxLengthError })) ∧
    (8 ≤ l.length → l.length ≤ 248 → checkWord (l.take (l.length - 2)) = halfAt l (l.length - 2) →
      (byteAt l 5).toNat = l.length - 8 → judgeFrame l = .good)

/-- A good F-port frame whose src is 0, 63 or the own address is a format error, whatever its kind and dst; the frames
the direction table discards change two counts of their port and nothing else. Seven kind codes are known, 01h to 07h, and
every other is an unknown kind (R3, R10, R11, R12, R200). -/
def Obligations.SourceAndDirection : Prop :=
  (∀ (s : State) (l : List Byte), s.Receives .f l → judgeFrame l = .good →
    addressOf (byteAt l 1) = 0 ∨ addressOf (byteAt l 1) = 63 ∨ addressOf (byteAt l 1) = s.system.ownAddress →
    exec (.frameEnd .f) s = .next ((s.received .f).count .f .rxFormatError)) ∧
  ((∀ (s : State) (l : List Byte), s.Receives .f l → judgeFrame l = .good →
    addressOf (byteAt l 1) ≠ 0 → addressOf (byteAt l 1) ≠ 63 → addressOf (byteAt l 1) ≠ s.system.ownAddress →
    addressOf (byteAt l 0) = s.system.ownAddress ∨
      FrameKind.ofCode (byteAt l 2) ∈ [.request, .response, .notice, .command, .setpoint] →
    exec (.frameEnd .f) s = .next ((s.received .f).count .f .rxMisdirected)) ∧
  (∀ (s : State) (l : List Byte), s.Receives .s l → judgeFrame l = .good →
    (addressOf (byteAt l 0) = s.system.ownAddress ∧
        ¬ (FrameKind.ofCode (byteAt l 2) = .request ∧ addressOf (byteAt l 1) = 0)) ∨
      (addressOf (byteAt l 0) ≠ s.system.ownAddress ∧
        FrameKind.ofCode (byteAt l 2) ∈ [.sample, .status, .response, .notice]) →
    exec (.frameEnd .s) s = .next ((s.received .s).count .s .rxMisdirected))) ∧
  ([0x01, 0x02, 0x03, 0x04, 0x05, 0x06, 0x07].map FrameKind.ofCode =
      [.sample, .status, .command, .setpoint, .request, .response, .notice] ∧
    ∀ b : Byte, b = 0 ∨ 7 < b.toNat → FrameKind.ofCode b = .unknown)

/-- Frames routed to a forward queue join the other port's queue byte for byte while it holds fewer than 8, else they
are discarded and counted (R11, R13, R140). -/
def Obligations.TransparentForwarding : Prop :=
  ∀ (s : State) (p : Port) (l : List Byte), s.Receives p l → judgeFrame l = .good →
    addressOf (byteAt l 0) ≠ s.system.ownAddress →
    (p = .f ∧ FrameKind.ofCode (byteAt l 2) = .unknown ∧ addressOf (byteAt l 1) ≠ 0 ∧ addressOf (byteAt l 1) ≠ 63 ∧
        addressOf (byteAt l 1) ≠ s.system.ownAddress) ∨
      (p = .s ∧ FrameKind.ofCode (byteAt l 2) ∈ [.command, .request, .unknown]) →
    ((s.port (otherPort p)).forwardQueue.length < 8 →
      exec (.frameEnd p) s = .next ((s.received p).setPort (otherPort p) { s.port (otherPort p) with
        forwardQueue := (s.port (otherPort p)).forwardQueue ++ [l] })) ∧
    (8 ≤ (s.port (otherPort p)).forwardQueue.length →
      exec (.frameEnd p) s = .next ((s.received p).count p .rxQueueFull))

/-- The payload format checks: a SAMPLE to the Node Table, a SETPOINT to the ownership filter and a REQUEST to the part
that fail theirs are discarded and counted, with no other effect (R14, R15). -/
def Obligations.PayloadFormatErrors : Prop :=
  (∀ (s : State) (l : List Byte) (n : Byte) (rest : List Byte), s.FromField l → byteAt l 2 = 0x01 →
    ({ bytes := l } : Frame).payload = n :: rest →
    (n = 0 ∨ 12 < n.toNat ∨ rest.length ≠ 3 * n.toNat ∨
      ∃ j, j < n.toNat ∧ (byteAt rest (3 * j)).extractLsb' 4 2 = 3#2) →
    exec (.frameEnd .f) s = .next ((s.received .f).count .f .rxFormatError)) ∧
  (∀ (s : State) (l : List Byte) (n : Byte) (rest : List Byte), s.Receives .s l → judgeFrame l = .good →
    addressOf (byteAt l 0) ≠ s.system.ownAddress → byteAt l 2 = 0x04 → ({ bytes := l } : Frame).payload = n :: rest →
    (n = 0 ∨ 16 < n.toNat ∨ rest.length ≠ 3 * n.toNat ∨
      ∃ j, j < n.toNat ∧ (15 < (byteAt rest (3 * j)).toNat ∨ 4095 < (halfAt rest (3 * j + 1)).toNat)) →
    exec (.frameEnd .s) s = .next ((s.received .s).count .s .rxFormatError)) ∧
  (∀ (s : State) (l : List Byte), s.Receives .s l → judgeFrame l = .good →
    addressOf (byteAt l 0) = s.system.ownAddress → addressOf (byteAt l 1) = 0 → byteAt l 2 = 0x05 → l.length < 10 →
    exec (.frameEnd .s) s = .next ((s.received .s).count .s .rxFormatError))

/-- Loss of signal takes a port DOWN, drops its open assembly uncounted and abandons its transmission; return of signal
takes it UP; a report of the state it is in changes nothing, and a DOWN port takes no start, byte or end (R17, R149).
The transmission here is not a response (TransmissionEnds states that one). -/
def Obligations.LossAndReturnOfSignal : Prop :=
  ∀ (s : State) (p : Port), s.Ready →
    ((s.port p).link = .up → (s.port p).transmitter = none →
      exec (.lossOfSignal p) s = .next (s.setPort p { s.port p with link := .down, assembly := none })) ∧
    (∀ x, (s.port p).link = .up → (s.port p).transmitter = some x → x.source ≠ .response →
      exec (.lossOfSignal p) s = .next (s.setPort p { s.port p with
        link := .down, assembly := none, transmitter := none, stats := (s.port p).stats.inc .txAbandoned })) ∧
    ((s.port p).link = .down →
      exec (.lossOfSignal p) s = .next s ∧
      exec (.returnOfSignal p) s = .next (s.setPort p { s.port p with link := .up, assembly := none }) ∧
      exec (.frameStart p) s = .next s ∧ (∀ b, exec (.byteArrival p b) s = .next s) ∧
      exec (.frameEnd p) s = .next s) ∧
    ((s.port p).link = .up → exec (.returnOfSignal p) s = .next s)

/-! ## The Node Table and the sample path -/

/-- SAMPLE and STATUS frames the Node Table does not accept: of an unenrolled source, forwarded as they arrived under PASS
and counted under BLOCK; duplicates and replays of a CHECKED node, counted in its record alone (R21, R22, R24, R26). -/
def Obligations.FramesNotAccepted : Prop :=
  (∀ (s : State) (l : List Byte), s.FromField l → (s.node (addressOf (byteAt l 1))).config.enrolled = false →
    byteAt l 2 = 0x02 ∨ (byteAt l 2 = 0x01 ∧ (sampleReadings ({ bytes := l } : Frame).payload).isSome = true) →
    (s.system.policy = .block → exec (.frameEnd .f) s = .next ((s.received .f).count .f .rxBlocked)) ∧
    (s.system.policy = .pass → s.portS.forwardQueue.length < 8 →
      exec (.frameEnd .f) s = .next { s.received .f with
        portS := { s.portS with forwardQueue := s.portS.forwardQueue ++ [l] } }) ∧
    (s.system.policy = .pass → 8 ≤ s.portS.forwardQueue.length →
      exec (.frameEnd .f) s = .next ((s.received .f).count .f .rxQueueFull))) ∧
  (∀ (s : State) (l : List Byte) (last : Byte), s.FromField l →
    byteAt l 2 = 0x02 ∨ (byteAt l 2 = 0x01 ∧ (sampleReadings ({ bytes := l } : Frame).payload).isSome = true) →
    (s.node (addressOf (byteAt l 1))).config.enrolled = true →
    (s.node (addressOf (byteAt l 1))).config.seqPolicy = .checked →
    (s.node (addressOf (byteAt l 1))).runtime.lastSeq = some last → (byteAt l 3).getLsbD 0 = false →
    ((byteAt l 4 - last).toNat = 0 →
      exec (.frameEnd .f) s = .next ((s.received .f).setNode (addressOf (byteAt l 1))
        { s.node (addressOf (byteAt l 1)) with
          runtime := { (s.node (addressOf (byteAt l 1))).runtime with
            dupCount := satInc (s.node (addressOf (byteAt l 1))).runtime.dupCount } })) ∧
    (129 ≤ (byteAt l 4 - last).toNat →
      exec (.frameEnd .f) s = .next ((s.received .f).setNode (addressOf (byteAt l 1))
        { s.node (addressOf (byteAt l 1)) with
          runtime := { (s.node (addressOf (byteAt l 1))).runtime with
            replayCount := satInc (s.node (addressOf (byteAt l 1))).runtime.replayCount } })))

/-- An accepted STATUS frame, or SAMPLE frame none of whose readings is bound to an enabled channel: the node's record
and the log as R23 to R27 state, and the frame offered to the S forward queue as it arrived (R21, R47, R54, R56). -/
def Obligations.AcceptedFrameIsForwarded : Prop :=
  ∀ (s : State) (l : List Byte) (a : Addr) (missing : Nat) (notice : Option (NoticeKind × Half)), s.FromField l →
    a = addressOf (byteAt l 1) → (s.node a).config.enrolled = true →
    byteAt l 2 = 0x02 ∨ (byteAt l 2 = 0x01 ∧ ∃ rs, sampleReadings ({ bytes := l } : Frame).payload = some rs ∧
      ∀ r ∈ rs, ∀ k, s.boundSlot a r.channel = some k → (s.channel k).config.enabled = false) →
    (s.node a).acceptedAs ((byteAt l 3).getLsbD 0) (byteAt l 4) missing notice →
    exec (.frameEnd .f) s = .next (State.offerForward
      { (s.received .f).setNode a { s.node a with
          runtime := { (s.node a).runtime with
            lastSeq := some (byteAt l 4)
            gapSum := satAdd (s.node a).runtime.gapSum (BitVec.ofNat 16 missing)
            silenceCount := 0
            lastStamp := some s.time.counter
            state := .live } } with
        log := s.acceptedLog a (byteAt l 4) notice } .f l)

/-- A SAMPLE frame at the sample path. With one valid reading of an enabled channel, the sequence not judged: the channel
takes the conditioned value, no other channel and no output fed by another slot changes, and the frame is forwarded by
the channel's policy. With any readings: they are taken in the order of the frame, each at its channel and then at the
outputs that name it, the same channel twice included, and the frame is forwarded as it arrived, rebuilt with the readings
kept, or counted as emptied. A valid reading's outputs, setpoint items and notices are those of R96 and R97 (R45 to R56,
R65, R69, R96, R97). -/
def Obligations.SampleReadingAtItsChannel : Prop :=
  (∀ (s : State) (l : List Byte) (a : Addr) (r : Reading) (q : Quality) (k : Slot), s.FromField l →
    a = addressOf (byteAt l 1) → (s.node a).config.enrolled = true → (s.node a).config.seqPolicy = .unchecked →
    (byteAt l 3).getLsbD 0 = false → byteAt l 2 = 0x01 →
    sampleReadings ({ bytes := l } : Frame).payload = some [r] → r.quality = some q → q ≠ .bad →
    s.boundSlot a r.channel = some k → (s.channel k).config.enabled = true → (s.channel k).runtime.state ≠ .off →
    ∃ t : State, exec (.frameEnd .f) s = .next t ∧
      t = { s with portF := t.portF, portS := t.portS, nodes := t.nodes, channels := t.channels, outputs := t.outputs,
                   setpoints := t.setpoints, log := t.log } ∧
      (∀ b, b ≠ a → t.node b = s.node b) ∧ (t.node a).runtime.lastSeq = some (byteAt l 4) ∧
      (t.node a).runtime.state = .live ∧ (t.node a).config = (s.node a).config ∧
      (∀ j, j ≠ k → t.channel j = s.channel j) ∧ (t.channel k).config = (s.channel k).config ∧
      (t.channel k).runtime.value = ((s.channel k).config.condition r.value q).1 ∧
      (t.channel k).runtime.quality = some ((s.channel k).config.condition r.value q).2 ∧
      (t.channel k).runtime.valueValid = true ∧ (t.channel k).runtime.state.isValid = true ∧
      (t.channel k).runtime.badCount = 0 ∧ (t.channel k).runtime.silenceCount = 0 ∧
      (t.channel k).runtime.lastStamp = some s.time.counter ∧
      (∀ i, (t.output i).config = (s.output i).config) ∧
      (∀ i, (s.output i).follows k = false → t.output i = s.output i) ∧
      (∀ i, (s.output i).follows k = true → (s.output i).runtime.state = .fallback → (t.output i).runtime.state = .normal) ∧
      ((s.channel k).config.forward = .strip →
        t.portS = s.portS ∧ t.portF = ((s.received .f).count .f .rxEmptied).portF) ∧
      ((s.channel k).config.forward ≠ .strip → 8 ≤ s.portS.forwardQueue.length →
        t.portS = s.portS ∧ t.portF = ((s.received .f).count .f .rxQueueFull).portF) ∧
      ((s.channel k).config.forward = .raw → s.portS.forwardQueue.length < 8 →
        t.portF = (s.received .f).portF ∧
        t.portS = { s.portS with forwardQueue := s.portS.forwardQueue ++ [l] }) ∧
      ((s.channel k).config.forward = .conditioned → s.portS.forwardQueue.length < 8 →
        t.portF = (s.received .f).portF ∧
        t.portS = { s.portS with forwardQueue := s.portS.forwardQueue ++
          [buildFrame (byteAt l 0) (byteAt l 1) 0x01 (byteAt l 3 ||| 0x02) (byteAt l 4)
            (0x01 :: ((r.head &&& 0xCF) ||| (((s.channel k).config.condition r.value q).2.code <<< 4)) ::
              halfBytes ((s.channel k).config.condition r.value q).1)] })) ∧
  (∀ (s : State) (l : List Byte) (a : Addr) (missing : Nat) (notice : Option (NoticeKind × Half)) (rs kept : List Reading)
    (t : State), s.FromField l → a = addressOf (byteAt l 1) → (s.node a).config.enrolled = true → byteAt l 2 = 0x01 →
    sampleReadings ({ bytes := l } : Frame).payload = some rs →
    (s.node a).acceptedAs ((byteAt l 3).getLsbD 0) (byteAt l 4) missing notice →
    t = rs.foldl (s.readingTaken a)
      { (s.received .f).setNode a { s.node a with
          runtime := { (s.node a).runtime with
            lastSeq := some (byteAt l 4)
            gapSum := satAdd (s.node a).runtime.gapSum (BitVec.ofNat 16 missing)
            silenceCount := 0
            lastStamp := some s.time.counter
            state := .live } } with
        log := s.acceptedLog a (byteAt l 4) notice } →
    kept = rs.filterMap (s.readingKept a) →
    ((∀ r ∈ rs, ¬ s.readingChanges a r) → exec (.frameEnd .f) s = .next (t.offerForward .f l)) ∧
    ((∃ r ∈ rs, s.readingChanges a r) → kept = [] → exec (.frameEnd .f) s = .next (t.count .f .rxEmptied)) ∧
    ((∃ r ∈ rs, s.readingChanges a r) → kept ≠ [] → exec (.frameEnd .f) s = .next (t.offerForward .f
      (buildFrame (byteAt l 0) (byteAt l 1) 0x01 (byteAt l 3 ||| 0x02) (byteAt l 4)
        (BitVec.ofNat 8 kept.length :: kept.flatMap fun r => r.head :: halfBytes r.value))))) ∧
  (∀ (s : State) (k : Slot) (v : Half), ∃ t : State, s.outputReading k v = t ∧
    t = { s with
      outputs := t.outputs
      setpoints := s.withItems (OutputRecord.readingIssue v) (allOutputs.filter fun i => (s.output i).follows k)
      log := s.outputNotices s.log .fallbackExit (allOutputs.filter fun i =>
        decide ((s.output i).follows k = true ∧ (s.output i).runtime.state = .fallback)) } ∧
    (∀ i, t.output i = if (s.output i).follows k = true then (s.output i).afterReading v else s.output i))

/-! ## Downward traffic -/

/-- A supervisor's SETPOINT frame at the ownership filter: items owned by an enabled output are removed and counted; a
frame left without items is counted and dropped, a frame left shorter is rebuilt with MODIFIED set, and a frame that
lost nothing is offered as it arrived (R114, R115). -/
def Obligations.OwnershipFilter : Prop :=
  ∀ (s : State) (l : List Byte) (items kept : List FrameItem), s.Receives .s l → judgeFrame l = .good →
    addressOf (byteAt l 0) ≠ s.system.ownAddress → byteAt l 2 = 0x04 →
    setpointItems ({ bytes := l } : Frame).payload = some items →
    kept = items.filter (fun x => decide (¬ ∃ i : OutIdx, (s.output i).config.enabled = true ∧
      (s.output i).config.targetIndex.toNat = x.index.toNat ∧
      ((s.output i).config.targetNode = addressOf (byteAt l 0) ∨ addressOf (byteAt l 0) = 63))) →
    (kept = items → exec (.frameEnd .s) s = .next ((s.received .s).offerForward .s l)) ∧
    (kept ≠ items → ∃ t n, exec (.frameEnd .s) s = .next t ∧
      n = min (2 ^ 32 - 1) (s.portS.stats.rxOwnedStripped.toNat + (items.length - kept.length)) ∧
      (kept = [] → t = (({ s.received .s with portS := { (s.received .s).portS with
        stats := { (s.received .s).portS.stats with rxOwnedStripped := BitVec.ofNat 32 n } } } : State).count .s .rxEmptied)) ∧
      (kept ≠ [] → t = (({ s.received .s with portS := { (s.received .s).portS with
        stats := { (s.received .s).portS.stats with rxOwnedStripped := BitVec.ofNat 32 n } } } : State).offerForward .s
          (buildFrame (byteAt l 0) (byteAt l 1) 0x04 (byteAt l 3 ||| 0x02) (byteAt l 4)
            (BitVec.ofNat 8 kept.length :: kept.flatMap fun x => x.index :: halfBytes x.value)))))

/-- A REQUEST to the part from address 0, judged by the first check that applies: duplicate, queue full, repeat, new
(R156, R157, R158). -/
def Obligations.RequestAcceptance : Prop :=
  ∀ (s : State) (l : List Byte) (tag opcode : Byte) (params : List Byte), s.Receives .s l → judgeFrame l = .good →
    addressOf (byteAt l 0) = s.system.ownAddress → addressOf (byteAt l 1) = 0 → byteAt l 2 = 0x05 →
    ({ bytes := l } : Frame).payload = tag :: opcode :: params →
    ((∃ e ∈ s.queue.entries, e.tag = tag ∧ e.seq = byteAt l 4) →
      exec (.frameEnd .s) s = .next ((s.received .s).count .s .rxDuplicateRequest)) ∧
    ((∀ e ∈ s.queue.entries, ¬ (e.tag = tag ∧ e.seq = byteAt l 4)) →
      (4 ≤ s.queue.entries.length →
        exec (.frameEnd .s) s = .next { s.received .s with
          queue := { s.queue with lostCount := satInc s.queue.lostCount } }) ∧
      (s.queue.entries.length < 4 →
        (∀ m, s.queue.memory = some m → m.tag = tag → m.seq = byteAt l 4 →
          exec (.frameEnd .s) s = .next { s.received .s with
            queue := { s.queue with
              entries := s.queue.entries ++ [
                { tag := tag, seq := byteAt l 4, opcode := opcode, params := params,
                  state := .done, response := some { m.response with repeated := true } }] } }) ∧
        ((∀ m, s.queue.memory = some m → ¬ (m.tag = tag ∧ m.seq = byteAt l 4)) →
          exec (.frameEnd .s) s = .next { s.received .s with
            queue := { s.queue with
              entries := s.queue.entries ++ [
                { tag := tag, seq := byteAt l 4, opcode := opcode, params := params,
                  state := .waiting, response := none }] } })))

/-! ## Ticks -/

/-- A tick advances the counter by one, modulo 2^32, begins an interval of the tick period standing then, and is handed
on to the four owners (R172, R173). -/
def Obligations.TickAdvances : Prop :=
  ∀ s : State, s.Ready → s.time.handedOn = .idle →
    exec .tick s = .next { s with
      time := { counter := s.time.counter + 1
                interval := s.system.tickPeriod
                handedOn := { nodeTable := true, channelTable := true, outputUnit := true, noticeLog := true } } }

/-- The Node Table, the Channel Table and the Output Unit take a tick: their counting records count by one, saturating, and
those that have reached their limit are due, in ascending order; nothing else changes (R28, R79, R100). That what is due
is carried out by later commands, and not by this one, is the model's reading (log 3), and so is that a count of 1 reaches a
limit of 1 where a frame or a reading came first (log 21). -/
def Obligations.OwnersTakeTick : Prop :=
  (∀ s : State, s.Ready → s.time.handedOn.nodeTable = true →
    ∃ t : State, exec .nodeTableTick s = .next t ∧
      t = { s with
        time := { s.time with handedOn := { s.time.handedOn with nodeTable := false } }
        nodes := t.nodes
        due := { DueWork.none with silent := t.due.silent } } ∧
      (∀ a : Addr, t.node a =
        if (s.node a).config.enrolled = true ∧ (s.node a).runtime.state ≠ .silent ∧ (s.node a).config.silenceLimit ≠ 0 then
          { s.node a with runtime := { (s.node a).runtime with silenceCount := satInc (s.node a).runtime.silenceCount } }
        else s.node a) ∧
      t.due.silent.Pairwise (· < ·) ∧
      (∀ a : Addr, a ∈ t.due.silent ↔
        (s.node a).config.enrolled = true ∧ (s.node a).runtime.state ≠ .silent ∧ (s.node a).config.silenceLimit ≠ 0 ∧
          (s.node a).config.silenceLimit ≤ satInc (s.node a).runtime.silenceCount)) ∧
  (∀ s : State, s.Ready → s.time.handedOn.channelTable = true →
    ∃ t : State, exec .channelTableTick s = .next t ∧
      t = { s with
        time := { s.time with handedOn := { s.time.handedOn with channelTable := false } }
        channels := t.channels
        due := { DueWork.none with stale := t.due.stale } } ∧
      (∀ k : Slot, t.channel k =
        if (s.channel k).config.enabled = true ∧ (s.channel k).config.silenceLimit ≠ 0 ∧
            (s.channel k).runtime.state ∈ [.idle, .inBand, .high, .low] then
          { s.channel k with
            runtime := { (s.channel k).runtime with silenceCount := satInc (s.channel k).runtime.silenceCount } }
        else s.channel k) ∧
      t.due.stale.Pairwise (· < ·) ∧
      (∀ k : Slot, k ∈ t.due.stale ↔
        (s.channel k).config.enabled = true ∧ (s.channel k).config.silenceLimit ≠ 0 ∧
          (s.channel k).runtime.state ∈ [.idle, .inBand, .high, .low] ∧
          (s.channel k).config.silenceLimit ≤ satInc (s.channel k).runtime.silenceCount)) ∧
  (∀ s : State, s.Ready → s.time.handedOn.outputUnit = true →
    ∃ t : State, exec .outputUnitTick s = .next t ∧
      t = { s with
        time := { s.time with handedOn := { s.time.handedOn with outputUnit := false } }
        outputs := t.outputs
        due := { DueWork.none with refresh := t.due.refresh } } ∧
      (∀ i : OutIdx, t.output i =
        if (s.output i).runtime.state ≠ .off ∧ (s.output i).config.refresh ≠ 0 then
          { s.output i with
            runtime := { (s.output i).runtime with refreshCount := satInc (s.output i).runtime.refreshCount } }
        else s.output i) ∧
      t.due.refresh.Pairwise (· < ·) ∧
      (∀ i : OutIdx, i ∈ t.due.refresh ↔
        (s.output i).runtime.state ≠ .off ∧ (s.output i).config.refresh ≠ 0 ∧
          (s.output i).config.refresh ≤ satInc (s.output i).runtime.refreshCount)) ∧
  (∀ x : Half, (satInc x).toNat = min (x.toNat + 1) 65535)

/-- The next record due goes SILENT: its enabled bound channels that are not STALE enter STALE with cause NODE, and the
outputs in NORMAL they fed enter FALLBACK; nothing else of a table changes. NODE_SILENT comes first, then, slot by slot in
ascending order, each channel's STALE followed by its outputs' FALLBACK_ENTER; the entry values join the setpoint set in
the same order (R28, R29, R80, R84, R98, R110). -/
def Obligations.NodeGoesSilent : Prop :=
  ∀ (s : State) (a : Addr) (rest : List Addr), s.held = false → s.due.silent = a :: rest →
    (s.node a).config.enrolled = true →
    ∃ t : State, exec .nodeSilent s = .next t ∧
      t = { s with nodes := t.nodes, channels := t.channels, outputs := t.outputs, setpoints := t.setpoints, log := t.log,
                   due := { s.due with silent := rest } } ∧
      t.node a = { s.node a with runtime := { (s.node a).runtime with state := .silent } } ∧
      (∀ b, b ≠ a → t.node b = s.node b) ∧
      (∀ k, t.channel k =
        if (∃ b ∈ s.bindings, b.node = a ∧ b.slot = k) ∧ (s.channel k).config.enabled = true ∧
            (s.channel k).runtime.state ≠ .stale then
          { s.channel k with runtime := { (s.channel k).runtime with
              state := .stale, staleCause := .node, valueValid := false, acked := false, runDir := .none, runCount := 0 } }
        else s.channel k) ∧
      (∀ i, t.output i =
        if (s.output i).config.enabled = true ∧ (s.output i).runtime.state = .normal ∧
            (s.channel (s.output i).config.source).config.enabled = true ∧ s.sourceValid i = true ∧
            (∃ b ∈ s.bindings, b.node = a ∧ b.slot = (s.output i).config.source) then
          (s.output i).fellBack
        else s.output i) ∧
      (∀ slots, slots = (allSlots.filter fun k => decide ((∃ b ∈ s.bindings, b.node = a ∧ b.slot = k) ∧
            (s.channel k).config.enabled = true ∧ (s.channel k).runtime.state ≠ .stale)) →
        t.setpoints = s.withItems OutputRecord.entryIssue (slots.flatMap s.handedOver) ∧
        t.log = slots.foldl
          (fun l k => s.outputNotices
            (l.raise s.system.classMask s.time.counter .stale (.channel k) (BitVec.ofNat 16 k.val))
            .fallbackEnter (s.handedOver k))
          (s.log.raise s.system.classMask s.time.counter .nodeSilent (.node a) (s.node a).config.silenceLimit))

/-- The next channel due enters STALE with cause CHANNEL and its notice; if its value was valid, the outputs in NORMAL
that name it enter FALLBACK, each with FALLBACK_ENTER after the channel's notice and its entry value in the setpoint set
(R79, R80, R84, R98, R110). That this is a command of its own is the model's reading (log 3). -/
def Obligations.ChannelGoesStale : Prop :=
  ∀ (s : State) (k : Slot) (rest : List Slot), s.held = false → s.due.stale = k :: rest →
    ∃ t : State, exec .channelStale s = .next t ∧
      t = { s with channels := t.channels, outputs := t.outputs, setpoints := t.setpoints, log := t.log,
                   due := { s.due with stale := rest } } ∧
      t.channel k = { s.channel k with runtime := { (s.channel k).runtime with
        state := .stale, staleCause := .channel, valueValid := false, acked := false, runDir := .none, runCount := 0 } } ∧
      (∀ j, j ≠ k → t.channel j = s.channel j) ∧
      (∀ i, t.output i =
        if (s.channel k).runtime.state.isValid = true ∧ (s.output i).follows k = true ∧
            (s.output i).runtime.state = .normal then (s.output i).fellBack
        else s.output i) ∧
      t.setpoints = s.withItems OutputRecord.entryIssue (s.handedOver k) ∧
      t.log = s.outputNotices
        (s.log.raise s.system.classMask s.time.counter .stale (.channel k) (BitVec.ofNat 16 k.val))
        .fallbackEnter (s.handedOver k)

/-- The next output due refreshes: refresh_count becomes 0 and the refresh action of its state issues what R100 states;
nothing else changes. The ramp step, here and at every entry into FALLBACK, is safe where nothing is issued yet, where slew
is 0 and where safe is within slew, else issued moved toward safe by slew (R93, R99, R100, R110). That this is a command of its own is the model's reading (log 3). -/
def Obligations.OutputRefreshes : Prop :=
  (∀ (s : State) (i : OutIdx) (rest : List OutIdx), s.held = false → s.due.refresh = i :: rest →
    exec .refresh s = .next { s.setOutput i (({ s.output i with
          runtime := { (s.output i).runtime with refreshCount := 0 } } : OutputRecord).withIssue (s.output i).refreshIssue) with
        setpoints := s.withItem i (s.output i).refreshIssue
        due := { s.due with refresh := rest } }) ∧
  (∀ slew safe : Level, rampStep slew safe none = safe) ∧
  (∀ slew safe issued : Level,
    (slew = 0 → rampStep slew safe (some issued) = safe) ∧
    (issued.toNat ≤ safe.toNat + slew.toNat → safe.toNat ≤ issued.toNat + slew.toNat →
      rampStep slew safe (some issued) = safe) ∧
    (slew ≠ 0 → safe.toNat + slew.toNat < issued.toNat →
      (rampStep slew safe (some issued)).toNat = issued.toNat - slew.toNat) ∧
    (slew ≠ 0 → issued.toNat + slew.toNat < safe.toNat →
      (rampStep slew safe (some issued)).toNat = issued.toNat + slew.toNat))

/-- The Notice Log takes a tick: the go-back is due exactly when the head is SENT and its sent_stamp lies resend_ticks
or more behind the counter; carried out, every SENT entry becomes RESEND, the OVERFLOW entry among them takes in
lost_since_marker, and nothing else changes (R134, R135). That the tick only finds the go-back due and a command of its
own carries it out is the model's reading (log 3). -/
def Obligations.GoBack : Prop :=
  (∀ s : State, s.Ready → s.time.handedOn.noticeLog = true →
    ∃ d, exec .noticeLogTick s = .next { s with
        time := { s.time with handedOn := { s.time.handedOn with noticeLog := false } }
        due := { DueWork.none with goBack := d } } ∧
      (d = true ↔ ∃ e stamp, s.log.entries.head? = some e ∧ e.sendState = .sent ∧ e.sentStamp = some stamp ∧
        s.system.resendTicks.toNat ≤ (s.time.counter - stamp).toNat)) ∧
  (∀ s : State, s.held = false → s.due = { DueWork.none with goBack := true } →
    ∃ t : State, exec .goBack s = .next t ∧ t = { s with log := t.log, due := .none } ∧
      t.log.nextNumber = s.log.nextNumber ∧
      t.log.entries = s.log.entries.map (fun e =>
        if e.sendState = .sent then
          (if e.kind = .overflow ∧ s.log.lostSinceMarker ≠ 0 then
            { e with sendState := .resend, value := satAdd e.value s.log.lostSinceMarker, stamp := s.time.counter }
          else { e with sendState := .resend })
        else e) ∧
      t.log.lostSinceMarker =
        if (∃ e ∈ s.log.entries, e.sendState = .sent ∧ e.kind = .overflow) then 0 else s.log.lostSinceMarker) ∧
  (∀ x y : Half, (satAdd x y).toNat = min (x.toNat + y.toNat) 65535)

/-! ## Egress -/

/-- A start on the S-port takes the first source that applies: the head forwarded frame once four own frames have
started in a row, the oldest entry's response, a NOTICE of up to 8 entries, the head forwarded frame. A port that is DOWN
or whose transmitter is busy starts nothing (R128, R129, R142, R143, R144, R145, R147, sections 12.3, 12.4, 12.7, 12.8). -/
def Obligations.SPortStarts : Prop :=
  ([Status.ok, .unknownRequest, .badLength, .badIndex, .invalidRecord, .duplicate, .inUse, .notEnrolled, .notBound,
      .notEnabled, .notForced, .notLatched, .badAckRange, .notCaptured, .busy].map Status.code =
    [0x00, 0x01, 0x02, 0x03, 0x04, 0x05, 0x06, 0x07, 0x08, 0x09, 0x0A, 0x0B, 0x0C, 0x0D, 0x0E] ∧
   [NoticeKind.enterHigh, .enterLow, .ret, .stale, .fault, .recover, .nodeSilent, .nodeBack, .seqGap, .nodeRestart,
      .fallbackEnter, .fallbackExit, .restarted, .commitDone, .commitFailed, .overflow].map NoticeKind.code =
    [0x01, 0x02, 0x03, 0x04, 0x05, 0x06, 0x07, 0x08, 0x09, 0x0A, 0x0B, 0x0C, 0x0D, 0x0E, 0x0F, 0x10]) ∧
  (∀ s : State, s.Ready → s.portS.link = .down ∨ s.portS.transmitter ≠ none → exec .sPortStart s = .next s) ∧
  ∀ s : State, s.Ready → s.portS.link = .up → s.portS.transmitter = none →
    (∀ frame rest, s.portS.forwardQueue = frame :: rest →
      s.egress.starvationCount = 4 ∨
        ((∀ e, s.queue.entries.head? = some e → e.state ≠ .done) ∧ ∀ e ∈ s.log.entries, e.sendState = .sent) →
      exec .sPortStart s = .next { s with
        portS := { s.portS with transmitter := some { source := .forwarded, frame := frame }, forwardQueue := rest }
        egress := { s.egress with starvationCount := 0 } }) ∧
    (∀ e rest r, s.portS.forwardQueue = [] ∨ s.egress.starvationCount ≠ 4 → s.queue.entries = e :: rest →
      e.state = .done → e.response = some r →
      exec .sPortStart s = .next { s with
        portS := { s.portS with
          transmitter := some
            { source := .response
              frame := buildFrame 0 (s.system.ownAddress.setWidth 8) 0x06 0 s.egress.seqS
                ([r.tag, r.opcode, r.status.code, if r.repeated = true then 0x01 else 0x00, r.lost,
                  r.summary.exceptional, r.summary.fallback, r.summary.occupancy] ++ r.results) } }
        queue := { s.queue with entries := { e with state := .sending } :: rest }
        egress := { s.egress with
          starvationCount := min 4 (s.egress.starvationCount + 1), seqS := s.egress.seqS + 1 } }) ∧
    (∀ sent selected rest, s.portS.forwardQueue = [] ∨ s.egress.starvationCount ≠ 4 →
      (∀ e, s.queue.entries.head? = some e → e.state ≠ .done) →
      s.log.entries = sent ++ selected ++ rest → (∀ e ∈ sent, e.sendState = .sent) →
      (∃ e, selected.head? = some e ∧ e.sendState ≠ .sent) →
      selected.length = 8 ∨ (selected.length < 8 ∧ rest = []) →
      exec .sPortStart s = .next { s with
        portS := { s.portS with
          transmitter := some
            { source := .notice
              frame := buildFrame 0 (s.system.ownAddress.setWidth 8) 0x07 0 s.egress.seqS
                ([s.summary.exceptional, s.summary.fallback, s.summary.occupancy, BitVec.ofNat 8 selected.length] ++
                  selected.flatMap fun e => halfBytes e.number ++
                    [e.kind.code, (match e.subject with
                      | .channel k => indexByte k
                      | .node a => a.setWidth 8
                      | .output i => indexByte i
                      | .none => 0x00 : Byte)] ++ halfBytes e.value ++ quadBytes e.stamp ++ [e.coalesceCount]) } }
        log := { s.log with
          entries := sent ++
            selected.map (fun e => { e with sendState := .sent, sentStamp := some s.time.counter }) ++ rest }
        egress := { s.egress with
          starvationCount := min 4 (s.egress.starvationCount + 1), seqS := s.egress.seqS + 1 } }) ∧
    (s.portS.forwardQueue = [] → (∀ e, s.queue.entries.head? = some e → e.state ≠ .done) →
      (∀ e ∈ s.log.entries, e.sendState = .sent) → exec .sPortStart s = .next s)

/-- A start on the F-port: the source next_turn names when both wait, else the one that waits; a setpoint turn carries
every item of the head node, in ascending output order, and takes them from the set. A port that is DOWN or whose
transmitter is busy starts nothing (R112, R142, R146, R147). -/
def Obligations.FPortStarts : Prop :=
  (∀ s : State, s.Ready → s.portF.link = .down ∨ s.portF.transmitter ≠ none → exec .fPortStart s = .next s) ∧
  ∀ s : State, s.Ready → s.portF.link = .up → s.portF.transmitter = none →
    (∀ frame rest, s.portF.forwardQueue = frame :: rest → s.setpoints = [] ∨ s.egress.nextTurn = .forward →
      exec .fPortStart s = .next { s with
        portF := { s.portF with transmitter := some { source := .forwarded, frame := frame }, forwardQueue := rest }
        egress := { s.egress with nextTurn := .setpoint } }) ∧
    (∀ head tail, s.setpoints = head :: tail → s.portF.forwardQueue = [] ∨ s.egress.nextTurn = .setpoint →
      ∃ carried : List SetpointItem, carried.Pairwise (fun x y => x.output < y.output) ∧
        (s.setpoints.Pairwise (fun x y => x.output ≠ y.output) →
          ∀ it, it ∈ carried ↔ it ∈ s.setpoints ∧ it.node = head.node) ∧
        exec .fPortStart s = .next { s with
          portF := { s.portF with
            transmitter := some
              { source := .setpoint
                frame := buildFrame (head.node.setWidth 8) (s.system.ownAddress.setWidth 8) 0x04 0 s.egress.seqF
                  (BitVec.ofNat 8 carried.length ::
                    carried.flatMap fun it => it.index.setWidth 8 :: halfBytes (it.value.setWidth 16)) } }
          setpoints := s.setpoints.filter fun it => decide (it.node ≠ head.node)
          egress := { s.egress with nextTurn := .forward, seqF := s.egress.seqF + 1 } }) ∧
    (s.portF.forwardQueue = [] → s.setpoints = [] → exec .fPortStart s = .next s)

/-- A transmission ends: completed it counts in tx_frames, abandoned by a loss of signal in tx_abandoned; a response that
ends frees its entry, and on completion becomes the last-response memory. Nothing else happens where no restart is
pending, and none where one is and the response is not the RESTART's own: another opcode, another status than OK, or a
REPEATED copy. That these tell it is the model's reading (log 14; R148, R149, R158, R162, R171). -/
def Obligations.TransmissionEnds : Prop :=
  ∀ (s : State) (p : Port) (x : Transmission), s.Ready → (s.port p).transmitter = some x →
    (x.source ≠ .response →
      exec (.transmissionComplete p) s = .next (s.setPort p { s.port p with
        transmitter := none, stats := (s.port p).stats.inc .txFrames })) ∧
    (∀ e rest r, x.source = .response → s.queue.entries = e :: rest → e.state = .sending → e.response = some r →
      s.queue.restartPending = false ∨ r.opcode ≠ 0x05 ∨ r.status ≠ .ok ∨ r.repeated = true →
      exec (.transmissionComplete p) s = .next { s.setPort p { s.port p with
          transmitter := none, stats := (s.port p).stats.inc .txFrames } with
        queue := { s.queue with entries := rest, memory := some { tag := e.tag, seq := e.seq, response := r } } } ∧
      ((s.port p).link = .up →
        exec (.lossOfSignal p) s = .next { s.setPort p { s.port p with
            link := .down, assembly := none, transmitter := none, stats := (s.port p).stats.inc .txAbandoned } with
          queue := { s.queue with entries := rest } }))

/-- The soft restart, at the end of the transmission of the RESTART's own response, completed or abandoned by a loss of
signal: live tables, System Record, links, F-port flight and Image Store are kept; every block's other state, the setpoint
set included, is set as after a hard reset, and the log's RESTARTED carries 1. The RESTART's own response is told from
others by its opcode, status and REPEATED (log 14; R18, R19, R37, R62, R87, R117, R139, R149, R154, R164, R171, R175, R182,
R198, R199). -/
def Obligations.SoftRestart : Prop :=
  ∀ (s : State) (x : Transmission) (e : RequestEntry) (r : Response) (rest : List RequestEntry), s.Ready →
    s.portS.transmitter = some x → x.source = .response → s.queue.entries = e :: rest → e.state = .sending →
    s.queue.restartPending = true → e.response = some r → r.opcode = 0x05 → r.status = .ok → r.repeated = false →
    ∃ t : State, exec (.transmissionComplete .s) s = .next t ∧
      (s.portS.link = .up → exec (.lossOfSignal .s) s = .next { t with portS := { t.portS with link := .down } }) ∧
      t.pending = s.pending ∧ t.held = false ∧ t.liveImage = s.liveImage ∧ t.store = s.store ∧
      t.portF = { s.portF with assembly := none, stats := .zero, forwardQueue := [] } ∧
      t.portS = { s.portS with assembly := none, stats := .zero, forwardQueue := [], transmitter := none } ∧
      (∀ a : Addr, (t.node a).runtime = .clear) ∧
      (∀ k : Slot, (t.channel k).runtime = .clear (t.channel k).config.enabled) ∧
      (∀ i : OutIdx, (t.output i).runtime =
        if (t.output i).config.enabled = true then
          { state := .fallback, target := none, forced := none, refreshCount := 0,
            issued :=
              match (t.output i).config.fallback with
              | .hold => none
              | .safe => some (t.output i).config.safe
              | .ramp => some (t.output i).config.safe }
        else { state := .off, issued := none, target := none, forced := none, refreshCount := 0 }) ∧
      t.setpoints = (allOutputs.filter fun i =>
          (t.output i).config.enabled && decide ((t.output i).config.fallback ≠ .hold)).map
        (fun i => { output := i, node := (t.output i).config.targetNode, index := (t.output i).config.targetIndex,
                    value := (t.output i).config.safe }) ∧
      t.log = .restarted 1 ∧ t.queue = .empty ∧ t.egress = .clear ∧
      t.time = { counter := 0, interval := s.system.tickPeriod, handedOn := .idle } ∧ t.due = .none ∧ t.capture = none

/-! ## Requests -/

/-- The Executor judges the opcode and then the parameter length before anything else; a request it refuses has no effect
but its answer, and with no entry to execute nothing happens. The answer's summary counts the channels in HIGH, LOW, STALE
or FAULT, the outputs in FALLBACK, and the entries of the Notice Log. The entry executed is the oldest WAITING one, unless a
restart is pending, and its answer makes it DONE and lost_count 0 (R86, R91, R137, R157, R159, R160, R161, R170, section
12.9). -/
def Obligations.OpcodeAndLength : Prop :=
  ((∀ x ∈ [(RequestKind.readSystem, 0x02, 0), (.writeSystem, 0x03, 7), (.readStats, 0x04, 1), (.restart, 0x05, 0),
        (.enrolNode, 0x10, 4), (.retireNode, 0x11, 1), (.readNode, 0x12, 1), (.bind, 0x20, 3), (.unbind, 0x21, 1),
        (.writeChannel, 0x22, 21), (.readChannel, 0x23, 1), (.ackBand, 0x24, 1), (.writeOutput, 0x30, 47),
        (.readOutput, 0x31, 1), (.forceOutput, 0x32, 3), (.releaseOutput, 0x33, 1), (.ackNotices, 0x40, 2),
        (.capture, 0x50, 0), (.readCapture, 0x51, 2), (.commit, 0x60, 0), (.readImage, 0x61, 0)],
      x.1.opcode = x.2.1 ∧ ∀ n, x.1.lengthOk n = true ↔ n = x.2.2) ∧
    RequestKind.echo.opcode = 0x01 ∧ (∀ n, RequestKind.echo.lengthOk n = true ↔ n ≤ 232) ∧
    (∀ b, knownOpcode b = true ↔ ∃ kind : RequestKind, b = kind.opcode)) ∧
  (∀ (kind : RequestKind) (s : State) (e : RequestEntry) (p : List Byte), s.Executes e kind p →
    kind.lengthOk p.length = false → exec kind.command s = .next (s.withAnswer e .badLength [])) ∧
  (∀ (s : State) (e : RequestEntry), s.Ready → s.nextToExecute = some e → knownOpcode e.opcode = false →
    exec .unknownRequest s = .next (s.withAnswer e .unknownRequest [])) ∧
  (∀ (kind : RequestKind) (s : State), s.Ready → s.nextToExecute = none → exec kind.command s = .next s) ∧
  (∀ s : State,
    s.summary.exceptional.toNat =
      (allSlots.filter fun k => decide ((s.channel k).runtime.state ∈ [.high, .low, .stale, .fault])).length ∧
    s.summary.fallback.toNat = (allOutputs.filter fun i => decide ((s.output i).runtime.state = .fallback)).length ∧
    s.summary.occupancy = BitVec.ofNat 8 s.log.entries.length) ∧
  (∀ (s : State) (pre post : List RequestEntry) (e : RequestEntry), s.queue.entries = pre ++ e :: post →
    (∀ x ∈ pre, x.state ≠ .waiting) → e.state = .waiting →
    (s.queue.restartPending = false → s.nextToExecute = some e) ∧
    (∀ status results, s.withAnswer e status results = { s with queue := { s.queue with
      lostCount := 0
      entries := pre ++ { e with
        state := .done
        response := some { tag := e.tag, opcode := e.opcode, status := status, repeated := false,
                           lost := s.queue.lostCount, summary := s.summary, results := results } } :: post } })) ∧
  (∀ s : State, s.queue.restartPending = true ∨ (∀ x ∈ s.queue.entries, x.state ≠ .waiting) → s.nextToExecute = none)

/-- The requests that change nothing but their answer: ECHO, READ_SYSTEM, READ_NODE, READ_CHANNEL, READ_OUTPUT and
READ_IMAGE, with the bytes they return (R36, R61, R108, R165, R166, R195, section 12.10). -/
def Obligations.ReadRequests : Prop :=
  (∀ s e p, s.Executes e .echo p → p.length ≤ 232 → exec .echo s = .next (s.withAnswer e .ok p)) ∧
  (∀ s e, s.Executes e .readSystem [] → exec .readSystem s = .next (s.withAnswer e .ok
    ([s.system.ownAddress.setWidth 8] ++ halfBytes s.system.tickPeriod ++ halfBytes s.system.resendTicks ++
      [s.system.classMask.setWidth 8, (match s.system.policy with | .pass => 0x00 | .block => 0x01)] ++
      [0x0A, 0x31, 0x0C, 0x58, 0x42] ++ quadBytes s.time.counter))) ∧
  (∀ s e b, s.Executes e .readNode [b] →
    (b.toNat = 0 ∨ 62 < b.toNat → exec .readNode s = .next (s.withAnswer e .badIndex [])) ∧
    (∀ a : Addr, b = a.setWidth 8 → a ≠ 0 → a ≠ 63 →
      ∀ r, r = s.node a →
      exec .readNode s = .next (s.withAnswer e .ok
        ([a.setWidth 8, if r.config.enrolled = true then 0x01 else 0x00] ++ halfBytes r.config.silenceLimit ++
          [(match r.config.seqPolicy with | .checked => 0x00 | .unchecked => 0x01 : Byte),
            (match r.runtime.state with | .unknown => 0x00 | .live => 0x01 | .silent => 0x02 : Byte)] ++
          (match r.runtime.lastSeq with | none => [0xFF, 0xFF] | some x => [0x00, x]) ++
          halfBytes r.runtime.silenceCount ++ halfBytes r.runtime.gapSum ++ halfBytes r.runtime.dupCount ++
          halfBytes r.runtime.replayCount ++
          (match r.runtime.lastStamp with | none => [0x00, 0x00, 0x00, 0x00, 0x00] | some t => 0x01 :: quadBytes t) ++
          [BitVec.ofNat 8 (s.bindings.countP fun b => decide (b.node = a))])))) ∧
  (∀ s e b, s.Executes e .readChannel [b] →
    (127 < b.toNat → exec .readChannel s = .next (s.withAnswer e .badIndex [])) ∧
    (∀ k : Slot, b = indexByte k → ∀ (c : ChannelConfig) (r : ChannelRuntime) (bound : List Byte),
      c = (s.channel k).config → r = (s.channel k).runtime →
      ((∀ x ∈ s.bindings, x.slot ≠ k) ∧ bound = [0x00, 0x00, 0x00]) ∨
        (∃ pre x post, s.bindings = pre ++ x :: post ∧ (∀ y ∈ pre, y.slot ≠ k) ∧ x.slot = k ∧
          bound = [0x01, x.node.setWidth 8, x.channel.setWidth 8]) →
      exec .readChannel s = .next (s.withAnswer e .ok
        ([indexByte k, if c.enabled = true then 0x01 else 0x00] ++ halfBytes c.offset ++ halfBytes (c.gain.setWidth 16) ++
          [(match c.forward with | .raw => 0x00 | .conditioned => 0x01 | .strip => 0x02 : Byte)] ++ halfBytes c.lowTrip ++
          halfBytes c.lowClear ++ halfBytes c.highClear ++ halfBytes c.highTrip ++
          [c.assertCount.setWidth 8, c.releaseCount.setWidth 8,
            (match c.mode with | .tracking => 0x00 | .latching => 0x01 : Byte), c.badLimit.setWidth 8] ++
          halfBytes c.silenceLimit ++
          [(match r.state with
            | .off => 0x00 | .idle => 0x01 | .inBand => 0x02 | .high => 0x03 | .low => 0x04 | .stale => 0x05
            | .fault => 0x06 : Byte)] ++ halfBytes r.value ++
          [(if r.valueValid = true then 0x01 else 0x00 : Byte),
            (match r.quality with | some .good => 0x00 | some .suspect => 0x01 | some .bad => 0x02 | none => 0x03 : Byte),
            (match r.runDir with | .none => 0x00 | .up => 0x01 | .down => 0x02 | .release => 0x03 : Byte),
            r.runCount.setWidth 8, r.badCount.setWidth 8, if r.acked = true then 0x01 else 0x00,
            (match r.staleCause with | .none => 0x00 | .node => 0x01 | .channel => 0x02 : Byte)] ++
          halfBytes r.silenceCount ++
          (match r.lastStamp with | none => [0x00, 0x00, 0x00, 0x00, 0x00] | some t => 0x01 :: quadBytes t) ++
          bound)))) ∧
  (∀ s e b, s.Executes e .readOutput [b] →
    (15 < b.toNat → exec .readOutput s = .next (s.withAnswer e .badIndex [])) ∧
    (∀ i : OutIdx, b = indexByte i → ∀ (c : OutputConfig) (r : OutputRuntime) (level : Option Level → List Byte)
        (pending : List Byte), c = (s.output i).config → r = (s.output i).runtime →
      (level none = [0xFF, 0xFF] ∧ ∀ w : Level, level (some w) = halfBytes (w.setWidth 16)) →
      ((∀ x ∈ s.setpoints, x.output ≠ i) ∧ pending = [0x00, 0xFF, 0xFF]) ∨
        (∃ pre x post, s.setpoints = pre ++ x :: post ∧ (∀ y ∈ pre, y.output ≠ i) ∧ x.output = i ∧
          pending = 0x01 :: halfBytes (x.value.setWidth 16)) →
      exec .readOutput s = .next (s.withAnswer e .ok
        ([indexByte i, if c.enabled = true then 0x01 else 0x00, c.targetNode.setWidth 8, c.targetIndex.setWidth 8,
            indexByte c.source, BitVec.ofNat 8 c.points.length] ++
          ((c.points ++ List.replicate (8 - c.points.length) (CurvePoint.mk 0 0)).flatMap fun p =>
            halfBytes p.x ++ halfBytes (p.y.setWidth 16)) ++
          halfBytes (c.deadband.setWidth 16) ++ halfBytes (c.slew.setWidth 16) ++ halfBytes c.refresh ++
          [(match c.fallback with | .hold => 0x00 | .safe => 0x01 | .ramp => 0x02 : Byte)] ++ halfBytes (c.safe.setWidth 16) ++
          [(match r.state with | .off => 0x00 | .normal => 0x01 | .fallback => 0x02 | .forced => 0x03 : Byte)] ++
          level r.issued ++ level r.target ++ level r.forced ++ halfBytes r.refreshCount ++ pending)))) ∧
  (∀ s e, s.Executes e .readImage [] → exec .readImage s = .next (s.withAnswer e .ok
    ([(match s.store.current with | some .a => 0x00 | some .b => 0x01 | none => 0x02 : Byte)] ++
      (match s.store.current with
        | some .a => halfBytes s.store.bankA.generation
        | some .b => halfBytes s.store.bankB.generation
        | none => [0x00, 0x00]) ++
      [(match s.store.commit.map CommitJob.phase with
        | none => 0x00 | some .erasing => 0x01 | some .writing => 0x02 | some .verifying => 0x03 : Byte),
        (match s.store.lastResult with | .none => 0x00 | .done => 0x01 | .failed => 0x02 : Byte),
        if s.store.dirty = true then 0x01 else 0x00])))

/-- READ_STATS refuses a bad clear code, answers both ports' link states and twelve counts as they stood, in the order of
section 1.10, and with clear YES sets every count to 0 (R19, R169, section 12.10). -/
def Obligations.ReadStats : Prop :=
  ∀ (s : State) (e : RequestEntry) (b : Byte) (stats : PortRecord → List Byte), s.Executes e .readStats [b] →
    (∀ p : PortRecord, stats p = (match p.link with | .down => 0x00 | .up => 0x01) ::
      (quadBytes p.stats.rxGood ++ quadBytes p.stats.rxCheckError ++ quadBytes p.stats.rxLengthError ++
        quadBytes p.stats.rxFormatError ++ quadBytes p.stats.rxMisdirected ++ quadBytes p.stats.rxQueueFull ++
        quadBytes p.stats.rxBlocked ++ quadBytes p.stats.rxEmptied ++ quadBytes p.stats.rxOwnedStripped ++
        quadBytes p.stats.rxDuplicateRequest ++ quadBytes p.stats.txFrames ++ quadBytes p.stats.txAbandoned)) →
    (1 < b.toNat → exec .readStats s = .next (s.withAnswer e .invalidRecord [])) ∧
    (b = 0 → exec .readStats s = .next (s.withAnswer e .ok (stats s.portF ++ stats s.portS))) ∧
    (b = 1 → exec .readStats s = .next (State.withAnswer
      { s with portF := { s.portF with stats := .zero }, portS := { s.portS with stats := .zero } }
      e .ok (stats s.portF ++ stats s.portS)))

/-- WRITE_SYSTEM: a field out of range is INVALID_RECORD, an address in use IN_USE; otherwise the System Record is
replaced whole, as a table write: dirty becomes yes and, while a commit is in flight, written_since_start too (R167, R168,
R186). -/
def Obligations.WriteSystem : Prop :=
  (∀ (s : State) (e : RequestEntry) (own mask policy : Byte) (period resend : Half),
    s.Executes e .writeSystem ([own] ++ halfBytes period ++ halfBytes resend ++ [mask, policy]) →
    (own.toNat = 0 ∨ 62 < own.toNat ∨ period.toNat = 0 ∨ 1000 < period.toNat ∨ resend = 0 ∨ 15 < mask.toNat ∨
        1 < policy.toNat →
      exec .writeSystem s = .next (s.withAnswer e .invalidRecord [])) ∧
    (1 ≤ own.toNat → own.toNat ≤ 62 → 1 ≤ period.toNat → period.toNat ≤ 1000 → resend ≠ 0 → mask.toNat ≤ 15 →
      policy.toNat ≤ 1 →
      ((s.node (addressOf own)).config.enrolled = true ∨ (∃ i, (s.output i).config.targetNode = addressOf own) →
        exec .writeSystem s = .next (s.withAnswer e .inUse [])) ∧
      ((s.node (addressOf own)).config.enrolled = false → (∀ i, (s.output i).config.targetNode ≠ addressOf own) →
        exec .writeSystem s = .next (State.withAnswer { s with
          system := { ownAddress := addressOf own, tickPeriod := period, resendTicks := resend,
                      classMask := mask.setWidth 4, policy := if policy = 0 then .pass else .block }
          store := { s.store with
            dirty := true, commit := s.store.commit.map fun j => { j with writtenSinceStart := true } } } e .ok [])))) ∧
  (∀ s : State, s.storeWritten =
    { s.store with dirty := true, commit := s.store.commit.map fun j => { j with writtenSinceStart := true } })

/-- RESTART and COMMIT are BUSY while a commit is in flight; otherwise a restart becomes pending, and a commit of the live
configuration to the bank that is not current begins with that bank erased (R170, R189, R190, R191). That the erased bank's
generation word reads all ones is the model's choice (log 22). -/
def Obligations.RestartAndCommit : Prop :=
  (∀ s e, s.Executes e .restart [] →
    (s.store.commit ≠ none → exec .restart s = .next (s.withAnswer e .busy [])) ∧
    (s.store.commit = none → exec .restart s = .next (State.withAnswer
      { s with queue := { s.queue with restartPending := true } } e .ok []))) ∧
  (∀ s e, s.Executes e .commit [] →
    (s.store.commit ≠ none → exec .commit s = .next (s.withAnswer e .busy [])) ∧
    (s.store.commit = none →
      (∀ target generation, (s.store.current = some .a ∧ target = .b ∧ generation = s.store.bankA.generation + 1) ∨
          (s.store.current = some .b ∧ target = .a ∧ generation = s.store.bankB.generation + 1) ∨
          (s.store.current = none ∧ target = .a ∧ generation = 1) →
        exec .commit s = .next (State.withAnswer { s with
          store := { s.store.setBank target { generation := 0xFFFF, integrity := 0xFFFFFFFF, image := .erased } with
            commit := some { phase := .erasing, target := target, generation := generation, copy := s.liveImage,
                             writtenSinceStart := false } } } e .ok (bankCode (some target) :: halfBytes generation)))))

/-- ENROL_NODE and RETIRE_NODE: the refusals in their order, and the record each leaves; no other record changes
(R20, R33, R34, R35). -/
def Obligations.EnrolAndRetire : Prop :=
  (∀ (s : State) (e : RequestEntry) (b policy : Byte) (limit : Half),
    s.Executes e .enrolNode ([b] ++ halfBytes limit ++ [policy]) →
    (b.toNat = 0 ∨ 62 < b.toNat ∨ b = s.system.ownAddress.setWidth 8 →
      exec .enrolNode s = .next (s.withAnswer e .badIndex [])) ∧
    (1 ≤ b.toNat → b.toNat ≤ 62 → b ≠ s.system.ownAddress.setWidth 8 →
      (1 < policy.toNat → exec .enrolNode s = .next (s.withAnswer e .invalidRecord [])) ∧
      (policy.toNat ≤ 1 →
        exec .enrolNode s = .next (State.withAnswer { s.setNode (addressOf b)
          { config := { enrolled := true, silenceLimit := limit,
                        seqPolicy := if policy = 0 then .checked else .unchecked }
            runtime := if (s.node (addressOf b)).config.enrolled = true then (s.node (addressOf b)).runtime else
              { state := .unknown, lastSeq := none, silenceCount := 0, gapSum := 0, dupCount := 0, replayCount := 0,
                lastStamp := none } } with
          store := s.storeWritten } e .ok [])))) ∧
  (∀ (s : State) (e : RequestEntry) (b : Byte), s.Executes e .retireNode [b] →
    (b.toNat = 0 ∨ 62 < b.toNat ∨ b = s.system.ownAddress.setWidth 8 →
      exec .retireNode s = .next (s.withAnswer e .badIndex [])) ∧
    (1 ≤ b.toNat → b.toNat ≤ 62 → b ≠ s.system.ownAddress.setWidth 8 →
      ((s.node (addressOf b)).config.enrolled = false →
        exec .retireNode s = .next (s.withAnswer e .notEnrolled [])) ∧
      ((s.node (addressOf b)).config.enrolled = true → (∃ x ∈ s.bindings, x.node = addressOf b) →
        exec .retireNode s = .next (s.withAnswer e .inUse [])) ∧
      ((s.node (addressOf b)).config.enrolled = true → (∀ x ∈ s.bindings, x.node ≠ addressOf b) →
        exec .retireNode s = .next (State.withAnswer { s.setNode (addressOf b) .empty with
          store := s.storeWritten } e .ok []))))

/-- BIND and UNBIND: the refusals in their order; the binding entered in slot order or removed; the channel at the slot
takes its cleared runtime; and UNBIND passes the outputs in NORMAL that named a valid channel into FALLBACK, each in
ascending order with its entry value and FALLBACK_ENTER (R38, R40 to R43, R84, R87, R98, R110). -/
def Obligations.BindAndUnbind : Prop :=
  (∀ (s : State) (e : RequestEntry) (n c b : Byte), s.Executes e .bind [n, c, b] →
    (n.toNat = 0 ∨ 62 < n.toNat ∨ 15 < c.toNat ∨ 127 < b.toNat →
      exec .bind s = .next (s.withAnswer e .badIndex [])) ∧
    (∀ (a : Addr) (ch : BitVec 4) (k : Slot), a ≠ 0 → a ≠ 63 → n = a.setWidth 8 → c = ch.setWidth 8 → b = indexByte k →
      ((s.node a).config.enrolled = false → exec .bind s = .next (s.withAnswer e .notEnrolled [])) ∧
      ((s.node a).config.enrolled = true → (∃ x ∈ s.bindings, x.node = a ∧ x.channel = ch) →
        exec .bind s = .next (s.withAnswer e .duplicate [])) ∧
      ((s.node a).config.enrolled = true → (∀ x ∈ s.bindings, ¬ (x.node = a ∧ x.channel = ch)) →
        (∃ x ∈ s.bindings, x.slot = k) → exec .bind s = .next (s.withAnswer e .inUse [])) ∧
      ((s.node a).config.enrolled = true → (∀ x ∈ s.bindings, ¬ (x.node = a ∧ x.channel = ch)) →
        (∀ x ∈ s.bindings, x.slot ≠ k) → (s.channel k).runtime.state.isValid = false →
        exec .bind s = .next (State.withAnswer { s with
          bindings := s.bindings.takeWhile (fun x => decide (x.slot < k)) ++ { node := a, channel := ch, slot := k } ::
            s.bindings.dropWhile (fun x => decide (x.slot < k))
          channels := s.channels.set k.val
            { config := (s.channel k).config, runtime := .clear (s.channel k).config.enabled }
          store := s.storeWritten } e .ok [])))) ∧
  (∀ (s : State) (e : RequestEntry) (b : Byte), s.Executes e .unbind [b] →
    (127 < b.toNat → exec .unbind s = .next (s.withAnswer e .badIndex [])) ∧
    (∀ k : Slot, b = indexByte k →
      ((∀ x ∈ s.bindings, x.slot ≠ k) → exec .unbind s = .next (s.withAnswer e .notBound [])) ∧
      ((∃ x ∈ s.bindings, x.slot = k) →
        ∃ t : State, exec .unbind s = .next (t.withAnswer e .ok []) ∧
          t = { s with
            bindings := s.bindings.filter fun x => decide (x.slot ≠ k)
            channels := s.channels.set k.val
              { config := (s.channel k).config, runtime := .clear (s.channel k).config.enabled }
            outputs := t.outputs
            setpoints := s.withItems OutputRecord.entryIssue (s.handedOver k)
            log := s.outputNotices s.log .fallbackEnter (s.handedOver k)
            store := s.storeWritten } ∧
          (∀ i, t.output i =
            if (s.channel k).runtime.state.isValid = true ∧ (s.output i).follows k = true ∧
                (s.output i).runtime.state = .normal then (s.output i).fellBack
            else s.output i))))

/-- WRITE_CHANNEL with a valid record: enabled to enabled keeps the state and clears the run, with acked set by a change
from LATCHING to TRACKING in an alarm; any other pair clears the runtime and hands over the outputs of a value lost, each
in ascending order with its entry value and FALLBACK_ENTER (R57, R58, R59, R60, R84, R87, R98, R110). -/
def Obligations.WriteChannel : Prop :=
  ∀ (s : State) (e : RequestEntry) (b : Byte) (record : List Byte), record.length = 20 →
    s.Executes e .writeChannel (b :: record) →
    (127 < b.toNat → exec .writeChannel s = .next (s.withAnswer e .badIndex [])) ∧
    (∀ k : Slot, b = indexByte k →
      ((∀ c : ChannelConfig, c.valid = true → record ≠ c.bytes) →
        exec .writeChannel s = .next (s.withAnswer e .invalidRecord [])) ∧
      (∀ c : ChannelConfig, c.valid = true → record = c.bytes →
        ((s.channel k).config.enabled = true → c.enabled = true →
          exec .writeChannel s = .next (State.withAnswer { s with
            channels := s.channels.set k.val
              { config := c
                runtime := { (s.channel k).runtime with
                  runDir := .none
                  runCount := 0
                  acked := (s.channel k).runtime.acked ||
                    decide ((s.channel k).config.mode = .latching ∧ c.mode = .tracking ∧
                      ((s.channel k).runtime.state = .high ∨ (s.channel k).runtime.state = .low)) } }
            store := s.storeWritten } e .ok [])) ∧
        ((s.channel k).config.enabled = false ∨ c.enabled = false →
          ∃ t : State, exec .writeChannel s = .next (t.withAnswer e .ok []) ∧
            t = { s with
              channels := s.channels.set k.val { config := c, runtime := .clear c.enabled }
              outputs := t.outputs
              setpoints := s.withItems OutputRecord.entryIssue (s.handedOver k)
              log := s.outputNotices s.log .fallbackEnter (s.handedOver k)
              store := s.storeWritten } ∧
            (∀ i, t.output i =
              if (s.channel k).runtime.state.isValid = true ∧ (s.output i).follows k = true ∧
                  (s.output i).runtime.state = .normal then (s.output i).fellBack
              else s.output i))))

/-- ACK_BAND: refused unless a latched alarm stands; otherwise a held release returns the channel with RETURN, and any
other sets acked (R76, R77). -/
def Obligations.AckBand : Prop :=
  ∀ (s : State) (e : RequestEntry) (b : Byte), s.Executes e .ackBand [b] →
    (127 < b.toNat → exec .ackBand s = .next (s.withAnswer e .badIndex [])) ∧
    (∀ k : Slot, b = indexByte k →
      ((s.channel k).config.enabled = false ∨ (s.channel k).runtime.state ∉ [.high, .low] ∨
          (s.channel k).config.mode = .tracking →
        exec .ackBand s = .next (s.withAnswer e .notLatched [])) ∧
      ((s.channel k).config.enabled = true → (s.channel k).runtime.state ∈ [.high, .low] →
        (s.channel k).config.mode = .latching →
        ((s.channel k).runtime.runDir = .release → (s.channel k).runtime.runCount = (s.channel k).config.releaseCount →
          exec .ackBand s = .next (State.withAnswer { s.setChannel k
              { config := (s.channel k).config
                runtime := { (s.channel k).runtime with state := .inBand, runDir := .none, runCount := 0 } } with
            log := s.log.raise s.system.classMask s.time.counter .ret (.channel k) (s.channel k).runtime.value }
            e .ok [])) ∧
        ((s.channel k).runtime.runDir ≠ .release ∨
            (s.channel k).runtime.runCount ≠ (s.channel k).config.releaseCount →
          exec .ackBand s = .next (State.withAnswer (s.setChannel k
              { config := (s.channel k).config
                runtime := { (s.channel k).runtime with acked := true } }) e .ok []))))

/-- FORCE_OUTPUT and RELEASE_OUTPUT: the refusals in order; a force issues its value at once; a release judges the
source as it stands (R92, R95, R98, R102, R104). -/
def Obligations.ForceAndRelease : Prop :=
  (∀ (s : State) (e : RequestEntry) (b : Byte) (v : Half), s.Executes e .forceOutput ([b] ++ halfBytes v) →
    (15 < b.toNat → exec .forceOutput s = .next (s.withAnswer e .badIndex [])) ∧
    (∀ i : OutIdx, b = indexByte i →
      ((s.output i).config.enabled = false → exec .forceOutput s = .next (s.withAnswer e .notEnabled [])) ∧
      ((s.output i).config.enabled = true →
        (4095 < v.toNat → exec .forceOutput s = .next (s.withAnswer e .invalidRecord [])) ∧
        (∀ w : Level, v = w.setWidth 16 →
          exec .forceOutput s = .next (State.withAnswer { s.setOutput i { s.output i with
              runtime := { (s.output i).runtime with state := .forced, forced := some w, issued := some w } } with
            setpoints := s.withItem i (some w) } e .ok []))))) ∧
  (∀ (s : State) (e : RequestEntry) (b : Byte), s.Executes e .releaseOutput [b] →
    (15 < b.toNat → exec .releaseOutput s = .next (s.withAnswer e .badIndex [])) ∧
    (∀ i : OutIdx, b = indexByte i →
      ((s.output i).runtime.state ≠ .forced → exec .releaseOutput s = .next (s.withAnswer e .notForced [])) ∧
      ((s.output i).runtime.state = .forced → s.sourceValid i = true →
        ∀ v, v = curve (s.output i).config.points (s.sourceValue i) →
        exec .releaseOutput s = .next (State.withAnswer { s.setOutput i (({ s.output i with
              runtime := { (s.output i).runtime with state := .normal, forced := none, target := some v } } :
              OutputRecord).withIssue ((s.output i).normalIssue v)) with
            setpoints := s.withItem i ((s.output i).normalIssue v) } e .ok [])) ∧
      ((s.output i).runtime.state = .forced → s.sourceValid i = false →
        exec .releaseOutput s = .next (State.withAnswer { s.setOutput i (s.output i).fellBack with
            setpoints := s.withItem i (s.output i).entryIssue
            log := s.log.raise s.system.classMask s.time.counter .fallbackEnter (.output i) (BitVec.ofNat 16 i.val) }
          e .ok []))))

/-- WRITE_OUTPUT's refusals in order, and its effect where it disables an output, which becomes OFF and cleared, or enables
one that was not enabled, which is judged against its source from a cleared runtime (R89, R90, R98, R105, R106, R111). -/
def Obligations.WriteOutputEnabling : Prop :=
  ∀ (s : State) (e : RequestEntry) (b : Byte) (record : List Byte), record.length = 46 →
    s.Executes e .writeOutput (b :: record) →
    (15 < b.toNat → exec .writeOutput s = .next (s.withAnswer e .badIndex [])) ∧
    (b.toNat ≤ 15 → outputRecordBad s.system.ownAddress record →
      exec .writeOutput s = .next (s.withAnswer e .invalidRecord [])) ∧
    (∀ (i : OutIdx) (c : OutputConfig), b = indexByte i → c.valid s.system.ownAddress = true → c.spelledBy record →
      (c.enabled = true → (∃ j, j ≠ i ∧ (s.output j).config.enabled = true ∧
          (s.output j).config.targetNode = c.targetNode ∧ (s.output j).config.targetIndex = c.targetIndex) →
        exec .writeOutput s = .next (s.withAnswer e .duplicate [])) ∧
      (c.enabled = false →
        exec .writeOutput s = .next (State.withAnswer { s.setOutput i { config := c, runtime := .cleared .off } with
          setpoints := s.setpoints.filter fun it => decide (it.output ≠ i)
          store := s.storeWritten } e .ok [])) ∧
      (c.enabled = true → (s.output i).config.enabled = false → (∀ j, j ≠ i → (s.output j).config.enabled = true →
          ¬ ((s.output j).config.targetNode = c.targetNode ∧ (s.output j).config.targetIndex = c.targetIndex)) →
        ((s.channel c.source).runtime.state.isValid = true →
          ∀ v, v = curve c.points (s.channel c.source).runtime.value →
          exec .writeOutput s = .next (State.withAnswer { s.setOutput i { config := c, runtime :=
                { state := .normal, issued := some v, target := some v, forced := none, refreshCount := 0 } } with
              setpoints := placeItem s.setpoints { output := i, node := c.targetNode, index := c.targetIndex, value := v }
              store := s.storeWritten } e .ok [])) ∧
        ((s.channel c.source).runtime.state.isValid = false →
          ∀ w, w = (match c.fallback with | .hold => none | .safe => some c.safe | .ramp => some c.safe : Option Level) →
          exec .writeOutput s = .next (State.withAnswer { s.setOutput i { config := c, runtime :=
                { state := .fallback, issued := w, target := none, forced := none, refreshCount := 0 } } with
              setpoints := (match w with
                | none => s.setpoints
                | some x => placeItem s.setpoints
                    { output := i, node := c.targetNode, index := c.targetIndex, value := x })
              log := s.log.raise s.system.classMask s.time.counter .fallbackEnter (.output i) (BitVec.ofNat 16 i.val)
              store := s.storeWritten } e .ok []))))

/-- WRITE_OUTPUT on an output that stays enabled. With its target pair: FORCED stays as it is, NORMAL and FALLBACK are judged
afresh against the new source. With another pair: its pending item goes, and it is judged against its source with
nothing issued yet (R98, R105, R107, R111). -/
def Obligations.WriteOutputStaysEnabled : Prop :=
  (∀ (s : State) (e : RequestEntry) (i : OutIdx) (c : OutputConfig) (o : OutputRecord) (record : List Byte),
    s.Executes e .writeOutput (indexByte i :: record) → c.spelledBy record →
    c.valid s.system.ownAddress = true → c.enabled = true →
    (s.output i).config.enabled = true → c.targetNode = (s.output i).config.targetNode →
    c.targetIndex = (s.output i).config.targetIndex → (∀ j, j ≠ i → (s.output j).config.enabled = true →
      ¬ ((s.output j).config.targetNode = c.targetNode ∧ (s.output j).config.targetIndex = c.targetIndex)) →
    o = { config := c, runtime := (s.output i).runtime } →
    (o.runtime.state = .forced →
      exec .writeOutput s = .next (State.withAnswer { s.setOutput i o with store := s.storeWritten } e .ok [])) ∧
    ((s.channel c.source).runtime.state.isValid = true →
      ∀ v, v = curve c.points (s.channel c.source).runtime.value →
      (o.runtime.state = .normal →
        exec .writeOutput s = .next (State.withAnswer { s.setOutput i (({ o with
              runtime := { o.runtime with target := some v } } : OutputRecord).withIssue (o.normalIssue v)) with
            setpoints := s.withItem i (o.normalIssue v)
            store := s.storeWritten } e .ok [])) ∧
      (o.runtime.state = .fallback →
        exec .writeOutput s = .next (State.withAnswer { s.setOutput i (({ o with
              runtime := { o.runtime with state := .normal, target := some v } } : OutputRecord).withIssue
                (o.normalIssue v)) with
            setpoints := s.withItem i (o.normalIssue v)
            log := s.log.raise s.system.classMask s.time.counter .fallbackExit (.output i) (BitVec.ofNat 16 i.val)
            store := s.storeWritten } e .ok []))) ∧
    ((s.channel c.source).runtime.state.isValid = false →
      (o.runtime.state = .normal →
        exec .writeOutput s = .next (State.withAnswer { s.setOutput i o.fellBack with
            setpoints := s.withItem i o.entryIssue
            log := s.log.raise s.system.classMask s.time.counter .fallbackEnter (.output i) (BitVec.ofNat 16 i.val)
            store := s.storeWritten } e .ok [])) ∧
      (o.runtime.state = .fallback →
        exec .writeOutput s = .next (State.withAnswer { s.setOutput i (o.withIssue o.entryIssue) with
            setpoints := s.withItem i o.entryIssue
            store := s.storeWritten } e .ok [])))) ∧
  (∀ (s : State) (e : RequestEntry) (i : OutIdx) (c : OutputConfig) (r : OutputRuntime) (kept : List SetpointItem)
    (record : List Byte), s.Executes e .writeOutput (indexByte i :: record) → c.spelledBy record →
    c.valid s.system.ownAddress = true → c.enabled = true →
    (s.output i).config.enabled = true →
    ¬ (c.targetNode = (s.output i).config.targetNode ∧ c.targetIndex = (s.output i).config.targetIndex) →
    (∀ j, j ≠ i → (s.output j).config.enabled = true →
      ¬ ((s.output j).config.targetNode = c.targetNode ∧ (s.output j).config.targetIndex = c.targetIndex)) →
    (s.output i).runtime.state ≠ .off →
    r = (s.output i).runtime → kept = s.setpoints.filter (fun it => decide (it.output ≠ i)) →
    ((s.channel c.source).runtime.state.isValid = true →
      ∀ v, v = curve c.points (s.channel c.source).runtime.value →
      exec .writeOutput s = .next (State.withAnswer { s.setOutput i { config := c, runtime :=
            { state := .normal, issued := some v, target := some v, forced := none, refreshCount := r.refreshCount } } with
          setpoints := kept ++ [{ output := i, node := c.targetNode, index := c.targetIndex, value := v }]
          store := s.storeWritten } e .ok [])) ∧
    ((s.channel c.source).runtime.state.isValid = false →
      ∀ w, w = (match c.fallback with | .hold => none | .safe => some c.safe | .ramp => some c.safe : Option Level) →
      exec .writeOutput s = .next (State.withAnswer { s.setOutput i { config := c, runtime :=
            { state := .fallback, issued := w, target := r.target, forced := none, refreshCount := r.refreshCount } } with
          setpoints := kept ++ (match w with
            | none => []
            | some x => [{ output := i, node := c.targetNode, index := c.targetIndex, value := x }])
          log := if r.state = .fallback then s.log else
            s.log.raise s.system.classMask s.time.counter .fallbackEnter (.output i) (BitVec.ofNat 16 i.val)
          store := s.storeWritten } e .ok [])))

/-- ACK_NOTICES: a number in the SENT prefix removes every entry through it, and an OVERFLOW entry so removed is
followed by a new one for the events lost since; any other number is refused and changes nothing (R131, R132). -/
def Obligations.AckNotices : Prop :=
  ∀ (s : State) (e : RequestEntry) (n : Half), s.Executes e .ackNotices (halfBytes n) →
    ((∀ pre x post, s.log.entries = pre ++ x :: post → x.number = n → ∃ y ∈ pre ++ [x], y.sendState ≠ .sent) →
      exec .ackNotices s = .next (s.withAnswer e .badAckRange [])) ∧
    (∀ pre x post, s.log.entries = pre ++ x :: post → x.number = n → (∀ y ∈ pre ++ [x], y.sendState = .sent) →
      (∀ y ∈ pre, y.number ≠ n) →
      (s.log.lostSinceMarker = 0 ∨ (∀ y ∈ pre ++ [x], y.kind ≠ .overflow) →
        exec .ackNotices s = .next (State.withAnswer { s with log := { s.log with entries := post } } e .ok [])) ∧
      (s.log.lostSinceMarker ≠ 0 → (∃ y ∈ pre ++ [x], y.kind = .overflow) →
        exec .ackNotices s = .next (State.withAnswer { s with
          log :=
            { entries := post ++ [{ number := s.log.nextNumber, kind := .overflow, subject := .none,
                                    value := s.log.lostSinceMarker, stamp := s.time.counter, coalesceCount := 0,
                                    sendState := .new, sentStamp := none }]
              nextNumber := s.log.nextNumber + 1
              lostSinceMarker := 0 } } e .ok [])))

/-- CAPTURE copies every channel, output and node under the next number, which goes from 255 to 1 and is 1 for the first
after a reset. READ_CAPTURE refuses a section and page out of range, then the want of a capture, and otherwise answers
the page's entries, byte by byte, with the capture's number and stamp (R176 to R181, section 12.10). -/
def Obligations.CaptureAndReadCapture : Prop :=
  (∀ (s : State) (e : RequestEntry), s.Executes e .capture [] →
    ∃ c, exec .capture s = .next (State.withAnswer { s with capture := some c } e .ok (c.number :: quadBytes c.stamp)) ∧
      c.stamp = s.time.counter ∧ c.number ≠ 0 ∧
      (s.capture = none → c.number = 1) ∧
      (∀ old, s.capture = some old → (old.number = 255 → c.number = 1) ∧ (old.number ≠ 255 → c.number = old.number + 1)) ∧
      (∀ k : Slot, c.channels[k.val] =
        { state := (s.channel k).runtime.state, value := (s.channel k).runtime.value,
          valueValid := (s.channel k).runtime.valueValid, quality := (s.channel k).runtime.quality }) ∧
      (∀ i : OutIdx, c.outputs[i.val] =
        { state := (s.output i).runtime.state, issued := (s.output i).runtime.issued }) ∧
      (∀ a : Fin 64, BitVec.ofNat 6 a.val ≠ s.system.ownAddress → a.val ≠ 0 → a.val ≠ 63 → c.nodes[a.val] =
        { used := true, enrolled := (s.node (BitVec.ofNat 6 a.val)).config.enrolled,
          state := (s.node (BitVec.ofNat 6 a.val)).runtime.state,
          silenceCount := (s.node (BitVec.ofNat 6 a.val)).runtime.silenceCount }) ∧
      (∀ a : Fin 64, BitVec.ofNat 6 a.val = s.system.ownAddress ∨ a.val = 0 ∨ a.val = 63 → c.nodes[a.val] =
        { used := false, enrolled := false, state := .unknown, silenceCount := 0 })) ∧
  (∀ (s : State) (e : RequestEntry) (sec page : Byte), s.Executes e .readCapture [sec, page] →
    (2 < sec.toNat ∨ (sec = 0 ∧ 8 ≤ page.toNat) ∨ (sec = 1 ∧ 1 ≤ page.toNat) ∨ (sec = 2 ∧ 4 ≤ page.toNat) →
      exec .readCapture s = .next (s.withAnswer e .badIndex [])) ∧
    ((sec = 0 ∧ page.toNat < 8) ∨ (sec = 1 ∧ page = 0) ∨ (sec = 2 ∧ page.toNat < 4) →
      (s.capture = none → exec .readCapture s = .next (s.withAnswer e .notCaptured [])) ∧
      (∀ c, s.capture = some c →
        exec .readCapture s = .next (s.withAnswer e .ok ([sec, page, c.number] ++ quadBytes c.stamp ++
          (if sec = 0 then ((c.channels.toList.drop (16 * page.toNat)).take 16).flatMap fun x =>
            [(match x.state with
              | .off => 0x00 | .idle => 0x01 | .inBand => 0x02 | .high => 0x03 | .low => 0x04 | .stale => 0x05
              | .fault => 0x06 : Byte)] ++ halfBytes x.value ++
            [(if x.valueValid = true then 0x01 else 0x00 : Byte),
              (match x.quality with
                | some .good => 0x00 | some .suspect => 0x01 | some .bad => 0x02 | none => 0x03 : Byte)]
          else if sec = 1 then c.outputs.toList.flatMap fun x =>
            (match x.state with | .off => 0x00 | .normal => 0x01 | .fallback => 0x02 | .forced => 0x03 : Byte) ::
              (match x.issued with | none => [0xFF, 0xFF] | some w => halfBytes (w.setWidth 16))
          else ((c.nodes.toList.drop (16 * page.toNat)).take 16).flatMap fun x =>
            [(if x.used = true then 0x01 else 0x00 : Byte), if x.enrolled = true then 0x01 else 0x00,
              (match x.state with | .unknown => 0x00 | .live => 0x01 | .silent => 0x02 : Byte)] ++
            halfBytes x.silenceCount))))))

/-! ## The Image Store -/

/-- The phases of a commit: the erasure's end, the writing's end with what the medium stored, and the read-back's end,
which succeeds exactly when the target holds the generation and the copy; a success makes the target valid and current
and raises COMMIT_DONE, a failure leaves it invalid, sets dirty and raises COMMIT_FAILED (R184, R191, R192, R193). What a
writing that went wrong left in the bank (the operand `faulty`) is the model's choice (log 11), and so is that the bank
holds what its erasure left until the writing ends (log 22). -/
def Obligations.CommitPhases : Prop :=
  ∀ (s : State) (j : CommitJob), s.Ready → s.store.commit = some j →
    (j.phase = .erasing →
      exec .erasureEnds s = .next { s with store := { s.store with commit := some { j with phase := .writing } } }) ∧
    (j.phase = .writing →
      exec (.writingEnds .good) s = .next { s with
        store := { s.store.setBank j.target
            { generation := j.generation, integrity := 0xFFFFFFFF, image := .intact j.copy } with
          commit := some { j with phase := .verifying } } } ∧
      (∀ g, exec (.writingEnds (.faulty g)) s = .next { s with
        store := { s.store.setBank j.target { generation := g, integrity := 0xFFFFFFFF, image := .damaged } with
          commit := some { j with phase := .verifying } } })) ∧
    (j.phase = .verifying →
      ((s.store.bank j.target).generation = j.generation ∧ (s.store.bank j.target).image = .intact j.copy →
        ∃ t : State, exec .readBackEnds s = .next t ∧ t = { s with store := t.store, log := t.log } ∧
          (t.store.bank j.target).valid = true ∧ (t.store.bank j.target).image = .intact j.copy ∧
          (t.store.bank j.target).generation = j.generation ∧
          (∀ id, id ≠ j.target → t.store.bank id = s.store.bank id) ∧
          t.store.current = some j.target ∧ t.store.lastResult = .done ∧ t.store.dirty = j.writtenSinceStart ∧
          t.store.commit = none ∧
          t.log = s.log.raise s.system.classMask s.time.counter .commitDone .none j.generation) ∧
      (¬ ((s.store.bank j.target).generation = j.generation ∧ (s.store.bank j.target).image = .intact j.copy) →
        ∃ t : State, exec .readBackEnds s = .next t ∧ t = { s with store := t.store, log := t.log } ∧
          (t.store.bank j.target).valid = false ∧
          (∀ id, id ≠ j.target → t.store.bank id = s.store.bank id) ∧
          t.store.current = s.store.current ∧ t.store.lastResult = .failed ∧ t.store.dirty = true ∧
          t.store.commit = none ∧
          t.log = s.log.raise s.system.classMask s.time.counter .commitFailed .none j.generation))

/-! ## Rules of the blocks -/

/-- An event raised toward the log: masked, coalesced, appended, or lost and counted, by the first check that applies
(R118, R119, R122, R123, R124, R125). -/
def Obligations.RaiseEvent : Prop :=
  (∀ kind : NoticeKind,
    (kind.noticeClass = .band ↔ kind ∈ [.enterHigh, .enterLow, .ret]) ∧
    (kind.noticeClass = .health ↔ kind ∈ [.stale, .fault, .recover]) ∧
    (kind.noticeClass = .node ↔ kind ∈ [.nodeSilent, .nodeBack, .seqGap, .nodeRestart]) ∧
    (kind.noticeClass = .output ↔ kind ∈ [.fallbackEnter, .fallbackExit]) ∧
    (kind.noticeClass = .system ↔ kind ∈ [.restarted, .commitDone, .commitFailed, .overflow])) ∧
  (∀ mask : BitVec 4, NoticeClass.enabledIn .band mask = mask.getLsbD 0 ∧
    NoticeClass.enabledIn .health mask = mask.getLsbD 1 ∧ NoticeClass.enabledIn .node mask = mask.getLsbD 2 ∧
    NoticeClass.enabledIn .output mask = mask.getLsbD 3 ∧ NoticeClass.enabledIn .system mask = true) ∧
  ∀ (l : NoticeLog) (mask : BitVec 4) (now : Quad) (kind : NoticeKind) (subject : Subject) (value : Half),
    (kind.noticeClass.enabledIn mask = false → l.raise mask now kind subject value = l) ∧
    (kind.noticeClass.enabledIn mask = true →
      (∀ pre x post, kind.noticeClass ≠ .system → l.entries = pre ++ x :: post →
        (∀ y ∈ pre, ¬ (y.sendState = .new ∧ y.subject = subject)) → x.sendState = .new → x.subject = subject →
        l.raise mask now kind subject value = { l with
          entries := pre ++ { x with kind := kind, value := value, stamp := now, coalesceCount := satInc x.coalesceCount } ::
            post }) ∧
      (kind.noticeClass = .system ∨ (∀ y ∈ l.entries, ¬ (y.sendState = .new ∧ y.subject = subject)) →
        ((l.entries.countP fun y => decide (y.kind ≠ .overflow)) < 31 →
          l.raise mask now kind subject value = { l with
            entries := l.entries ++ [{ number := l.nextNumber, kind := kind, subject := subject, value := value,
                                       stamp := now, coalesceCount := 0, sendState := .new, sentStamp := none }]
            nextNumber := l.nextNumber + 1 }) ∧
        (31 ≤ (l.entries.countP fun y => decide (y.kind ≠ .overflow)) →
          ((∀ y ∈ l.entries, y.kind ≠ .overflow) →
            l.raise mask now kind subject value = { l with
              entries := l.entries ++ [{ number := l.nextNumber, kind := .overflow, subject := .none, value := 1,
                                         stamp := now, coalesceCount := 0, sendState := .new, sentStamp := none }]
              nextNumber := l.nextNumber + 1 }) ∧
          (∀ pre x post, l.entries = pre ++ x :: post → (∀ y ∈ pre, y.kind ≠ .overflow) → x.kind = .overflow →
            (x.sendState = .sent →
              l.raise mask now kind subject value = { l with lostSinceMarker := satInc l.lostSinceMarker }) ∧
            (x.sendState ≠ .sent →
              l.raise mask now kind subject value = { l with
                entries := pre ++ { x with value := satInc x.value, stamp := now } :: post })))))

/-- A valid reading at its channel, judged by the channel's state: runs toward an alarm, release from it, and recovery, by
a value between the trip limits or at or beyond one of them. The rest of the state is kept (R65, R69, R70, R71, R72, R73).
That a release qualified after a change of mode to TRACKING raises RETURN, as R60 and R73 state, against the list of R74, is
the model's choice (log 20). -/
def Obligations.ValidReadingIsJudged : Prop :=
  ∀ (s : State) (k : Slot) (v : Half) (q : Quality) (c : ChannelConfig) (r : ChannelRuntime),
    c = (s.channel k).config →
    r = { (s.channel k).runtime with silenceCount := 0, lastStamp := some s.time.counter, quality := some q, value := v,
                                     valueValid := true, badCount := 0 } →
    (r.state = .inBand → c.lowTrip.toInt < v.toInt → v.toInt < c.highTrip.toInt →
      s.validReading k v q = s.setRuntime k { r with runDir := .none, runCount := 0 }) ∧
    (r.state = .inBand → c.highTrip.toInt ≤ v.toInt →
      ∀ n : BitVec 4, n = (if r.runDir = .up then satInc r.runCount else 1) →
      (c.assertCount ≤ n → s.validReading k v q =
        { s.setRuntime k { r with state := .high, runDir := .none, runCount := 0, acked := false } with
          log := s.log.raise s.system.classMask s.time.counter .enterHigh (.channel k) v }) ∧
      (n < c.assertCount → s.validReading k v q = s.setRuntime k { r with runDir := .up, runCount := n })) ∧
    (r.state = .inBand → v.toInt ≤ c.lowTrip.toInt → v.toInt < c.highTrip.toInt →
      ∀ n : BitVec 4, n = (if r.runDir = .down then satInc r.runCount else 1) →
      (c.assertCount ≤ n → s.validReading k v q =
        { s.setRuntime k { r with state := .low, runDir := .none, runCount := 0, acked := false } with
          log := s.log.raise s.system.classMask s.time.counter .enterLow (.channel k) v }) ∧
      (n < c.assertCount → s.validReading k v q = s.setRuntime k { r with runDir := .down, runCount := n })) ∧
    ((r.state = .high ∧ c.highClear.toInt < v.toInt) ∨ (r.state = .low ∧ v.toInt < c.lowClear.toInt) →
      s.validReading k v q = s.setRuntime k { r with runDir := .none, runCount := 0 }) ∧
    ((r.state = .high ∧ v.toInt ≤ c.highClear.toInt) ∨ (r.state = .low ∧ c.lowClear.toInt ≤ v.toInt) →
      r.runDir ≠ .release ∨ r.runCount ≤ c.releaseCount → 1 ≤ c.releaseCount →
      ∀ n : BitVec 4, n = (if r.runDir = .release then (if r.runCount = c.releaseCount then c.releaseCount
        else r.runCount + 1) else 1) →
      (n = c.releaseCount → c.mode = .tracking ∨ r.acked = true → s.validReading k v q =
        { s.setRuntime k { r with state := .inBand, runDir := .none, runCount := 0 } with
          log := s.log.raise s.system.classMask s.time.counter .ret (.channel k) v }) ∧
      (n ≠ c.releaseCount ∨ (c.mode = .latching ∧ r.acked = false) → s.validReading k v q =
        s.setRuntime k { r with runDir := .release, runCount := n })) ∧
    (r.state = .idle → c.lowTrip.toInt < v.toInt → v.toInt < c.highTrip.toInt →
      s.validReading k v q =
        s.setRuntime k { r with state := .inBand, staleCause := .none, runDir := .none, runCount := 0 }) ∧
    (r.state = .stale ∨ r.state = .fault → c.lowTrip.toInt < v.toInt → v.toInt < c.highTrip.toInt →
      s.validReading k v q =
        { s.setRuntime k { r with state := .inBand, staleCause := .none, runDir := .none, runCount := 0 } with
          log := s.log.raise s.system.classMask s.time.counter .recover (.channel k) v }) ∧
    (∀ log, (r.state = .idle ∧ log = s.log) ∨
        ((r.state = .stale ∨ r.state = .fault) ∧
          log = s.log.raise s.system.classMask s.time.counter .recover (.channel k) v) →
      (c.highTrip.toInt ≤ v.toInt →
        (c.assertCount ≤ 1 → s.validReading k v q =
          { s.setRuntime k
              { r with state := .high, staleCause := .none, runDir := .none, runCount := 0, acked := false } with
            log := log.raise s.system.classMask s.time.counter .enterHigh (.channel k) v }) ∧
        (1 < c.assertCount → s.validReading k v q =
          { s.setRuntime k { r with state := .inBand, staleCause := .none, runDir := .up, runCount := 1 } with
            log := log })) ∧
      (v.toInt ≤ c.lowTrip.toInt → v.toInt < c.highTrip.toInt →
        (c.assertCount ≤ 1 → s.validReading k v q =
          { s.setRuntime k
              { r with state := .low, staleCause := .none, runDir := .none, runCount := 0, acked := false } with
            log := log.raise s.system.classMask s.time.counter .enterLow (.channel k) v }) ∧
        (1 < c.assertCount → s.validReading k v q =
          { s.setRuntime k { r with state := .inBand, staleCause := .none, runDir := .down, runCount := 1 } with
            log := log })))

/-- A BAD reading counts toward bad_limit and changes nothing else but the silence; at the limit the channel enters
FAULT with its notice and hands its outputs over, each in ascending order with its entry value and FALLBACK_ENTER; in FAULT
it only refreshes the silence (R65, R66, R67, R68, R84, R98, R110). -/
def Obligations.BadReadingIsCounted : Prop :=
  ∀ (s : State) (k : Slot) (r : ChannelRuntime) (n : BitVec 4),
    r = { (s.channel k).runtime with silenceCount := 0, lastStamp := some s.time.counter, quality := some .bad } →
    n = satInc r.badCount →
    (r.state = .fault → s.badReading k = s.setRuntime k r) ∧
    (r.state ∈ [.idle, .inBand, .high, .low, .stale] → n < (s.channel k).config.badLimit →
      s.badReading k = s.setRuntime k { r with badCount := n }) ∧
    (r.state ∈ [.idle, .inBand, .high, .low, .stale] → (s.channel k).config.badLimit ≤ n →
      ∃ t : State, s.badReading k = t ∧
        t = { s.setRuntime k { r with state := .fault, badCount := n, valueValid := false, acked := false,
                                      staleCause := .none, runDir := .none, runCount := 0 } with
          outputs := t.outputs
          setpoints := s.withItems OutputRecord.entryIssue (s.handedOver k)
          log := s.outputNotices
            (s.log.raise s.system.classMask s.time.counter .fault (.channel k) (BitVec.ofNat 16 k.val))
            .fallbackEnter (s.handedOver k) } ∧
        (∀ i, t.output i =
          if r.state.isValid = true ∧ (s.output i).follows k = true ∧ (s.output i).runtime.state = .normal then
            (s.output i).fellBack
          else s.output i))

/-- Conditioning: the sum and product are exact, the quotient by 4096 is truncated toward zero, and a result outside 16
bits saturates and becomes SUSPECT (R48, R49). -/
def Obligations.Conditioning : Prop :=
  ∀ (c : ChannelConfig) (raw : Half) (q : Quality) (x : Int),
    x = Int.tdiv ((raw.toInt + c.offset.toInt) * (c.gain.toNat : Int)) 4096 →
    (-32768 ≤ x → x ≤ 32767 → (c.condition raw q).1.toInt = x ∧ (c.condition raw q).2 = q) ∧
    (32767 < x → (c.condition raw q).1.toInt = 32767 ∧ (c.condition raw q).2 = .suspect) ∧
    (x < -32768 → (c.condition raw q).1.toInt = -32768 ∧ (c.condition raw q).2 = .suspect)

/-- The curve maps a value at or below the first point to its y, at or above the last to its y, and between two points
to the interpolation truncated toward zero, which lies between their y (R94). -/
def Obligations.CurveInterpolates : Prop :=
  (∀ (p : CurvePoint) (rest : List CurvePoint) (v : Half), v.toInt ≤ p.x.toInt → curve (p :: rest) v = p.y) ∧
  (∀ (pre : List CurvePoint) (p : CurvePoint) (v : Half), risingPoints (pre ++ [p]) = true → p.x.toInt ≤ v.toInt →
    curve (pre ++ [p]) v = p.y) ∧
  (∀ (pre post : List CurvePoint) (p q : CurvePoint) (v : Half), risingPoints (pre ++ p :: q :: post) = true →
    p.x.toInt ≤ v.toInt → v.toInt < q.x.toInt →
    ((curve (pre ++ p :: q :: post) v).toNat : Int) = p.y.toNat +
        Int.tdiv ((v.toInt - p.x.toInt) * ((q.y.toNat : Int) - p.y.toNat)) (q.x.toInt - p.x.toInt) ∧
      min p.y.toNat q.y.toNat ≤ (curve (pre ++ p :: q :: post) v).toNat ∧
      (curve (pre ++ p :: q :: post) v).toNat ≤ max p.y.toNat q.y.toNat)

/-- The NORMAL computation: the target follows the curve; a first value is issued at once, an equal one and one within
deadband not at all, and a step is bounded by slew. An issue replaces the value of the output's item where it stands in the
setpoint set, or joins the tail (R93, R95, R110). -/
def Obligations.NormalComputation : Prop :=
  (∀ (pre post : List SetpointItem) (x it : SetpointItem), (∀ y ∈ pre, y.output ≠ it.output) →
    (x.output = it.output →
      placeItem (pre ++ x :: post) it = pre ++ { x with value := it.value } :: post) ∧
    placeItem pre it = pre ++ [it]) ∧
  (∀ x y : Level, (y.toNat ≤ x.toNat → distance x y = x.toNat - y.toNat) ∧
    (x.toNat ≤ y.toNat → distance x y = y.toNat - x.toNat)) ∧
  ∀ (s : State) (i : OutIdx) (v : Half) (w : Level), w = curve (s.output i).config.points v →
    s.normalCompute i v = { s.setOutput i (({ s.output i with
        runtime := { (s.output i).runtime with target := some w } } : OutputRecord).withIssue
          ((s.output i).normalIssue w)) with
      setpoints := s.withItem i ((s.output i).normalIssue w) } ∧
    ((s.output i).runtime.issued = none → (s.output i).normalIssue w = some w) ∧
    (∀ u, (s.output i).runtime.issued = some u →
      (w = u ∨ distance w u < (s.output i).config.deadband.toNat → (s.output i).normalIssue w = none) ∧
      (w ≠ u → (s.output i).config.deadband.toNat ≤ distance w u →
        ((s.output i).config.slew = 0 ∨ distance w u ≤ (s.output i).config.slew.toNat →
          (s.output i).normalIssue w = some w) ∧
        ((s.output i).config.slew ≠ 0 → (s.output i).config.slew.toNat < distance w u →
          ∃ x, (s.output i).normalIssue w = some x ∧
            (u.toNat < w.toNat → x.toNat = u.toNat + (s.output i).config.slew.toNat) ∧
            (w.toNat < u.toNat → x.toNat + (s.output i).config.slew.toNat = u.toNat))))

/-! ## What every step keeps -/

/-- Every step keeps the ports' bounds and the goodness of every frame held: forward queues of at most 8 frames,
assemblies of at most 248 bytes, nothing in flight on a DOWN port, a starvation count of at most 4, and every frame that
waits or flies passing the tests of R8, from states whose tables are lawful (R7, R17, R140, R141, R145). -/
def Obligations.PortsStaySafe : Prop :=
  ∀ s t : State, s.PortsLawful → s.FramesGood → s.ResultsFit → s.TablesLawful → step s = .next t →
    t.PortsLawful ∧ t.FramesGood ∧ t.ResultsFit

/-- Every step keeps the Notice Log's laws: consecutive numbers, the order of send states, its two bounds, one NEW entry
for a subject, and a lost_since_marker only while the OVERFLOW entry is SENT (R118, R120, R121, R123, R125). -/
def Obligations.NoticeLogStaysLawful : Prop :=
  ∀ s t : State, s.log.Lawful → step s = .next t → t.log.Lawful

/-- Every step keeps the Request Queue's laws: at most 4 entries, only the head SENDING and only while its response
flies, no two entries with one tag and seq, a response exactly in the executed ones (R155, R156, R162). -/
def Obligations.RequestQueueStaysLawful : Prop :=
  ∀ s t : State, s.QueueLawful → step s = .next t → t.QueueLawful

/-- Every step keeps the configuration lawful, in the live tables and in the banks, and the Image Store's own laws: the
bank being written is never the current one, and the current one is valid (R20, R38, R44, R89, R90, R167, R183, R185). -/
def Obligations.ConfigurationStaysLawful : Prop :=
  ∀ s t : State, s.TablesLawful → s.store.ImagesLawful → s.store.Lawful → s.DueLawful → step s = .next t →
    t.TablesLawful ∧ t.store.ImagesLawful ∧ t.store.Lawful

/-- Every step keeps a safe state's channels, outputs, setpoint set and due work lawful: OFF exactly when disabled, a
valid value exactly in IN_BAND, HIGH and LOW of a bound channel, NORMAL exactly with a valid source, and at most one
item per output, toward its own target (R63, R64, R80, R91, R92, R109). -/
def Obligations.SupervisionStaysLawful : Prop :=
  ∀ s t : State, s.Safe → step s = .next t →
    t.ChannelsLawful ∧ t.OutputsLawful ∧ t.SetpointsLawful ∧ t.DueLawful
end

