-- ==== Sys2Proof/Laws/Bytes.lean ====
section
/-! SUPPORT. Laws of the list and table operations of Machine/Bytes.lean. -/

namespace Sys2Proof.Machine

/-! ## updateFirst -/

@[simp] theorem updateFirst_length {α : Type} (p : α → Bool) (f : α → α) (l : List α) :
    (updateFirst p f l).length = l.length := by
  induction l with
  | nil => rfl
  | cons a l ih => unfold updateFirst; split <;> simp [ih]

/-- Every element after the update is one of before, or the image of one that satisfies p. -/
theorem mem_updateFirst {α : Type} {p : α → Bool} {f : α → α} {l : List α} {x : α} (h : x ∈ updateFirst p f l) :
    x ∈ l ∨ ∃ y ∈ l, p y = true ∧ x = f y := by
  induction l with
  | nil => simp [updateFirst] at h
  | cons a l ih =>
    unfold updateFirst at h
    split at h
    · next hp =>
      rcases List.mem_cons.1 h with rfl | h
      · exact .inr ⟨a, by simp, hp, rfl⟩
      · exact .inl (by simp [h])
    · rcases List.mem_cons.1 h with rfl | h
      · exact .inl (by simp)
      · rcases ih h with h | ⟨y, hy, hp, rfl⟩
        · exact .inl (by simp [h])
        · exact .inr ⟨y, by simp [hy], hp, rfl⟩

/-- A projection that f keeps is kept in every place. -/
theorem map_updateFirst {α β : Type} (p : α → Bool) (f : α → α) (g : α → β) (h : ∀ a, p a = true → g (f a) = g a)
    (l : List α) : (updateFirst p f l).map g = l.map g := by
  induction l with
  | nil => rfl
  | cons a l ih =>
    unfold updateFirst
    split
    · next hp => simp [h a hp]
    · simp [ih]

/-- With the first element satisfying p in sight, the update is explicit. -/
theorem updateFirst_append {α : Type} (p : α → Bool) (f : α → α) (pre : List α) (x : α) (post : List α)
    (hpre : ∀ y ∈ pre, p y = false) (hx : p x = true) :
    updateFirst p f (pre ++ x :: post) = pre ++ f x :: post := by
  induction pre with
  | nil => simp [updateFirst, hx]
  | cons a pre ih =>
    have ha := hpre a (by simp)
    simp only [List.cons_append, updateFirst, ha, Bool.false_eq_true, if_false]
    rw [ih fun y hy => hpre y (by simp [hy])]

theorem updateFirst_none {α : Type} (p : α → Bool) (f : α → α) (l : List α) (h : ∀ y ∈ l, p y = false) :
    updateFirst p f l = l := by
  induction l with
  | nil => rfl
  | cons a l ih =>
    have ha := h a (by simp)
    simp only [updateFirst, ha, Bool.false_eq_true, if_false]
    rw [ih fun y hy => h y (by simp [hy])]

/-- A list with an element satisfying p splits at the first such element. -/
theorem split_at_first {α : Type} (p : α → Bool) (l : List α) (h : l.any p = true) :
    ∃ pre x post, l = pre ++ x :: post ∧ (∀ y ∈ pre, p y = false) ∧ p x = true := by
  induction l with
  | nil => simp at h
  | cons a l ih =>
    cases ha : p a with
    | true => exact ⟨[], a, l, rfl, by simp, ha⟩
    | false =>
      have h' : l.any p = true := by simpa [ha] using h
      obtain ⟨pre, x, post, rfl, h1, h2⟩ := ih h'
      refine ⟨a :: pre, x, post, rfl, ?_, h2⟩
      intro y hy
      rcases List.mem_cons.1 hy with rfl | hy
      · exact ha
      · exact h1 y hy

/-! ## Tables -/

@[simp] theorem tableMap_getElem {α β : Type} {n : Nat} (f : α → β) (v : Vector α n) (i : Nat) (h : i < n) :
    (tableMap f v)[i] = f v[i] := by
  simp [tableMap]

theorem tableMap_getElem? {α β : Type} {n : Nat} (f : α → β) (v : Vector α n) (i : Nat) :
    (tableMap f v)[i]? = (v[i]?).map f := by
  by_cases h : i < n
  · simp [h]
  · simp [h]

@[simp] theorem tableZip_getElem {α β γ : Type} {n : Nat} (f : α → β → γ) (v : Vector α n) (w : Vector β n) (i : Nat)
    (h : i < n) : (tableZip f v w)[i] = f v[i] w[i] := by
  simp [tableZip]

theorem tableZip_getElem? {α β γ : Type} {n : Nat} (f : α → β → γ) (v : Vector α n) (w : Vector β n) (i : Nat) :
    (tableZip f v w)[i]? = if h : i < n then some (f v[i] w[i]) else none := by
  by_cases h : i < n
  · simp [h]
  · simp [h]

@[simp] theorem tableOf_getElem {α : Type} (n : Nat) (f : Nat → α) (i : Nat) (h : i < n) : (tableOf n f)[i] = f i := by
  simp [tableOf]

theorem tableMap_tableMap {α β γ : Type} {n : Nat} (g : β → γ) (f : α → β) (v : Vector α n) :
    tableMap g (tableMap f v) = tableMap (fun a => g (f a)) v := by
  apply Vector.ext
  intro i hi
  simp

/-- Two tables are equal when their projections are, entry by entry. -/
theorem tableMap_congr {α β : Type} {n : Nat} (f : α → β) (v w : Vector α n)
    (h : ∀ i (hi : i < n), f v[i] = f w[i]) : tableMap f v = tableMap f w := by
  apply Vector.ext
  intro i hi
  simp [h i hi]

/-! ## The ascending lists of indexes -/

@[simp] theorem mem_allSlots (k : Slot) : k ∈ allSlots := by
  simp only [allSlots, List.mem_map, List.mem_range]
  exact ⟨k.val, k.isLt, by ext; simp⟩

@[simp] theorem mem_allOutputs (i : OutIdx) : i ∈ allOutputs := by
  simp only [allOutputs, List.mem_map, List.mem_range]
  exact ⟨i.val, i.isLt, by ext; simp⟩

theorem mem_allNodes (a : Addr) : a ∈ allNodes ↔ a ≠ 0 ∧ a ≠ 63 := by
  simp only [allNodes, List.mem_map, List.mem_range]
  constructor
  · rintro ⟨n, hn, rfl⟩
    constructor
    · intro h
      have := congrArg BitVec.toNat h
      rw [BitVec.toNat_ofNat] at this
      change (n + 1) % 64 = 0 at this
      omega
    · intro h
      have := congrArg BitVec.toNat h
      rw [BitVec.toNat_ofNat] at this
      change (n + 1) % 64 = 63 at this
      omega
  · rintro ⟨h0, h63⟩
    have h1 : a.toNat ≠ 0 := fun h => h0 (BitVec.eq_of_toNat_eq (by simpa using h))
    have h2 : a.toNat ≠ 63 := fun h => h63 (BitVec.eq_of_toNat_eq (by simpa using h))
    have h3 := a.isLt
    refine ⟨a.toNat - 1, by omega, ?_⟩
    apply BitVec.eq_of_toNat_eq
    simp only [BitVec.toNat_ofNat]
    omega

theorem allSlots_sorted : allSlots.Pairwise (· < ·) := by
  decide +kernel

theorem allOutputs_sorted : allOutputs.Pairwise (· < ·) := by
  decide +kernel

theorem allNodes_sorted : allNodes.Pairwise (· < ·) := by
  decide +kernel

theorem allSlots_nodup : allSlots.Nodup :=
  allSlots_sorted.imp fun h => ne_of_lt h

theorem allOutputs_nodup : allOutputs.Nodup :=
  allOutputs_sorted.imp fun h => ne_of_lt h

theorem allNodes_nodup : allNodes.Nodup :=
  allNodes_sorted.imp fun h e => by subst e; exact (BitVec.lt_irrefl _) h

/-! ## Saturating counts -/

theorem satInc_toNat {w : Nat} (x : BitVec w) : (satInc x).toNat = min (2 ^ w - 1) (x.toNat + 1) := by
  unfold satInc
  have hx := x.isLt
  split
  · next h => subst h; simp [BitVec.toNat_allOnes]
  · next h =>
    have h' : x.toNat ≠ 2 ^ w - 1 := by
      intro he
      exact h (BitVec.eq_of_toNat_eq (by simpa [BitVec.toNat_allOnes] using he))
    rw [BitVec.toNat_add]
    cases w with
    | zero => simp at hx h'; omega
    | succ n =>
      have : (1#(n + 1)).toNat = 1 := by simp
      have h2 : 2 ≤ 2 ^ (n + 1) := by rw [Nat.pow_succ]; have := Nat.one_le_two_pow (n := n); omega
      rw [show (1 : BitVec (n + 1)).toNat = 1 from this, Nat.mod_eq_of_lt (by omega)]
      omega

theorem foldl_keeps {α σ : Type} (R : σ → σ → Prop) (hr : ∀ s, R s s) (ht : ∀ s t u, R s t → R t u → R s u)
    (f : σ → α → σ) (hf : ∀ s a, R s (f s a)) (l : List α) (s : σ) : R s (l.foldl f s) := by
  induction l generalizing s with
  | nil => exact hr s
  | cons a l ih => exact ht _ _ _ (hf s a) (ih _)

/-- An invariant that each step keeps holds after the fold. -/
theorem foldl_invariant {α σ : Type} (P : σ → Prop) (f : σ → α → σ) (l : List α) (hf : ∀ s, ∀ a ∈ l, P s → P (f s a))
    (s : σ) (h : P s) : P (l.foldl f s) := by
  induction l generalizing s with
  | nil => exact h
  | cons a l ih =>
    exact ih (fun s b hb => hf s b (List.mem_cons_of_mem a hb)) _ (hf s a (List.mem_cons_self) h)

end Sys2Proof.Machine
end

