-- ==== Sys2Proof/Laws/Fields.lean ====
section
/-! SUPPORT. Reading back what was written: fields of a byte list, indexes and codes of parameters,
and the items of a payload. -/

namespace Sys2Proof.Machine

/-! ## Fields -/

/-- The two bytes of a 16-bit field make the field. -/
theorem halfBytes_join (h : Half) : (h.extractLsb' 8 8 : Byte) ++ (h.extractLsb' 0 8 : Byte) = h := by
  ext i hi
  simp only [BitVec.getElem_append, BitVec.getElem_extractLsb']
  split
  · simp [BitVec.getLsbD_eq_getElem hi]
  · next h => rw [show 8 + (i - 8) = i from by omega]; simp [BitVec.getLsbD_eq_getElem hi]

/-- A 16-bit field is read back at the offset it was written at. -/
theorem halfAt_append (pre : List Byte) (h : Half) (post : List Byte) (n : Nat) (hn : pre.length = n) : halfAt (pre ++
    (halfBytes h ++ post)) n = h := by
  subst hn
  induction pre with
  | nil => exact halfBytes_join _
  | cons a pre ih => exact ih

/-- A byte is read back at the offset it was written at. -/
theorem byteAt_append (pre : List Byte) (b : Byte) (post : List Byte) (n : Nat) (hn : pre.length = n) : byteAt (pre ++
    (b :: post)) n = b := by
  subst hn
  induction pre with
  | nil => rfl
  | cons a pre ih => exact ih

/-- A 16-bit field after one byte. -/
theorem halfAt_one (b : Byte) (h : Half) (l) : halfAt (b :: (halfBytes h ++ l)) 1 = h := by
  simp [halfAt, byteAt, halfBytes, halfBytes_join]

/-! ## Indexes (R200) -/

/-- A slot byte above 127 names no slot. -/
theorem slotOf_none (b : Byte) (h : 127 < b.toNat) : slotOf b = none := by unfold slotOf; rw [dif_neg]; omega

/-- Every slot is read back from its byte. -/
theorem slotOf_indexByte (k : Slot) : slotOf (indexByte k) = some k := by
  unfold slotOf indexByte
  have : (BitVec.ofNat 8 k.val).toNat = k.val := by simp; omega
  rw [dif_pos (by omega)]; simp [this]

/-- An output byte above 15 names no output. -/
theorem outputOf_none (b : Byte) (h : 15 < b.toNat) : outputOf b = none := by unfold outputOf; rw [dif_neg]; omega

/-- Every output is read back from its byte. -/
theorem outputOf_indexByte (k : OutIdx) : outputOf (indexByte k) = some k := by
  unfold outputOf indexByte
  have : (BitVec.ofNat 8 k.val).toNat = k.val := by simp; omega
  rw [dif_pos (by omega)]; simp [this]

/-- An address byte out of 1 to 62 names no node. -/
theorem nodeOf_none (b : Byte) (h : b.toNat = 0 ∨ 62 < b.toNat) : nodeOf b = none :=
    by unfold nodeOf; rw [if_neg]; omega

/-- Every node address is read back from its byte. -/
theorem nodeOf_setWidth (a : Addr) (h0 : a ≠ 0) (h1 : a ≠ 63) : nodeOf (a.setWidth 8) = some a := by
  unfold nodeOf
  have h : (a.setWidth 8).toNat = a.toNat := by simp; omega
  rw [if_pos (by rw [h]; bv_omega)]
  simp

/-- An address byte in 1 to 62 names its low six bits. -/
theorem nodeOf_addressOf (b : Byte) (h0 : 1 ≤ b.toNat) (h1 : b.toNat ≤ 62) : nodeOf b = some (addressOf b) := by
  unfold nodeOf addressOf
  rw [if_pos ⟨h0, h1⟩]
  congr 1

/-- A value field above 4095 is no level. -/
theorem levelOf_none (h : Half) (hh : 4095 < h.toNat) : levelOf h = none := by unfold levelOf; rw [if_neg]; omega

/-- Every level is read back from its field. -/
theorem levelOf_setWidth (w : Level) : levelOf (w.setWidth 16) = some w := by
  unfold levelOf
  have : (w.setWidth 16).toNat = w.toNat := by simp; omega
  rw [if_pos (by rw [this]; omega)]; simp

/-- A byte above 15 is no four-bit index. -/
theorem nibbleOf_none (b : Byte) (h : 15 < b.toNat) : nibbleOf b = none := by unfold nibbleOf; rw [if_neg]; omega

/-- Every four-bit index is read back from its byte. -/
theorem nibbleOf_setWidth (a : BitVec 4) : nibbleOf (a.setWidth 8) = some a := by
  unfold nibbleOf
  have h : (a.setWidth 8).toNat = a.toNat := by simp; omega
  rw [if_pos (by rw [h]; omega)]
  simp

/-! ## Codes (section 12.5) -/

/-- YES and NO are read back from their codes. -/
theorem boolOf_boolCode (b : Bool) : boolOf (boolCode b) = some b := by cases b <;> rfl

/-- A forward policy is read back from its code. -/
theorem forwardOf_code (b : ForwardPolicy) : forwardOf b.code = some b := by cases b <;> rfl

/-- An alarm mode is read back from its code. -/
theorem modeOf_code (b : AlarmMode) : modeOf b.code = some b := by cases b <;> rfl

/-- A fallback policy is read back from its code. -/
theorem fallbackOf_code (b : FallbackPolicy) : fallbackOf b.code = some b := by cases b <;> rfl

/-- A count in 1 to 15 is read back from its byte. -/
theorem countOf_zeroExtend (c : BitVec 4) (h : 1 ≤ c.toNat) : countOf (c.zeroExtend 8) = some c := by
  unfold countOf
  have : (c.zeroExtend 8).toNat = c.toNat := by simp; omega
  rw [if_pos (by rw [this]; omega)]; simp

/-- The points of a curve are read back at the offset they were written at. -/
theorem pointsAt_flatMap (ps : List CurvePoint) : ∀ (pre post : List Byte), pointsAt (pre ++
    (ps.flatMap CurvePoint.bytes) ++ post) pre.length ps.length = some ps := by
  induction ps with
  | nil => intro pre post; rfl
  | cons p ps ih =>
    intro pre post
    simp only [List.length_cons, pointsAt]
    have hy : halfAt (pre ++ ((p :: ps).flatMap CurvePoint.bytes) ++ post) (pre.length + 2) = p.y.zeroExtend 16 := by
      have e : pre ++ ((p :: ps).flatMap CurvePoint.bytes) ++ post = (pre ++ halfBytes p.x) ++ (halfBytes
          (p.y.zeroExtend 16) ++ (ps.flatMap CurvePoint.bytes ++ post)) := by
        simp [List.flatMap_cons, CurvePoint.bytes]
      rw [e]; exact halfAt_append _ _ _ _ (by simp [halfBytes])
    have hx : halfAt (pre ++ ((p :: ps).flatMap CurvePoint.bytes) ++ post) pre.length = p.x := by
      have e : pre ++ ((p :: ps).flatMap CurvePoint.bytes) ++ post = pre ++ (halfBytes p.x ++ (halfBytes
          (p.y.zeroExtend 16) ++ (ps.flatMap CurvePoint.bytes ++ post))) := by
        simp [List.flatMap_cons, CurvePoint.bytes]
      rw [e]; exact halfAt_append _ _ _ _ rfl
    rw [hy, hx]
    have hl : levelOf (p.y.zeroExtend 16) = some p.y := levelOf_setWidth _
    rw [hl]
    have := ih (pre ++ p.bytes) post
    have hlen : (pre ++ p.bytes).length = pre.length + 4 := by simp [CurvePoint.bytes, halfBytes]
    rw [hlen] at this
    have e : pre ++ ((p :: ps).flatMap CurvePoint.bytes) ++ post = (pre ++ p.bytes) ++ ps.flatMap CurvePoint.bytes ++
        post := by
      simp [List.flatMap_cons]
    rw [e, this]
    rfl

/-! ## Payloads -/

/-- The reading at each place of a payload is among its readings. -/
theorem mem_readingsOf : ∀ (l : List Byte) (j : Nat), 3 * j + 2 < l.length →
    { head := byteAt l (3*j), value := halfAt l (3*j+1) : Reading } ∈ readingsOf l
  | [], j, h => by simp at h
  | [_], j, h => by simp at h
  | [_, _], j, h => by simp at h
  | a :: b :: c :: l, 0, h => by simp [readingsOf, byteAt, halfAt]
  | a :: b :: c :: l, j+1, h => by
    simp only [readingsOf, List.mem_cons]; right
    have := mem_readingsOf l j (by simp at h; omega)
    have e1 : 3 * (j+1) = 3*j + 3 := by omega
    rw [e1]
    simpa [byteAt, halfAt] using this

/-- The item at each place of a payload is among its items. -/
theorem mem_frameItemsOf : ∀ (l : List Byte) (j : Nat), 3 * j + 2 < l.length →
    { index := byteAt l (3*j), value := halfAt l (3*j+1) : FrameItem } ∈ frameItemsOf l
  | [], j, h => by simp at h
  | [_], j, h => by simp at h
  | [_, _], j, h => by simp at h
  | a :: b :: c :: l, 0, h => by simp [frameItemsOf, byteAt, halfAt]
  | a :: b :: c :: l, j+1, h => by
    simp only [frameItemsOf, List.mem_cons]; right
    have := mem_frameItemsOf l j (by simp at h; omega)
    have e1 : 3 * (j+1) = 3*j + 3 := by omega
    rw [e1]
    simpa [byteAt, halfAt] using this

/-- Three bytes for each reading. -/
theorem readingsOf_length (l : List Byte) : 3 * (readingsOf l).length ≤ l.length := by
  fun_induction readingsOf l <;> simp_all <;> omega

/-- Three bytes for each item. -/
theorem frameItemsOf_length (l : List Byte) : 3 * (frameItemsOf l).length ≤ l.length := by
  fun_induction frameItemsOf l <;> simp_all <;> omega

/-- A SAMPLE payload that passes its check has at most 12 readings (R14). -/
theorem sampleReadings_length (pl rs) (h : sampleReadings pl = some rs) : rs.length ≤ 12 := by
  unfold sampleReadings at h
  split at h
  · cases h
  · next n rest =>
    split at h
    · cases h
    · next hc =>
      split at h
      · cases h
      · cases h
        have := readingsOf_length rest
        simp at hc
        omega

/-- A SETPOINT payload that passes its check has at most 16 items (R15). -/
theorem setpointItems_length (pl rs) (h : setpointItems pl = some rs) : rs.length ≤ 16 := by
  unfold setpointItems at h
  split at h
  · cases h
  · next n rest =>
    split at h
    · cases h
    · next hc =>
      split at h
      · cases h
      · cases h
        have := frameItemsOf_length rest
        simp at hc
        omega

/-- The length of a SAMPLE payload. -/
theorem samplePayload_length (rs : List Reading) : (samplePayload rs).length = 1 + 3 * rs.length := by
  unfold samplePayload
  have : (rs.flatMap Reading.bytes).length = 3 * rs.length := by
    induction rs with
    | nil => rfl
    | cons a l ih => simp [List.flatMap_cons, ih, Reading.bytes, halfBytes]; omega
  simp [this]; omega

/-- The length of a SETPOINT payload. -/
theorem setpointPayload_length (rs : List FrameItem) : (setpointPayload rs).length = 1 + 3 * rs.length := by
  unfold setpointPayload
  have : (rs.flatMap FrameItem.bytes).length = 3 * rs.length := by
    induction rs with
    | nil => rfl
    | cons a l ih => simp [List.flatMap_cons, ih, FrameItem.bytes, halfBytes]; omega
  simp [this]; omega

end Sys2Proof.Machine
end

