-- ==== Sys2Proof/Laws/State.lean ====
section
/-! SUPPORT. What each named update of the state does to each field, and what reading back what was written gives. -/

namespace Sys2Proof.Machine

/-! ## setPort -/

@[simp] theorem State.setPort_pending (s : State) (p : Port) (r : PortRecord) :
    (s.setPort p r).pending = s.pending := by cases p <;> rfl

@[simp] theorem State.setPort_held (s : State) (p : Port) (r : PortRecord) :
    (s.setPort p r).held = s.held := by cases p <;> rfl

@[simp] theorem State.setPort_nodes (s : State) (p : Port) (r : PortRecord) :
    (s.setPort p r).nodes = s.nodes := by cases p <;> rfl

@[simp] theorem State.setPort_bindings (s : State) (p : Port) (r : PortRecord) :
    (s.setPort p r).bindings = s.bindings := by cases p <;> rfl

@[simp] theorem State.setPort_channels (s : State) (p : Port) (r : PortRecord) :
    (s.setPort p r).channels = s.channels := by cases p <;> rfl

@[simp] theorem State.setPort_outputs (s : State) (p : Port) (r : PortRecord) :
    (s.setPort p r).outputs = s.outputs := by cases p <;> rfl

@[simp] theorem State.setPort_setpoints (s : State) (p : Port) (r : PortRecord) :
    (s.setPort p r).setpoints = s.setpoints := by cases p <;> rfl

@[simp] theorem State.setPort_log (s : State) (p : Port) (r : PortRecord) :
    (s.setPort p r).log = s.log := by cases p <;> rfl

@[simp] theorem State.setPort_queue (s : State) (p : Port) (r : PortRecord) :
    (s.setPort p r).queue = s.queue := by cases p <;> rfl

@[simp] theorem State.setPort_egress (s : State) (p : Port) (r : PortRecord) :
    (s.setPort p r).egress = s.egress := by cases p <;> rfl

@[simp] theorem State.setPort_time (s : State) (p : Port) (r : PortRecord) :
    (s.setPort p r).time = s.time := by cases p <;> rfl

@[simp] theorem State.setPort_due (s : State) (p : Port) (r : PortRecord) :
    (s.setPort p r).due = s.due := by cases p <;> rfl

@[simp] theorem State.setPort_system (s : State) (p : Port) (r : PortRecord) :
    (s.setPort p r).system = s.system := by cases p <;> rfl

@[simp] theorem State.setPort_capture (s : State) (p : Port) (r : PortRecord) :
    (s.setPort p r).capture = s.capture := by cases p <;> rfl

@[simp] theorem State.setPort_store (s : State) (p : Port) (r : PortRecord) :
    (s.setPort p r).store = s.store := by cases p <;> rfl

@[simp] theorem State.setPort_f_portF (s : State) (r : PortRecord) : (s.setPort .f r).portF = r := rfl

@[simp] theorem State.setPort_f_portS (s : State) (r : PortRecord) : (s.setPort .f r).portS = s.portS := rfl

@[simp] theorem State.setPort_s_portS (s : State) (r : PortRecord) : (s.setPort .s r).portS = r := rfl

@[simp] theorem State.setPort_s_portF (s : State) (r : PortRecord) : (s.setPort .s r).portF = s.portF := rfl

@[simp] theorem State.port_f (s : State) : s.port .f = s.portF := rfl

@[simp] theorem State.port_s (s : State) : s.port .s = s.portS := rfl

/-- Reading a port back: the one written, the other as it was. -/
theorem State.port_setPort (s : State) (p q : Port) (r : PortRecord) :
    (s.setPort p r).port q = if p = q then r else s.port q := by
  cases p <;> cases q <;> rfl

@[simp] theorem State.port_setPort_self (s : State) (p : Port) (r : PortRecord) : (s.setPort p r).port p = r := by
  cases p <;> rfl

@[simp] theorem State.setPort_setPort (s : State) (p : Port) (r r' : PortRecord) :
    (s.setPort p r).setPort p r' = s.setPort p r' := by
  cases p <;> rfl

@[simp] theorem State.setPort_port (s : State) (p : Port) : s.setPort p (s.port p) = s := by
  cases p <;> rfl

/-! ## count -/

@[simp] theorem State.count_pending (s : State) (p : Port) (n : StatName) :
    (s.count p n).pending = s.pending := by cases p <;> rfl

@[simp] theorem State.count_held (s : State) (p : Port) (n : StatName) :
    (s.count p n).held = s.held := by cases p <;> rfl

@[simp] theorem State.count_nodes (s : State) (p : Port) (n : StatName) :
    (s.count p n).nodes = s.nodes := by cases p <;> rfl

@[simp] theorem State.count_bindings (s : State) (p : Port) (n : StatName) :
    (s.count p n).bindings = s.bindings := by cases p <;> rfl

@[simp] theorem State.count_channels (s : State) (p : Port) (n : StatName) :
    (s.count p n).channels = s.channels := by cases p <;> rfl

@[simp] theorem State.count_outputs (s : State) (p : Port) (n : StatName) :
    (s.count p n).outputs = s.outputs := by cases p <;> rfl

@[simp] theorem State.count_setpoints (s : State) (p : Port) (n : StatName) :
    (s.count p n).setpoints = s.setpoints := by cases p <;> rfl

@[simp] theorem State.count_log (s : State) (p : Port) (n : StatName) :
    (s.count p n).log = s.log := by cases p <;> rfl

@[simp] theorem State.count_queue (s : State) (p : Port) (n : StatName) :
    (s.count p n).queue = s.queue := by cases p <;> rfl

@[simp] theorem State.count_egress (s : State) (p : Port) (n : StatName) :
    (s.count p n).egress = s.egress := by cases p <;> rfl

@[simp] theorem State.count_time (s : State) (p : Port) (n : StatName) :
    (s.count p n).time = s.time := by cases p <;> rfl

@[simp] theorem State.count_due (s : State) (p : Port) (n : StatName) :
    (s.count p n).due = s.due := by cases p <;> rfl

@[simp] theorem State.count_system (s : State) (p : Port) (n : StatName) :
    (s.count p n).system = s.system := by cases p <;> rfl

@[simp] theorem State.count_capture (s : State) (p : Port) (n : StatName) :
    (s.count p n).capture = s.capture := by cases p <;> rfl

@[simp] theorem State.count_store (s : State) (p : Port) (n : StatName) :
    (s.count p n).store = s.store := by cases p <;> rfl

/-- A count touches only the statistics of its port. -/
theorem State.port_count (s : State) (p q : Port) (n : StatName) :
    (s.count p n).port q =
      if p = q then { s.port q with stats := (s.port q).stats.inc n } else s.port q := by
  cases p <;> cases q <;> rfl

@[simp] theorem State.count_link (s : State) (p q : Port) (n : StatName) :
    ((s.count p n).port q).link = (s.port q).link := by
  cases p <;> cases q <;> rfl

@[simp] theorem State.count_assembly (s : State) (p q : Port) (n : StatName) :
    ((s.count p n).port q).assembly = (s.port q).assembly := by
  cases p <;> cases q <;> rfl

@[simp] theorem State.count_transmitter (s : State) (p q : Port) (n : StatName) :
    ((s.count p n).port q).transmitter = (s.port q).transmitter := by
  cases p <;> cases q <;> rfl

@[simp] theorem State.count_forwardQueue (s : State) (p q : Port) (n : StatName) :
    ((s.count p n).port q).forwardQueue = (s.port q).forwardQueue := by
  cases p <;> cases q <;> rfl

/-! ## offerForward -/

@[simp] theorem State.offerForward_pending (s : State) (p : Port) (fr : List Byte) :
    (s.offerForward p fr).pending = s.pending := by
  unfold State.offerForward
  cases p <;> dsimp only [] <;> split <;> rfl

@[simp] theorem State.offerForward_held (s : State) (p : Port) (fr : List Byte) :
    (s.offerForward p fr).held = s.held := by
  unfold State.offerForward
  cases p <;> dsimp only [] <;> split <;> rfl

@[simp] theorem State.offerForward_nodes (s : State) (p : Port) (fr : List Byte) :
    (s.offerForward p fr).nodes = s.nodes := by
  unfold State.offerForward
  cases p <;> dsimp only [] <;> split <;> rfl

@[simp] theorem State.offerForward_bindings (s : State) (p : Port) (fr : List Byte) :
    (s.offerForward p fr).bindings = s.bindings := by
  unfold State.offerForward
  cases p <;> dsimp only [] <;> split <;> rfl

@[simp] theorem State.offerForward_channels (s : State) (p : Port) (fr : List Byte) :
    (s.offerForward p fr).channels = s.channels := by
  unfold State.offerForward
  cases p <;> dsimp only [] <;> split <;> rfl

@[simp] theorem State.offerForward_outputs (s : State) (p : Port) (fr : List Byte) :
    (s.offerForward p fr).outputs = s.outputs := by
  unfold State.offerForward
  cases p <;> dsimp only [] <;> split <;> rfl

@[simp] theorem State.offerForward_setpoints (s : State) (p : Port) (fr : List Byte) :
    (s.offerForward p fr).setpoints = s.setpoints := by
  unfold State.offerForward
  cases p <;> dsimp only [] <;> split <;> rfl

@[simp] theorem State.offerForward_log (s : State) (p : Port) (fr : List Byte) :
    (s.offerForward p fr).log = s.log := by
  unfold State.offerForward
  cases p <;> dsimp only [] <;> split <;> rfl

@[simp] theorem State.offerForward_queue (s : State) (p : Port) (fr : List Byte) :
    (s.offerForward p fr).queue = s.queue := by
  unfold State.offerForward
  cases p <;> dsimp only [] <;> split <;> rfl

@[simp] theorem State.offerForward_egress (s : State) (p : Port) (fr : List Byte) :
    (s.offerForward p fr).egress = s.egress := by
  unfold State.offerForward
  cases p <;> dsimp only [] <;> split <;> rfl

@[simp] theorem State.offerForward_time (s : State) (p : Port) (fr : List Byte) :
    (s.offerForward p fr).time = s.time := by
  unfold State.offerForward
  cases p <;> dsimp only [] <;> split <;> rfl

@[simp] theorem State.offerForward_due (s : State) (p : Port) (fr : List Byte) :
    (s.offerForward p fr).due = s.due := by
  unfold State.offerForward
  cases p <;> dsimp only [] <;> split <;> rfl

@[simp] theorem State.offerForward_system (s : State) (p : Port) (fr : List Byte) :
    (s.offerForward p fr).system = s.system := by
  unfold State.offerForward
  cases p <;> dsimp only [] <;> split <;> rfl

@[simp] theorem State.offerForward_capture (s : State) (p : Port) (fr : List Byte) :
    (s.offerForward p fr).capture = s.capture := by
  unfold State.offerForward
  cases p <;> dsimp only [] <;> split <;> rfl

@[simp] theorem State.offerForward_store (s : State) (p : Port) (fr : List Byte) :
    (s.offerForward p fr).store = s.store := by
  unfold State.offerForward
  cases p <;> dsimp only [] <;> split <;> rfl

/-! ## setNode -/

@[simp] theorem State.setNode_pending (s : State) (a : Addr) (r : NodeRecord) :
    (s.setNode a r).pending = s.pending := rfl

@[simp] theorem State.setNode_held (s : State) (a : Addr) (r : NodeRecord) :
    (s.setNode a r).held = s.held := rfl

@[simp] theorem State.setNode_portF (s : State) (a : Addr) (r : NodeRecord) :
    (s.setNode a r).portF = s.portF := rfl

@[simp] theorem State.setNode_portS (s : State) (a : Addr) (r : NodeRecord) :
    (s.setNode a r).portS = s.portS := rfl

@[simp] theorem State.setNode_bindings (s : State) (a : Addr) (r : NodeRecord) :
    (s.setNode a r).bindings = s.bindings := rfl

@[simp] theorem State.setNode_channels (s : State) (a : Addr) (r : NodeRecord) :
    (s.setNode a r).channels = s.channels := rfl

@[simp] theorem State.setNode_outputs (s : State) (a : Addr) (r : NodeRecord) :
    (s.setNode a r).outputs = s.outputs := rfl

@[simp] theorem State.setNode_setpoints (s : State) (a : Addr) (r : NodeRecord) :
    (s.setNode a r).setpoints = s.setpoints := rfl

@[simp] theorem State.setNode_log (s : State) (a : Addr) (r : NodeRecord) :
    (s.setNode a r).log = s.log := rfl

@[simp] theorem State.setNode_queue (s : State) (a : Addr) (r : NodeRecord) :
    (s.setNode a r).queue = s.queue := rfl

@[simp] theorem State.setNode_egress (s : State) (a : Addr) (r : NodeRecord) :
    (s.setNode a r).egress = s.egress := rfl

@[simp] theorem State.setNode_time (s : State) (a : Addr) (r : NodeRecord) :
    (s.setNode a r).time = s.time := rfl

@[simp] theorem State.setNode_due (s : State) (a : Addr) (r : NodeRecord) :
    (s.setNode a r).due = s.due := rfl

@[simp] theorem State.setNode_system (s : State) (a : Addr) (r : NodeRecord) :
    (s.setNode a r).system = s.system := rfl

@[simp] theorem State.setNode_capture (s : State) (a : Addr) (r : NodeRecord) :
    (s.setNode a r).capture = s.capture := rfl

@[simp] theorem State.setNode_store (s : State) (a : Addr) (r : NodeRecord) :
    (s.setNode a r).store = s.store := rfl

/-! ## setChannel -/

@[simp] theorem State.setChannel_pending (s : State) (k : Slot) (r : ChannelRecord) :
    (s.setChannel k r).pending = s.pending := rfl

@[simp] theorem State.setChannel_held (s : State) (k : Slot) (r : ChannelRecord) :
    (s.setChannel k r).held = s.held := rfl

@[simp] theorem State.setChannel_portF (s : State) (k : Slot) (r : ChannelRecord) :
    (s.setChannel k r).portF = s.portF := rfl

@[simp] theorem State.setChannel_portS (s : State) (k : Slot) (r : ChannelRecord) :
    (s.setChannel k r).portS = s.portS := rfl

@[simp] theorem State.setChannel_nodes (s : State) (k : Slot) (r : ChannelRecord) :
    (s.setChannel k r).nodes = s.nodes := rfl

@[simp] theorem State.setChannel_bindings (s : State) (k : Slot) (r : ChannelRecord) :
    (s.setChannel k r).bindings = s.bindings := rfl

@[simp] theorem State.setChannel_outputs (s : State) (k : Slot) (r : ChannelRecord) :
    (s.setChannel k r).outputs = s.outputs := rfl

@[simp] theorem State.setChannel_setpoints (s : State) (k : Slot) (r : ChannelRecord) :
    (s.setChannel k r).setpoints = s.setpoints := rfl

@[simp] theorem State.setChannel_log (s : State) (k : Slot) (r : ChannelRecord) :
    (s.setChannel k r).log = s.log := rfl

@[simp] theorem State.setChannel_queue (s : State) (k : Slot) (r : ChannelRecord) :
    (s.setChannel k r).queue = s.queue := rfl

@[simp] theorem State.setChannel_egress (s : State) (k : Slot) (r : ChannelRecord) :
    (s.setChannel k r).egress = s.egress := rfl

@[simp] theorem State.setChannel_time (s : State) (k : Slot) (r : ChannelRecord) :
    (s.setChannel k r).time = s.time := rfl

@[simp] theorem State.setChannel_due (s : State) (k : Slot) (r : ChannelRecord) :
    (s.setChannel k r).due = s.due := rfl

@[simp] theorem State.setChannel_system (s : State) (k : Slot) (r : ChannelRecord) :
    (s.setChannel k r).system = s.system := rfl

@[simp] theorem State.setChannel_capture (s : State) (k : Slot) (r : ChannelRecord) :
    (s.setChannel k r).capture = s.capture := rfl

@[simp] theorem State.setChannel_store (s : State) (k : Slot) (r : ChannelRecord) :
    (s.setChannel k r).store = s.store := rfl

/-! ## setRuntime -/

@[simp] theorem State.setRuntime_pending (s : State) (k : Slot) (r : ChannelRuntime) :
    (s.setRuntime k r).pending = s.pending := rfl

@[simp] theorem State.setRuntime_held (s : State) (k : Slot) (r : ChannelRuntime) :
    (s.setRuntime k r).held = s.held := rfl

@[simp] theorem State.setRuntime_portF (s : State) (k : Slot) (r : ChannelRuntime) :
    (s.setRuntime k r).portF = s.portF := rfl

@[simp] theorem State.setRuntime_portS (s : State) (k : Slot) (r : ChannelRuntime) :
    (s.setRuntime k r).portS = s.portS := rfl

@[simp] theorem State.setRuntime_nodes (s : State) (k : Slot) (r : ChannelRuntime) :
    (s.setRuntime k r).nodes = s.nodes := rfl

@[simp] theorem State.setRuntime_bindings (s : State) (k : Slot) (r : ChannelRuntime) :
    (s.setRuntime k r).bindings = s.bindings := rfl

@[simp] theorem State.setRuntime_outputs (s : State) (k : Slot) (r : ChannelRuntime) :
    (s.setRuntime k r).outputs = s.outputs := rfl

@[simp] theorem State.setRuntime_setpoints (s : State) (k : Slot) (r : ChannelRuntime) :
    (s.setRuntime k r).setpoints = s.setpoints := rfl

@[simp] theorem State.setRuntime_log (s : State) (k : Slot) (r : ChannelRuntime) :
    (s.setRuntime k r).log = s.log := rfl

@[simp] theorem State.setRuntime_queue (s : State) (k : Slot) (r : ChannelRuntime) :
    (s.setRuntime k r).queue = s.queue := rfl

@[simp] theorem State.setRuntime_egress (s : State) (k : Slot) (r : ChannelRuntime) :
    (s.setRuntime k r).egress = s.egress := rfl

@[simp] theorem State.setRuntime_time (s : State) (k : Slot) (r : ChannelRuntime) :
    (s.setRuntime k r).time = s.time := rfl

@[simp] theorem State.setRuntime_due (s : State) (k : Slot) (r : ChannelRuntime) :
    (s.setRuntime k r).due = s.due := rfl

@[simp] theorem State.setRuntime_system (s : State) (k : Slot) (r : ChannelRuntime) :
    (s.setRuntime k r).system = s.system := rfl

@[simp] theorem State.setRuntime_capture (s : State) (k : Slot) (r : ChannelRuntime) :
    (s.setRuntime k r).capture = s.capture := rfl

@[simp] theorem State.setRuntime_store (s : State) (k : Slot) (r : ChannelRuntime) :
    (s.setRuntime k r).store = s.store := rfl

/-! ## setOutput -/

@[simp] theorem State.setOutput_pending (s : State) (i : OutIdx) (r : OutputRecord) :
    (s.setOutput i r).pending = s.pending := rfl

@[simp] theorem State.setOutput_held (s : State) (i : OutIdx) (r : OutputRecord) :
    (s.setOutput i r).held = s.held := rfl

@[simp] theorem State.setOutput_portF (s : State) (i : OutIdx) (r : OutputRecord) :
    (s.setOutput i r).portF = s.portF := rfl

@[simp] theorem State.setOutput_portS (s : State) (i : OutIdx) (r : OutputRecord) :
    (s.setOutput i r).portS = s.portS := rfl

@[simp] theorem State.setOutput_nodes (s : State) (i : OutIdx) (r : OutputRecord) :
    (s.setOutput i r).nodes = s.nodes := rfl

@[simp] theorem State.setOutput_bindings (s : State) (i : OutIdx) (r : OutputRecord) :
    (s.setOutput i r).bindings = s.bindings := rfl

@[simp] theorem State.setOutput_channels (s : State) (i : OutIdx) (r : OutputRecord) :
    (s.setOutput i r).channels = s.channels := rfl

@[simp] theorem State.setOutput_setpoints (s : State) (i : OutIdx) (r : OutputRecord) :
    (s.setOutput i r).setpoints = s.setpoints := rfl

@[simp] theorem State.setOutput_log (s : State) (i : OutIdx) (r : OutputRecord) :
    (s.setOutput i r).log = s.log := rfl

@[simp] theorem State.setOutput_queue (s : State) (i : OutIdx) (r : OutputRecord) :
    (s.setOutput i r).queue = s.queue := rfl

@[simp] theorem State.setOutput_egress (s : State) (i : OutIdx) (r : OutputRecord) :
    (s.setOutput i r).egress = s.egress := rfl

@[simp] theorem State.setOutput_time (s : State) (i : OutIdx) (r : OutputRecord) :
    (s.setOutput i r).time = s.time := rfl

@[simp] theorem State.setOutput_due (s : State) (i : OutIdx) (r : OutputRecord) :
    (s.setOutput i r).due = s.due := rfl

@[simp] theorem State.setOutput_system (s : State) (i : OutIdx) (r : OutputRecord) :
    (s.setOutput i r).system = s.system := rfl

@[simp] theorem State.setOutput_capture (s : State) (i : OutIdx) (r : OutputRecord) :
    (s.setOutput i r).capture = s.capture := rfl

@[simp] theorem State.setOutput_store (s : State) (i : OutIdx) (r : OutputRecord) :
    (s.setOutput i r).store = s.store := rfl

/-! ## setOutputRuntime -/

@[simp] theorem State.setOutputRuntime_pending (s : State) (i : OutIdx) (r : OutputRuntime) :
    (s.setOutputRuntime i r).pending = s.pending := rfl

@[simp] theorem State.setOutputRuntime_held (s : State) (i : OutIdx) (r : OutputRuntime) :
    (s.setOutputRuntime i r).held = s.held := rfl

@[simp] theorem State.setOutputRuntime_portF (s : State) (i : OutIdx) (r : OutputRuntime) :
    (s.setOutputRuntime i r).portF = s.portF := rfl

@[simp] theorem State.setOutputRuntime_portS (s : State) (i : OutIdx) (r : OutputRuntime) :
    (s.setOutputRuntime i r).portS = s.portS := rfl

@[simp] theorem State.setOutputRuntime_nodes (s : State) (i : OutIdx) (r : OutputRuntime) :
    (s.setOutputRuntime i r).nodes = s.nodes := rfl

@[simp] theorem State.setOutputRuntime_bindings (s : State) (i : OutIdx) (r : OutputRuntime) :
    (s.setOutputRuntime i r).bindings = s.bindings := rfl

@[simp] theorem State.setOutputRuntime_channels (s : State) (i : OutIdx) (r : OutputRuntime) :
    (s.setOutputRuntime i r).channels = s.channels := rfl

@[simp] theorem State.setOutputRuntime_setpoints (s : State) (i : OutIdx) (r : OutputRuntime) :
    (s.setOutputRuntime i r).setpoints = s.setpoints := rfl

@[simp] theorem State.setOutputRuntime_log (s : State) (i : OutIdx) (r : OutputRuntime) :
    (s.setOutputRuntime i r).log = s.log := rfl

@[simp] theorem State.setOutputRuntime_queue (s : State) (i : OutIdx) (r : OutputRuntime) :
    (s.setOutputRuntime i r).queue = s.queue := rfl

@[simp] theorem State.setOutputRuntime_egress (s : State) (i : OutIdx) (r : OutputRuntime) :
    (s.setOutputRuntime i r).egress = s.egress := rfl

@[simp] theorem State.setOutputRuntime_time (s : State) (i : OutIdx) (r : OutputRuntime) :
    (s.setOutputRuntime i r).time = s.time := rfl

@[simp] theorem State.setOutputRuntime_due (s : State) (i : OutIdx) (r : OutputRuntime) :
    (s.setOutputRuntime i r).due = s.due := rfl

@[simp] theorem State.setOutputRuntime_system (s : State) (i : OutIdx) (r : OutputRuntime) :
    (s.setOutputRuntime i r).system = s.system := rfl

@[simp] theorem State.setOutputRuntime_capture (s : State) (i : OutIdx) (r : OutputRuntime) :
    (s.setOutputRuntime i r).capture = s.capture := rfl

@[simp] theorem State.setOutputRuntime_store (s : State) (i : OutIdx) (r : OutputRuntime) :
    (s.setOutputRuntime i r).store = s.store := rfl

/-! ## dropItem -/

@[simp] theorem State.dropItem_pending (s : State) (i : OutIdx) :
    (s.dropItem i).pending = s.pending := rfl

@[simp] theorem State.dropItem_held (s : State) (i : OutIdx) :
    (s.dropItem i).held = s.held := rfl

@[simp] theorem State.dropItem_portF (s : State) (i : OutIdx) :
    (s.dropItem i).portF = s.portF := rfl

@[simp] theorem State.dropItem_portS (s : State) (i : OutIdx) :
    (s.dropItem i).portS = s.portS := rfl

@[simp] theorem State.dropItem_nodes (s : State) (i : OutIdx) :
    (s.dropItem i).nodes = s.nodes := rfl

@[simp] theorem State.dropItem_bindings (s : State) (i : OutIdx) :
    (s.dropItem i).bindings = s.bindings := rfl

@[simp] theorem State.dropItem_channels (s : State) (i : OutIdx) :
    (s.dropItem i).channels = s.channels := rfl

@[simp] theorem State.dropItem_outputs (s : State) (i : OutIdx) :
    (s.dropItem i).outputs = s.outputs := rfl

@[simp] theorem State.dropItem_log (s : State) (i : OutIdx) :
    (s.dropItem i).log = s.log := rfl

@[simp] theorem State.dropItem_queue (s : State) (i : OutIdx) :
    (s.dropItem i).queue = s.queue := rfl

@[simp] theorem State.dropItem_egress (s : State) (i : OutIdx) :
    (s.dropItem i).egress = s.egress := rfl

@[simp] theorem State.dropItem_time (s : State) (i : OutIdx) :
    (s.dropItem i).time = s.time := rfl

@[simp] theorem State.dropItem_due (s : State) (i : OutIdx) :
    (s.dropItem i).due = s.due := rfl

@[simp] theorem State.dropItem_system (s : State) (i : OutIdx) :
    (s.dropItem i).system = s.system := rfl

@[simp] theorem State.dropItem_capture (s : State) (i : OutIdx) :
    (s.dropItem i).capture = s.capture := rfl

@[simp] theorem State.dropItem_store (s : State) (i : OutIdx) :
    (s.dropItem i).store = s.store := rfl

/-! ## raise -/

@[simp] theorem State.raise_pending (s : State) (k : NoticeKind) (x : Subject) (v : Half) :
    (s.raise k x v).pending = s.pending := rfl

@[simp] theorem State.raise_held (s : State) (k : NoticeKind) (x : Subject) (v : Half) :
    (s.raise k x v).held = s.held := rfl

@[simp] theorem State.raise_portF (s : State) (k : NoticeKind) (x : Subject) (v : Half) :
    (s.raise k x v).portF = s.portF := rfl

@[simp] theorem State.raise_portS (s : State) (k : NoticeKind) (x : Subject) (v : Half) :
    (s.raise k x v).portS = s.portS := rfl

@[simp] theorem State.raise_nodes (s : State) (k : NoticeKind) (x : Subject) (v : Half) :
    (s.raise k x v).nodes = s.nodes := rfl

@[simp] theorem State.raise_bindings (s : State) (k : NoticeKind) (x : Subject) (v : Half) :
    (s.raise k x v).bindings = s.bindings := rfl

@[simp] theorem State.raise_channels (s : State) (k : NoticeKind) (x : Subject) (v : Half) :
    (s.raise k x v).channels = s.channels := rfl

@[simp] theorem State.raise_outputs (s : State) (k : NoticeKind) (x : Subject) (v : Half) :
    (s.raise k x v).outputs = s.outputs := rfl

@[simp] theorem State.raise_setpoints (s : State) (k : NoticeKind) (x : Subject) (v : Half) :
    (s.raise k x v).setpoints = s.setpoints := rfl

@[simp] theorem State.raise_queue (s : State) (k : NoticeKind) (x : Subject) (v : Half) :
    (s.raise k x v).queue = s.queue := rfl

@[simp] theorem State.raise_egress (s : State) (k : NoticeKind) (x : Subject) (v : Half) :
    (s.raise k x v).egress = s.egress := rfl

@[simp] theorem State.raise_time (s : State) (k : NoticeKind) (x : Subject) (v : Half) :
    (s.raise k x v).time = s.time := rfl

@[simp] theorem State.raise_due (s : State) (k : NoticeKind) (x : Subject) (v : Half) :
    (s.raise k x v).due = s.due := rfl

@[simp] theorem State.raise_system (s : State) (k : NoticeKind) (x : Subject) (v : Half) :
    (s.raise k x v).system = s.system := rfl

@[simp] theorem State.raise_capture (s : State) (k : NoticeKind) (x : Subject) (v : Half) :
    (s.raise k x v).capture = s.capture := rfl

@[simp] theorem State.raise_store (s : State) (k : NoticeKind) (x : Subject) (v : Half) :
    (s.raise k x v).store = s.store := rfl

/-! ## raiseChannel -/

@[simp] theorem State.raiseChannel_pending (s : State) (c : Slot) (k : NoticeKind) (v : Half) :
    (s.raiseChannel c k v).pending = s.pending := rfl

@[simp] theorem State.raiseChannel_held (s : State) (c : Slot) (k : NoticeKind) (v : Half) :
    (s.raiseChannel c k v).held = s.held := rfl

@[simp] theorem State.raiseChannel_portF (s : State) (c : Slot) (k : NoticeKind) (v : Half) :
    (s.raiseChannel c k v).portF = s.portF := rfl

@[simp] theorem State.raiseChannel_portS (s : State) (c : Slot) (k : NoticeKind) (v : Half) :
    (s.raiseChannel c k v).portS = s.portS := rfl

@[simp] theorem State.raiseChannel_nodes (s : State) (c : Slot) (k : NoticeKind) (v : Half) :
    (s.raiseChannel c k v).nodes = s.nodes := rfl

@[simp] theorem State.raiseChannel_bindings (s : State) (c : Slot) (k : NoticeKind) (v : Half) :
    (s.raiseChannel c k v).bindings = s.bindings := rfl

@[simp] theorem State.raiseChannel_channels (s : State) (c : Slot) (k : NoticeKind) (v : Half) :
    (s.raiseChannel c k v).channels = s.channels := rfl

@[simp] theorem State.raiseChannel_outputs (s : State) (c : Slot) (k : NoticeKind) (v : Half) :
    (s.raiseChannel c k v).outputs = s.outputs := rfl

@[simp] theorem State.raiseChannel_setpoints (s : State) (c : Slot) (k : NoticeKind) (v : Half) :
    (s.raiseChannel c k v).setpoints = s.setpoints := rfl

@[simp] theorem State.raiseChannel_queue (s : State) (c : Slot) (k : NoticeKind) (v : Half) :
    (s.raiseChannel c k v).queue = s.queue := rfl

@[simp] theorem State.raiseChannel_egress (s : State) (c : Slot) (k : NoticeKind) (v : Half) :
    (s.raiseChannel c k v).egress = s.egress := rfl

@[simp] theorem State.raiseChannel_time (s : State) (c : Slot) (k : NoticeKind) (v : Half) :
    (s.raiseChannel c k v).time = s.time := rfl

@[simp] theorem State.raiseChannel_due (s : State) (c : Slot) (k : NoticeKind) (v : Half) :
    (s.raiseChannel c k v).due = s.due := rfl

@[simp] theorem State.raiseChannel_system (s : State) (c : Slot) (k : NoticeKind) (v : Half) :
    (s.raiseChannel c k v).system = s.system := rfl

@[simp] theorem State.raiseChannel_capture (s : State) (c : Slot) (k : NoticeKind) (v : Half) :
    (s.raiseChannel c k v).capture = s.capture := rfl

@[simp] theorem State.raiseChannel_store (s : State) (c : Slot) (k : NoticeKind) (v : Half) :
    (s.raiseChannel c k v).store = s.store := rfl

/-! ## tableWritten -/

@[simp] theorem State.tableWritten_pending (s : State) :
    (s.tableWritten).pending = s.pending := rfl

@[simp] theorem State.tableWritten_held (s : State) :
    (s.tableWritten).held = s.held := rfl

@[simp] theorem State.tableWritten_portF (s : State) :
    (s.tableWritten).portF = s.portF := rfl

@[simp] theorem State.tableWritten_portS (s : State) :
    (s.tableWritten).portS = s.portS := rfl

@[simp] theorem State.tableWritten_nodes (s : State) :
    (s.tableWritten).nodes = s.nodes := rfl

@[simp] theorem State.tableWritten_bindings (s : State) :
    (s.tableWritten).bindings = s.bindings := rfl

@[simp] theorem State.tableWritten_channels (s : State) :
    (s.tableWritten).channels = s.channels := rfl

@[simp] theorem State.tableWritten_outputs (s : State) :
    (s.tableWritten).outputs = s.outputs := rfl

@[simp] theorem State.tableWritten_setpoints (s : State) :
    (s.tableWritten).setpoints = s.setpoints := rfl

@[simp] theorem State.tableWritten_log (s : State) :
    (s.tableWritten).log = s.log := rfl

@[simp] theorem State.tableWritten_queue (s : State) :
    (s.tableWritten).queue = s.queue := rfl

@[simp] theorem State.tableWritten_egress (s : State) :
    (s.tableWritten).egress = s.egress := rfl

@[simp] theorem State.tableWritten_time (s : State) :
    (s.tableWritten).time = s.time := rfl

@[simp] theorem State.tableWritten_due (s : State) :
    (s.tableWritten).due = s.due := rfl

@[simp] theorem State.tableWritten_system (s : State) :
    (s.tableWritten).system = s.system := rfl

@[simp] theorem State.tableWritten_capture (s : State) :
    (s.tableWritten).capture = s.capture := rfl

/-! ## transmit -/

@[simp] theorem State.transmit_pending (s : State) (p : Port) (x : TxSource) (fr : List Byte) :
    (s.transmit p x fr).pending = s.pending := by cases p <;> rfl

@[simp] theorem State.transmit_held (s : State) (p : Port) (x : TxSource) (fr : List Byte) :
    (s.transmit p x fr).held = s.held := by cases p <;> rfl

@[simp] theorem State.transmit_nodes (s : State) (p : Port) (x : TxSource) (fr : List Byte) :
    (s.transmit p x fr).nodes = s.nodes := by cases p <;> rfl

@[simp] theorem State.transmit_bindings (s : State) (p : Port) (x : TxSource) (fr : List Byte) :
    (s.transmit p x fr).bindings = s.bindings := by cases p <;> rfl

@[simp] theorem State.transmit_channels (s : State) (p : Port) (x : TxSource) (fr : List Byte) :
    (s.transmit p x fr).channels = s.channels := by cases p <;> rfl

@[simp] theorem State.transmit_outputs (s : State) (p : Port) (x : TxSource) (fr : List Byte) :
    (s.transmit p x fr).outputs = s.outputs := by cases p <;> rfl

@[simp] theorem State.transmit_setpoints (s : State) (p : Port) (x : TxSource) (fr : List Byte) :
    (s.transmit p x fr).setpoints = s.setpoints := by cases p <;> rfl

@[simp] theorem State.transmit_log (s : State) (p : Port) (x : TxSource) (fr : List Byte) :
    (s.transmit p x fr).log = s.log := by cases p <;> rfl

@[simp] theorem State.transmit_queue (s : State) (p : Port) (x : TxSource) (fr : List Byte) :
    (s.transmit p x fr).queue = s.queue := by cases p <;> rfl

@[simp] theorem State.transmit_egress (s : State) (p : Port) (x : TxSource) (fr : List Byte) :
    (s.transmit p x fr).egress = s.egress := by cases p <;> rfl

@[simp] theorem State.transmit_time (s : State) (p : Port) (x : TxSource) (fr : List Byte) :
    (s.transmit p x fr).time = s.time := by cases p <;> rfl

@[simp] theorem State.transmit_due (s : State) (p : Port) (x : TxSource) (fr : List Byte) :
    (s.transmit p x fr).due = s.due := by cases p <;> rfl

@[simp] theorem State.transmit_system (s : State) (p : Port) (x : TxSource) (fr : List Byte) :
    (s.transmit p x fr).system = s.system := by cases p <;> rfl

@[simp] theorem State.transmit_capture (s : State) (p : Port) (x : TxSource) (fr : List Byte) :
    (s.transmit p x fr).capture = s.capture := by cases p <;> rfl

@[simp] theorem State.transmit_store (s : State) (p : Port) (x : TxSource) (fr : List Byte) :
    (s.transmit p x fr).store = s.store := by cases p <;> rfl

/-! ## Reading back -/

@[simp] theorem State.channel_setChannel_self (s : State) (k : Slot) (r : ChannelRecord) :
    (s.setChannel k r).channel k = r := by
  simp [State.channel, State.setChannel]

theorem State.channel_setChannel (s : State) (k j : Slot) (r : ChannelRecord) :
    (s.setChannel k r).channel j = if k = j then r else s.channel j := by
  simp [State.channel, State.setChannel, Vector.getElem_set, Fin.ext_iff]

theorem State.channel_setRuntime (s : State) (k j : Slot) (r : ChannelRuntime) :
    (s.setRuntime k r).channel j = if k = j then { config := (s.channel k).config, runtime := r } else s.channel j :=
  s.channel_setChannel k j _

@[simp] theorem State.channel_setRuntime_self (s : State) (k : Slot) (r : ChannelRuntime) :
    (s.setRuntime k r).channel k = { config := (s.channel k).config, runtime := r } :=
  s.channel_setChannel_self k _

@[simp] theorem State.output_setOutput_self (s : State) (i : OutIdx) (r : OutputRecord) :
    (s.setOutput i r).output i = r := by
  simp [State.output, State.setOutput]

theorem State.output_setOutput (s : State) (i j : OutIdx) (r : OutputRecord) :
    (s.setOutput i r).output j = if i = j then r else s.output j := by
  simp [State.output, State.setOutput, Vector.getElem_set, Fin.ext_iff]

theorem State.output_setOutputRuntime (s : State) (i j : OutIdx) (r : OutputRuntime) :
    (s.setOutputRuntime i r).output j =
      if i = j then { config := (s.output i).config, runtime := r } else s.output j :=
  s.output_setOutput i j _

@[simp] theorem State.output_setOutputRuntime_self (s : State) (i : OutIdx) (r : OutputRuntime) :
    (s.setOutputRuntime i r).output i = { config := (s.output i).config, runtime := r } :=
  s.output_setOutput_self i _

/-- A node record reads back at an address of the table, and every other record is as it was (R20). -/
theorem State.node_setNode (s : State) (a b : Addr) (r : NodeRecord) (h0 : a ≠ 0) (h63 : a ≠ 63) :
    (s.setNode a r).node b = if a = b then r else s.node b := by
  unfold State.node State.setNode
  have ha : 1 ≤ a.toNat ∧ a.toNat ≤ 62 := by
    constructor <;> bv_omega
  rw [if_neg h0]
  by_cases hab : a = b
  · subst hab
    simp only [if_neg h0, if_true]
    simp [show a.toNat - 1 < 62 by omega]
  · rw [if_neg hab]
    by_cases hb : b = 0
    · simp only [if_pos hb]
    · have : a.toNat - 1 ≠ b.toNat - 1 := by
        intro h
        have hb' : b.toNat ≠ 0 := fun h => hb (BitVec.eq_of_toNat_eq h)
        exact hab (BitVec.eq_of_toNat_eq (by omega))
      simp only [if_neg hb]
      simp [Vector.getElem?_setIfInBounds, this]

/-- The table has no record at 0 and 63: writing there writes nothing. -/
theorem State.setNode_outside (s : State) (a : Addr) (r : NodeRecord) (h : a = 0 ∨ a = 63) : s.setNode a r = s := by
  rcases h with rfl | rfl
  · simp only [State.setNode, if_true]
  · have : s.nodes.setIfInBounds 62 r = s.nodes := by
      apply Vector.ext
      intro i hi
      simp [Vector.getElem_setIfInBounds]
      omega
    have h0 : ¬ (63 : Addr) = 0 := by decide
    simp only [State.setNode, if_neg h0]
    exact congrArg (fun n => { s with nodes := n }) this

/-- The other records are as they were, whatever the address. -/
theorem State.node_setNode_ne (s : State) (a b : Addr) (r : NodeRecord) (h : a ≠ b) :
    (s.setNode a r).node b = s.node b := by
  by_cases h0 : a = 0
  · rw [s.setNode_outside a r (.inl h0)]
  · by_cases h63 : a = 63
    · rw [s.setNode_outside a r (.inr h63)]
    · rw [s.node_setNode a b r h0 h63, if_neg h]

end Sys2Proof.Machine
end

