-- ==== Sys2Proof/Laws/Events.lean ====
section
/-! SUPPORT. What taking an event and executing a request come to: the two ways through which every command runs. -/

namespace Sys2Proof.Machine

/-! ## Taking an event -/

theorem State.settle_idle (s : State) (h : s.due = .none) : s.settle = s := by
  simp [State.settle, h]

/-- In a ready state an event has its own effect. -/
theorem State.take_ready (s : State) (h : s.Ready) (f : State → State) : s.take f = .next (f s) := by
  simp [State.take, h.1, s.settle_idle h.2]

theorem State.take_held (s : State) (h : s.held = true) (f : State → State) : s.take f = .next s := by
  simp [State.take, h]

theorem State.takeWithin_running (s : State) (h : s.held = false) (f : State → State) :
    s.takeWithin f = .next (f s) := by
  simp [State.takeWithin, h]

theorem State.takeWithin_held (s : State) (h : s.held = true) (f : State → State) : s.takeWithin f = .next s := by
  simp [State.takeWithin, h]

/-! ## Executing a request -/

/-- An execution's end is the answer's state, answered. -/
theorem Answer.finish_eq (a : Answer) (e : RequestEntry) : a.finish e = a.state.withAnswer e a.status a.results := rfl

theorem State.withAnswer_refuse (s : State) (e : RequestEntry) (x : Status) :
    (s.refuse x).finish e = s.withAnswer e x [] := rfl

/-- The oldest WAITING entry of the command's own kind, its parameters of the right length: the owning rule decides. -/
theorem State.executeRequest_body (s : State) (e : RequestEntry) (kind : RequestKind) (p : List Byte)
    (body : State → List Byte → Answer) (h : s.Executes e kind p) (hl : kind.lengthOk p.length = true) :
    s.executeRequest kind body = (body s p).state.withAnswer e (body s p).status (body s p).results := by
  obtain ⟨_, hn, ho, rfl⟩ := h
  simp [State.executeRequest, hn, ho, hl, Answer.finish_eq]

/-- The same, as an event taken. -/
theorem State.take_executeRequest (s : State) (e : RequestEntry) (kind : RequestKind) (p : List Byte)
    (body : State → List Byte → Answer) (h : s.Executes e kind p) (hl : kind.lengthOk p.length = true) :
    (s.take fun s => s.executeRequest kind body) =
      .next ((body s p).state.withAnswer e (body s p).status (body s p).results) := by
  rw [s.take_ready h.1, s.executeRequest_body e kind p body h hl]

/-- A parameter field of the wrong length is answered before the owning rule is asked (R160). -/
theorem State.take_badLength (s : State) (e : RequestEntry) (kind : RequestKind) (p : List Byte)
    (body : State → List Byte → Answer) (h : s.Executes e kind p) (hl : kind.lengthOk p.length = false) :
    (s.take fun s => s.executeRequest kind body) = .next (s.withAnswer e .badLength []) := by
  rw [s.take_ready h.1]
  obtain ⟨_, hn, ho, rfl⟩ := h
  simp [State.executeRequest, hn, ho, hl, State.withAnswer_refuse]

/-- With no entry to execute a request's command has no occasion. -/
theorem State.take_noEntry (s : State) (kind : RequestKind) (body : State → List Byte → Answer) (h : s.Ready)
    (hn : s.nextToExecute = none) : (s.take fun s => s.executeRequest kind body) = .next s := by
  rw [s.take_ready h]
  simp [State.executeRequest, hn]

end Sys2Proof.Machine
end

