-- ==== Sys2Proof/Laws/Outputs.lean ====
section
/-! SUPPORT. What the operations of the Output Unit do: each in one equation over the output's record, the setpoint set and
the log. -/

namespace Sys2Proof.Machine

/-! ## One output -/

/-- An output's record and its item after an issue, if any: the record takes the value, the set its item. -/
def State.issued (s : State) (i : OutIdx) : Option Level → State
  | none => s
  | some w => s.issue i w

theorem State.setOutput_setOutput (s : State) (i : OutIdx) (r r' : OutputRecord) :
    (s.setOutput i r).setOutput i r' = s.setOutput i r' := by
  simp [State.setOutput]

theorem State.setOutput_self (s : State) (i : OutIdx) : s.setOutput i (s.output i) = s := by
  simp [State.setOutput, State.output]

/-- An issue after a write of the record, in one equation (R93). -/
theorem State.setOutput_issued (s : State) (i : OutIdx) (o : OutputRecord) (w : Option Level)
    (h1 : o.config.targetNode = (s.output i).config.targetNode)
    (h2 : o.config.targetIndex = (s.output i).config.targetIndex) :
    (s.setOutput i o).issued i w = { s.setOutput i (o.withIssue w) with setpoints := s.withItem i w } := by
  cases w with
  | none => rfl
  | some w =>
    simp only [State.issued, State.issue, State.output_setOutput_self, State.setOutputRuntime,
      State.setOutput_setOutput, OutputRecord.withIssue, State.withItem, h1, h2]
    rfl

/-- An issue, in one equation (R93). -/
theorem State.issued_eq (s : State) (i : OutIdx) (w : Option Level) :
    s.issued i w = { s.setOutput i ((s.output i).withIssue w) with setpoints := s.withItem i w } := by
  rw [← s.setOutput_issued i (s.output i) w rfl rfl, s.setOutput_self]

/-- The entry action issues what the policy says (R98). -/
theorem State.entryAction_eq (s : State) (i : OutIdx) : s.entryAction i = s.issued i (s.output i).entryIssue := by
  unfold State.entryAction OutputRecord.entryIssue
  cases h : (s.output i).config.fallback <;> simp [State.issued, h]

/-- The NORMAL computation: the target written, then the issue (R95). -/
theorem State.normalCompute_eq (s : State) (i : OutIdx) (v : Half) :
    s.normalCompute i v =
      (s.setOutput i { s.output i with
        runtime := { (s.output i).runtime with target := some (curve (s.output i).config.points v) } }).issued i
          ((s.output i).normalIssue (curve (s.output i).config.points v)) := by
  unfold State.normalCompute OutputRecord.normalIssue
  simp only [State.setOutputRuntime]
  cases (s.output i).runtime.issued with
  | none => rfl
  | some u => dsimp only; split <;> simp_all [State.issued]

/-- Entry into FALLBACK: record and item by the policy, one notice (R98). -/
theorem State.enterFallback_eq (s : State) (i : OutIdx) :
    s.enterFallback i = { s.setOutput i (s.output i).fellBack with
      setpoints := s.withItem i (s.output i).entryIssue
      log := s.log.raise s.system.classMask s.time.counter .fallbackEnter (.output i) (BitVec.ofNat 16 i.val) } := by
  unfold State.enterFallback
  dsimp only
  rw [State.entryAction_eq, State.issued_eq]
  simp [State.raise, State.setOutputRuntime, State.output, State.setOutput, OutputRecord.fellBack,
    OutputRecord.entryIssue, State.withItem]

/-- Exit from FALLBACK: NORMAL, one notice, then the NORMAL computation (R97). -/
theorem State.exitFallback_eq (s : State) (i : OutIdx) (v : Half) :
    s.exitFallback i v =
      { s.setOutput i (({ s.output i with
            runtime := { (s.output i).runtime with
              state := .normal, target := some (curve (s.output i).config.points v) } } : OutputRecord).withIssue
          ((s.output i).normalIssue (curve (s.output i).config.points v))) with
        setpoints := s.withItem i ((s.output i).normalIssue (curve (s.output i).config.points v))
        log := s.log.raise s.system.classMask s.time.counter .fallbackExit (.output i) (BitVec.ofNat 16 i.val) } := by
  unfold State.exitFallback
  dsimp only
  rw [State.normalCompute_eq, State.setOutput_issued]
  · simp [State.raise, State.setOutputRuntime, State.output, State.setOutput, OutputRecord.normalIssue, State.withItem]
  · simp [State.raise, State.setOutputRuntime, State.output, State.setOutput]
  · simp [State.raise, State.setOutputRuntime, State.output, State.setOutput]

/-- The refresh action issues what the state and policy say (R100). -/
theorem State.refreshAction_eq (s : State) (i : OutIdx) : s.refreshAction i = s.issued i (s.output i).refreshIssue := by
  unfold State.refreshAction OutputRecord.refreshIssue
  dsimp only
  cases h : (s.output i).runtime.state <;> simp only [State.issued]
  · cases h1 : (s.output i).runtime.issued with
    | none => rfl
    | some u =>
      cases h2 : (s.output i).runtime.target with
      | none => rfl
      | some w =>
        dsimp only
        cases normalStep (s.output i).config.deadband (s.output i).config.slew w u <;> rfl
  · cases h1 : (s.output i).config.fallback <;> simp only
    cases h2 : (s.output i).runtime.issued <;> rfl
  · cases h2 : (s.output i).runtime.forced <;> rfl

/-- A refresh: the count 0, then the action (R100). -/
theorem State.refreshOutput_eq (s : State) (i : OutIdx) :
    s.refreshOutput i = { s.setOutput i (({ s.output i with
          runtime := { (s.output i).runtime with refreshCount := 0 } } : OutputRecord).withIssue
            (s.output i).refreshIssue) with
        setpoints := s.withItem i (s.output i).refreshIssue } := by
  unfold State.refreshOutput
  dsimp only
  rw [State.refreshAction_eq]
  simp only [State.setOutputRuntime, State.output_setOutput_self]
  exact s.setOutput_issued i _ _ rfl rfl

end Sys2Proof.Machine
end

