-- ==== Sys2Proof/Laws/Frames.lean ====
section
/-! SUPPORT. Frames: what the operations of the Output Unit, the Band Supervisor and the Node Table can change, as
relations between the state before and after. -/

namespace Sys2Proof.Machine

/-- Only output runtimes, the setpoint set and the log differ. -/
def State.OutputsOnly (s t : State) : Prop :=
  t = { s with outputs := t.outputs, setpoints := t.setpoints, log := t.log } ∧ ∀ i, (t.output i).config = (s.output i).config

theorem State.OutputsOnly.pending_eq {s t : State} (h : s.OutputsOnly t) : t.pending = s.pending := by
  rw [h.1]

theorem State.OutputsOnly.held_eq {s t : State} (h : s.OutputsOnly t) : t.held = s.held := by
  rw [h.1]

theorem State.OutputsOnly.portF_eq {s t : State} (h : s.OutputsOnly t) : t.portF = s.portF := by
  rw [h.1]

theorem State.OutputsOnly.portS_eq {s t : State} (h : s.OutputsOnly t) : t.portS = s.portS := by
  rw [h.1]

theorem State.OutputsOnly.nodes_eq {s t : State} (h : s.OutputsOnly t) : t.nodes = s.nodes := by
  rw [h.1]

theorem State.OutputsOnly.bindings_eq {s t : State} (h : s.OutputsOnly t) : t.bindings = s.bindings := by
  rw [h.1]

theorem State.OutputsOnly.channels_eq {s t : State} (h : s.OutputsOnly t) : t.channels = s.channels := by
  rw [h.1]

theorem State.OutputsOnly.queue_eq {s t : State} (h : s.OutputsOnly t) : t.queue = s.queue := by
  rw [h.1]

theorem State.OutputsOnly.egress_eq {s t : State} (h : s.OutputsOnly t) : t.egress = s.egress := by
  rw [h.1]

theorem State.OutputsOnly.time_eq {s t : State} (h : s.OutputsOnly t) : t.time = s.time := by
  rw [h.1]

theorem State.OutputsOnly.due_eq {s t : State} (h : s.OutputsOnly t) : t.due = s.due := by
  rw [h.1]

theorem State.OutputsOnly.system_eq {s t : State} (h : s.OutputsOnly t) : t.system = s.system := by
  rw [h.1]

theorem State.OutputsOnly.capture_eq {s t : State} (h : s.OutputsOnly t) : t.capture = s.capture := by
  rw [h.1]

theorem State.OutputsOnly.store_eq {s t : State} (h : s.OutputsOnly t) : t.store = s.store := by
  rw [h.1]

theorem State.OutputsOnly.refl (s : State) : s.OutputsOnly s := ⟨rfl, fun _ => rfl⟩

theorem State.OutputsOnly.trans {s t u : State} (h : s.OutputsOnly t) (h' : t.OutputsOnly u) : s.OutputsOnly u := by
  refine ⟨?_, fun i => (h'.2 i).trans (h.2 i)⟩
  rw [h'.1, h.1]

theorem State.OutputsOnly.channel_eq {s t : State} (h : s.OutputsOnly t) (k : Slot) : t.channel k = s.channel k := by
  simp only [State.channel, h.channels_eq]

/-- Only channel and output runtimes, the setpoint set and the log differ. -/
def State.SupervisionOnly (s t : State) : Prop :=
  t = { s with channels := t.channels, outputs := t.outputs, setpoints := t.setpoints, log := t.log } ∧
    (∀ k, (t.channel k).config = (s.channel k).config) ∧
    ∀ i, (t.output i).config = (s.output i).config

theorem State.SupervisionOnly.pending_eq {s t : State} (h : s.SupervisionOnly t) : t.pending = s.pending := by
  rw [h.1]

theorem State.SupervisionOnly.held_eq {s t : State} (h : s.SupervisionOnly t) : t.held = s.held := by
  rw [h.1]

theorem State.SupervisionOnly.portF_eq {s t : State} (h : s.SupervisionOnly t) : t.portF = s.portF := by
  rw [h.1]

theorem State.SupervisionOnly.portS_eq {s t : State} (h : s.SupervisionOnly t) : t.portS = s.portS := by
  rw [h.1]

theorem State.SupervisionOnly.nodes_eq {s t : State} (h : s.SupervisionOnly t) : t.nodes = s.nodes := by
  rw [h.1]

theorem State.SupervisionOnly.bindings_eq {s t : State} (h : s.SupervisionOnly t) : t.bindings = s.bindings := by
  rw [h.1]

theorem State.SupervisionOnly.queue_eq {s t : State} (h : s.SupervisionOnly t) : t.queue = s.queue := by
  rw [h.1]

theorem State.SupervisionOnly.egress_eq {s t : State} (h : s.SupervisionOnly t) : t.egress = s.egress := by
  rw [h.1]

theorem State.SupervisionOnly.time_eq {s t : State} (h : s.SupervisionOnly t) : t.time = s.time := by
  rw [h.1]

theorem State.SupervisionOnly.due_eq {s t : State} (h : s.SupervisionOnly t) : t.due = s.due := by
  rw [h.1]

theorem State.SupervisionOnly.system_eq {s t : State} (h : s.SupervisionOnly t) : t.system = s.system := by
  rw [h.1]

theorem State.SupervisionOnly.capture_eq {s t : State} (h : s.SupervisionOnly t) : t.capture = s.capture := by
  rw [h.1]

theorem State.SupervisionOnly.store_eq {s t : State} (h : s.SupervisionOnly t) : t.store = s.store := by
  rw [h.1]

theorem State.SupervisionOnly.refl (s : State) : s.SupervisionOnly s := ⟨rfl, fun _ => rfl, fun _ => rfl⟩

theorem State.SupervisionOnly.trans {s t u : State} (h : s.SupervisionOnly t) (h' : t.SupervisionOnly u) :
    s.SupervisionOnly u := by
  refine ⟨?_, fun k => (h'.2.1 k).trans (h.2.1 k), fun i => (h'.2.2 i).trans (h.2.2 i)⟩
  rw [h'.1, h.1]

theorem State.OutputsOnly.supervisionOnly {s t : State} (h : s.OutputsOnly t) : s.SupervisionOnly t := by
  refine ⟨?_, fun k => by rw [h.channel_eq], h.2⟩
  rw [h.1]

/-- Only node, channel and output runtimes, the setpoint set, the log and the due work differ. -/
def State.RuntimeOnly (s t : State) : Prop :=
  t = { s with nodes := t.nodes, channels := t.channels, outputs := t.outputs, setpoints := t.setpoints, log := t.log,
               due := t.due } ∧
    (∀ a, (t.node a).config = (s.node a).config) ∧
    (∀ k, (t.channel k).config = (s.channel k).config) ∧ ∀ i, (t.output i).config = (s.output i).config

theorem State.RuntimeOnly.pending_eq {s t : State} (h : s.RuntimeOnly t) : t.pending = s.pending := by
  rw [h.1]

theorem State.RuntimeOnly.held_eq {s t : State} (h : s.RuntimeOnly t) : t.held = s.held := by
  rw [h.1]

theorem State.RuntimeOnly.portF_eq {s t : State} (h : s.RuntimeOnly t) : t.portF = s.portF := by
  rw [h.1]

theorem State.RuntimeOnly.portS_eq {s t : State} (h : s.RuntimeOnly t) : t.portS = s.portS := by
  rw [h.1]

theorem State.RuntimeOnly.bindings_eq {s t : State} (h : s.RuntimeOnly t) : t.bindings = s.bindings := by
  rw [h.1]

theorem State.RuntimeOnly.queue_eq {s t : State} (h : s.RuntimeOnly t) : t.queue = s.queue := by
  rw [h.1]

theorem State.RuntimeOnly.egress_eq {s t : State} (h : s.RuntimeOnly t) : t.egress = s.egress := by
  rw [h.1]

theorem State.RuntimeOnly.time_eq {s t : State} (h : s.RuntimeOnly t) : t.time = s.time := by
  rw [h.1]

theorem State.RuntimeOnly.system_eq {s t : State} (h : s.RuntimeOnly t) : t.system = s.system := by
  rw [h.1]

theorem State.RuntimeOnly.capture_eq {s t : State} (h : s.RuntimeOnly t) : t.capture = s.capture := by
  rw [h.1]

theorem State.RuntimeOnly.store_eq {s t : State} (h : s.RuntimeOnly t) : t.store = s.store := by
  rw [h.1]

theorem State.RuntimeOnly.refl (s : State) : s.RuntimeOnly s := ⟨rfl, fun _ => rfl, fun _ => rfl, fun _ => rfl⟩

theorem State.RuntimeOnly.trans {s t u : State} (h : s.RuntimeOnly t) (h' : t.RuntimeOnly u) : s.RuntimeOnly u := by
  refine ⟨?_, fun a => (h'.2.1 a).trans (h.2.1 a), fun k => (h'.2.2.1 k).trans (h.2.2.1 k),
    fun i => (h'.2.2.2 i).trans (h.2.2.2 i)⟩
  rw [h'.1, h.1]

theorem State.SupervisionOnly.node_eq {s t : State} (h : s.SupervisionOnly t) (a : Addr) : t.node a = s.node a := by
  simp only [State.node, h.nodes_eq]

theorem State.SupervisionOnly.runtimeOnly {s t : State} (h : s.SupervisionOnly t) : s.RuntimeOnly t := by
  refine ⟨?_, fun a => by rw [h.node_eq], h.2.1, h.2.2⟩
  rw [h.1]

/-! ## The Output Unit -/

theorem State.OutputsOnly.of_setOutput (s : State) (i : OutIdx) (o : OutputRecord) (x : List SetpointItem) (l : NoticeLog)
    (h : o.config = (s.output i).config) : s.OutputsOnly { s.setOutput i o with setpoints := x, log := l } := by
  refine ⟨rfl, fun j => ?_⟩
  change ((s.setOutput i o).output j).config = _
  rw [State.output_setOutput]
  split
  · next he => subst he; exact h
  · rfl

@[simp] theorem OutputRecord.withIssue_config (o : OutputRecord) (w : Option Level) : (o.withIssue w).config = o.config := by
  cases w <;> rfl

@[simp] theorem OutputRecord.fellBack_config (o : OutputRecord) : o.fellBack.config = o.config := by
  simp [OutputRecord.fellBack]

theorem State.raise_outputsOnly (s : State) (k : NoticeKind) (x : Subject) (v : Half) : s.OutputsOnly (s.raise k x v) :=
  ⟨rfl, fun _ => rfl⟩

theorem State.setOutputRuntime_outputsOnly (s : State) (i : OutIdx) (r : OutputRuntime) :
    s.OutputsOnly (s.setOutputRuntime i r) :=
  State.OutputsOnly.of_setOutput s i _ s.setpoints s.log rfl

theorem State.issued_outputsOnly (s : State) (i : OutIdx) (w : Option Level) : s.OutputsOnly (s.issued i w) := by
  rw [State.issued_eq]
  exact State.OutputsOnly.of_setOutput s i _ _ s.log (by simp)

theorem State.issue_outputsOnly (s : State) (i : OutIdx) (w : Level) : s.OutputsOnly (s.issue i w) :=
  s.issued_outputsOnly i (some w)

theorem State.entryAction_outputsOnly (s : State) (i : OutIdx) : s.OutputsOnly (s.entryAction i) := by
  rw [State.entryAction_eq]
  exact s.issued_outputsOnly i _

theorem State.normalCompute_outputsOnly (s : State) (i : OutIdx) (v : Half) : s.OutputsOnly (s.normalCompute i v) := by
  rw [State.normalCompute_eq]
  exact (s.setOutputRuntime_outputsOnly i _).trans (State.issued_outputsOnly _ i _)

theorem State.enterFallback_outputsOnly (s : State) (i : OutIdx) : s.OutputsOnly (s.enterFallback i) := by
  rw [State.enterFallback_eq]
  exact State.OutputsOnly.of_setOutput s i _ _ _ (by simp)

theorem State.exitFallback_outputsOnly (s : State) (i : OutIdx) (v : Half) : s.OutputsOnly (s.exitFallback i v) := by
  rw [State.exitFallback_eq]
  exact State.OutputsOnly.of_setOutput s i _ _ _ (by simp)

theorem State.refreshOutput_outputsOnly (s : State) (i : OutIdx) : s.OutputsOnly (s.refreshOutput i) := by
  rw [State.refreshOutput_eq]
  exact State.OutputsOnly.of_setOutput s i _ _ s.log (by simp)

theorem State.handOverOne_outputsOnly (k : Slot) (s : State) (i : OutIdx) : s.OutputsOnly (State.handOverOne k s i) := by
  unfold State.handOverOne
  split
  · exact s.enterFallback_outputsOnly i
  · exact .refl s

theorem State.outputReadingOne_outputsOnly (k : Slot) (v : Half) (s : State) (i : OutIdx) :
    s.OutputsOnly (State.outputReadingOne k v s i) := by
  unfold State.outputReadingOne
  dsimp only
  split
  · exact .refl s
  · split
    · exact .refl s
    · exact s.normalCompute_outputsOnly i v
    · exact s.exitFallback_outputsOnly i v
    · exact s.setOutputRuntime_outputsOnly i _

theorem State.handOver_outputsOnly (s : State) (k : Slot) : s.OutputsOnly (s.handOver k) :=
  foldl_keeps State.OutputsOnly .refl (fun _ _ _ => .trans) _ (State.handOverOne_outputsOnly k) _ s

theorem State.handOverFrom_outputsOnly (s : State) (k : Slot) (x : ChannelState) : s.OutputsOnly (s.handOverFrom k x) := by
  unfold State.handOverFrom
  split
  · exact s.handOver_outputsOnly k
  · exact .refl s

theorem State.outputReading_outputsOnly (s : State) (k : Slot) (v : Half) : s.OutputsOnly (s.outputReading k v) :=
  foldl_keeps State.OutputsOnly .refl (fun _ _ _ => .trans) _ (State.outputReadingOne_outputsOnly k v) _ s

/-! ## The Band Supervisor -/

theorem State.setRuntime_supervisionOnly (s : State) (k : Slot) (r : ChannelRuntime) :
    s.SupervisionOnly (s.setRuntime k r) := by
  refine ⟨rfl, fun j => ?_, fun _ => rfl⟩
  rw [State.channel_setRuntime]
  split
  · next he => subst he; rfl
  · rfl

theorem State.raiseChannel_supervisionOnly (s : State) (k : Slot) (x : NoticeKind) (v : Half) :
    s.SupervisionOnly (s.raiseChannel k x v) :=
  ⟨rfl, fun _ => rfl, fun _ => rfl⟩

theorem State.settleChannel_supervisionOnly (s : State) (k : Slot) (v : Half) (r : ChannelRuntime × Option NoticeKind) :
    s.SupervisionOnly (s.settleChannel k v r) := by
  unfold State.settleChannel
  dsimp only
  split
  · exact s.setRuntime_supervisionOnly k _
  · exact (s.setRuntime_supervisionOnly k _).trans (State.raiseChannel_supervisionOnly _ k _ v)

theorem State.badReading_supervisionOnly (s : State) (k : Slot) : s.SupervisionOnly (s.badReading k) := by
  unfold State.badReading
  dsimp only
  split
  · exact .refl s
  · exact s.setRuntime_supervisionOnly k _
  all_goals
    split
    · exact ((s.setRuntime_supervisionOnly k _).trans (State.raiseChannel_supervisionOnly _ k _ _)).trans
        (State.handOverFrom_outputsOnly _ k _).supervisionOnly
    · exact s.setRuntime_supervisionOnly k _

theorem State.validReading_supervisionOnly (s : State) (k : Slot) (v : Half) (q : Quality) :
    s.SupervisionOnly (s.validReading k v q) := by
  unfold State.validReading
  dsimp only
  split
  · exact .refl s
  · exact s.settleChannel_supervisionOnly k v _
  · exact ((s.setRuntime_supervisionOnly k _).trans (State.raiseChannel_supervisionOnly _ k _ _)).trans
      (State.settleChannel_supervisionOnly _ k v _)
  · exact ((s.setRuntime_supervisionOnly k _).trans (State.raiseChannel_supervisionOnly _ k _ _)).trans
      (State.settleChannel_supervisionOnly _ k v _)
  all_goals exact s.settleChannel_supervisionOnly k v _

theorem State.takeReading_supervisionOnly (s : State) (k : Slot) (d : Half × Quality) :
    s.SupervisionOnly (s.takeReading k d) :=
  (s.validReading_supervisionOnly k d.1 d.2).trans (State.outputReading_outputsOnly _ k d.1).supervisionOnly

theorem State.enterStale_supervisionOnly (s : State) (k : Slot) (x : StaleCause) :
    s.SupervisionOnly (s.enterStale k x) :=
  ((s.setRuntime_supervisionOnly k _).trans (State.raiseChannel_supervisionOnly _ k _ _)).trans
    (State.handOverFrom_outputsOnly _ k _).supervisionOnly

theorem State.nodeStaleOne_supervisionOnly (s : State) (k : Slot) : s.SupervisionOnly (s.nodeStaleOne k) := by
  unfold State.nodeStaleOne
  dsimp only
  split
  · exact s.enterStale_supervisionOnly k _
  · exact .refl s

theorem State.clearChannel_supervisionOnly (s : State) (k : Slot) : s.SupervisionOnly (s.clearChannel k) :=
  (s.setRuntime_supervisionOnly k _).trans (State.handOverFrom_outputsOnly _ k _).supervisionOnly

theorem State.acknowledgeBand_supervisionOnly (s : State) (k : Slot) : s.SupervisionOnly (s.acknowledgeBand k) := by
  unfold State.acknowledgeBand
  dsimp only
  split
  · exact (s.setRuntime_supervisionOnly k _).trans (State.raiseChannel_supervisionOnly _ k _ _)
  · exact s.setRuntime_supervisionOnly k _

/-! ## The Node Table and the open tick event -/

theorem State.setNode_runtimeOnly (s : State) (a : Addr) (r : NodeRuntime) :
    s.RuntimeOnly (s.setNode a { s.node a with runtime := r }) := by
  refine ⟨rfl, fun b => ?_, fun _ => rfl, fun _ => rfl⟩
  by_cases h : a = b
  · subst h
    by_cases h0 : a = 0 ∨ a = 63
    · rw [s.setNode_outside a _ h0]
    · rw [State.node_setNode _ _ _ _ (fun h => h0 (.inl h)) (fun h => h0 (.inr h)), if_pos rfl]
  · rw [State.node_setNode_ne _ _ _ _ h]

theorem State.raise_runtimeOnly (s : State) (k : NoticeKind) (x : Subject) (v : Half) : s.RuntimeOnly (s.raise k x v) :=
  (s.raise_outputsOnly k x v).supervisionOnly.runtimeOnly

theorem State.silenceNode_runtimeOnly (s : State) (a : Addr) : s.RuntimeOnly (s.silenceNode a) := by
  unfold State.silenceNode
  dsimp only
  exact ((s.setNode_runtimeOnly a _).trans (State.raise_runtimeOnly _ _ _ _)).trans
    (foldl_keeps State.SupervisionOnly .refl (fun _ _ _ => .trans) _ State.nodeStaleOne_supervisionOnly _ _).runtimeOnly

theorem State.acceptFrame_runtimeOnly (s : State) (a : Addr) (seq : Byte) (j : SeqJudgement) :
    s.RuntimeOnly (s.acceptFrame a seq j) := by
  unfold State.acceptFrame
  dsimp only
  have h1 := fun m => s.setNode_runtimeOnly a ((s.node a).runtime.accepted seq m s.time.counter)
  split <;> split
  · exact ((h1 _).trans (State.raise_runtimeOnly _ _ _ _)).trans (State.raise_runtimeOnly _ _ _ _)
  · exact (h1 _).trans (State.raise_runtimeOnly _ _ _ _)
  · exact (h1 _).trans (State.raise_runtimeOnly _ _ _ _)
  · exact h1 _

theorem State.nodeArrival_runtimeOnly (s : State) (a : Addr) (x : Bool) (seq : Byte) :
    s.RuntimeOnly (s.nodeArrival a x seq).1 := by
  unfold State.nodeArrival
  dsimp only
  split
  · exact s.setNode_runtimeOnly a _
  · exact s.setNode_runtimeOnly a _
  · exact s.acceptFrame_runtimeOnly a seq .restarted
  · exact s.acceptFrame_runtimeOnly a seq .inOrder
  · exact s.acceptFrame_runtimeOnly a seq (.gap _)

theorem State.due_runtimeOnly (s : State) (d : DueWork) : s.RuntimeOnly { s with due := d } :=
  ⟨rfl, fun _ => rfl, fun _ => rfl, fun _ => rfl⟩

theorem State.log_runtimeOnly (s : State) (l : NoticeLog) : s.RuntimeOnly { s with log := l } :=
  ⟨rfl, fun _ => rfl, fun _ => rfl, fun _ => rfl⟩

theorem State.settleSilent_runtimeOnly (s : State) : s.RuntimeOnly s.settleSilent :=
  (foldl_keeps State.RuntimeOnly .refl (fun _ _ _ => .trans) _ State.silenceNode_runtimeOnly _ s).trans
    (State.due_runtimeOnly _ _)

theorem State.settleStale_runtimeOnly (s : State) : s.RuntimeOnly s.settleStale :=
  (foldl_keeps State.SupervisionOnly .refl (fun _ _ _ => .trans) _
    (fun s k => State.enterStale_supervisionOnly s k _) _ s).runtimeOnly.trans (State.due_runtimeOnly _ _)

theorem State.settleRefresh_runtimeOnly (s : State) : s.RuntimeOnly s.settleRefresh :=
  (foldl_keeps State.OutputsOnly .refl (fun _ _ _ => .trans) _
    State.refreshOutput_outputsOnly _ s).supervisionOnly.runtimeOnly.trans (State.due_runtimeOnly _ _)

theorem State.settleGoBack_runtimeOnly (s : State) : s.RuntimeOnly s.settleGoBack := by
  unfold State.settleGoBack
  dsimp only
  split
  · exact (s.log_runtimeOnly _).trans (State.due_runtimeOnly _ _)
  · exact s.due_runtimeOnly _

/-- Settling an open tick event changes runtimes, the set, the log and the due work, nothing else. -/
theorem State.settle_runtimeOnly (s : State) : s.RuntimeOnly s.settle := by
  unfold State.settle
  split
  · exact .refl s
  · exact ((s.settleSilent_runtimeOnly.trans (State.settleStale_runtimeOnly _)).trans
      (State.settleRefresh_runtimeOnly _)).trans (State.settleGoBack_runtimeOnly _)

theorem State.settle_held (s : State) : s.settle.held = s.held :=
  s.settle_runtimeOnly.held_eq

/-- Settling an open tick event leaves nothing due. -/
theorem State.settle_due (s : State) : s.settle.due = .none := by
  have hs : ∀ s : State, s.settleStale.due = { s.due with stale := [] } := fun s => by
    have h := foldl_keeps State.SupervisionOnly .refl (fun _ _ _ => .trans) State.staleByLimit
      (fun s k => State.enterStale_supervisionOnly s k _) s.due.stale s
    simp only [State.settleStale, h.due_eq]
  have hr : ∀ s : State, s.settleRefresh.due = { s.due with refresh := [] } := fun s => by
    have h := foldl_keeps State.OutputsOnly .refl (fun _ _ _ => .trans) State.refreshOutput
      State.refreshOutput_outputsOnly s.due.refresh s
    simp only [State.settleRefresh, h.due_eq]
  have hg : ∀ s : State, s.settleGoBack.due = { s.due with goBack := false } := fun s => by
    unfold State.settleGoBack
    dsimp only
    split <;> rfl
  have h0 : s.settleSilent.due.silent = [] := rfl
  unfold State.settle
  split
  · next h => exact h
  · rw [hg, hr, hs]
    simp [h0, DueWork.none]

end Sys2Proof.Machine
end

