-- ==== Sys2Proof/Laws/Commands.lean ====
section
/-! SUPPORT. What a command can do, said once: every command answers a next state, and its own effect runs on a state with
no open tick event, but for the four steps of a tick event itself and the hard reset. -/

namespace Sys2Proof.Machine

/-- A command's own effect. -/
def effectOf : Instr → State → State
  | .frameStart p => State.frameStart p
  | .byteArrival p b => State.byteArrival p b
  | .frameEnd p => State.frameEnd p
  | .lossOfSignal p => State.lossOfSignal p
  | .returnOfSignal p => State.returnOfSignal p
  | .tick => State.tick
  | .nodeTableTick => State.nodeTableTick
  | .nodeSilent => State.nextSilent
  | .channelTableTick => State.channelTableTick
  | .channelStale => State.nextStale
  | .outputUnitTick => State.outputUnitTick
  | .refresh => State.nextRefresh
  | .noticeLogTick => State.noticeLogTick
  | .goBack => State.takeGoBack
  | .sPortStart => State.startS
  | .fPortStart => State.startF
  | .transmissionComplete p => fun s => s.endTransmission p true
  | .echo => fun s => s.executeRequest .echo State.doEcho
  | .readSystem => fun s => s.executeRequest .readSystem State.doReadSystem
  | .writeSystem => fun s => s.executeRequest .writeSystem State.doWriteSystem
  | .readStats => fun s => s.executeRequest .readStats State.doReadStats
  | .restart => fun s => s.executeRequest .restart State.doRestart
  | .enrolNode => fun s => s.executeRequest .enrolNode State.doEnrolNode
  | .retireNode => fun s => s.executeRequest .retireNode State.doRetireNode
  | .readNode => fun s => s.executeRequest .readNode State.doReadNode
  | .bind => fun s => s.executeRequest .bind State.doBind
  | .unbind => fun s => s.executeRequest .unbind State.doUnbind
  | .writeChannel => fun s => s.executeRequest .writeChannel State.doWriteChannel
  | .readChannel => fun s => s.executeRequest .readChannel State.doReadChannel
  | .ackBand => fun s => s.executeRequest .ackBand State.doAckBand
  | .writeOutput => fun s => s.executeRequest .writeOutput State.doWriteOutput
  | .readOutput => fun s => s.executeRequest .readOutput State.doReadOutput
  | .forceOutput => fun s => s.executeRequest .forceOutput State.doForceOutput
  | .releaseOutput => fun s => s.executeRequest .releaseOutput State.doReleaseOutput
  | .ackNotices => fun s => s.executeRequest .ackNotices State.doAckNotices
  | .capture => fun s => s.executeRequest .capture State.doCapture
  | .readCapture => fun s => s.executeRequest .readCapture State.doReadCapture
  | .commit => fun s => s.executeRequest .commit State.doCommit
  | .readImage => fun s => s.executeRequest .readImage State.doReadImage
  | .unknownRequest => State.executeUnknown
  | .erasureEnds => State.endErasure
  | .writingEnds m => fun s => s.endWriting m
  | .readBackEnds => State.endReadBack
  | .resetAsserted => State.assertReset
  | .hardReset lineF lineS => fun s => s.hardReset lineF lineS

/-- The four steps of an open tick event. -/
def isTickStep : Instr → Bool
  | .nodeSilent | .channelStale | .refresh | .goBack => true
  | _ => false

/-- The hard reset. -/
def isHardReset : Instr → Bool
  | .hardReset _ _ => true
  | _ => false

/-- Every command's outcome. -/
theorem exec_eq (c : Instr) (s : State) :
    exec c s = .next
      (if isHardReset c then effectOf c s
      else if s.held then s
      else if isTickStep c then effectOf c s
      else effectOf c s.settle) := by
  cases c <;> rfl

/-- The kind of request a command executes. -/
def requestOf : Instr → Option (RequestKind × (State → List Byte → Answer))
  | .echo => some (.echo, State.doEcho)
  | .readSystem => some (.readSystem, State.doReadSystem)
  | .writeSystem => some (.writeSystem, State.doWriteSystem)
  | .readStats => some (.readStats, State.doReadStats)
  | .restart => some (.restart, State.doRestart)
  | .enrolNode => some (.enrolNode, State.doEnrolNode)
  | .retireNode => some (.retireNode, State.doRetireNode)
  | .readNode => some (.readNode, State.doReadNode)
  | .bind => some (.bind, State.doBind)
  | .unbind => some (.unbind, State.doUnbind)
  | .writeChannel => some (.writeChannel, State.doWriteChannel)
  | .readChannel => some (.readChannel, State.doReadChannel)
  | .ackBand => some (.ackBand, State.doAckBand)
  | .writeOutput => some (.writeOutput, State.doWriteOutput)
  | .readOutput => some (.readOutput, State.doReadOutput)
  | .forceOutput => some (.forceOutput, State.doForceOutput)
  | .releaseOutput => some (.releaseOutput, State.doReleaseOutput)
  | .ackNotices => some (.ackNotices, State.doAckNotices)
  | .capture => some (.capture, State.doCapture)
  | .readCapture => some (.readCapture, State.doReadCapture)
  | .commit => some (.commit, State.doCommit)
  | .readImage => some (.readImage, State.doReadImage)
  | _ => none

/-- A request command's effect is an execution. -/
theorem effectOf_request (c : Instr) (kind : RequestKind) (body : State → List Byte → Answer) (s : State)
    (h : requestOf c = some (kind, body)) : effectOf c s = s.executeRequest kind body := by
  cases c <;> simp only [requestOf, Option.some.injEq, Prod.mk.injEq, reduceCtorEq] at h <;>
    (obtain ⟨rfl, rfl⟩ := h; rfl)

/-- An execution leaves the state, or ends the owning rule's answer, or a refusal. -/
theorem State.executeRequest_cases (s : State) (kind : RequestKind) (body : State → List Byte → Answer) :
    s.executeRequest kind body = s ∨
      (∃ e, s.nextToExecute = some e ∧ s.executeRequest kind body = s.withAnswer e .badLength []) ∨
      (∃ e, s.nextToExecute = some e ∧ e.opcode = kind.opcode ∧ kind.lengthOk e.params.length = true ∧
        s.executeRequest kind body =
          (body s e.params).state.withAnswer e (body s e.params).status (body s e.params).results) := by
  unfold State.executeRequest
  split
  · exact .inl rfl
  · next e he =>
    split
    · exact .inl rfl
    · next ho =>
      split
      · next hl => exact .inr (.inr ⟨e, he, by simpa using ho, hl, rfl⟩)
      · exact .inr (.inl ⟨e, he, rfl⟩)

/-- A property that survives the settling of a tick event and every effect survives every command. The effects of the
ordinary commands may assume that no tick event is open. -/
theorem exec_keeps (P : State → Prop) (hsettle : ∀ s, s.held = false → P s → P s.settle)
    (hstep : ∀ c s, isTickStep c = true → s.held = false → P s → P (effectOf c s))
    (heff : ∀ c s, isTickStep c = false → isHardReset c = false → s.held = false → s.due = .none → P s →
      P (effectOf c s))
    (hreset : ∀ s f l, P s → P (s.hardReset f l)) (c : Instr) (s t : State) (h : P s)
    (ht : exec c s = .next t) : P t := by
  rw [exec_eq] at ht
  cases ht
  by_cases hr : isHardReset c = true
  · cases c <;> simp only [isHardReset, reduceCtorEq, Bool.false_eq_true] at hr
    exact hreset s _ _ h
  · simp only [Bool.not_eq_true] at hr
    simp only [hr, Bool.false_eq_true, if_false]
    by_cases hh : s.held = true
    · simpa [hh] using h
    · simp only [Bool.not_eq_true] at hh
      simp only [hh, Bool.false_eq_true, if_false]
      by_cases hs : isTickStep c = true
      · simp only [hs, if_true]
        exact hstep c s hs hh h
      · simp only [Bool.not_eq_true] at hs
        simp only [hs, Bool.false_eq_true, if_false]
        exact heff c _ hs hr (by rw [s.settle_held, hh]) s.settle_due (hsettle s hh h)

/-- The same for a step, for a property that does not look at the queue of commands. -/
theorem step_keeps (P : State → Prop) (hq : ∀ (s : State) q, P s → P { s with pending := q })
    (hexec : ∀ c s t, P s → exec c s = .next t → P t) (s t : State) (h : P s) (ht : step s = .next t) : P t := by
  unfold step at ht
  split at ht
  · cases ht; exact h
  · exact hexec _ _ _ (hq s _ h) ht

end Sys2Proof.Machine
end

