-- ==== Sys2Proof/Laws/Requests.lean ====
section
/-! SUPPORT. Frames of the requests' owning rules: no request touches the commands, the ports but their counts, the
queue's entries, the arbiters, the time base or the open tick event. -/

namespace Sys2Proof.Machine

/-- What no request's owning rule touches is the same in s and t. -/
def State.RequestOnly (s t : State) : Prop :=
  t.pending = s.pending ∧ t.held = s.held ∧ t.egress = s.egress ∧ t.time = s.time ∧ t.due = s.due ∧
    t.portF = { s.portF with stats := t.portF.stats } ∧ t.portS = { s.portS with stats := t.portS.stats } ∧
    t.queue = s.queue

theorem State.RequestOnly.refl (s : State) : s.RequestOnly s := ⟨rfl, rfl, rfl, rfl, rfl, rfl, rfl, rfl⟩

theorem State.SupervisionOnly.requestOnly {s t : State} (h : s.SupervisionOnly t) : s.RequestOnly t := by
  refine ⟨h.pending_eq, h.held_eq, h.egress_eq, h.time_eq, h.due_eq, ?_, ?_, h.queue_eq⟩
  · rw [h.portF_eq]
  · rw [h.portS_eq]

theorem State.RequestOnly.trans {s t u : State} (h : s.RequestOnly t) (h' : t.RequestOnly u) : s.RequestOnly u := by
  obtain ⟨a1, a2, a3, a4, a5, a6, a7, a8⟩ := h
  obtain ⟨b1, b2, b3, b4, b5, b6, b7, b8⟩ := h'
  refine ⟨b1.trans a1, b2.trans a2, b3.trans a3, b4.trans a4, b5.trans a5, ?_, ?_, b8.trans a8⟩
  · rw [b6, a6]
  · rw [b7, a7]

/-- Any change of tables and store is within a request's reach. -/
theorem State.RequestOnly.tables (s : State) (nodes bindings channels outputs setpoints log system capture store) :
    s.RequestOnly
      { s with
        nodes := nodes, bindings := bindings, channels := channels, outputs := outputs, setpoints := setpoints,
        log := log, system := system, capture := capture, store := store } :=
  ⟨rfl, rfl, rfl, rfl, rfl, rfl, rfl, rfl⟩

theorem State.tableWritten_requestOnly (s : State) : s.RequestOnly s.tableWritten :=
  ⟨rfl, rfl, rfl, rfl, rfl, rfl, rfl, rfl⟩

theorem State.followSource_outputsOnly (s : State) (i : OutIdx) : s.OutputsOnly (s.followSource i) :=
  (s.setOutputRuntime_outputsOnly i _).trans (State.normalCompute_outputsOnly _ i _)

theorem State.judgeAfresh_outputsOnly (s : State) (i : OutIdx) : s.OutputsOnly (s.judgeAfresh i) := by
  unfold State.judgeAfresh
  split
  · exact s.followSource_outputsOnly i
  · exact s.enterFallback_outputsOnly i

theorem State.rewriteSameTarget_outputsOnly (s : State) (i : OutIdx) : s.OutputsOnly (s.rewriteSameTarget i) := by
  unfold State.rewriteSameTarget
  split
  · exact .refl s
  · exact .refl s
  · split
    · exact s.normalCompute_outputsOnly i _
    · exact s.enterFallback_outputsOnly i
  · split
    · exact s.exitFallback_outputsOnly i _
    · exact s.entryAction_outputsOnly i

theorem State.dropItem_outputsOnly (s : State) (i : OutIdx) : s.OutputsOnly (s.dropItem i) :=
  ⟨rfl, fun _ => rfl⟩

theorem State.rewriteNewTarget_outputsOnly (s : State) (i : OutIdx) : s.OutputsOnly (s.rewriteNewTarget i) := by
  unfold State.rewriteNewTarget
  dsimp only
  have h := (s.dropItem_outputsOnly i).trans ((s.dropItem i).setOutputRuntime_outputsOnly i
    { ((s.dropItem i).output i).runtime with issued := none, forced := none })
  split
  · exact h.trans (State.followSource_outputsOnly _ i)
  · split
    · exact h.trans (State.entryAction_outputsOnly _ i)
    · exact h.trans (State.enterFallback_outputsOnly _ i)

theorem State.rewriteOutput_requestOnly (s : State) (i : OutIdx) (c : OutputConfig) :
    s.RequestOnly (s.rewriteOutput i c) := by
  unfold State.rewriteOutput
  dsimp only
  split
  · exact ⟨rfl, rfl, rfl, rfl, rfl, rfl, rfl, rfl⟩
  · split
    · exact .trans (t := s.setOutput i _) ⟨rfl, rfl, rfl, rfl, rfl, rfl, rfl, rfl⟩
        (State.judgeAfresh_outputsOnly _ i).supervisionOnly.requestOnly
    · split
      · exact .trans (t := s.setOutput i _) ⟨rfl, rfl, rfl, rfl, rfl, rfl, rfl, rfl⟩
          (State.rewriteSameTarget_outputsOnly _ i).supervisionOnly.requestOnly
      · exact .trans (t := s.setOutput i _) ⟨rfl, rfl, rfl, rfl, rfl, rfl, rfl, rfl⟩
          (State.rewriteNewTarget_outputsOnly _ i).supervisionOnly.requestOnly

theorem State.rewriteChannel_requestOnly (s : State) (k : Slot) (c : ChannelConfig) :
    s.RequestOnly (s.rewriteChannel k c) := by
  unfold State.rewriteChannel
  dsimp only
  split
  · exact ⟨rfl, rfl, rfl, rfl, rfl, rfl, rfl, rfl⟩
  · exact .trans (t := s.setChannel k _) ⟨rfl, rfl, rfl, rfl, rfl, rfl, rfl, rfl⟩
      (State.clearChannel_supervisionOnly _ k).requestOnly

theorem State.force_outputsOnly (s : State) (i : OutIdx) (w : Level) : s.OutputsOnly (s.force i w) :=
  (s.setOutputRuntime_outputsOnly i _).trans (State.issue_outputsOnly _ i w)

/-- Every request's owning rule but RESTART's stays within a request's reach. -/
theorem requestOf_requestOnly (c : Instr) (kind : RequestKind) (body : State → List Byte → Answer)
    (h : requestOf c = some (kind, body)) (hk : kind ≠ .restart) (s : State) (p : List Byte) : s.RequestOnly (body s p).state := by
  have r : ∀ x, s.RequestOnly (s.refuse x).state := fun _ => .refl s
  have w : ∀ t : State, s.RequestOnly t → s.RequestOnly t.tableWritten.okay.state :=
    fun t h => h.trans t.tableWritten_requestOnly
  cases c <;> simp only [requestOf, Option.some.injEq, Prod.mk.injEq, reduceCtorEq] at h <;>
    obtain ⟨rfl, rfl⟩ := h
  · exact .refl s
  · exact .refl s
  · unfold State.doWriteSystem
    split
    · exact r _
    · split
      · exact r _
      · exact w _ ⟨rfl, rfl, rfl, rfl, rfl, rfl, rfl, rfl⟩
  · unfold State.doReadStats
    split
    · exact r _
    · split <;> exact ⟨rfl, rfl, rfl, rfl, rfl, rfl, rfl, rfl⟩
  · exact absurd rfl hk
  · unfold State.doEnrolNode
    split
    · exact r _
    · split
      · exact r _
      · split
        · exact r _
        · exact w _ ⟨rfl, rfl, rfl, rfl, rfl, rfl, rfl, rfl⟩
  · unfold State.doRetireNode
    split
    · exact r _
    · split
      · exact r _
      · split
        · exact r _
        · split
          · exact r _
          · exact w _ ⟨rfl, rfl, rfl, rfl, rfl, rfl, rfl, rfl⟩
  · unfold State.doReadNode
    split
    · exact r _
    · exact .refl s
  · unfold State.doBind
    split
    · split
      · exact r _
      · split
        · exact r _
        · split
          · exact r _
          · exact w _ (.trans (.tables s _ _ _ _ _ _ _ _ _) (State.clearChannel_supervisionOnly _ _).requestOnly)
    · exact r _
  · unfold State.doUnbind
    split
    · exact r _
    · split
      · exact r _
      · exact w _ (.trans (.tables s _ _ _ _ _ _ _ _ _) (State.clearChannel_supervisionOnly _ _).requestOnly)
  · unfold State.doWriteChannel
    split
    · exact r _
    · split
      · exact r _
      · exact w _ (s.rewriteChannel_requestOnly _ _)
  · unfold State.doReadChannel
    split
    · exact r _
    · exact .refl s
  · unfold State.doAckBand
    split
    · exact r _
    · split
      · exact (s.acknowledgeBand_supervisionOnly _).requestOnly
      · exact r _
  · unfold State.doWriteOutput
    split
    · exact r _
    · split
      · exact r _
      · split
        · exact r _
        · exact w _ (s.rewriteOutput_requestOnly _ _)
  · unfold State.doReadOutput
    split
    · exact r _
    · exact .refl s
  · unfold State.doForceOutput
    split
    · exact r _
    · split
      · exact r _
      · split
        · exact r _
        · exact (s.force_outputsOnly _ _).supervisionOnly.requestOnly
  · unfold State.doReleaseOutput
    split
    · exact r _
    · split
      · exact (s.judgeAfresh_outputsOnly _).supervisionOnly.requestOnly
      · exact r _
  · unfold State.doAckNotices
    split
    · exact r _
    · exact .tables s _ _ _ _ _ _ _ _ _
  · exact .tables s _ _ _ _ _ _ _ _ _
  · unfold State.doReadCapture
    split
    · exact r _
    · split
      · exact r _
      · split
        · exact r _
        · exact .refl s
  · unfold State.doCommit
    split
    · exact r _
    · exact .tables s _ _ _ _ _ _ _ _ _
  · exact .refl s

/-- RESTART's owning rule leaves the state, or makes a restart pending (R170). -/
theorem State.doRestart_state (s : State) (p : List Byte) :
    (s.store.commit.isSome = true ∧ (s.doRestart p).state = s) ∨
      (s.store.commit = none ∧ (s.doRestart p).status = .ok ∧
        (s.doRestart p).state = { s with queue := { s.queue with restartPending := true } }) := by
  unfold State.doRestart
  split
  · next h => exact .inl ⟨h, rfl⟩
  · next h => exact .inr ⟨by simpa using h, rfl, rfl⟩

/-- Only RESTART's command executes RESTART's rule. -/
theorem requestOf_restart (c : Instr) (body : State → List Byte → Answer) (h : requestOf c = some (.restart, body)) :
    body = State.doRestart := by
  cases c <;> simp only [requestOf, Option.some.injEq, Prod.mk.injEq, reduceCtorEq, false_and] at h
  exact h.2.symm

end Sys2Proof.Machine
end

