-- ==== Sys2Proof/Laws/HandOver.lean ====
section
/-! SUPPORT. The hand-over of outputs and the entry of a channel into STALE, each in one equation per record (R29,
R80, R84, R98). -/

namespace Sys2Proof.Machine

/-- The runtime part after an issue, if any. -/
theorem OutputRecord.withIssue_runtime (o : OutputRecord) (w) : (o.withIssue w).runtime =
    { o.runtime with issued := w.or o.runtime.issued } := by
  cases w <;> rfl

/-- The NORMAL computation in one update (R95). -/
theorem State.normalCompute_setOutput (s : State) (i v) : s.normalCompute i v = { s.setOutput i (({ s.output i with
        runtime := { (s.output i).runtime with target := some (curve (s.output i).config.points v) } } : OutputRecord).withIssue
          ((s.output i).normalIssue (curve (s.output i).config.points v))) with
      setpoints := s.withItem i ((s.output i).normalIssue (curve (s.output i).config.points v)) } := by
  rw [State.normalCompute_eq, State.setOutput_issued] <;> rfl

/-- An output that follows its source: NORMAL, then the NORMAL computation (R107). -/
theorem State.followSource_eq (s : State) (i : OutIdx) : s.followSource i = { s.setOutput i (({ s.output i with
              runtime := { (s.output i).runtime with
                state := .normal
                forced := none
                target := some (curve (s.output i).config.points (s.sourceValue i)) } } :
              OutputRecord).withIssue ((s.output i).normalIssue (curve (s.output i).config.points
                  (s.sourceValue i)))) with
            setpoints := s.withItem i ((s.output i).normalIssue (curve (s.output i).config.points
                (s.sourceValue i))) } := by
  unfold State.followSource
  dsimp only
  rw [State.normalCompute_eq, State.setOutput_issued]
  · simp [State.setOutputRuntime, State.output, State.setOutput, OutputRecord.normalIssue, State.withItem]
  · rfl
  · rfl

/-- A fold whose step changes one output by g changes each output of the list by g, once. -/
theorem foldl_output (g : OutputRecord → OutputRecord) (f : State → OutIdx → State)
   (hf : ∀ s i, (f s i).output i = g (s.output i) ∧ ∀ j, j ≠ i → (f s i).output j = s.output j) :
   ∀ (l : List OutIdx) (s : State), l.Nodup → ∀ i, (l.foldl f s).output i = if i ∈ l then g
       (s.output i) else s.output i := by
  intro l
  induction l with
  | nil => intro s _ i; simp
  | cons a l ih =>
    intro s hn i
    rw [List.nodup_cons] at hn
    rw [List.foldl_cons, ih _ hn.2]
    by_cases h : i = a
    · subst h; simp [hn.1, (hf s i).1]
    · simp [h, (hf s a).2 i h]

/-- What an output step does: it writes one output's record, sets its item by what it issues, and raises at most one
notice with the output as subject. -/
def State.outputStep (g : OutputRecord → OutputRecord) (w : OutputRecord → Option Level)
    (n : OutputRecord → Option NoticeKind) (s : State) (i : OutIdx) : State :=
  { s.setOutput i (g (s.output i)) with
    setpoints := s.withItem i (w (s.output i))
    log :=
      match n (s.output i) with
      | none => s.log
      | some kind => s.log.raise s.system.classMask s.time.counter kind (.output i) (BitVec.ofNat 16 i.val) }

theorem State.output_outputStep (g w n) (s : State) (i j : OutIdx) :
    (State.outputStep g w n s i).output j = if i = j then g (s.output i) else s.output j :=
  s.output_setOutput i j _

/-- Every output after output steps over a list. -/
theorem State.foldl_outputStep_output (g w n) (l : List OutIdx) (s : State) (h : l.Nodup) (i : OutIdx) :
    (l.foldl (State.outputStep g w n) s).output i = if i ∈ l then g (s.output i) else s.output i :=
  foldl_output g _ (fun s i => ⟨(State.output_outputStep g w n s i i).trans (if_pos rfl),
    fun j hj => (State.output_outputStep g w n s i j).trans (if_neg (Ne.symm hj))⟩) l s h i

/-- The setpoint set and the log after output steps over a list: each output issues and raises by its record as it stood
before them (R84, R96). -/
theorem State.foldl_outputStep (g w n) : ∀ (l : List OutIdx) (s : State), l.Nodup →
    (l.foldl (State.outputStep g w n) s).setpoints = s.withItems w l ∧
    (l.foldl (State.outputStep g w n) s).log = l.foldl (fun log i =>
      match n (s.output i) with
      | none => log
      | some kind => log.raise s.system.classMask s.time.counter kind (.output i) (BitVec.ofNat 16 i.val)) s.log := by
  intro l
  induction l with
  | nil => intro s _; exact ⟨rfl, rfl⟩
  | cons a l ih =>
    intro s hn
    rw [List.nodup_cons] at hn
    obtain ⟨h1, h2⟩ := ih (State.outputStep g w n s a) hn.2
    have same : ∀ i ∈ l, (State.outputStep g w n s a).output i = s.output i := by
      intro i hi
      rw [State.output_outputStep, if_neg (by rintro rfl; exact hn.1 hi)]
    rw [List.foldl_cons]
    refine ⟨?_, ?_⟩
    · rw [h1]
      unfold State.withItems
      rw [List.foldl_cons]
      refine List.foldl_ext _ _ _ fun set i hi => ?_
      unfold State.withItem
      have e : ∀ (u : State) (st : List SetpointItem), ({ u with setpoints := st } : State).output i = u.output i :=
        fun _ _ => rfl
      simp only [e, same i hi]
    · rw [h2, List.foldl_cons]
      exact List.foldl_ext _ _ _ fun log i hi => by rw [same i hi]; rfl

/-- Every output after the hand-over of a slot (R84). -/
theorem State.output_handOver (s : State) (k : Slot) (i) : (s.handOver k).output i =
    if (s.output i).follows k = true ∧ (s.output i).runtime.state = .normal then
        (s.output i).fellBack else s.output i := by
  have := foldl_output (fun o => if o.follows k = true ∧ o.runtime.state = .normal then o.fellBack else o)
      (State.handOverOne k) (by
    intro s i
    unfold State.handOverOne
    split
    · rw [State.enterFallback_eq]
      refine ⟨State.output_setOutput_self s i _, fun j hj => ?_⟩
      show (s.setOutput i _).output j = _
      rw [State.output_setOutput, if_neg (Ne.symm hj)]
    · exact ⟨rfl, fun _ _ => rfl⟩) allOutputs s allOutputs_nodup i
  unfold State.handOver
  simpa using this

/-- Every output after a channel has left the state it was in (R84). -/
theorem State.output_handOverFrom (s : State) (k : Slot) (st) (i) : (s.handOverFrom k st).output i =
    if st.isValid = true ∧ (s.output i).follows k = true ∧ (s.output i).runtime.state = .normal then
        (s.output i).fellBack else s.output i := by
  unfold State.handOverFrom
  split
  · next h => rw [State.output_handOver]; simp [h]
  · next h => simp [h]

/-- One output at a hand-over is an output step (R84). -/
theorem State.handOverOne_eq (k : Slot) : State.handOverOne k = State.outputStep
    (fun o => if o.follows k = true ∧ o.runtime.state = .normal then o.fellBack else o)
    (fun o => if o.follows k = true ∧ o.runtime.state = .normal then o.entryIssue else none)
    (fun o => if o.follows k = true ∧ o.runtime.state = .normal then some .fallbackEnter else none) := by
  funext s i
  unfold State.handOverOne State.outputStep
  by_cases h : (s.output i).follows k = true ∧ (s.output i).runtime.state = .normal
  · simp only [h, and_self, if_true, State.enterFallback_eq]
  · simp only [if_neg h, State.setOutput_self]; rfl

/-- The setpoint set and the notices after a channel has left the state it was in: each output handed over issues its
entry value and raises FALLBACK_ENTER, in ascending order (R84, R98). -/
theorem State.handOverFrom_sets (s t : State) (k : Slot) (ht : ∀ i, t.output i = s.output i)
    (hm : t.system = s.system) (hn : t.time = s.time) :
    (t.handOverFrom k (s.channel k).runtime.state).setpoints =
      State.withItems { s with setpoints := t.setpoints } OutputRecord.entryIssue (s.handedOver k) ∧
    (t.handOverFrom k (s.channel k).runtime.state).log = s.outputNotices t.log .fallbackEnter (s.handedOver k) := by
  unfold State.handOverFrom State.handedOver State.withItems State.outputNotices
  rw [List.foldl_filter, List.foldl_filter]
  by_cases hv : (s.channel k).runtime.state.isValid = true
  · obtain ⟨h1, h2⟩ := State.foldl_outputStep
      (fun o => if o.follows k = true ∧ o.runtime.state = .normal then o.fellBack else o)
      (fun o => if o.follows k = true ∧ o.runtime.state = .normal then o.entryIssue else none)
      (fun o => if o.follows k = true ∧ o.runtime.state = .normal then some .fallbackEnter else none)
      allOutputs t allOutputs_nodup
    simp only [hv, if_true, true_and, decide_eq_true_eq]
    unfold State.handOver
    rw [State.handOverOne_eq, h1, h2]
    unfold State.withItems
    refine ⟨List.foldl_ext _ _ _ fun set i _ => ?_, List.foldl_ext _ _ _ fun log i _ => ?_⟩
    · unfold State.withItem
      have e : ∀ (u : State) (st : List SetpointItem), ({ u with setpoints := st } : State).output i = u.output i :=
        fun _ _ => rfl
      simp only [e, ht]
      by_cases c : (s.output i).follows k = true ∧ (s.output i).runtime.state = .normal
      · simp only [if_pos c]
      · simp only [if_neg c]
    · simp only [ht, hm, hn]
      by_cases c : (s.output i).follows k = true ∧ (s.output i).runtime.state = .normal
      · simp only [if_pos c]
      · simp only [if_neg c]
  · simp only [hv, if_false, false_and, decide_false, Bool.false_eq_true]
    exact ⟨(List.foldl_fixed _).symm, (List.foldl_fixed _).symm⟩

/-- Every output after a channel has entered STALE (R80, R84). -/
theorem State.output_enterStale (s : State) (k c i) : (s.enterStale k c).output i =
            if (s.channel k).runtime.state.isValid = true ∧ (s.output i).follows k = true ∧
            (s.output i).runtime.state = .normal then (s.output i).fellBack
        else s.output i := State.output_handOverFrom _ k _ i

/-- Every channel after one has entered STALE (R80). -/
theorem State.channel_enterStale (s : State) (k c j) : (s.enterStale k c).channel j = if k = j then
    { config := (s.channel k).config, runtime := (s.channel k).runtime.staled c } else s.channel j := by
  unfold State.enterStale
  dsimp only
  rw [(State.handOverFrom_outputsOnly _ k _).channel_eq]
  exact State.channel_setRuntime s k j _

/-- Channels and outputs after the slots of a silent node have been visited (R29). -/
theorem State.foldl_nodeStaleOne : ∀ (l : List Slot) (s : State), l.Nodup →
   (∀ j, (l.foldl State.nodeStaleOne s).channel j = if j ∈ l ∧ (s.channel j).config.enabled = true ∧
       (s.channel j).runtime.state ≠ .stale then
       { config := (s.channel j).config, runtime := (s.channel j).runtime.staled .node } else s.channel j) ∧
   (∀ i, (l.foldl State.nodeStaleOne s).output i = if (s.output i).config.enabled = true ∧ (s.output i).runtime.state =
       .normal ∧
       (s.channel (s.output i).config.source).config.enabled = true ∧ s.sourceValid i = true ∧
           (s.output i).config.source ∈ l then (s.output i).fellBack else s.output i) := by
  intro l
  induction l with
  | nil => intro s _; exact ⟨fun j => by simp, fun i => by simp⟩
  | cons a l ih =>
    intro s hn
    rw [List.nodup_cons] at hn
    obtain ⟨h1, h2⟩ := ih (s.nodeStaleOne a) hn.2
    have hc : ∀ j, (s.nodeStaleOne a).channel j = if j = a ∧ (s.channel j).config.enabled = true ∧
        (s.channel j).runtime.state ≠ .stale then
        { config := (s.channel j).config, runtime := (s.channel j).runtime.staled .node } else s.channel j := by
      intro j
      unfold State.nodeStaleOne
      dsimp only
      split
      · next hc =>
        rw [State.channel_enterStale]
        by_cases e : a = j
        · subst e; simp [hc.1, hc.2]
        · simp [e, Ne.symm e]
      · next hc =>
        rw [if_neg]
        rintro ⟨rfl, h⟩; exact hc h
    have ho : ∀ i, (s.nodeStaleOne a).output i = if (s.output i).config.enabled = true ∧ (s.output i).runtime.state =
        .normal ∧
       (s.channel (s.output i).config.source).config.enabled = true ∧ s.sourceValid i = true ∧
           (s.output i).config.source = a then (s.output i).fellBack else s.output i := by
      intro i
      unfold State.nodeStaleOne
      dsimp only
      split
      · next hc =>
        rw [State.output_enterStale]
        unfold State.sourceValid OutputRecord.follows
        by_cases e : (s.output i).config.source = a
        · rw [e]; simp only [hc.1, decide_eq_true_eq, and_true, true_and]
          congr 1
          ext; tauto
        · simp [e]
      · next hc =>
        rw [if_neg]
        rintro ⟨-, -, h3, h4, rfl⟩
        apply hc
        refine ⟨h3, fun hs => ?_⟩
        unfold State.sourceValid at h4
        rw [hs] at h4; cases h4
    refine ⟨?_, ?_⟩
    · intro j
      rw [List.foldl_cons, h1, hc]
      by_cases e : j = a
      · subst e
        simp only [hn.1, false_and, if_false, true_and, List.mem_cons, true_or]
      · simp only [e, false_and, if_false, List.mem_cons, false_or]
    · intro i
      rw [List.foldl_cons, h2, ho]
      have hsv : (s.nodeStaleOne a).sourceValid i = if (s.output i).config.source = a ∧ (s.channel a).config.enabled =
          true ∧ (s.channel a).runtime.state ≠ .stale then false else s.sourceValid i := by
        unfold State.sourceValid
        rw [(s.nodeStaleOne_supervisionOnly a).2.2, hc]
        by_cases e : (s.output i).config.source = a
        · rw [e]; simp only [true_and]; split <;> rfl
        · simp [e]
      have hce : ∀ k, ((s.nodeStaleOne a).channel k).config = (s.channel k).config :=
          (s.nodeStaleOne_supervisionOnly a).2.1
      simp only [hsv, hce]
      by_cases e : (s.output i).config.source = a
      · have hnl : (s.output i).config.source ∉ l := by rw [e]; exact hn.1
        split
        · next hx => 
          rw [if_neg]
          · rw [if_pos]; refine ⟨hx.1, hx.2.1, hx.2.2.1, hx.2.2.2.1, by simp [e]⟩
          · rintro ⟨-, h, -⟩
            simp [OutputRecord.fellBack, OutputRecord.withIssue_runtime] at h
        · next hx =>
          rw [if_neg (by tauto), if_neg]
          rintro ⟨a1, a2, a3, a4, -⟩; exact hx ⟨a1, a2, a3, a4, e⟩
      · simp [e]

/-- The setpoint set and the log after a channel has entered STALE: its notice, then those of its outputs (R80, R84). -/
theorem State.enterStale_sets (s : State) (k : Slot) (c : StaleCause) :
    (s.enterStale k c).setpoints = s.withItems OutputRecord.entryIssue (s.handedOver k) ∧
    (s.enterStale k c).log = s.outputNotices
      (s.log.raise s.system.classMask s.time.counter .stale (.channel k) (BitVec.ofNat 16 k.val))
      .fallbackEnter (s.handedOver k) :=
  s.handOverFrom_sets _ k (fun _ => rfl) rfl rfl

/-- What one slot of a silent node adds to the log: STALE, then its outputs' FALLBACK_ENTER (R29, R80). -/
def State.staleNotices (s : State) (log : NoticeLog) (k : Slot) : NoticeLog :=
  s.outputNotices (log.raise s.system.classMask s.time.counter .stale (.channel k) (BitVec.ofNat 16 k.val))
    .fallbackEnter (s.handedOver k)

/-- The setpoint set and the log after the slots of a silent node have been visited (R29). -/
theorem State.foldl_nodeStaleOne_sets : ∀ (l : List Slot) (s : State), l.Nodup →
    (l.foldl State.nodeStaleOne s).setpoints = s.withItems OutputRecord.entryIssue
      ((l.filter fun k => decide ((s.channel k).config.enabled = true ∧ (s.channel k).runtime.state ≠ .stale)).flatMap
        s.handedOver) ∧
    (l.foldl State.nodeStaleOne s).log =
      (l.filter fun k => decide ((s.channel k).config.enabled = true ∧ (s.channel k).runtime.state ≠ .stale)).foldl
        s.staleNotices s.log := by
  intro l
  induction l with
  | nil => intro s _; exact ⟨rfl, rfl⟩
  | cons a l ih =>
    intro s hn
    rw [List.nodup_cons] at hn
    obtain ⟨h1, h2⟩ := ih (s.nodeStaleOne a) hn.2
    rw [List.foldl_cons, h1, h2, List.filter_cons]
    by_cases hc : (s.channel a).config.enabled = true ∧ (s.channel a).runtime.state ≠ .stale
    · have e : s.nodeStaleOne a = s.enterStale a .node := by unfold State.nodeStaleOne; exact if_pos hc
      rw [e, if_pos (by simpa using hc)]
      have hch : ∀ k ∈ l, (s.enterStale a .node).channel k = s.channel k := fun k hk => by
        rw [State.channel_enterStale, if_neg (by rintro rfl; exact hn.1 hk)]
      have hsup := s.enterStale_supervisionOnly a .node
      have hfol : ∀ k i, ((s.enterStale a .node).output i).follows k = (s.output i).follows k := fun k i => by
        unfold OutputRecord.follows; rw [hsup.2.2]
      have hout : ∀ k ∈ l, ∀ i, (s.output i).follows k = true → (s.enterStale a .node).output i = s.output i := by
        intro k hk i hf
        rw [State.output_enterStale, if_neg]
        rintro ⟨-, h, -⟩
        simp only [OutputRecord.follows, decide_eq_true_eq] at hf h
        exact hn.1 (by rw [← h.2, hf.2]; exact hk)
      have hho : ∀ k ∈ l, (s.enterStale a .node).handedOver k = s.handedOver k := fun k hk => by
        unfold State.handedOver
        rw [hch k hk]
        refine List.filter_congr fun i _ => ?_
        rw [hfol]
        by_cases hf : (s.output i).follows k = true
        · rw [hout k hk i hf]
        · simp [hf]
      have hfil : (l.filter fun k => decide (((s.enterStale a .node).channel k).config.enabled = true ∧
          ((s.enterStale a .node).channel k).runtime.state ≠ .stale)) =
          l.filter fun k => decide ((s.channel k).config.enabled = true ∧ (s.channel k).runtime.state ≠ .stale) :=
        List.filter_congr fun k hk => by rw [hch k hk]
      have hs := s.enterStale_sets a .node
      rw [hfil]
      refine ⟨?_, ?_⟩
      · rw [List.flatMap_cons]
        unfold State.withItems at hs ⊢
        rw [List.foldl_append, ← hs.1, List.flatMap_congr fun k hk => hho k (List.mem_of_mem_filter hk)]
        refine List.foldl_ext _ _ _ fun set i hi => ?_
        rw [List.mem_flatMap] at hi
        obtain ⟨k, hk, hi⟩ := hi
        have hf : (s.output i).follows k = true := by
          have := List.of_mem_filter hi
          simp only [decide_eq_true_eq] at this
          exact this.2.1
        have ho := hout k (List.mem_of_mem_filter hk) i hf
        have eo : ∀ (u : State) (st : List SetpointItem), ({ u with setpoints := st } : State).output i = u.output i :=
          fun _ _ => rfl
        simp only [State.withItem, eo, ho]
      · rw [List.foldl_cons]
        have : (s.enterStale a .node).log = s.staleNotices s.log a := hs.2
        rw [this]
        refine List.foldl_ext _ _ _ fun log k hk => ?_
        unfold State.staleNotices State.outputNotices
        rw [hho k (List.mem_of_mem_filter hk), hsup.system_eq, hsup.time_eq]
    · have e : s.nodeStaleOne a = s := by unfold State.nodeStaleOne; exact if_neg hc
      rw [e, if_neg (by simpa using hc)]
      exact ⟨rfl, rfl⟩

/-- The slots bound to a node. -/
theorem State.mem_slotsOf (s : State) (a k) : k ∈ s.slotsOf a ↔ ∃ b ∈ s.bindings, b.node = a ∧ b.slot = k := by
  unfold State.slotsOf
  simp

/-- A binding enters in slot order (section 3.1). -/
theorem insertBinding_eq (b : Binding) (l : List Binding) (h : ∀ x ∈ l, x.slot ≠ b.slot) :
    insertBinding b l = l.takeWhile (fun x => decide (x.slot < b.slot)) ++ b :: l.dropWhile (fun x => decide
        (x.slot < b.slot)) := by
  induction l with
  | nil => rfl
  | cons c l ih =>
    unfold insertBinding
    have hne := h c (by simp)
    split
    · next hlt => simp [List.takeWhile, List.dropWhile, not_lt.2 (le_of_lt hlt)]
    · next hlt =>
      have : c.slot < b.slot := lt_of_le_of_ne (not_lt.1 hlt) hne
      simp [List.takeWhile, List.dropWhile, this, ih (fun x hx => h x (by simp [hx]))]

end Sys2Proof.Machine
end

