-- ==== Sys2Proof/Laws/Arrivals.lean ====
section
/-! SUPPORT. What the end of a frame comes to: the hand-off of a good frame, the acceptance at
the Node Table, and what a reading does to its channel and to the outputs that follow it. -/

namespace Sys2Proof.Machine

/-! ## Commands on a ready state -/

/-- On a ready state a command is its own effect. -/
theorem exec_ready {s : State} (h : s.Ready) (c) (h1 : isHardReset c = false) (h2 : isTickStep c = false) : exec c s =
    .next (effectOf c s) := by
  rw [exec_eq, h1, h2]; simp [h.1, s.settle_idle h.2]

/-- A step of an open tick event is its own effect. -/
theorem exec_tickStep {s : State} (h : s.held = false) (c) (h1 : isHardReset c = false) (h2 : isTickStep c =
    true) : exec c s = .next (effectOf c s) := by
  rw [exec_eq, h1, h2]; simp [h]

/-- The command of the request that waits executes its owning rule and answers (R159, R161). -/
theorem exec_executes {s : State} {e kind p} (c : Instr) (body) (hc : requestOf c = some (kind, body))
    (h : s.Executes e kind p) (hl : kind.lengthOk p.length = true) :
    exec c s = .next ((body s p).state.withAnswer e (body s p).status (body s p).results) := by
  have : exec c s = .next (s.executeRequest kind body) := by
    rw [exec_eq, ← effectOf_request c kind body s hc]
    have h1 : isHardReset c = false := by cases c <;> first | rfl | simp [requestOf] at hc
    have h2 : isTickStep c = false := by cases c <;> first | rfl | simp [requestOf] at hc
    rw [h1, h2]; simp [h.1.1, s.settle_idle h.1.2]
  rw [this, s.executeRequest_body e kind p body h hl]

/-! ## Ports -/

/-- A count is a write of the port. -/
theorem State.count_setPort (s : State) (p : Port) (n) : s.count p n =
    s.setPort p { s.port p with stats := (s.port p).stats.inc n } := rfl

/-- A count taken once per element of a list, saturating. -/
theorem State.foldl_count (l : List Nat) : ∀ s : State, 
   (l.foldl (fun s _ => s.count .s .rxOwnedStripped) s) =
       { s with portS := { s.portS with stats := { s.portS.stats with
           rxOwnedStripped :=
             BitVec.ofNat 32 (min (2^32-1) (s.portS.stats.rxOwnedStripped.toNat + l.length)) } } } := by
  induction l with
  | nil =>
    intro s
    have : BitVec.ofNat 32 (min (2^32-1) (s.portS.stats.rxOwnedStripped.toNat + 0)) = s.portS.stats.rxOwnedStripped :=
        by
      have := s.portS.stats.rxOwnedStripped.isLt
      rw [Nat.min_eq_right (by omega)]; simp
    simp only [List.foldl_nil, List.length_nil, this]
  | cons a l ih =>
    intro s
    rw [List.foldl_cons, ih]
    have : (s.count .s .rxOwnedStripped).portS.stats.rxOwnedStripped = satInc s.portS.stats.rxOwnedStripped := rfl
    have h2 : ∀ x, ({ s.count .s .rxOwnedStripped with portS := { (s.count .s .rxOwnedStripped).portS with
          stats := { (s.count .s .rxOwnedStripped).portS.stats with rxOwnedStripped := x } } } : State) =
        { s with portS := { s.portS with stats := { s.portS.stats with rxOwnedStripped := x } } } := fun x => rfl
    rw [h2, this, satInc_toNat]
    have : min (2^32-1) (min (2^32-1) (s.portS.stats.rxOwnedStripped.toNat + 1) + l.length) = min (2^32-1)
        (s.portS.stats.rxOwnedStripped.toNat + (a :: l).length) := by
      simp only [List.length_cons]; omega
    rw [this]

/-! ## The end of a frame -/

/-- FRAME_END closes the assembly and judges it (R8). -/
theorem exec_frameEnd {s : State} {p l} (h : s.Receives p l) : exec (.frameEnd p) s = .next
    ((s.setPort p { s.port p with assembly := none }).judgeEnd p l) := by
  rw [exec_ready h.1 _ rfl rfl]; simp [effectOf, State.frameEnd, h.2.1, h.2.2]

/-- A good frame is counted, its source checked on the F-port, and handed off (R8 to R11). -/
theorem exec_frameEnd_good {s : State} {p l} (h : s.Receives p l) (hg : judgeFrame l = .good) : exec (.frameEnd p) s =
    .next (if p = .f ∧ s.badSource (addressOf (byteAt l 1)) then (s.received p).count p .rxFormatError
  else (s.received p).handOff p { bytes := l } (directionTable p (FrameKind.ofCode (byteAt l 2)) (addressOf
      (byteAt l 0) = s.system.ownAddress) (addressOf (byteAt l 1) = 0))) := by
  rw [exec_frameEnd h]
  have e : (s.setPort p { s.port p with assembly := none }).count p .rxGood = s.received p := by
    simp [State.count_setPort, State.setPort_setPort, State.port_setPort_self, State.received]
  unfold State.judgeEnd
  rw [hg]
  simp only [State.goodFrame, e]
  congr 1
  cases p <;> rfl

/-- A good S-port frame is counted and handed off. -/
theorem exec_frameEnd_s {s : State} {l} (h : s.Receives .s l) (hg : judgeFrame l = .good) : exec (.frameEnd .s) s =
    .next 
  ((s.received .s).handOff .s { bytes := l } (directionTable .s (FrameKind.ofCode (byteAt l 2)) (addressOf
      (byteAt l 0) = s.system.ownAddress) (addressOf (byteAt l 1) = 0))) := by
  rw [exec_frameEnd_good h hg, if_neg (by simp)]

/-- A good F-port frame that passes the source check and is not for the part is handed off. -/
theorem exec_frameEnd_f {s : State} {l} (h : s.FromField l) : exec (.frameEnd .f) s = .next 
  ((s.received .f).handOff .f { bytes := l } (directionTable .f (FrameKind.ofCode (byteAt l 2)) false (addressOf
      (byteAt l 1) = 0))) := by
  obtain ⟨h, hg, h0, h63, ho, hd⟩ := h
  rw [exec_frameEnd_good h hg, if_neg (by simp only [State.badSource, h0, h63, ho]; simp)]
  simp [hd]

/-- A frame offered after its count: queued while there is room, else counted (R13, R140). -/
theorem State.received_offerForward (s : State) (p : Port) (l : List Byte) :
    ((s.port (otherPort p)).forwardQueue.length < 8 →
      (s.received p).offerForward p l = ((s.received p).setPort (otherPort p) { s.port (otherPort p) with
        forwardQueue := (s.port (otherPort p)).forwardQueue ++ [l] })) ∧
    (8 ≤ (s.port (otherPort p)).forwardQueue.length →
      (s.received p).offerForward p l = ((s.received p).count p .rxQueueFull)) := by
  have e : (s.received p).port (otherPort p) = s.port (otherPort p) := by cases p <;> rfl
  unfold State.offerForward
  simp only [e]
  exact ⟨fun h => if_pos h, fun h => if_neg (by omega)⟩

/-- An accepted frame at the Node Table: record and log (R23 to R27). -/
theorem State.received_nodeArrival {s : State} {a : Addr} {l : List Byte} {missing notice} (h : (s.node a).acceptedAs
    ((byteAt l 3).getLsbD 0) (byteAt l 4) missing notice) :
   (s.received .f).nodeArrival a ((byteAt l 3).getLsbD 0) (byteAt l 4) = ({ (s.received .f).setNode a { s.node a with
          runtime := { (s.node a).runtime with
            lastSeq := some (byteAt l 4)
            gapSum := satAdd (s.node a).runtime.gapSum (BitVec.ofNat 16 missing)
            silenceCount := 0
            lastStamp := some s.time.counter
            state := .live } } with
        log := s.acceptedLog a (byteAt l 4) notice }, true) := by
  have hn : (s.received .f).node a = s.node a := rfl
  unfold State.nodeArrival
  simp only [hn]
  rcases h with ⟨h1, h2, h3⟩ | ⟨h1, h2, h3, h4⟩ | ⟨h1, h2, last, h3, h4, h5, h6, h7⟩
  · simp only [NodeRecord.judgeSeq, h1, if_true, State.acceptFrame, seqNotice, h2, h3, hn]
    congr 1
    unfold State.acceptedLog
    split <;> rfl
  · have : (s.node a).judgeSeq false (byteAt l 4) = .inOrder := by
      unfold NodeRecord.judgeSeq
      rcases h4 with h4 | h4 | ⟨last, h4, h5⟩
      · rw [h4]; rfl
      · rw [h4]; cases (s.node a).config.seqPolicy <;> rfl
      · rw [h4]; cases (s.node a).config.seqPolicy
        · simp [h5]
        · rfl
    simp only [h1, this, State.acceptFrame, seqNotice, h2, h3, hn]
    congr 1
    unfold State.acceptedLog
    split <;> rfl
  · have : (s.node a).judgeSeq false (byteAt l 4) = .gap ((byteAt l 4 - last).toNat - 1) := by
      unfold NodeRecord.judgeSeq
      rw [h2, h3]
      have a0 : ¬ (byteAt l 4 - last).toNat = 0 := by omega
      have a1 : ¬ (byteAt l 4 - last).toNat = 1 := by omega
      simp only [a0, a1, if_false, h5]; rfl
    simp only [h1, this, State.acceptFrame, seqNotice, h6, h7, hn]
    congr 1
    unfold State.acceptedLog
    split <;> rfl

/-- Readings of no enabled channel pass as they arrived (R47). -/
theorem PathState.foldl_reading_unbound (a : Addr) (rs : List Reading) (s : State) (h : ∀ r ∈ rs, ∀ k,
    s.boundSlot a r.channel = some k → (s.channel k).config.enabled = false) :
   ∀ kept, (rs.foldl (PathState.reading a) { state := s, kept := kept, changed := false }) =
       { state := s, kept := kept ++ rs, changed := false } := by
  induction rs with
  | nil => intro kept; simp
  | cons r rs ih =>
    intro kept
    rw [List.foldl_cons]
    have : PathState.reading a { state := s, kept := kept, changed := false } r =
        { state := s, kept := kept ++ [r], changed := false } := by
      unfold PathState.reading
      simp only
      cases hb : s.boundSlot a r.channel with
      | none => rfl
      | some k =>
        have := h r (by simp) k hb
        simp [this, PathState.keep]
    rw [this, ih (fun r hr => h r (by simp [hr]))]
    simp

/-! ## A reading at its channel and outputs -/

/-- A valid reading at a channel that is not OFF: its record holds the value, no other record changes (R65, R69). -/
theorem State.validReading_channel (s : State) (k : Slot) (v : Half) (q : Quality) (h :
    (s.channel k).runtime.state ≠ .off) :
   (∀ j, j ≠ k → (s.validReading k v q).channel j = s.channel j) ∧
   (∀ i, (s.validReading k v q).output i = s.output i) ∧
   (let r := ((s.validReading k v q).channel k).runtime
    r.value = v ∧ r.quality = some q ∧ r.valueValid = true ∧ r.state.isValid = true ∧ r.badCount = 0 ∧ r.silenceCount =
        0 ∧ r.lastStamp = some s.time.counter) := by
  have hset : ∀ (s : State) (r : ChannelRuntime × Option NoticeKind) j, (s.settleChannel k v r).channel j = if k = j then
      { config := (s.channel k).config, runtime := r.1 } else s.channel j := by
    intro s r j
    unfold State.settleChannel
    dsimp only
    split <;> exact State.channel_setRuntime s k j _
  have hout : ∀ (s : State) (r : ChannelRuntime × Option NoticeKind) j, (s.settleChannel k v r).output j = s.output j :=
      by
    intro s r j
    unfold State.settleChannel
    dsimp only
    split <;> rfl
  have jb : ∀ (r : ChannelRuntime) (c : ChannelConfig), r.state = .inBand → 
     let x := (r.judgeInBand c v).1
     x.value = r.value ∧ x.quality = r.quality ∧ x.valueValid = r.valueValid ∧ x.state.isValid = true ∧ x.badCount =
         r.badCount ∧ x.silenceCount = r.silenceCount ∧ x.lastStamp = r.lastStamp := by
    intro r c hr
    unfold ChannelRuntime.judgeInBand
    split
    · dsimp only; split <;> simp [ChannelRuntime.alarmed, ChannelRuntime.clearRuns, ChannelState.isValid, hr]
    · dsimp only; split <;> simp [ChannelRuntime.alarmed, ChannelRuntime.clearRuns, ChannelState.isValid, hr]
    all_goals simp [ChannelRuntime.clearRuns, ChannelState.isValid, hr]
  have ja : ∀ (r : ChannelRuntime) (c : ChannelConfig), r.state.isValid = true → 
     let x := (r.judgeAlarm c v).1
     x.value = r.value ∧ x.quality = r.quality ∧ x.valueValid = r.valueValid ∧ x.state.isValid = true ∧ x.badCount =
         r.badCount ∧ x.silenceCount = r.silenceCount ∧ x.lastStamp = r.lastStamp := by
    intro r c hr
    unfold ChannelRuntime.judgeAlarm
    split
    · simp [ChannelRuntime.clearRuns, hr]
    · dsimp only; split
      · simp [ChannelRuntime.returned, ChannelRuntime.clearRuns, ChannelState.isValid]
      · simp [hr]
  have hraise : ∀ (s : State) k n v j, (s.raiseChannel k n v).channel j = s.channel j := fun _ _ _ _ _ => rfl
  have hraiseo : ∀ (s : State) k n v j, (s.raiseChannel k n v).output j = s.output j := fun _ _ _ _ _ => rfl
  have hsr : ∀ (s : State) k r j, (s.setRuntime k r).output j = s.output j := fun _ _ _ _ => rfl
  unfold State.validReading
  dsimp only
  generalize hr : ({ (s.channel k).runtime.refreshed s.time.counter q with
    value := v, valueValid := true, badCount := 0 } : ChannelRuntime) = r
  have e : r.value = v ∧ r.quality = some q ∧ r.valueValid = true ∧ r.badCount = 0 ∧ r.silenceCount = 0 ∧ r.lastStamp =
      some s.time.counter := by
    subst hr; exact ⟨rfl, rfl, rfl, rfl, rfl, rfl⟩
  have es : (s.channel k).runtime.state = r.state := by subst hr; rfl
  rw [es] at h
  have rcv := jb r.recovered (s.channel k).config rfl
  have rcv' : r.recovered.value = r.value ∧ r.recovered.quality = r.quality ∧ r.recovered.valueValid = r.valueValid ∧
      r.recovered.badCount = r.badCount ∧ r.recovered.silenceCount = r.silenceCount ∧ r.recovered.lastStamp =
      r.lastStamp := ⟨rfl, rfl, rfl, rfl, rfl, rfl⟩
  have es2 : ((s.channel k).runtime.refreshed s.time.counter q).state = r.state := es
  rw [es2]
  cases hst : r.state with
  | off => exact absurd hst h
  | idle =>
    dsimp only
    refine ⟨fun j hj => by rw [hset, if_neg (Ne.symm hj)], fun i => hout _ _ _, ?_⟩
    rw [hset, if_pos rfl]; dsimp only at *; simp only [rcv, rcv', e, and_self]
  | stale =>
    dsimp only
    refine ⟨fun j hj => by
        rw [hset, if_neg (Ne.symm hj), hraise, State.channel_setRuntime, if_neg (Ne.symm hj)],
      fun i => by rw [hout, hraiseo, hsr], ?_⟩
    rw [hset, if_pos rfl]; dsimp only at *; simp only [rcv, rcv', e, and_self]
  | fault =>
    dsimp only
    refine ⟨fun j hj => by
        rw [hset, if_neg (Ne.symm hj), hraise, State.channel_setRuntime, if_neg (Ne.symm hj)],
      fun i => by rw [hout, hraiseo, hsr], ?_⟩
    rw [hset, if_pos rfl]; dsimp only at *; simp only [rcv, rcv', e, and_self]
  | inBand =>
    dsimp only
    refine ⟨fun j hj => by rw [hset, if_neg (Ne.symm hj)], fun i => hout _ _ _, ?_⟩
    have := jb r (s.channel k).config hst
    rw [hset, if_pos rfl]; dsimp only at *; simp only [this, e, and_self]
  | high =>
    dsimp only
    refine ⟨fun j hj => by rw [hset, if_neg (Ne.symm hj)], fun i => hout _ _ _, ?_⟩
    have := ja r (s.channel k).config (by rw [hst]; rfl)
    rw [hset, if_pos rfl]; dsimp only at *; simp only [this, e, and_self]
  | low =>
    dsimp only
    refine ⟨fun j hj => by rw [hset, if_neg (Ne.symm hj)], fun i => hout _ _ _, ?_⟩
    have := ja r (s.channel k).config (by rw [hst]; rfl)
    rw [hset, if_pos rfl]; dsimp only at *; simp only [this, e, and_self]

/-- A reading at one output changes no other. -/
theorem State.outputReadingOne_ne (k v s i j) (h : j ≠ i) : (State.outputReadingOne k v s i).output j = s.output j := by
  have hs : ∀ (s : State) r, (s.setOutputRuntime i r).output j = s.output j :=
      fun s r => by rw [State.output_setOutputRuntime, if_neg (Ne.symm h)]
  have hn : ∀ s v, (State.normalCompute s i v).output j = s.output j := by
    intro s v
    rw [State.normalCompute_setOutput]
    show (s.setOutput i _).output j = _
    rw [State.output_setOutput, if_neg (Ne.symm h)]
  unfold State.outputReadingOne
  dsimp only
  split
  · rfl
  · split
    · rfl
    · exact hn _ _
    · unfold State.exitFallback
      dsimp only
      rw [hn]
      exact hs _ _
    · exact hs _ _

/-- A reading at one output: none where it does not follow the slot, NORMAL where it was in FALLBACK (R96, R97). -/
theorem State.outputReadingOne_same (k v s i) : (State.outputReadingOne k v s i).output i =
   (if (s.output i).follows k = false then s.output i else (State.outputReadingOne k v s i).output i) ∧
   ((s.output i).follows k = true → (s.output i).runtime.state = .fallback →
       ((State.outputReadingOne k v s i).output i).runtime.state = .normal) := by
  refine ⟨?_, ?_⟩
  · split
    · next h => unfold State.outputReadingOne; simp [h]
    · rfl
  · intro h hs
    unfold State.outputReadingOne
    simp only [h, hs, not_true, if_false]
    unfold State.exitFallback
    dsimp only
    rw [State.normalCompute_setOutput]
    show ((State.setOutput _ i _).output i).runtime.state = _
    rw [State.output_setOutput, if_pos rfl, OutputRecord.withIssue_runtime]
    simp
    show ((s.setOutputRuntime i { (s.output i).runtime with state := .normal }).output i).runtime.state = _
    rw [State.output_setOutputRuntime, if_pos rfl]

/-- A reading at every output (R96). -/
theorem State.foldl_outputReadingOne (k v) : ∀ (l : List OutIdx) (s : State), l.Nodup → 
   (∀ i, (s.output i).follows k = false → (l.foldl (State.outputReadingOne k v) s).output i = s.output i) ∧
   (∀ i, i ∉ l → (l.foldl (State.outputReadingOne k v) s).output i = s.output i) ∧
   (∀ i ∈ l, (s.output i).follows k = true → (s.output i).runtime.state = .fallback → ((l.foldl
       (State.outputReadingOne k v) s).output i).runtime.state = .normal) := by
  intro l
  induction l with
  | nil => intro s _; simp
  | cons a l ih =>
    intro s hn
    rw [List.nodup_cons] at hn
    obtain ⟨h1, h2, h3⟩ := ih (State.outputReadingOne k v s a) hn.2
    have hcfg := (State.outputReadingOne_outputsOnly k v s a).2
    refine ⟨?_, ?_, ?_⟩
    · intro i hi
      have e : (State.outputReadingOne k v s a).output i = s.output i := by
        by_cases e : i = a
        · subst e; have := (State.outputReadingOne_same k v s i).1; rwa [if_pos hi] at this
        · exact State.outputReadingOne_ne k v s a i e
      rw [List.foldl_cons, h1 i (by rw [e]; exact hi), e]
    · intro i hi
      simp at hi
      rw [List.foldl_cons, h2 i hi.2, State.outputReadingOne_ne _ _ _ _ _ hi.1]
    · intro i hi hf hs
      rw [List.foldl_cons]
      by_cases e : i = a
      · subst e; rw [h2 i hn.1]; exact (State.outputReadingOne_same k v s i).2 hf hs
      · have e' := State.outputReadingOne_ne k v s a i e
        exact h3 i (by simpa [e] using hi) (by rw [e']; exact hf) (by rw [e']; exact hs)

/-- One output at a valid reading is an output step (R96, R97). -/
theorem State.outputReadingOne_eq (k : Slot) (v : Half) : State.outputReadingOne k v = State.outputStep
    (fun o => if o.follows k = true then o.afterReading v else o)
    (fun o => if o.follows k = true then o.readingIssue v else none)
    (fun o => if o.follows k = true ∧ o.runtime.state = .fallback then some .fallbackExit else none) := by
  funext s i
  unfold State.outputReadingOne State.outputStep OutputRecord.afterReading OutputRecord.readingIssue
  dsimp only
  by_cases h : (s.output i).follows k = true
  · simp only [h, not_true, if_false, if_true, true_and]
    cases hs : (s.output i).runtime.state
    · simp only [State.setOutput_self]; rfl
    · simp only [State.normalCompute_setOutput, hs, reduceCtorEq, if_false]; rfl
    · simp only [State.exitFallback_eq]; rfl
    · rfl
  · simp only [h, not_false_eq_true, if_true, if_false, false_and, Bool.false_eq_true, State.setOutput_self]; rfl

/-- Every output, the setpoint set and the notices after a valid reading of a slot: each output that names it acts by its
record as it stood, in ascending order (R96, R97). -/
theorem State.outputReading_sets (s : State) (k : Slot) (v : Half) :
    (∀ i, (s.outputReading k v).output i =
      if (s.output i).follows k = true then (s.output i).afterReading v else s.output i) ∧
    (s.outputReading k v).setpoints =
      s.withItems (OutputRecord.readingIssue v) (allOutputs.filter fun i => (s.output i).follows k) ∧
    (s.outputReading k v).log = s.outputNotices s.log .fallbackExit (allOutputs.filter fun i =>
      decide ((s.output i).follows k = true ∧ (s.output i).runtime.state = .fallback)) := by
  unfold State.outputReading
  rw [State.outputReadingOne_eq]
  have h := State.foldl_outputStep (fun o => if o.follows k = true then o.afterReading v else o)
    (fun o => if o.follows k = true then o.readingIssue v else none)
    (fun o => if o.follows k = true ∧ o.runtime.state = .fallback then some .fallbackExit else none)
    allOutputs s allOutputs_nodup
  refine ⟨fun i => ?_, h.1.trans ?_, h.2.trans ?_⟩
  · rw [State.foldl_outputStep_output _ _ _ _ s allOutputs_nodup, if_pos (by simp)]
  · unfold State.withItems
    rw [List.foldl_filter]
    refine List.foldl_ext _ _ _ fun set i _ => ?_
    by_cases hf : (s.output i).follows k = true
    · simp only [if_pos hf]
    · simp only [if_neg hf]; rfl
  · unfold State.outputNotices
    rw [List.foldl_filter]
    refine List.foldl_ext _ _ _ fun log i _ => ?_
    by_cases hf : (s.output i).follows k = true ∧ (s.output i).runtime.state = .fallback
    · simp only [if_pos hf, decide_eq_true hf, if_true]
    · simp only [if_neg hf, decide_eq_false hf, Bool.false_eq_true, if_false]

/-! ## A frame's readings in order -/

theorem State.boundSlot_eq {s u : State} (h : u.bindings = s.bindings) (a : Addr) (c : BitVec 4) :
    u.boundSlot a c = s.boundSlot a c := by
  unfold State.boundSlot; rw [h]

/-- One reading carried through every stage, in a state whose tables are configured as s: the tables, the readings kept,
and whether the frame has changed (R46, R47, R50, R52, R53). -/
theorem PathState.reading_eq {s u : State} (h : s.SupervisionOnly u) (a : Addr) (kept : List Reading) (ch : Bool)
    (r : Reading) (hq : r.quality ≠ none) :
    ∃ ch', PathState.reading a { state := u, kept := kept, changed := ch } r =
        { state := s.readingTaken a u r, kept := kept ++ (s.readingKept a r).toList, changed := ch' } ∧
      (ch' = true ↔ ch = true ∨ s.readingChanges a r) := by
  unfold PathState.reading State.readingTaken State.readingKept State.readingChanges State.supervisedAt
  simp only [State.boundSlot_eq h.bindings_eq, h.2.1]
  cases hb : s.boundSlot a r.channel with
  | none => exact ⟨ch, by simp [PathState.keep], by simp⟩
  | some k =>
    by_cases he : (s.channel k).config.enabled = true
    · simp only [he, not_true, if_false, Option.filter_some, if_true]
      unfold State.conditioned
      cases hr : r.quality with
      | none => exact absurd hr hq
      | some q =>
        cases q <;> cases hf : (s.channel k).config.forward <;>
          simp [PathState.forward, PathState.keep, State.takeReading, Reading.rewritten, hf]
    · have hn : (some k).filter (fun k => (s.channel k).config.enabled) = none := by simp [he]
      rw [hn]
      exact ⟨ch, by simp [he, PathState.keep], by simp⟩

theorem State.readingTaken_supervisionOnly (s u : State) (a : Addr) (r : Reading) :
    u.SupervisionOnly (s.readingTaken a u r) := by
  unfold State.readingTaken
  split
  · exact .refl u
  · split
    · exact u.badReading_supervisionOnly _
    · exact u.takeReading_supervisionOnly _ _

/-- A frame's readings carried through every stage, in the order of the frame (R46, R54). -/
theorem PathState.foldl_reading {s : State} (a : Addr) : ∀ (rs : List Reading) (u : State), s.SupervisionOnly u →
    (∀ r ∈ rs, r.quality ≠ none) → ∀ (kept : List Reading) (ch : Bool),
    ∃ ch', rs.foldl (PathState.reading a) { state := u, kept := kept, changed := ch } =
        { state := rs.foldl (s.readingTaken a) u, kept := kept ++ rs.filterMap (s.readingKept a), changed := ch' } ∧
      (ch' = true ↔ ch = true ∨ ∃ r ∈ rs, s.readingChanges a r) := by
  intro rs
  induction rs with
  | nil => intro u _ _ kept ch; exact ⟨ch, by simp, by simp⟩
  | cons r rs ih =>
    intro u h hq kept ch
    obtain ⟨c1, e1, h1⟩ := PathState.reading_eq h a kept ch r (hq r (by simp))
    obtain ⟨c2, e2, h2⟩ := ih _ (h.trans (s.readingTaken_supervisionOnly u a r)) (fun x hx => hq x (by simp [hx]))
      (kept ++ (s.readingKept a r).toList) c1
    refine ⟨c2, ?_, ?_⟩
    · rw [List.foldl_cons, e1, e2, List.foldl_cons, List.filterMap_cons]
      cases s.readingKept a r <;> simp
    · rw [h2, h1]; simp [or_assoc]

end Sys2Proof.Machine
end

