-- ==== Sys2Proof/Laws/Reception.lean ====
section
/-! SUPPORT. Frames of the reception of a frame: what the sample path, the Node Table, the ownership filter and the
hand-off can change. -/

namespace Sys2Proof.Machine

/-- What the handling of an arriving frame, other than a request to the part, leaves as it is. -/
def State.ArrivalOnly (s t : State) : Prop :=
  t.pending = s.pending ∧ t.held = s.held ∧ t.bindings = s.bindings ∧ t.queue = s.queue ∧ t.egress = s.egress ∧
    t.time = s.time ∧ t.due = s.due ∧ t.system = s.system ∧ t.capture = s.capture ∧ t.store = s.store ∧
    (∀ p, (t.port p).link = (s.port p).link ∧ (t.port p).assembly = (s.port p).assembly ∧
      (t.port p).transmitter = (s.port p).transmitter) ∧
    (∀ a, (t.node a).config = (s.node a).config) ∧ (∀ k, (t.channel k).config = (s.channel k).config) ∧
    (∀ i, (t.output i).config = (s.output i).config)

theorem State.ArrivalOnly.refl (s : State) : s.ArrivalOnly s :=
  ⟨rfl, rfl, rfl, rfl, rfl, rfl, rfl, rfl, rfl, rfl, fun _ => ⟨rfl, rfl, rfl⟩, fun _ => rfl, fun _ => rfl, fun _ => rfl⟩

theorem State.ArrivalOnly.trans {s t u : State} (h : s.ArrivalOnly t) (h' : t.ArrivalOnly u) : s.ArrivalOnly u := by
  obtain ⟨a1, a2, a3, a4, a5, a6, a7, a8, a9, a10, a11, a12, a13, a14⟩ := h
  obtain ⟨b1, b2, b3, b4, b5, b6, b7, b8, b9, b10, b11, b12, b13, b14⟩ := h'
  exact ⟨b1.trans a1, b2.trans a2, b3.trans a3, b4.trans a4, b5.trans a5, b6.trans a6, b7.trans a7, b8.trans a8,
    b9.trans a9, b10.trans a10,
    fun p => ⟨(b11 p).1.trans (a11 p).1, (b11 p).2.1.trans (a11 p).2.1, (b11 p).2.2.trans (a11 p).2.2⟩,
    fun a => (b12 a).trans (a12 a), fun k => (b13 k).trans (a13 k), fun i => (b14 i).trans (a14 i)⟩

theorem State.SupervisionOnly.arrivalOnly {s t : State} (h : s.SupervisionOnly t) : s.ArrivalOnly t :=
  ⟨h.pending_eq, h.held_eq, h.bindings_eq, h.queue_eq, h.egress_eq, h.time_eq, h.due_eq, h.system_eq, h.capture_eq,
    h.store_eq, fun p => by cases p <;> simp [h.portF_eq, h.portS_eq], fun a => by rw [h.node_eq], h.2.1, h.2.2⟩

theorem State.count_arrivalOnly (s : State) (p : Port) (n : StatName) : s.ArrivalOnly (s.count p n) := by
  refine ⟨?_, ?_, ?_, ?_, ?_, ?_, ?_, ?_, ?_, ?_, fun q => ?_, fun _ => ?_, fun _ => ?_, fun _ => ?_⟩
  all_goals first | simp | (cases p <;> rfl)

theorem State.offerForward_arrivalOnly (s : State) (p : Port) (l : List Byte) : s.ArrivalOnly (s.offerForward p l) := by
  unfold State.offerForward
  dsimp only
  split
  · cases p <;> refine ⟨rfl, rfl, rfl, rfl, rfl, rfl, rfl, rfl, rfl, rfl, fun q => ?_, fun _ => rfl, fun _ => rfl, fun _ => rfl⟩ <;>
      cases q <;> exact ⟨rfl, rfl, rfl⟩
  · exact s.count_arrivalOnly p _

theorem State.setNodeRuntime_arrivalOnly (s : State) (a : Addr) (r : NodeRuntime) :
    s.ArrivalOnly (s.setNode a { s.node a with runtime := r }) :=
  ⟨rfl, rfl, rfl, rfl, rfl, rfl, rfl, rfl, rfl, rfl, fun _ => ⟨rfl, rfl, rfl⟩, (s.setNode_runtimeOnly a r).2.1,
    fun _ => rfl, fun _ => rfl⟩

theorem State.raise_arrivalOnly (s : State) (k : NoticeKind) (x : Subject) (v : Half) : s.ArrivalOnly (s.raise k x v) :=
  (s.raise_outputsOnly k x v).supervisionOnly.arrivalOnly

theorem State.acceptFrame_arrivalOnly (s : State) (a : Addr) (seq : Byte) (j : SeqJudgement) :
    s.ArrivalOnly (s.acceptFrame a seq j) := by
  unfold State.acceptFrame
  dsimp only
  have h1 := fun m => s.setNodeRuntime_arrivalOnly a ((s.node a).runtime.accepted seq m s.time.counter)
  split <;> split
  · exact ((h1 _).trans (State.raise_arrivalOnly _ _ _ _)).trans (State.raise_arrivalOnly _ _ _ _)
  · exact (h1 _).trans (State.raise_arrivalOnly _ _ _ _)
  · exact (h1 _).trans (State.raise_arrivalOnly _ _ _ _)
  · exact h1 _

theorem State.nodeArrival_arrivalOnly (s : State) (a : Addr) (x : Bool) (seq : Byte) :
    s.ArrivalOnly (s.nodeArrival a x seq).1 := by
  unfold State.nodeArrival
  dsimp only
  split
  · exact s.setNodeRuntime_arrivalOnly a _
  · exact s.setNodeRuntime_arrivalOnly a _
  · exact s.acceptFrame_arrivalOnly a seq .restarted
  · exact s.acceptFrame_arrivalOnly a seq .inOrder
  · exact s.acceptFrame_arrivalOnly a seq (.gap _)

/-! ## The sample path -/

@[simp] theorem PathState.forward_state (p : PathState) (pol : ForwardPolicy) (r : Reading)
    (d : Option (Half × Quality)) : (p.forward pol r d).state = p.state := by
  cases pol <;> cases d <;> rfl

/-- One reading's state: untouched where its key names no enabled channel, else the channel's handling. -/
theorem PathState.reading_state (src : Addr) (p : PathState) (r : Reading) :
    (p.reading src r).state = p.state ∨
      ∃ k, p.state.boundSlot src r.channel = some k ∧ (p.state.channel k).config.enabled = true ∧
        ((p.reading src r).state = p.state.badReading k ∨
          ∃ q, (p.reading src r).state = p.state.takeReading k ((p.state.channel k).config.condition r.value q)) := by
  unfold PathState.reading
  split
  · exact .inl rfl
  · next k hk =>
    dsimp only
    split
    · exact .inl rfl
    · next he =>
      have he' : (p.state.channel k).config.enabled = true := by simpa using he
      split
      · exact .inl rfl
      · exact .inr ⟨k, hk, he', .inl (by simp only [PathState.forward_state])⟩
      · exact .inr ⟨k, hk, he', .inr ⟨.good, by simp only [PathState.forward_state]⟩⟩
      · exact .inr ⟨k, hk, he', .inr ⟨.suspect, by simp only [PathState.forward_state]⟩⟩

/-- One reading changes channels and outputs only, and keeps, rewrites or removes itself in the frame. -/
theorem PathState.reading_supervisionOnly (src : Addr) (p : PathState) (r : Reading) :
    p.state.SupervisionOnly (p.reading src r).state := by
  rcases PathState.reading_state src p r with h | ⟨k, -, -, h | ⟨q, h⟩⟩
  · rw [h]
    exact .refl _
  · rw [h]
    exact p.state.badReading_supervisionOnly k
  · rw [h]
    exact p.state.takeReading_supervisionOnly k _

theorem PathState.readings_supervisionOnly (src : Addr) (rs : List Reading) (p : PathState) :
    p.state.SupervisionOnly (rs.foldl (PathState.reading src) p).state := by
  induction rs generalizing p with
  | nil => exact .refl _
  | cons r rs ih => exact (PathState.reading_supervisionOnly src p r).trans (ih _)

/-- The frame rebuilt holds at most as many readings as the one received. -/
theorem PathState.readings_kept (src : Addr) (rs : List Reading) (p : PathState) :
    (rs.foldl (PathState.reading src) p).kept.length ≤ p.kept.length + rs.length := by
  have h1 : ∀ (p : PathState) r, (p.reading src r).kept.length ≤ p.kept.length + 1 := by
    intro p r
    have hf : ∀ (q : PathState) pol d, (q.forward pol r d).kept.length ≤ q.kept.length + 1 := by
      intro q pol d
      cases pol <;> cases d <;> simp [PathState.forward, PathState.keep]
    have hk : ∀ q : PathState, (q.keep r).kept.length ≤ q.kept.length + 1 := by
      intro q; simp [PathState.keep]
    unfold PathState.reading
    split
    · exact hk p
    · dsimp only
      split
      · exact hk p
      · split
        · exact hk p
        all_goals exact hf _ _ _
  induction rs generalizing p with
  | nil => simp
  | cons r rs ih =>
    have := ih (p.reading src r)
    have := h1 p r
    simp only [List.foldl_cons, List.length_cons]
    omega

theorem State.samplePath_arrivalOnly (s : State) (f : Frame) (rs : List Reading) : s.ArrivalOnly (s.samplePath f rs) := by
  unfold State.samplePath
  dsimp only
  have h := (PathState.readings_supervisionOnly f.src rs { state := s, kept := [], changed := false }).arrivalOnly
  split
  · exact h.trans (State.offerForward_arrivalOnly _ _ _)
  · split
    · exact h.trans (State.count_arrivalOnly _ _ _)
    · exact h.trans (State.offerForward_arrivalOnly _ _ _)

theorem State.nodeTable_arrivalOnly (s : State) (f : Frame) (g : State → State) (hg : ∀ s, State.ArrivalOnly s (g s)) :
    s.ArrivalOnly (s.nodeTable f g) := by
  unfold State.nodeTable
  dsimp only
  split
  · split
    · exact (s.nodeArrival_arrivalOnly _ _ _).trans (hg _)
    · exact s.nodeArrival_arrivalOnly _ _ _
  · split
    · exact s.offerForward_arrivalOnly _ _
    · exact s.count_arrivalOnly _ _

theorem State.ownershipFilter_arrivalOnly (s : State) (f : Frame) (items : List FrameItem) :
    s.ArrivalOnly (s.ownershipFilter f items) := by
  unfold State.ownershipFilter
  dsimp only
  have h := foldl_keeps State.ArrivalOnly .refl (fun _ _ _ => .trans) (fun (s : State) (_ : Nat) => s.count .s .rxOwnedStripped)
    (fun s _ => s.count_arrivalOnly _ _)
    (List.range (items.length - (items.filter fun i => ! s.ownsTarget f.dst i.index).length)) s
  split
  · exact h.trans (State.offerForward_arrivalOnly _ _ _)
  · split
    · exact h.trans (State.count_arrivalOnly _ _ _)
    · exact h.trans (State.offerForward_arrivalOnly _ _ _)

/-- The hand-off of a frame that is not a request to the part. -/
theorem State.handOff_arrivalOnly (s : State) (p : Port) (f : Frame) (r : Route) (h : r ≠ .request) :
    s.ArrivalOnly (s.handOff p f r) := by
  cases r with
  | misdirected => exact s.count_arrivalOnly p _
  | forward => exact s.offerForward_arrivalOnly p _
  | sample =>
    simp only [State.handOff]
    split
    · exact s.count_arrivalOnly p _
    · exact s.nodeTable_arrivalOnly f _ fun s => s.samplePath_arrivalOnly f _
  | status => exact s.nodeTable_arrivalOnly f _ fun s => s.offerForward_arrivalOnly _ _
  | setpoint =>
    simp only [State.handOff]
    split
    · exact s.count_arrivalOnly p _
    · exact s.ownershipFilter_arrivalOnly f _
  | request => exact absurd rfl h

theorem directionTable_f (k : FrameKind) (o v : Bool) : directionTable .f k o v ≠ .request := by
  cases k <;> cases o <;> simp [directionTable]

theorem directionTable_request (p : Port) (k : FrameKind) (o v : Bool) (h : directionTable p k o v = .request) :
    p = .s ∧ k = .request ∧ o = true ∧ v = true := by
  cases p <;> cases k <;> cases o <;> cases v <;> simp_all [directionTable]

/-- A frame's end either leaves all that ArrivalOnly names, or accepts a request after counting the good frame. -/
theorem State.judgeEnd_cases (s : State) (p : Port) (l : List Byte) :
    s.ArrivalOnly (s.judgeEnd p l) ∨
      (p = .s ∧ judgeFrame l = .good ∧ ∃ tag opcode params, ({ bytes := l } : Frame).payload = tag :: opcode :: params ∧
        s.judgeEnd p l = (s.count .s .rxGood).acceptRequest tag ({ bytes := l } : Frame).seq opcode params) := by
  unfold State.judgeEnd
  split
  · exact .inl (s.count_arrivalOnly p _)
  · exact .inl (s.count_arrivalOnly p _)
  · next hg =>
    unfold State.goodFrame
    dsimp only
    split
    · exact .inl ((s.count_arrivalOnly p _).trans (State.count_arrivalOnly _ p _))
    · by_cases hr : directionTable p ({ bytes := l } : Frame).kind
          (decide (({ bytes := l } : Frame).dst = (s.count p .rxGood).system.ownAddress))
          (decide (({ bytes := l } : Frame).src = 0)) = .request
      · rw [hr]
        obtain ⟨rfl, -⟩ := directionTable_request _ _ _ _ hr
        simp only [State.handOff]
        split
        · next tag opcode params hp => exact .inr ⟨trivial, hg, tag, opcode, params, hp, rfl⟩
        · exact .inl ((s.count_arrivalOnly .s _).trans (State.count_arrivalOnly _ .s _))
      · exact .inl ((s.count_arrivalOnly p _).trans (State.handOff_arrivalOnly _ p _ _ hr))

end Sys2Proof.Machine
end

