-- ==== Sys2Proof/Laws/Queue.lean ====
section
/-! SUPPORT. The operations that touch the Request Queue keep its laws (R155, R156, R162, R171). -/

namespace Sys2Proof.Machine

/-- The queue's laws look at the queue, the transmitters and whether the part is held. -/
theorem State.QueueLawful.congr {s t : State} (h : s.QueueLawful) (hq : t.queue = s.queue)
    (hf : t.portF.transmitter = s.portF.transmitter) (hs : t.portS.transmitter = s.portS.transmitter)
    (hh : t.held = s.held) : t.QueueLawful := by
  unfold State.QueueLawful at *
  rw [hq, hf, hs, hh]
  exact h

theorem State.QueueLawful.arrival {s t : State} (h : s.QueueLawful) (ha : s.ArrivalOnly t) : t.QueueLawful := by
  obtain ⟨-, hh, -, hq, -, -, -, -, -, -, hp, -⟩ := ha
  exact h.congr hq (hp .f).2.2 (hp .s).2.2 hh

theorem State.QueueLawful.runtime {s t : State} (h : s.QueueLawful) (hr : s.RuntimeOnly t) : t.QueueLawful :=
  h.congr hr.queue_eq (by rw [hr.portF_eq]) (by rw [hr.portS_eq]) hr.held_eq

/-- An accepted arrival keeps the laws (R156). -/
theorem State.QueueLawful.acceptRequest {s : State} (h : s.QueueLawful) (tag seq opcode : Byte) (params : List Byte) :
    (s.acceptRequest tag seq opcode params).QueueLawful := by
  have hnew : ∀ e : RequestEntry, s.queue.entries.length < 4 →
      (∀ x ∈ s.queue.entries, ¬ (x.tag = e.tag ∧ x.seq = e.seq)) → (e.state = .waiting ↔ e.response = none) →
      e.state ≠ .sending →
      ({ s with queue := { s.queue with entries := s.queue.entries ++ [e] } } : State).QueueLawful := by
    intro e hl hx hw hs
    obtain ⟨h1, h2, h3, h4, h5, h6, h7⟩ := h
    refine ⟨by simp; omega, ?_, ?_, ?_, ?_, ?_, h7⟩
    · intro x hm
      rcases List.mem_append.1 hm with hm | hm
      · exact h2 x hm
      · rw [List.mem_singleton.1 hm]; exact hw
    · intro x hm
      cases he : s.queue.entries with
      | nil => simp [he] at hm
      | cons y l =>
        simp only [he, List.cons_append, List.tail_cons, List.mem_append, List.mem_singleton] at hm
        rcases hm with hm | rfl
        · exact h3 x (by simpa [he] using hm)
        · exact hs
    · refine List.pairwise_append.2 ⟨h4, by simp, ?_⟩
      intro x hx' y hy
      rw [List.mem_singleton.1 hy]
      exact hx x hx'
    · intro hp
      obtain ⟨x, hx', hr⟩ := h5 hp
      exact ⟨x, by simp [hx'], hr⟩
    · intro hh
      refine Iff.trans ?_ (h6 hh)
      cases he : s.queue.entries with
      | nil => simp [hs]
      | cons y l => simp
  unfold State.acceptRequest
  dsimp only
  split
  · exact h.congr rfl rfl rfl rfl
  · next hd =>
    split
    · exact h
    · next hl =>
      have hx : ∀ x ∈ s.queue.entries, ¬ (x.tag = tag ∧ x.seq = seq) := by
        intro x hm hts
        apply hd
        rw [List.any_eq_true]
        exact ⟨x, hm, by simp [RequestEntry.matches, hts]⟩
      split
      · exact hnew _ (by omega) hx (by simp) (by simp)
      · split
        · exact hnew _ (by omega) hx (by simp) (by simp)
        · exact hnew _ (by omega) hx (by simp) (by simp)

/-- Answering the oldest WAITING entry keeps the laws (R159, R161); a restart may then be pending on it. -/
theorem State.QueueLawful.withAnswer {s t : State} (h : s.QueueLawful) (e : RequestEntry) (st : Status)
    (res : List Byte) (hn : s.nextToExecute = some e) (hq : t.queue = { s.queue with restartPending := t.queue.restartPending })
    (hf : t.portF.transmitter = s.portF.transmitter) (hs : t.portS.transmitter = s.portS.transmitter)
    (hh : t.held = s.held)
    (hr : t.queue.restartPending = true → s.queue.restartPending = true ∨ (e.opcode = RequestKind.restart.opcode ∧ st = .ok)) :
    (t.withAnswer e st res).QueueLawful := by
  obtain ⟨h1, h2, h3, h4, h5, h6, h7⟩ := h
  have hp : s.queue.restartPending = false := by
    unfold State.nextToExecute at hn
    split at hn
    · cases hn
    · next h => simpa using h
  have hfind : s.queue.entries.find? RequestEntry.isWaiting = some e := by
    simpa [State.nextToExecute, hp] using hn
  have hent : t.queue.entries = s.queue.entries := by rw [hq]
  obtain ⟨pre, x, post, hsplit, hpre, hx⟩ := split_at_first RequestEntry.isWaiting s.queue.entries (by
    rw [List.any_eq_true]
    exact ⟨e, List.mem_of_find?_eq_some hfind, List.find?_some hfind⟩)
  have hxe : x = e := by
    rw [hsplit, List.find?_append, List.find?_eq_none.2 (fun y hy => by simp [hpre y hy])] at hfind
    simpa [hx] using hfind
  subst hxe
  have hxw : x.state = .waiting := by simpa [RequestEntry.isWaiting] using hx
  generalize hresp : ({ tag := x.tag, opcode := x.opcode, status := st, repeated := false, lost := t.queue.lostCount,
                        summary := t.summary, results := res } : Response) = resp
  have hnew : (t.withAnswer x st res).queue.entries = pre ++ { x with state := .done, response := some resp } :: post := by
    unfold State.withAnswer
    rw [hresp]
    dsimp only
    rw [hent, hsplit, updateFirst_append RequestEntry.isWaiting _ pre x post hpre hx]
  have hmem : ∀ y ∈ (t.withAnswer x st res).queue.entries,
      y ∈ s.queue.entries ∨ y = { x with state := .done, response := some resp } := by
    intro y hy
    rw [hnew] at hy
    rw [hsplit]
    rcases List.mem_append.1 hy with hy | hy
    · exact .inl (by simp [hy])
    · rcases List.mem_cons.1 hy with rfl | hy
      · exact .inr rfl
      · exact .inl (by simp [hy])
  refine ⟨?_, ?_, ?_, ?_, ?_, ?_, ?_⟩
  · rw [hnew]
    rw [hsplit] at h1
    simpa using h1
  · intro y hy
    rcases hmem y hy with hy | rfl
    · exact h2 y hy
    · simp
  · intro y hy
    rw [hnew] at hy
    cases pre with
    | nil =>
      apply h3 y
      rw [hsplit]
      simpa using hy
    | cons a l =>
      simp only [List.cons_append, List.tail_cons, List.mem_append, List.mem_cons] at hy
      rcases hy with hy | rfl | hy
      · exact h3 y (by rw [hsplit]; simp [hy])
      · simp
      · exact h3 y (by rw [hsplit]; simp [hy])
  · rw [hnew]
    rw [hsplit] at h4
    rw [List.pairwise_append, List.pairwise_cons] at h4 ⊢
    exact ⟨h4.1, ⟨fun y hy => h4.2.1.1 y hy, h4.2.1.2⟩, fun a ha b hb => by
      rcases List.mem_cons.1 hb with rfl | hb
      · exact h4.2.2 a ha x (by simp)
      · exact h4.2.2 a ha b (by simp [hb])⟩
  · intro hpend
    have hpend' : t.queue.restartPending = true := hpend
    rcases hr hpend' with h | ⟨ho, rfl⟩
    · rw [hp] at h; cases h
    · refine ⟨{ x with state := .done, response := some resp }, by rw [hnew]; simp, ?_⟩
      subst hresp
      simp [RequestEntry.isRestart, ho]
  · intro hheld
    have hheld' : s.held = false := by rw [← hh]; exact hheld
    have := h6 hheld'
    change (∃ e ∈ (t.withAnswer x st res).queue.entries.head?, e.state = .sending) ↔
      ∃ u ∈ t.portS.transmitter, u.source = .response
    rw [hs, ← this, hnew, hsplit]
    cases pre with
    | nil => simp [hxw]
    | cons a l => simp
  · change ∀ u ∈ t.portF.transmitter, u.source ≠ .response
    rw [hf]
    exact h7

/-- The empty queue is lawful, with no response in flight. -/
theorem State.QueueLawful.empty {t : State} (hq : t.queue = .empty) (hs : ∀ x ∈ t.portS.transmitter, x.source ≠ .response)
    (hf : ∀ x ∈ t.portF.transmitter, x.source ≠ .response) : t.QueueLawful := by
  unfold State.QueueLawful
  rw [hq]
  refine ⟨by simp [RequestQueue.empty], by simp [RequestQueue.empty], by simp [RequestQueue.empty],
    by simp [RequestQueue.empty], by simp [RequestQueue.empty], fun _ => ?_, hf⟩
  simp only [RequestQueue.empty, List.head?_nil, Option.mem_def, reduceCtorEq, false_and, exists_false, false_iff, not_exists]
  rintro x ⟨hx, hr⟩
  exact hs x hx hr

end Sys2Proof.Machine
end

