-- ==== Sys2Proof/Laws/Restart.lean ====
section
/-! SUPPORT. What a reset sets, block by block, and what the end of a transmission does. -/

namespace Sys2Proof.Machine

/-- The blocks set at a reset, before the entry actions of the outputs. -/
def State.restartBase (s : State) (value : Half) : State :=
  { s with
    portF := s.portF.restarted
    portS := s.portS.restarted
    nodes := tableMap (fun r => { r with runtime := .clear }) s.nodes
    channels := tableMap (fun c => .cleared c.config) s.channels
    outputs := tableMap OutputRecord.atReset s.outputs
    setpoints := []
    queue := .empty
    egress := .clear
    time := { counter := 0, interval := s.system.tickPeriod, handedOn := .idle }
    due := .none
    capture := none
    log := .restarted value }

theorem State.restartBlocks_eq (s : State) (value : Half) :
    s.restartBlocks value = allOutputs.foldl State.resetEntry (s.restartBase value) := rfl

theorem State.resetEntry_outputsOnly (s : State) (i : OutIdx) : s.OutputsOnly (s.resetEntry i) := by
  unfold State.resetEntry
  split
  · exact s.entryAction_outputsOnly i
  · exact .refl s

/-- The entry actions at a reset touch output runtimes and the setpoint set only. -/
theorem State.restartBlocks_outputsOnly (s : State) (value : Half) :
    (s.restartBase value).OutputsOnly (s.restartBlocks value) :=
  foldl_keeps State.OutputsOnly .refl (fun _ _ _ => .trans) _ State.resetEntry_outputsOnly _ _

/-- The entry actions at a reset raise no notice (R117). -/
theorem State.restartBlocks_log (s : State) (value : Half) : (s.restartBlocks value).log = .restarted value := by
  have h : ∀ s : State, ∀ i, (s.resetEntry i).log = s.log := by
    intro s i
    unfold State.resetEntry
    split
    · rw [State.entryAction_eq, State.issued_eq]
      rfl
    · rfl
  rw [State.restartBlocks_eq]
  exact foldl_invariant (fun t : State => t.log = .restarted value) _ _ (fun s i _ hs => by rw [h, hs]) _ rfl

/-- The entry actions at a reset do not look at the S-port. -/
theorem State.foldl_resetEntry_portS (r : PortRecord) : ∀ (l : List OutIdx) (s : State),
    l.foldl State.resetEntry { s with portS := r } = { l.foldl State.resetEntry s with portS := r } := by
  have step : ∀ (s : State) i, ({ s with portS := r } : State).resetEntry i = { s.resetEntry i with portS := r } := by
    intro s i
    have e : ({ s with portS := r } : State).output i = s.output i := rfl
    unfold State.resetEntry
    rw [e]
    split
    · rw [State.entryAction_eq, State.entryAction_eq, State.issued_eq, State.issued_eq]
      rfl
    · rfl
  intro l
  induction l with
  | nil => intro s; rfl
  | cons i l ih => intro s; rw [List.foldl_cons, step, ih, List.foldl_cons]

/-- A restart keeps of the S-port its link and its transmitter, and looks at neither it nor the queue of requests (R154,
R171). -/
theorem State.restartBlocks_ended (s : State) (v : Half) (r r' : PortRecord) (q q' : RequestQueue) :
    ({ s with portS := r', queue := q' } : State).restartBlocks v =
      { ({ s with portS := r, queue := q } : State).restartBlocks v with portS := r'.restarted } := by
  rw [State.restartBlocks_eq, State.restartBlocks_eq]
  exact State.foldl_resetEntry_portS r'.restarted allOutputs (({ s with portS := r, queue := q } : State).restartBase v)

/-! ## Fields after a reset -/

@[simp] theorem State.restartBlocks_portF (s : State) (v : Half) : (s.restartBlocks v).portF = s.portF.restarted :=
  (s.restartBlocks_outputsOnly v).portF_eq

@[simp] theorem State.restartBlocks_portS (s : State) (v : Half) : (s.restartBlocks v).portS = s.portS.restarted :=
  (s.restartBlocks_outputsOnly v).portS_eq

@[simp] theorem State.restartBlocks_queue (s : State) (v : Half) : (s.restartBlocks v).queue = .empty :=
  (s.restartBlocks_outputsOnly v).queue_eq

@[simp] theorem State.restartBlocks_egress (s : State) (v : Half) : (s.restartBlocks v).egress = .clear :=
  (s.restartBlocks_outputsOnly v).egress_eq

@[simp] theorem State.restartBlocks_held (s : State) (v : Half) : (s.restartBlocks v).held = s.held :=
  (s.restartBlocks_outputsOnly v).held_eq

@[simp] theorem State.restartBlocks_pending (s : State) (v : Half) : (s.restartBlocks v).pending = s.pending :=
  (s.restartBlocks_outputsOnly v).pending_eq

@[simp] theorem State.restartBlocks_time (s : State) (v : Half) :
    (s.restartBlocks v).time = { counter := 0, interval := s.system.tickPeriod, handedOn := .idle } :=
  (s.restartBlocks_outputsOnly v).time_eq

@[simp] theorem State.restartBlocks_due (s : State) (v : Half) : (s.restartBlocks v).due = .none :=
  (s.restartBlocks_outputsOnly v).due_eq

@[simp] theorem State.restartBlocks_capture (s : State) (v : Half) : (s.restartBlocks v).capture = none :=
  (s.restartBlocks_outputsOnly v).capture_eq

@[simp] theorem State.restartBlocks_system (s : State) (v : Half) : (s.restartBlocks v).system = s.system :=
  (s.restartBlocks_outputsOnly v).system_eq

@[simp] theorem State.restartBlocks_store (s : State) (v : Half) : (s.restartBlocks v).store = s.store :=
  (s.restartBlocks_outputsOnly v).store_eq

@[simp] theorem State.restartBlocks_bindings (s : State) (v : Half) : (s.restartBlocks v).bindings = s.bindings :=
  (s.restartBlocks_outputsOnly v).bindings_eq

@[simp] theorem State.restartBlocks_nodes (s : State) (v : Half) :
    (s.restartBlocks v).nodes = tableMap (fun r => { r with runtime := .clear }) s.nodes :=
  (s.restartBlocks_outputsOnly v).nodes_eq

@[simp] theorem State.restartBlocks_channels (s : State) (v : Half) :
    (s.restartBlocks v).channels = tableMap (fun c => .cleared c.config) s.channels :=
  (s.restartBlocks_outputsOnly v).channels_eq

theorem State.restartBlocks_node (s : State) (v : Half) (a : Addr) :
    (s.restartBlocks v).node a = { config := (s.node a).config, runtime := .clear } := by
  unfold State.node
  rw [State.restartBlocks_nodes]
  split
  · rfl
  · rw [tableMap_getElem?]
    cases s.nodes[a.toNat - 1]? <;> rfl

theorem State.restartBlocks_channel (s : State) (v : Half) (k : Slot) :
    (s.restartBlocks v).channel k = .cleared (s.channel k).config := by
  simp [State.channel]

/-- Configurations of outputs survive a reset of the blocks. -/
theorem State.restartBlocks_output_config (s : State) (v : Half) (i : OutIdx) :
    ((s.restartBlocks v).output i).config = (s.output i).config := by
  rw [(s.restartBlocks_outputsOnly v).2 i]
  simp [State.restartBase, State.output, OutputRecord.atReset]

/-! ## Starts, and the end of a transmission -/

/-- An arbiter may start exactly on a port that is UP with its transmitter free (R142). -/
theorem State.mayStart_iff (s : State) (p : Port) :
    s.mayStart p = true ↔ (s.port p).link = .up ∧ (s.port p).transmitter = none := by
  simp [State.mayStart]

/-- The end of a transmission: nothing without one; else the transmitter is free and the end counted, and a response's
end releases its entry (R148, R149). -/
theorem State.endTransmission_eq (s : State) (p : Port) (c : Bool) (x : Transmission)
    (h : (s.port p).transmitter = some x) :
    s.endTransmission p c =
      if x.source = .response then
        (s.setPort p { s.port p with
          transmitter := none, stats := (s.port p).stats.inc (if c then .txFrames else .txAbandoned) }).releaseResponse c
      else s.setPort p { s.port p with
          transmitter := none, stats := (s.port p).stats.inc (if c then .txFrames else .txAbandoned) } := by
  unfold State.endTransmission
  rw [h]
  cases p <;> rfl

theorem State.endTransmission_none (s : State) (p : Port) (c : Bool) (h : (s.port p).transmitter = none) :
    s.endTransmission p c = s := by
  unfold State.endTransmission
  rw [h]

end Sys2Proof.Machine
end

