-- ==== Sys2Proof/Laws/Notices.lean ====
section
/-! SUPPORT. Every operation on the Notice Log keeps its laws (R118, R120, R121, R123, R125). -/

namespace Sys2Proof.Machine

/-! ## Numbers -/

theorem numberedFrom_append (n : Half) (l l' : List NoticeEntry) :
    numberedFrom n (l ++ l') = (numberedFrom n l && numberedFrom (n + BitVec.ofNat 16 l.length) l') := by
  induction l generalizing n with
  | nil => simp [numberedFrom]
  | cons e l ih =>
    simp only [List.cons_append, numberedFrom, ih, List.length_cons]
    rw [show n + 1 + BitVec.ofNat 16 l.length = n + BitVec.ofNat 16 (l.length + 1) by
      rw [BitVec.add_assoc, BitVec.ofNat_add, BitVec.add_comm (BitVec.ofNat 16 l.length)]
      rfl]
    rw [Bool.and_assoc]

/-- Only the numbers matter. -/
theorem numberedFrom_congr (n : Half) (l l' : List NoticeEntry) (h : l.map (·.number) = l'.map (·.number)) :
    numberedFrom n l = numberedFrom n l' := by
  induction l generalizing n l' with
  | nil => cases l' with
    | nil => rfl
    | cons e l' => simp at h
  | cons e l ih =>
    cases l' with
    | nil => simp at h
    | cons e' l' =>
      simp only [List.map_cons, List.cons.injEq] at h
      simp only [numberedFrom, h.1, ih _ _ h.2]

/-! ## Entry by entry -/

/-- Changes of entries in place that keep numbers, kinds' classes with subjects, and the order of send states. -/
theorem NoticeLog.Lawful.change {l l' : NoticeLog} (h : l.Lawful) (f : NoticeEntry → NoticeEntry)
    (he : l'.entries = l.entries.map f) (hn : l'.nextNumber = l.nextNumber)
    (hnum : ∀ e ∈ l.entries, (f e).number = e.number)
    (hrank : l'.entries.Pairwise (fun e e' => e.sendState.rank ≤ e'.sendState.rank))
    (hover : ∀ e ∈ l.entries, (f e).kind = .overflow ↔ e.kind = .overflow)
    (hnew : ∀ e ∈ l.entries, (f e).sendState = .new → e.sendState = .new)
    (hsub : ∀ e ∈ l.entries, (f e).subject = e.subject)
    (hcls : ∀ e ∈ l.entries, ((f e).subject = .none ↔ (f e).kind.noticeClass = .system))
    (hstamp : ∀ e ∈ l.entries, ((f e).sendState = .new ↔ (f e).sentStamp = none))
    (hlost : l'.lostSinceMarker ≠ 0 → ∃ e ∈ l'.entries, e.kind = .overflow ∧ e.sendState = .sent) : l'.Lawful := by
  obtain ⟨h1, -, h3, h4, h5, -, -, -⟩ := h
  have hmap : ∀ (p q : NoticeEntry → Bool), (∀ e ∈ l.entries, p (f e) = q e) →
      (l.entries.map f).countP p = l.entries.countP q := by
    intro p q hpq
    rw [List.countP_map]
    exact List.countP_congr (fun e he => by simp [hpq e he])
  refine ⟨?_, hrank, ?_, ?_, ?_, ?_, ?_, hlost⟩
  · rw [he, hn, List.length_map, ← h1]
    apply numberedFrom_congr
    rw [List.map_map]
    exact List.map_congr_left hnum
  · unfold NoticeLog.ordinaryCount at *
    rw [he, hmap _ (fun e => decide (e.kind ≠ .overflow)) (fun e he => by simp [hover e he])]
    exact h3
  · rw [he, hmap _ (fun e => decide (e.kind = .overflow)) (fun e he => by simp [hover e he])]
    exact h4
  · rw [he, List.pairwise_map]
    refine h5.imp_of_mem ?_
    intro a b ha hb hab hf
    rw [hsub a ha, hsub b hb] at hf
    exact hab ⟨hnew a ha hf.1, hnew b hb hf.2.1, hf.2.2⟩
  · rw [he]
    intro e hm
    obtain ⟨e0, h0, rfl⟩ := List.mem_map.1 hm
    exact hcls e0 h0
  · rw [he]
    intro e hm
    obtain ⟨e0, h0, rfl⟩ := List.mem_map.1 hm
    exact hstamp e0 h0

/-- A new entry at the tail: its subject has no NEW entry, its kind fits its subject, and it fits the bounds. -/
theorem NoticeLog.Lawful.append {l : NoticeLog} (h : l.Lawful) (now : Quad) (kind : NoticeKind) (subject : Subject)
    (value : Half) (hsub : subject = .none ↔ kind.noticeClass = .system)
    (hnew : subject ≠ .none → ∀ e ∈ l.entries, ¬ (e.sendState = .new ∧ e.subject = subject))
    (hcount : kind ≠ .overflow → l.ordinaryCount < 31)
    (hover : kind = .overflow → ∀ e ∈ l.entries, e.kind ≠ .overflow) : (l.append now kind subject value).Lawful := by
  obtain ⟨h1, h2, h3, h4, h5, h6, h7, h8⟩ := h
  refine ⟨?_, ?_, ?_, ?_, ?_, ?_, ?_, ?_⟩
  · simp only [NoticeLog.append, List.length_append, List.length_singleton, numberedFrom_append, numberedFrom,
      Bool.and_true, Bool.and_eq_true, decide_eq_true_eq]
    have hs : l.nextNumber + 1 - BitVec.ofNat 16 (l.entries.length + 1) =
        l.nextNumber - BitVec.ofNat 16 l.entries.length := by
      rw [BitVec.ofNat_add]
      generalize BitVec.ofNat 16 l.entries.length = n
      bv_omega
    rw [hs]
    refine ⟨h1, ?_⟩
    generalize BitVec.ofNat 16 l.entries.length = n
    bv_omega
  · simp only [NoticeLog.append, List.pairwise_append, List.pairwise_cons, List.not_mem_nil, false_implies,
      List.Pairwise.nil, List.mem_singleton, implies_true, and_true, true_and]
    refine ⟨h2, ?_⟩
    rintro a ha _ rfl
    cases a.sendState <;> simp [SendState.rank]
  · simp only [NoticeLog.ordinaryCount, NoticeLog.append, List.countP_append]
    unfold NoticeLog.ordinaryCount at h3 hcount
    by_cases hk : kind = .overflow
    · simp [hk]
      simpa using h3
    · have := hcount hk
      simp [hk]
      simp at this
      omega
  · simp only [NoticeLog.append, List.countP_append]
    by_cases hk : kind = .overflow
    · have hz : l.entries.countP (fun e => decide (e.kind = .overflow)) = 0 := by
        rw [List.countP_eq_zero]
        intro e he
        simp [hover hk e he]
      rw [hz]
      simp [List.countP_cons]
      split <;> omega
    · simpa [hk] using h4
  · simp only [NoticeLog.append, List.pairwise_append, List.pairwise_cons, List.not_mem_nil, false_implies,
      List.Pairwise.nil, List.mem_singleton, implies_true, and_true, true_and]
    refine ⟨h5, ?_⟩
    rintro a ha _ rfl ⟨ha1, -, ha2, ha3⟩
    dsimp only at ha2
    exact hnew (ha2 ▸ ha3) a ha ⟨ha1, ha2⟩
  · intro e he
    rcases List.mem_append.1 he with he | he
    · exact h6 e he
    · rw [List.mem_singleton.1 he]; exact hsub
  · intro e he
    rcases List.mem_append.1 he with he | he
    · exact h7 e he
    · rw [List.mem_singleton.1 he]; simp
  · intro hl
    obtain ⟨e, he, hk⟩ := h8 hl
    exact ⟨e, by simp [NoticeLog.append, he], hk⟩

/-- An update of the first entry with a property, in place. -/
theorem NoticeLog.Lawful.update {l : NoticeLog} (h : l.Lawful) (p : NoticeEntry → Bool) (f : NoticeEntry → NoticeEntry)
    (hf : ∀ e ∈ l.entries, p e = true → (f e).number = e.number ∧ (f e).sendState = e.sendState ∧
      (f e).sentStamp = e.sentStamp ∧ (f e).subject = e.subject ∧ ((f e).kind = .overflow ↔ e.kind = .overflow) ∧
      ((f e).subject = .none ↔ (f e).kind.noticeClass = .system)) :
    ({ l with entries := updateFirst p f l.entries } : NoticeLog).Lawful := by
  by_cases hany : l.entries.any p = true
  · obtain ⟨pre, x, post, hs, hpre, hx⟩ := split_at_first p l.entries hany
    have hxm : x ∈ l.entries := by rw [hs]; simp
    obtain ⟨f1, f2, f3, f4, f5, f6⟩ := hf x hxm hx
    obtain ⟨h1, h2, h3, h4, h5, h6, h7, h8⟩ := h
    have he : updateFirst p f l.entries = pre ++ f x :: post := by rw [hs, updateFirst_append p f pre x post hpre hx]
    have hrel : ∀ R : NoticeEntry → NoticeEntry → Prop, (∀ a, R a x → R a (f x)) → (∀ a, R x a → R (f x) a) →
        l.entries.Pairwise R → (pre ++ f x :: post).Pairwise R := by
      intro R ha hb hp
      rw [hs, List.pairwise_append, List.pairwise_cons] at hp
      rw [List.pairwise_append, List.pairwise_cons]
      refine ⟨hp.1, ⟨fun b hm => hb b (hp.2.1.1 b hm), hp.2.1.2⟩, fun a hm b hm' => ?_⟩
      rcases List.mem_cons.1 hm' with rfl | hm'
      · exact ha a (hp.2.2 a hm x (by simp))
      · exact hp.2.2 a hm b (by simp [hm'])
    have hmem : ∀ e ∈ pre ++ f x :: post, e ∈ l.entries ∨ e = f x := by
      intro e hm
      rw [hs]
      rcases List.mem_append.1 hm with hm | hm
      · exact .inl (by simp [hm])
      · rcases List.mem_cons.1 hm with rfl | hm
        · exact .inr rfl
        · exact .inl (by simp [hm])
    have hcount : ∀ q : NoticeEntry → Bool, q (f x) = q x → (pre ++ f x :: post).countP q = l.entries.countP q := by
      intro q hq
      rw [hs]
      simp [List.countP_append, List.countP_cons, hq]
    refine ⟨?_, ?_, ?_, ?_, ?_, ?_, ?_, ?_⟩
    · rw [show ({ l with entries := updateFirst p f l.entries } : NoticeLog).entries.length = l.entries.length by simp]
      rw [← h1]
      apply numberedFrom_congr
      change (updateFirst p f l.entries).map _ = _
      rw [he, hs]
      simp [f1]
    · change (updateFirst p f l.entries).Pairwise _
      rw [he]
      exact hrel _ (fun a h => by rw [f2]; exact h) (fun a h => by rw [f2]; exact h) h2
    · unfold NoticeLog.ordinaryCount at *
      change (updateFirst p f l.entries).countP _ ≤ 31
      rw [he, hcount _ (by simp [f5])]
      exact h3
    · change (updateFirst p f l.entries).countP _ ≤ 1
      rw [he, hcount _ (by simp [f5])]
      exact h4
    · change (updateFirst p f l.entries).Pairwise _
      rw [he]
      exact hrel _ (fun a h => by rw [f2, f4]; exact h) (fun a h => by rw [f2, f4]; exact h) h5
    · change ∀ e ∈ updateFirst p f l.entries, _
      rw [he]
      intro e hm
      rcases hmem e hm with hm | rfl
      · exact h6 e hm
      · exact f6
    · change ∀ e ∈ updateFirst p f l.entries, _
      rw [he]
      intro e hm
      rcases hmem e hm with hm | rfl
      · exact h7 e hm
      · rw [f2, f3]; exact h7 x hxm
    · intro hl
      obtain ⟨e, hm, hk⟩ := h8 hl
      change ∃ e ∈ updateFirst p f l.entries, _
      rw [he]
      rw [hs] at hm
      rcases List.mem_append.1 hm with hm | hm
      · exact ⟨e, by simp [hm], hk⟩
      · rcases List.mem_cons.1 hm with rfl | hm
        · exact ⟨f e, by simp, f5.2 hk.1, by rw [f2]; exact hk.2⟩
        · exact ⟨e, by simp [hm], hk⟩
  · rw [updateFirst_none p f l.entries (fun y hy => by
      cases hp : p y with
      | false => rfl
      | true => exact absurd (List.any_eq_true.2 ⟨y, hy, hp⟩) hany)]
    exact h

/-! ## Raising -/

/-- A lost event keeps the laws (R125). -/
theorem NoticeLog.Lawful.lose {l : NoticeLog} (h : l.Lawful) (now : Quad) : (l.lose now).Lawful := by
  unfold NoticeLog.lose
  split
  · next hn =>
    refine h.append now .overflow .none 1 (by simp [NoticeKind.noticeClass]) (fun h => absurd rfl h) (fun h => absurd rfl h) ?_
    intro _ e he hk
    rw [List.find?_eq_none] at hn
    exact hn e he (by simp [hk])
  · next e hfind =>
    have hm := List.mem_of_find?_eq_some hfind
    have hk : e.kind = .overflow := by simpa using List.find?_some hfind
    split
    · next hs =>
      obtain ⟨h1, h2, h3, h4, h5, h6, h7, h8⟩ := h
      exact ⟨h1, h2, h3, h4, h5, h6, h7, fun _ => ⟨e, hm, hk, hs⟩⟩
    · apply h.update
      intro e he hk
      have hk' : e.kind = .overflow := by simpa using hk
      exact ⟨rfl, rfl, rfl, rfl, Iff.rfl, h.2.2.2.2.2.1 e he⟩

/-- A raised event keeps the laws, for a kind that fits its subject and is not OVERFLOW, which no block raises (R118,
R122). -/
theorem NoticeLog.Lawful.raise {l : NoticeLog} (h : l.Lawful) (mask : BitVec 4) (now : Quad) (kind : NoticeKind)
    (subject : Subject) (value : Half) (hsub : subject = .none ↔ kind.noticeClass = .system) (hk : kind ≠ .overflow) :
    (l.raise mask now kind subject value).Lawful := by
  unfold NoticeLog.raise
  split
  · exact h
  · split
    · next hc =>
      apply h.update
      intro e he hp
      have hp' : e.sendState = .new ∧ e.subject = subject := by simpa [NoticeEntry.takesIn] using hp
      have hns : subject ≠ .none := fun hs => hc.1 (hsub.1 hs)
      have hek : e.kind ≠ .overflow := by
        intro hke
        have := (h.2.2.2.2.2.1 e he).2 (by rw [hke]; rfl)
        exact hns (hp'.2 ▸ this)
      refine ⟨rfl, rfl, rfl, rfl, ?_, ?_⟩
      · simp [NoticeEntry.coalesce, hk, hek]
      · simp only [NoticeEntry.coalesce]
        rw [hp'.2]
        exact hsub
    · next hc =>
      split
      · next hcount =>
        refine h.append now kind subject value hsub ?_ (fun _ => hcount) (fun h => absurd h hk)
        intro hns e he hen
        apply hc
        refine ⟨fun hs => hns (hsub.2 hs), ?_⟩
        rw [List.any_eq_true]
        exact ⟨e, he, by simp [NoticeEntry.takesIn, hen]⟩
      · exact h.lose now

/-! ## Sending, acknowledging, going back, restarting -/

/-- A list in send-state order is its SENT prefix and entries that are not SENT. -/
theorem sentPrefix (l : List NoticeEntry) (h : l.Pairwise (fun e e' => e.sendState.rank ≤ e'.sendState.rank)) :
    ∀ e ∈ l.dropWhile NoticeEntry.isSent, e.sendState ≠ .sent := by
  induction l with
  | nil => simp
  | cons a l ih =>
    rw [List.pairwise_cons] at h
    by_cases ha : a.isSent = true
    · rw [List.dropWhile_cons, if_pos ha]
      exact ih h.2
    · rw [List.dropWhile_cons, if_neg ha]
      have ha' : a.sendState ≠ .sent := by simpa [NoticeEntry.isSent] using ha
      intro e he
      rcases List.mem_cons.1 he with rfl | he
      · exact ha'
      · have := h.1 e he
        intro hs
        rw [hs] at this
        revert ha' this
        cases a.sendState <;> simp [SendState.rank]

theorem NoticeLog.Lawful.afterSend {l : NoticeLog} (h : l.Lawful) (now : Quad) : (l.afterSend now).Lawful := by
  let s : NoticeEntry → NoticeEntry := fun e => { e with sendState := .sent, sentStamp := some now }
  let a := l.entries.takeWhile NoticeEntry.isSent
  let d := l.entries.dropWhile NoticeEntry.isSent
  have hsplit : l.entries = a ++ (d.take 8 ++ d.drop 8) := by
    rw [List.take_append_drop, List.takeWhile_append_dropWhile]
  have hnew : (l.afterSend now).entries = a ++ ((d.take 8).map s ++ d.drop 8) := by
    simp [NoticeLog.afterSend, NoticeLog.selected, a, d, s]
  obtain ⟨h1, h2, h3, h4, h5, h6, h7, h8⟩ := h
  have hcount : ∀ p : NoticeEntry → Bool, (∀ e, p (s e) = p e) →
      (a ++ ((d.take 8).map s ++ d.drop 8)).countP p = l.entries.countP p := by
    intro p hp
    rw [hsplit]
    simp only [List.countP_append, List.countP_map]
    rw [show (p ∘ s) = p from funext hp]
  have hmem : ∀ e ∈ a ++ ((d.take 8).map s ++ d.drop 8), e ∈ l.entries ∨ ∃ e0 ∈ l.entries, e = s e0 := by
    intro e he
    rw [hsplit]
    simp only [List.mem_append, List.mem_map] at he ⊢
    rcases he with he | ⟨e0, h0, rfl⟩ | he
    · exact .inl (.inl he)
    · exact .inr ⟨e0, .inr (.inl h0), rfl⟩
    · exact .inl (.inr (.inr he))
  refine ⟨?_, ?_, ?_, ?_, ?_, ?_, ?_, ?_⟩
  · rw [hnew]
    change numberedFrom (l.nextNumber - _) _ = true
    rw [← h1]
    have hl : (a ++ ((d.take 8).map s ++ d.drop 8)).length = l.entries.length := by
      rw [hsplit]; simp; omega
    rw [hl]
    apply numberedFrom_congr
    rw [hsplit, List.map_append, List.map_append, List.map_append, List.map_append, List.map_map]
    rfl
  · rw [hnew]
    rw [hsplit] at h2
    have ha : ∀ e ∈ a, e.sendState = .sent := by
      intro e he
      have := List.mem_takeWhile_imp he
      simpa [NoticeEntry.isSent] using this
    rw [List.pairwise_append, List.pairwise_append] at h2 ⊢
    refine ⟨h2.1, ⟨?_, h2.2.1.2.1, ?_⟩, ?_⟩
    · rw [List.pairwise_map]
      exact List.pairwise_of_forall fun _ _ => Nat.le_refl _
    · intro x hx y hy
      obtain ⟨x0, -, rfl⟩ := List.mem_map.1 hx
      exact Nat.zero_le _
    · intro x hx y hy
      rw [ha x hx]
      exact Nat.zero_le _
  · unfold NoticeLog.ordinaryCount at *
    rw [hnew, hcount _ (fun _ => rfl)]
    exact h3
  · rw [hnew, hcount _ (fun _ => rfl)]
    exact h4
  · rw [hnew]
    rw [hsplit] at h5
    rw [List.pairwise_append, List.pairwise_append] at h5 ⊢
    refine ⟨h5.1, ⟨?_, h5.2.1.2.1, ?_⟩, ?_⟩
    · rw [List.pairwise_map]
      exact List.pairwise_of_forall fun _ _ hx => by simp [s] at hx
    · intro x hx y hy hxy
      obtain ⟨x0, -, rfl⟩ := List.mem_map.1 hx
      simp [s] at hxy
    · intro x hx y hy hxy
      rcases List.mem_append.1 hy with hy | hy
      · obtain ⟨y0, -, rfl⟩ := List.mem_map.1 hy
        simp [s] at hxy
      · exact h5.2.2 x hx y (List.mem_append_right _ hy) hxy
  · rw [hnew]
    intro e he
    rcases hmem e he with he | ⟨e0, h0, rfl⟩
    · exact h6 e he
    · exact h6 e0 h0
  · rw [hnew]
    intro e he
    rcases hmem e he with he | ⟨e0, h0, rfl⟩
    · exact h7 e he
    · simp [s]
  · intro hl
    obtain ⟨e, he, hk, hs⟩ := h8 hl
    rw [hnew]
    rw [hsplit] at he
    simp only [List.mem_append, List.mem_map] at he ⊢
    rcases he with he | he | he
    · exact ⟨e, .inl he, hk, hs⟩
    · exact ⟨s e, .inr (.inl ⟨e, he, rfl⟩), hk, rfl⟩
    · exact ⟨e, .inr (.inr he), hk, hs⟩

theorem NoticeLog.Lawful.goBack {l : NoticeLog} (h : l.Lawful) (now : Quad) : (l.goBack now).Lawful := by
  have hform : ∀ e, (NoticeEntry.goBack now l.lostSinceMarker e).number = e.number ∧
      (NoticeEntry.goBack now l.lostSinceMarker e).kind = e.kind ∧
      (NoticeEntry.goBack now l.lostSinceMarker e).subject = e.subject ∧
      (NoticeEntry.goBack now l.lostSinceMarker e).sentStamp = e.sentStamp ∧
      (NoticeEntry.goBack now l.lostSinceMarker e).sendState = (if e.sendState = .sent then .resend else e.sendState) := by
    intro e
    unfold NoticeEntry.goBack
    split
    · next hs =>
      have hs' : e.sendState ≠ .sent := by simpa [NoticeEntry.isSent] using hs
      simp [hs']
    · next hs =>
      have hs' : e.sendState = .sent := by simpa [NoticeEntry.isSent] using hs
      split <;> simp [hs']
  refine h.change (NoticeEntry.goBack now l.lostSinceMarker) rfl rfl (fun e _ => (hform e).1) ?_ ?_ ?_ (fun e _ => (hform e).2.2.1) ?_ ?_ ?_
  · change (l.entries.map _).Pairwise _
    rw [List.pairwise_map]
    refine h.2.1.imp ?_
    intro a b hab
    rw [(hform a).2.2.2.2, (hform b).2.2.2.2]
    revert hab
    cases a.sendState <;> cases b.sendState <;> simp [SendState.rank]
  · intro e _
    rw [(hform e).2.1]
  · intro e _ hn
    rw [(hform e).2.2.2.2] at hn
    split at hn
    · cases hn
    · exact hn
  · intro e he
    rw [(hform e).2.1, (hform e).2.2.1]
    exact h.2.2.2.2.2.1 e he
  · intro e he
    have := h.2.2.2.2.2.2.1 e he
    rw [(hform e).2.2.2.1, (hform e).2.2.2.2, ← this]
    cases e.sendState <;> simp
  · intro hl
    exfalso
    apply hl
    simp only [NoticeLog.goBack]
    by_cases hz : l.lostSinceMarker = 0
    · split
      · rfl
      · exact hz
    · obtain ⟨e, he, hk, hs⟩ := h.2.2.2.2.2.2.2 hz
      rw [if_pos]
      rw [List.any_eq_true]
      exact ⟨e, he, by simp [NoticeEntry.isSent, hk, hs]⟩

/-- An acknowledgement takes a prefix of SENT entries away (R131). -/
theorem ackSplit_eq (n : Half) (l : List NoticeEntry) (r : List NoticeEntry × List NoticeEntry)
    (h : ackSplit n l = some r) : l = r.1 ++ r.2 ∧ ∀ e ∈ r.1, e.sendState = .sent := by
  induction l generalizing r with
  | nil => simp [ackSplit] at h
  | cons e l ih =>
    unfold ackSplit at h
    split at h
    · cases h
    · next hs =>
      have hs' : e.sendState = .sent := by simpa [NoticeEntry.isSent] using hs
      split at h
      · cases h
        exact ⟨rfl, by simpa using hs'⟩
      · obtain ⟨q, hq, rfl⟩ := Option.map_eq_some_iff.1 h
        obtain ⟨h1, h2⟩ := ih q hq
        refine ⟨by rw [h1]; rfl, ?_⟩
        intro x hx
        rcases List.mem_cons.1 hx with rfl | hx
        · exact hs'
        · exact h2 x hx

/-- A suffix of a lawful log is lawful, when it keeps the OVERFLOW entry or no event is held against it. -/
theorem NoticeLog.Lawful.suffix {l : NoticeLog} (h : l.Lawful) (a b : List NoticeEntry) (m : Half)
    (he : l.entries = a ++ b) (hm : m ≠ 0 → ∃ e ∈ b, e.kind = .overflow ∧ e.sendState = .sent) :
    ({ l with entries := b, lostSinceMarker := m } : NoticeLog).Lawful := by
  obtain ⟨h1, h2, h3, h4, h5, h6, h7, -⟩ := h
  unfold NoticeLog.ordinaryCount at h3
  rw [he] at h1 h2 h3 h4 h5 h6 h7
  rw [List.countP_append] at h3 h4
  rw [numberedFrom_append, Bool.and_eq_true] at h1
  refine ⟨?_, (List.pairwise_append.1 h2).2.1, ?_, ?_, (List.pairwise_append.1 h5).2.1,
    fun e hb => h6 e (by simp [hb]), fun e hb => h7 e (by simp [hb]), hm⟩
  · refine Eq.trans (congrArg (fun n => numberedFrom n b) ?_) h1.2
    rw [List.length_append, BitVec.ofNat_add]
    generalize BitVec.ofNat 16 a.length = x
    change l.nextNumber - BitVec.ofNat 16 b.length = _
    generalize BitVec.ofNat 16 b.length = y
    bv_omega
  · unfold NoticeLog.ordinaryCount
    dsimp only
    omega
  · dsimp only
    omega

theorem NoticeLog.Lawful.acknowledge {l l' : NoticeLog} (h : l.Lawful) (now : Quad) (n : Half)
    (ha : l.acknowledge now n = some l') : l'.Lawful := by
  unfold NoticeLog.acknowledge at ha
  obtain ⟨r, hr, rfl⟩ := Option.map_eq_some_iff.1 ha
  obtain ⟨he, hs⟩ := ackSplit_eq n l.entries r hr
  have hone : (∃ e ∈ r.1, e.kind = .overflow) → ∀ e ∈ r.2, e.kind ≠ .overflow := by
    rintro ⟨x, hx, hxk⟩ y hy hyk
    have h4 := h.2.2.2.1
    rw [he, List.countP_append] at h4
    have a1 : 0 < r.1.countP (fun e => decide (e.kind = .overflow)) :=
      List.countP_pos_iff.2 ⟨x, hx, by simp [hxk]⟩
    have a2 : 0 < r.2.countP (fun e => decide (e.kind = .overflow)) :=
      List.countP_pos_iff.2 ⟨y, hy, by simp [hyk]⟩
    omega
  dsimp only
  split
  · next hc =>
    have hex : ∃ e ∈ r.1, e.kind = .overflow := by
      obtain ⟨e, he, hk⟩ := List.any_eq_true.1 hc.1
      exact ⟨e, he, by simpa using hk⟩
    have hkept := h.suffix r.1 r.2 0 he (fun h => absurd rfl h)
    have := hkept.append now .overflow .none l.lostSinceMarker (by simp [NoticeKind.noticeClass])
      (fun h => absurd rfl h) (fun h => absurd rfl h) (fun _ => hone hex)
    exact this
  · next hc =>
    refine h.suffix r.1 r.2 l.lostSinceMarker he ?_
    intro hl
    obtain ⟨e, hm, hk, hse⟩ := h.2.2.2.2.2.2.2 hl
    rw [he] at hm
    rcases List.mem_append.1 hm with hm | hm
    · exfalso
      apply hc
      refine ⟨?_, hl⟩
      rw [List.any_eq_true]
      exact ⟨e, hm, by simp [hk]⟩
    · exact ⟨e, hm, hk, hse⟩

theorem NoticeLog.restarted_lawful (v : Half) : (NoticeLog.restarted v).Lawful := by
  refine ⟨?_, ?_, ?_, ?_, ?_, ?_, ?_, ?_⟩ <;>
    simp [NoticeLog.restarted, numberedFrom, NoticeLog.ordinaryCount, NoticeKind.noticeClass]

end Sys2Proof.Machine
end

