-- ==== Sys2Proof/Laws/LogKept.lean ====
section
/-! SUPPORT. Every operation of the part that raises events keeps the Notice Log's laws. -/

namespace Sys2Proof.Machine

/-- The state's Notice Log is lawful. -/
def State.LogLawful (s : State) : Prop :=
  s.log.Lawful

/-- States with one log are lawful together. -/
theorem State.LogLawful.congr {s t : State} (h : s.LogLawful) (e : t.log = s.log) : t.LogLawful := by
  unfold State.LogLawful at *
  rw [e]
  exact h

theorem State.raise_lawful (s : State) (h : s.LogLawful) (kind : NoticeKind) (x : Subject) (v : Half)
    (hx : x = .none ↔ kind.noticeClass = .system) (hk : kind ≠ .overflow) : (s.raise kind x v).LogLawful :=
  NoticeLog.Lawful.raise (l := s.log) h _ _ kind x v hx hk

theorem State.issued_log (s : State) (i : OutIdx) (w : Option Level) : (s.issued i w).log = s.log := by
  rw [State.issued_eq]
  rfl

theorem State.entryAction_log (s : State) (i : OutIdx) : (s.entryAction i).log = s.log := by
  rw [State.entryAction_eq, State.issued_log]

theorem State.normalCompute_log (s : State) (i : OutIdx) (v : Half) : (s.normalCompute i v).log = s.log := by
  rw [State.normalCompute_eq, State.issued_log]
  rfl

theorem State.refreshOutput_log (s : State) (i : OutIdx) : (s.refreshOutput i).log = s.log := by
  rw [State.refreshOutput_eq]
  rfl

theorem State.enterFallback_lawful (s : State) (h : s.LogLawful) (i : OutIdx) : (s.enterFallback i).LogLawful := by
  rw [State.enterFallback_eq]
  exact NoticeLog.Lawful.raise (l := s.log) h _ _ _ _ _ (by simp [NoticeKind.noticeClass]) (by simp)

theorem State.exitFallback_lawful (s : State) (h : s.LogLawful) (i : OutIdx) (v : Half) :
    (s.exitFallback i v).LogLawful := by
  rw [State.exitFallback_eq]
  exact NoticeLog.Lawful.raise (l := s.log) h _ _ _ _ _ (by simp [NoticeKind.noticeClass]) (by simp)

theorem State.handOver_lawful (s : State) (h : s.LogLawful) (k : Slot) : (s.handOver k).LogLawful := by
  refine foldl_invariant State.LogLawful _ _ (fun s i _ h => ?_) s h
  unfold State.handOverOne
  split
  · exact s.enterFallback_lawful h i
  · exact h

theorem State.handOverFrom_lawful (s : State) (h : s.LogLawful) (k : Slot) (x : ChannelState) :
    (s.handOverFrom k x).LogLawful := by
  unfold State.handOverFrom
  split
  · exact s.handOver_lawful h k
  · exact h

theorem State.outputReading_lawful (s : State) (h : s.LogLawful) (k : Slot) (v : Half) :
    (s.outputReading k v).LogLawful := by
  refine foldl_invariant State.LogLawful _ _ (fun s i _ h => ?_) s h
  unfold State.outputReadingOne
  dsimp only
  split
  · exact h
  · split
    · exact h
    · exact h.congr (s.normalCompute_log i v)
    · exact s.exitFallback_lawful h i v
    · exact h.congr rfl

/-- A channel's notice keeps the laws. -/
theorem State.raiseChannel_lawful (s : State) (h : s.LogLawful) (k : Slot) (kind : NoticeKind) (v : Half)
    (hk : kind.noticeClass ≠ .system) : (s.raiseChannel k kind v).LogLawful :=
  NoticeLog.Lawful.raise (l := s.log) h _ _ _ _ _ (by simp [hk]) (by rintro rfl; exact hk rfl)

theorem State.badReading_lawful (s : State) (h : s.LogLawful) (k : Slot) : (s.badReading k).LogLawful := by
  unfold State.badReading
  dsimp only
  split
  · exact h
  · exact h.congr rfl
  all_goals
    split
    · refine State.handOverFrom_lawful _ ?_ _ _
      refine State.raiseChannel_lawful _ ?_ _ _ _ (by simp [NoticeKind.noticeClass])
      exact h.congr rfl
    · exact h.congr rfl

/-- The notices a judgement raises are BAND notices. -/
theorem ChannelRuntime.judgeInBand_kind (r : ChannelRuntime) (c : ChannelConfig) (v : Half) (k : NoticeKind)
    (h : (r.judgeInBand c v).2 = some k) : k.noticeClass = .band := by
  unfold ChannelRuntime.judgeInBand at h
  split at h
  · dsimp only at h
    split at h <;> simp at h
    subst h; rfl
  · dsimp only at h
    split at h <;> simp at h
    subst h; rfl
  · simp at h
  · simp at h

theorem ChannelRuntime.judgeAlarm_kind (r : ChannelRuntime) (c : ChannelConfig) (v : Half) (k : NoticeKind)
    (h : (r.judgeAlarm c v).2 = some k) : k.noticeClass = .band := by
  unfold ChannelRuntime.judgeAlarm at h
  split at h
  · simp at h
  · dsimp only at h
    split at h <;> simp at h
    subst h; rfl

theorem State.settleChannel_lawful (s : State) (h : s.LogLawful) (k : Slot) (v : Half)
    (r : ChannelRuntime × Option NoticeKind) (hr : ∀ k, r.2 = some k → k.noticeClass = .band) :
    (s.settleChannel k v r).LogLawful := by
  unfold State.settleChannel
  dsimp only
  split
  · exact h.congr rfl
  · next kind hk =>
    refine State.raiseChannel_lawful _ ?_ _ _ _ (by rw [hr kind hk]; simp)
    exact h.congr rfl

theorem State.validReading_lawful (s : State) (h : s.LogLawful) (k : Slot) (v : Half) (q : Quality) :
    (s.validReading k v q).LogLawful := by
  have hr : ∀ r : ChannelRuntime, ((s.setRuntime k r).raiseChannel k .recover v).LogLawful := fun r => by
    refine State.raiseChannel_lawful _ ?_ _ _ _ (by simp [NoticeKind.noticeClass])
    exact h.congr rfl
  unfold State.validReading
  dsimp only
  split
  · exact h
  · exact s.settleChannel_lawful h _ _ _ (fun _ => ChannelRuntime.judgeInBand_kind _ _ _ _)
  · exact State.settleChannel_lawful _ (hr _) _ _ _ (fun _ => ChannelRuntime.judgeInBand_kind _ _ _ _)
  · exact State.settleChannel_lawful _ (hr _) _ _ _ (fun _ => ChannelRuntime.judgeInBand_kind _ _ _ _)
  · exact s.settleChannel_lawful h _ _ _ (fun _ => ChannelRuntime.judgeInBand_kind _ _ _ _)
  · exact s.settleChannel_lawful h _ _ _ (fun _ => ChannelRuntime.judgeAlarm_kind _ _ _ _)
  · exact s.settleChannel_lawful h _ _ _ (fun _ => ChannelRuntime.judgeAlarm_kind _ _ _ _)

theorem State.takeReading_lawful (s : State) (h : s.LogLawful) (k : Slot) (d : Half × Quality) :
    (s.takeReading k d).LogLawful :=
  (s.validReading k d.1 d.2).outputReading_lawful (s.validReading_lawful h k d.1 d.2) k d.1

theorem State.enterStale_lawful (s : State) (h : s.LogLawful) (k : Slot) (x : StaleCause) :
    (s.enterStale k x).LogLawful := by
  unfold State.enterStale
  refine State.handOverFrom_lawful _ ?_ _ _
  refine State.raiseChannel_lawful _ ?_ _ _ _ (by simp [NoticeKind.noticeClass])
  exact h.congr rfl

theorem State.nodeStaleOne_lawful (s : State) (h : s.LogLawful) (k : Slot) : (s.nodeStaleOne k).LogLawful := by
  unfold State.nodeStaleOne
  dsimp only
  split
  · exact s.enterStale_lawful h k _
  · exact h

theorem State.clearChannel_lawful (s : State) (h : s.LogLawful) (k : Slot) : (s.clearChannel k).LogLawful := by
  unfold State.clearChannel
  refine State.handOverFrom_lawful _ ?_ _ _
  exact h.congr rfl

theorem State.acknowledgeBand_lawful (s : State) (h : s.LogLawful) (k : Slot) : (s.acknowledgeBand k).LogLawful := by
  unfold State.acknowledgeBand
  dsimp only
  split
  · refine State.raiseChannel_lawful _ ?_ _ _ _ (by simp [NoticeKind.noticeClass])
    exact h.congr rfl
  · exact h.congr rfl

theorem State.silenceNode_lawful (s : State) (h : s.LogLawful) (a : Addr) : (s.silenceNode a).LogLawful := by
  unfold State.silenceNode
  dsimp only
  refine foldl_invariant State.LogLawful _ _ (fun s k _ h => s.nodeStaleOne_lawful h k) _ ?_
  refine State.raise_lawful _ ?_ _ _ _ (by simp [NoticeKind.noticeClass]) (by simp)
  exact h.congr rfl

theorem State.acceptFrame_lawful (s : State) (h : s.LogLawful) (a : Addr) (seq : Byte) (j : SeqJudgement) :
    (s.acceptFrame a seq j).LogLawful := by
  have hn : ∀ n, seqNotice seq j = some n → n.1.noticeClass = .node := by
    intro n hn
    cases j <;> simp [seqNotice] at hn <;> subst hn <;> rfl
  have hraise : ∀ (t : State) (n : NoticeKind × Half), t.LogLawful → n.1.noticeClass = .node →
      (t.raise n.1 (.node a) n.2).LogLawful := by
    intro t n ht hc
    exact t.raise_lawful ht _ _ _ (by simp [hc]) (by intro hk; rw [hk] at hc; simp [NoticeKind.noticeClass] at hc)
  have hset : ∀ r : NodeRecord, (s.setNode a r).LogLawful := fun r => h.congr rfl
  have hseq : ∀ t : State, t.LogLawful →
      (match seqNotice seq j with
        | some n => t.raise n.1 (.node a) n.2
        | none => t).LogLawful := by
    intro t ht
    cases hnn : seqNotice seq j with
    | none => exact ht
    | some n => exact hraise t n ht (hn n hnn)
  unfold State.acceptFrame
  dsimp only
  split
  · exact hraise _ (.nodeBack, seq.setWidth 16) (hseq _ (hset _)) rfl
  · exact hseq _ (hset _)

theorem State.nodeArrival_lawful (s : State) (h : s.LogLawful) (a : Addr) (x : Bool) (seq : Byte) :
    (s.nodeArrival a x seq).1.LogLawful := by
  unfold State.nodeArrival
  dsimp only
  split
  · exact h.congr rfl
  · exact h.congr rfl
  · exact s.acceptFrame_lawful h a seq .restarted
  · exact s.acceptFrame_lawful h a seq .inOrder
  · exact s.acceptFrame_lawful h a seq (.gap _)

theorem PathState.readings_lawful (src : Addr) (rs : List Reading) (p : PathState) (h : p.state.LogLawful) :
    (rs.foldl (PathState.reading src) p).state.LogLawful := by
  refine foldl_invariant (fun p : PathState => p.state.LogLawful) _ _ (fun p r _ h => ?_) p h
  rcases PathState.reading_state src p r with hs | ⟨k, -, -, hs | ⟨q, hs⟩⟩
  · rw [hs]; exact h
  · rw [hs]; exact p.state.badReading_lawful h k
  · rw [hs]; exact p.state.takeReading_lawful h k _

theorem State.samplePath_lawful (s : State) (h : s.LogLawful) (f : Frame) (rs : List Reading) :
    (s.samplePath f rs).LogLawful := by
  have hp := PathState.readings_lawful f.src rs { state := s, kept := [], changed := false } h
  unfold State.samplePath
  dsimp only
  split
  · exact hp.congr (by simp)
  · split
    · exact hp.congr (by simp)
    · exact hp.congr (by simp)

theorem State.nodeTable_lawful (s : State) (h : s.LogLawful) (f : Frame) (g : State → State)
    (hg : ∀ s : State, s.LogLawful → (g s).LogLawful) : (s.nodeTable f g).LogLawful := by
  unfold State.nodeTable
  dsimp only
  split
  · split
    · exact hg _ (s.nodeArrival_lawful h _ _ _)
    · exact s.nodeArrival_lawful h _ _ _
  · split
    · exact h.congr (by simp)
    · exact h.congr (by simp)

theorem State.ownershipFilter_log (s : State) (f : Frame) (items : List FrameItem) :
    (s.ownershipFilter f items).log = s.log := by
  have hf : ∀ (n : List Nat) (s : State), (n.foldl (fun (s : State) _ => s.count .s .rxOwnedStripped) s).log = s.log := by
    intro n
    induction n with
    | nil => intro s; rfl
    | cons a n ih => intro s; rw [List.foldl_cons, ih]; rfl
  unfold State.ownershipFilter
  dsimp only
  split
  · rw [State.offerForward_log, hf]
  · split
    · rw [State.count_log, hf]
    · rw [State.offerForward_log, hf]

theorem State.acceptRequest_log (s : State) (tag seq opcode : Byte) (params : List Byte) :
    (s.acceptRequest tag seq opcode params).log = s.log := by
  unfold State.acceptRequest
  dsimp only
  split
  · simp
  · split <;> rfl

theorem State.judgeEnd_lawful (s : State) (h : s.LogLawful) (p : Port) (l : List Byte) : (s.judgeEnd p l).LogLawful := by
  unfold State.judgeEnd
  split
  · exact h.congr (by simp)
  · exact h.congr (by simp)
  · unfold State.goodFrame
    dsimp only
    have hc : (s.count p .rxGood).LogLawful := h.congr (by simp)
    split
    · exact h.congr (by simp)
    · generalize directionTable p _ _ _ = r
      cases r with
      | misdirected => exact h.congr (by simp [State.handOff])
      | forward => exact h.congr (by simp [State.handOff])
      | sample =>
        simp only [State.handOff]
        split
        · exact h.congr (by simp)
        · exact State.nodeTable_lawful _ hc _ _ (fun s hs => s.samplePath_lawful hs _ _)
      | status => exact State.nodeTable_lawful _ hc _ _ (fun s hs => by exact hs.congr (by simp))
      | setpoint =>
        simp only [State.handOff]
        split
        · exact h.congr (by simp)
        · exact hc.congr (State.ownershipFilter_log _ _ _)
      | request =>
        simp only [State.handOff]
        split
        · exact hc.congr (State.acceptRequest_log _ _ _ _ _)
        · exact h.congr (by simp)

/-! ## The open tick event -/

theorem State.settle_lawful (s : State) (h : s.LogLawful) : s.settle.LogLawful := by
  have h1 : ∀ s : State, s.LogLawful → s.settleSilent.LogLawful := fun s h =>
    (foldl_invariant State.LogLawful State.silenceNode s.due.silent (fun s a _ h => s.silenceNode_lawful h a) s h).congr rfl
  have h2 : ∀ s : State, s.LogLawful → s.settleStale.LogLawful := fun s h =>
    (foldl_invariant State.LogLawful State.staleByLimit s.due.stale (fun s k _ h => s.enterStale_lawful h k _) s h).congr rfl
  have h3 : ∀ s : State, s.LogLawful → s.settleRefresh.LogLawful := fun s h =>
    (foldl_invariant State.LogLawful State.refreshOutput s.due.refresh (fun s i _ h =>
      h.congr (s.refreshOutput_log i)) s h).congr rfl
  have h4 : ∀ s : State, s.LogLawful → s.settleGoBack.LogLawful := by
    intro s h
    unfold State.settleGoBack
    dsimp only
    split
    · exact NoticeLog.Lawful.goBack (l := s.log) h _
    · exact h.congr rfl
  unfold State.settle
  split
  · exact h
  · exact h4 _ (h3 _ (h2 _ (h1 s h)))

/-! ## Requests -/

theorem State.followSource_log (s : State) (i : OutIdx) : (s.followSource i).log = s.log :=
  State.normalCompute_log _ i _

theorem State.judgeAfresh_lawful (s : State) (h : s.LogLawful) (i : OutIdx) : (s.judgeAfresh i).LogLawful := by
  unfold State.judgeAfresh
  split
  · exact h.congr (s.followSource_log i)
  · exact s.enterFallback_lawful h i

theorem State.rewriteSameTarget_lawful (s : State) (h : s.LogLawful) (i : OutIdx) :
    (s.rewriteSameTarget i).LogLawful := by
  unfold State.rewriteSameTarget
  split
  · exact h
  · exact h
  · split
    · exact h.congr (s.normalCompute_log i _)
    · exact s.enterFallback_lawful h i
  · split
    · exact s.exitFallback_lawful h i _
    · exact h.congr (s.entryAction_log i)

theorem State.rewriteNewTarget_lawful (s : State) (h : s.LogLawful) (i : OutIdx) :
    (s.rewriteNewTarget i).LogLawful := by
  have h' : ∀ r, ((s.dropItem i).setOutputRuntime i r).LogLawful := fun r => h.congr rfl
  unfold State.rewriteNewTarget
  dsimp only
  split
  · exact (h' _).congr (State.followSource_log _ i)
  · split
    · exact (h' _).congr (State.entryAction_log _ i)
    · exact State.enterFallback_lawful _ (h' _) i

theorem State.rewriteOutput_lawful (s : State) (h : s.LogLawful) (i : OutIdx) (c : OutputConfig) :
    (s.rewriteOutput i c).LogLawful := by
  have h' : ∀ r, (s.setOutput i r).LogLawful := fun r => h.congr rfl
  unfold State.rewriteOutput
  dsimp only
  split
  · exact h.congr rfl
  · split
    · exact State.judgeAfresh_lawful _ (h' _) i
    · split
      · exact State.rewriteSameTarget_lawful _ (h' _) i
      · exact State.rewriteNewTarget_lawful _ (h' _) i

theorem State.rewriteChannel_lawful (s : State) (h : s.LogLawful) (k : Slot) (c : ChannelConfig) :
    (s.rewriteChannel k c).LogLawful := by
  have h' : ∀ r, (s.setChannel k r).LogLawful := fun r => h.congr rfl
  unfold State.rewriteChannel
  dsimp only
  split
  · exact h' _
  · exact State.clearChannel_lawful _ (h' _) k

theorem State.tableWritten_lawful (s : State) (h : s.LogLawful) : s.tableWritten.okay.state.LogLawful :=
  h.congr rfl

/-- Every request's owning rule keeps the log's laws. -/
theorem requestOf_lawful (c : Instr) (kind : RequestKind) (body : State → List Byte → Answer)
    (hc : requestOf c = some (kind, body)) (s : State) (h : s.LogLawful) (p : List Byte) :
    (body s p).state.LogLawful := by
  have hb : ∀ b, ({ s with bindings := b } : State).LogLawful := fun _ => h.congr rfl
  cases c <;> simp only [requestOf, Option.some.injEq, Prod.mk.injEq, reduceCtorEq] at hc <;>
    obtain ⟨rfl, rfl⟩ := hc
  · exact h.congr rfl
  · exact h.congr rfl
  · unfold State.doWriteSystem
    split
    · exact h.congr rfl
    · split <;> exact h.congr rfl
  · unfold State.doReadStats
    split
    · exact h.congr rfl
    · split <;> exact h.congr rfl
  · unfold State.doRestart
    split <;> exact h.congr rfl
  · unfold State.doEnrolNode
    split
    · exact h.congr rfl
    · split
      · exact h.congr rfl
      · split <;> exact h.congr rfl
  · unfold State.doRetireNode
    split
    · exact h.congr rfl
    · split
      · exact h.congr rfl
      · split
        · exact h.congr rfl
        · split <;> exact h.congr rfl
  · unfold State.doReadNode
    split <;> exact h.congr rfl
  · unfold State.doBind
    split
    · split
      · exact h.congr rfl
      · split
        · exact h.congr rfl
        · split
          · exact h.congr rfl
          · exact State.tableWritten_lawful _ (State.clearChannel_lawful _ (hb _) _)
    · exact h.congr rfl
  · unfold State.doUnbind
    split
    · exact h.congr rfl
    · split
      · exact h.congr rfl
      · exact State.tableWritten_lawful _ (State.clearChannel_lawful _ (hb _) _)
  · unfold State.doWriteChannel
    split
    · exact h.congr rfl
    · split
      · exact h.congr rfl
      · exact State.tableWritten_lawful _ (s.rewriteChannel_lawful h _ _)
  · unfold State.doReadChannel
    split <;> exact h.congr rfl
  · unfold State.doAckBand
    split
    · exact h.congr rfl
    · split
      · exact s.acknowledgeBand_lawful h _
      · exact h.congr rfl
  · unfold State.doWriteOutput
    split
    · exact h.congr rfl
    · split
      · exact h.congr rfl
      · split
        · exact h.congr rfl
        · exact State.tableWritten_lawful _ (s.rewriteOutput_lawful h _ _)
  · unfold State.doReadOutput
    split <;> exact h.congr rfl
  · unfold State.doForceOutput
    split
    · exact h.congr rfl
    · split
      · exact h.congr rfl
      · split <;> exact h.congr rfl
  · unfold State.doReleaseOutput
    split
    · exact h.congr rfl
    · split
      · exact s.judgeAfresh_lawful h _
      · exact h.congr rfl
  · unfold State.doAckNotices
    split
    · exact h.congr rfl
    · next l hl => exact NoticeLog.Lawful.acknowledge (l := s.log) h _ _ hl
  · exact h.congr rfl
  · unfold State.doReadCapture
    split
    · exact h.congr rfl
    · split
      · exact h.congr rfl
      · split <;> exact h.congr rfl
  · unfold State.doCommit
    split <;> exact h.congr rfl
  · exact h.congr rfl

end Sys2Proof.Machine
end

