-- ==== Sys2Proof/Laws/ResetEntries.lean ====
section
/-! SUPPORT. The tables, outputs and setpoint set after a reset of the blocks (R117, R171, R197). -/

namespace Sys2Proof.Machine

/-- States with the same configuration have the same live image. -/
theorem State.liveImage_congr (s t : State) (hs : t.system = s.system) (hb : t.bindings = s.bindings) (hn : tableMap
    (·.config) t.nodes = tableMap (·.config) s.nodes)
  (hc : ∀ k, (t.channel k).config = (s.channel k).config) (ho : ∀ k, (t.output k).config =
      (s.output k).config) : t.liveImage = s.liveImage := by
  unfold State.liveImage
  rw [hs, hb, hn]
  congr 1
  · exact tableMap_congr _ _ _ fun i hi => hc ⟨i, hi⟩
  · exact tableMap_congr _ _ _ fun i hi => ho ⟨i, hi⟩

/-- A reset of the blocks keeps the live configuration (R171). -/
theorem State.restartBlocks_liveImage (s : State) (v) : (s.restartBlocks v).liveImage = s.liveImage := by
  apply State.liveImage_congr
  · exact s.restartBlocks_system v
  · exact s.restartBlocks_bindings v
  · rw [State.restartBlocks_nodes, tableMap_tableMap]
  · intro k; rw [State.restartBlocks_channel]; rfl
  · exact s.restartBlocks_output_config v

/-- A map after a zip. -/
theorem tableMap_tableZip {α β γ δ : Type} {n} (g : γ → δ) (f : α → β → γ) (v : Vector α n)
    (w : Vector β n) : tableMap g (tableZip f v w) = tableZip (fun a b => g (f a b)) v w := by
  apply Vector.ext; intro i hi; simp

/-- A zip that keeps its left table. -/
theorem tableZip_left {α β : Type} {n} (v : Vector α n) (w : Vector β n) : tableZip (fun a _ => a) v w = v := by
  apply Vector.ext; intro i hi; simp

/-- The live configuration after a load is the image loaded (R188). -/
theorem State.loadImage_liveImage (s : State) (img) : (s.loadImage img).liveImage = img := by
  unfold State.liveImage State.loadImage
  simp only [tableMap_tableZip, tableZip_left]

/-- The entry actions at a reset: each enabled output issues by its policy, the set takes the items in order (R117). -/
theorem State.foldl_resetEntry : ∀ (l : List OutIdx) (s : State), l.Nodup →
   (∀ i ∈ l, (s.output i).runtime = .cleared (if (s.output i).config.enabled then .fallback else .off)) →
   (∀ x ∈ s.setpoints, x.output ∉ l) →
   (∀ i, (l.foldl State.resetEntry s).output i = if i ∈ l ∧ (s.output i).config.enabled = true then
       (s.output i).withIssue
      (match (s.output i).config.fallback with
                | .hold => none
                | .safe => some (s.output i).config.safe
                | .ramp => some (s.output i).config.safe) else s.output i) ∧
   (l.foldl State.resetEntry s).setpoints = s.setpoints ++ (l.filter fun i =>
        (s.output i).config.enabled && decide ((s.output i).config.fallback ≠ .hold)).map
      (fun i => { output := i, node := (s.output i).config.targetNode, index := (s.output i).config.targetIndex,
                  value := (s.output i).config.safe }) := by
  intro l
  induction l with
  | nil => intro s _ _ _; simp
  | cons a l ih =>
    intro s hn hr hp
    rw [List.nodup_cons] at hn
    have hra := hr a (by simp)
    have hne : ∀ j, j ≠ a → (s.resetEntry a).output j = s.output j := by
      intro j hj
      unfold State.resetEntry
      split
      · rw [State.entryAction_eq, State.issued_eq]
        show (s.setOutput a _).output j = _
        rw [State.output_setOutput, if_neg (Ne.symm hj)]
      · rfl
    have hs : (s.resetEntry a).output a = if (s.output a).config.enabled = true then (s.output a).withIssue
      (match (s.output a).config.fallback with
                | .hold => none
                | .safe => some (s.output a).config.safe
                | .ramp => some (s.output a).config.safe) else s.output a := by
      unfold State.resetEntry
      split
      · rw [State.entryAction_eq, State.issued_eq]
        show (s.setOutput a _).output a = _
        rw [State.output_setOutput, if_pos rfl]
        congr 1
        unfold OutputRecord.entryIssue
        rw [hra]
        cases (s.output a).config.fallback <;> rfl
      · rfl
    have hany : (s.setpoints.any fun i => decide (i.output = a)) = false := by
      rw [List.any_eq_false]
      intro x hx; have := hp x hx; simp at this; simp [this.1]
    have hset : (s.resetEntry a).setpoints = s.setpoints ++ (if ((s.output a).config.enabled && decide
        ((s.output a).config.fallback ≠ .hold)) = true then
        [({ output := a, node := (s.output a).config.targetNode, index := (s.output a).config.targetIndex,
            value := (s.output a).config.safe } : SetpointItem)] else []) := by
      unfold State.resetEntry
      split
      · next he =>
        rw [State.entryAction_eq, State.issued_eq]
        show s.withItem a _ = _
        unfold OutputRecord.entryIssue
        rw [hra]
        cases hf : (s.output a).config.fallback with
        | hold => simp [State.withItem]
        | safe => simp [State.withItem, placeItem, hany, he]
        | ramp => simp [State.withItem, placeItem, hany, he, OutputRuntime.cleared, rampStep]
      · next he => simp [he]
    have hc : ∀ j, ((s.resetEntry a).output j).config = (s.output j).config := (s.resetEntry_outputsOnly a).2
    obtain ⟨i1, i2⟩ := ih (s.resetEntry a) hn.2 (by
      intro i hi
      have : i ≠ a := by rintro rfl; exact hn.1 hi
      rw [hne i this]; exact hr i (by simp [hi])) (by
      intro x hx
      rw [hset, List.mem_append] at hx
      rcases hx with hx | hx
      · have := hp x hx; simp at this; exact this.2
      · split at hx
        · simp at hx; subst hx; exact hn.1
        · simp at hx)
    refine ⟨?_, ?_⟩
    · intro i
      rw [List.foldl_cons, i1]
      by_cases e : i = a
      · subst e; simp only [hn.1, false_and, if_false, hs, List.mem_cons, true_or, true_and]
      · rw [hne i e]; simp [e]
    · rw [List.foldl_cons, i2, hset, List.append_assoc]
      congr 1
      simp only [hc]
      rw [List.filter_cons]
      split <;> simp

/-- Every output after a reset of the blocks (R117). -/
theorem State.restartBlocks_output_runtime (s : State) (v) (i : OutIdx) : ((s.restartBlocks v).output i).runtime =
        if (s.output i).config.enabled = true then
          { state := .fallback, target := none, forced := none, refreshCount := 0,
            issued :=
              match (s.output i).config.fallback with
              | .hold => none
              | .safe => some (s.output i).config.safe
              | .ramp => some (s.output i).config.safe }
        else { state := .off, issued := none, target := none, forced := none, refreshCount := 0 } := by
  have hb : ∀ i, (s.restartBase v).output i = (s.output i).atReset := by
    intro i; simp [State.restartBase, State.output]
  have := (State.foldl_resetEntry allOutputs (s.restartBase v) allOutputs_nodup (by intro i _; rw [hb]; rfl)
      (by intro x hx; cases hx)).1 i
  rw [State.restartBlocks_eq, this, hb]
  simp only [mem_allOutputs, true_and, OutputRecord.atReset]
  by_cases he : (s.output i).config.enabled = true
  · simp only [he, if_true]
    cases (s.output i).config.fallback <;> rfl
  · simp only [he, if_false]; rfl

/-- The setpoint set after a reset of the blocks (R117). -/
theorem State.restartBlocks_setpoints (s : State) (v) : (s.restartBlocks v).setpoints = (allOutputs.filter fun i =>
        (s.output i).config.enabled && decide ((s.output i).config.fallback ≠ .hold)).map
      (fun i => { output := i, node := (s.output i).config.targetNode, index := (s.output i).config.targetIndex,
                  value := (s.output i).config.safe }) := by
  have hb : ∀ i, (s.restartBase v).output i = (s.output i).atReset := by
    intro i; simp [State.restartBase, State.output]
  have := (State.foldl_resetEntry allOutputs (s.restartBase v) allOutputs_nodup (by intro i _; rw [hb]; rfl)
      (by intro x hx; cases hx)).2
  rw [State.restartBlocks_eq, this]
  simp only [hb]
  rfl

end Sys2Proof.Machine
end

