-- ==== Sys2Proof/Laws/Store.lean ====
section
/-! SUPPORT. The banks of the Image Store: what a write of one leaves in the other, when a bank is valid,
and what the two ends of a commit do to the store. -/

namespace Sys2Proof.Machine

/-- A bank reads as it was written, the other as before. -/
theorem ImageStore.bank_setBank (st : ImageStore) (id id' b) : (st.setBank id b).bank id' = if id' = id then
    b else st.bank id' := by
  cases id <;> cases id' <;> rfl

/-- A bank whose integrity word is written over what it holds is valid (R184, R192). -/
theorem Bank.valid_written (b : Bank) : ({ b with integrity := integrityWord b.generation b.image } : Bank).valid =
    true := by
        unfold Bank.valid integrityWord
        simp only [Bool.and_eq_true, decide_eq_true_eq]
        generalize checkWord _ = x
        have q1 : ((x ++ ~~~ x : BitVec (16+16)).extractLsb' 0 16) = ~~~ x := by
          ext i hi
          rw [BitVec.getElem_extractLsb', BitVec.getLsbD_append]
          simp [hi]
        have q2 : ((x ++ ~~~ x : BitVec (16+16)).extractLsb' 16 16) = x := by
          ext i hi
          rw [BitVec.getElem_extractLsb', BitVec.getLsbD_append]
          simp [hi]
        constructor
        · exact q1.trans (congrArg _ q2.symm)
        · exact q2

/-- A bank with an erased integrity word is not valid (R184, R193). -/
theorem Bank.invalid_erasedWord (b : Bank) : ({ b with integrity := 0xFFFFFFFF } : Bank).valid = false := by
  unfold Bank.valid
  have h : decide ((0xFFFFFFFF : Quad).extractLsb' 0 16 = ~~~ ((0xFFFFFFFF : Quad).extractLsb' 16 16)) = false :=
      by decide +kernel
  dsimp only
  rw [h, Bool.false_and]

/-- The banks after a success (R192). -/
theorem State.commitSucceeds_bank (s : State) (j : CommitJob) (id) : (s.commitSucceeds j).store.bank id =
    (s.store.setBank j.target { s.store.bank j.target with
      integrity := integrityWord (s.store.bank j.target).generation (s.store.bank j.target).image }).bank id := by
  unfold State.commitSucceeds
  dsimp only [State.raise]
  generalize integrityWord _ _ = w
  cases id <;> rfl

/-- A success changes the store and the log only. -/
theorem State.commitSucceeds_only (s : State) (j : CommitJob) : (s.commitSucceeds j) =
    { s with store := (s.commitSucceeds j).store, log := (s.commitSucceeds j).log } := rfl

end Sys2Proof.Machine
end

