-- ==== Sys2Proof/Laws/TickSteps.lean ====
section
/-! SUPPORT. The commands of an open tick event against its end: what one of them carries out, settle no longer does, and
the end reached is the same (log 3). -/

namespace Sys2Proof.Machine

/-! ## The work of a tick event does not look at what is due -/

theorem State.enterFallback_due (s : State) (d : DueWork) (i : OutIdx) :
    ({ s with due := d } : State).enterFallback i = { s.enterFallback i with due := d } := by
  rw [State.enterFallback_eq, State.enterFallback_eq]; rfl

theorem State.refreshOutput_due (s : State) (d : DueWork) (i : OutIdx) :
    ({ s with due := d } : State).refreshOutput i = { s.refreshOutput i with due := d } := by
  rw [State.refreshOutput_eq, State.refreshOutput_eq]; rfl

/-- A fold of steps that do not look at what is due. -/
theorem foldl_due {α : Type} (f : State → α → State)
    (hf : ∀ (s : State) d a, f { s with due := d } a = { f s a with due := d }) :
    ∀ (l : List α) (s : State) d, l.foldl f { s with due := d } = { l.foldl f s with due := d } := by
  intro l
  induction l with
  | nil => intro s d; rfl
  | cons a l ih => intro s d; rw [List.foldl_cons, hf, ih, List.foldl_cons]

theorem State.handOverOne_due (k : Slot) (s : State) (d : DueWork) (i : OutIdx) :
    State.handOverOne k { s with due := d } i = { State.handOverOne k s i with due := d } := by
  have e : ({ s with due := d } : State).output i = s.output i := rfl
  unfold State.handOverOne
  rw [e]
  split
  · exact s.enterFallback_due d i
  · rfl

theorem State.handOverFrom_due (s : State) (d : DueWork) (k : Slot) (st : ChannelState) :
    ({ s with due := d } : State).handOverFrom k st = { s.handOverFrom k st with due := d } := by
  unfold State.handOverFrom
  split
  · exact foldl_due _ (State.handOverOne_due k) allOutputs s d
  · rfl

theorem State.enterStale_due (s : State) (d : DueWork) (k : Slot) (c : StaleCause) :
    ({ s with due := d } : State).enterStale k c = { s.enterStale k c with due := d } := by
  unfold State.enterStale
  exact State.handOverFrom_due ((s.setRuntime k ((s.channel k).runtime.staled c)).raiseChannel k .stale (slotValue k)) d k
    (s.channel k).runtime.state

theorem State.nodeStaleOne_due (s : State) (d : DueWork) (k : Slot) :
    ({ s with due := d } : State).nodeStaleOne k = { s.nodeStaleOne k with due := d } := by
  have e : ({ s with due := d } : State).channel k = s.channel k := rfl
  unfold State.nodeStaleOne
  dsimp only
  rw [e]
  split
  · exact s.enterStale_due d k .node
  · rfl

theorem State.silenceNode_due (s : State) (d : DueWork) (a : Addr) :
    ({ s with due := d } : State).silenceNode a = { s.silenceNode a with due := d } := by
  unfold State.silenceNode
  exact foldl_due _ State.nodeStaleOne_due (s.slotsOf a)
    ((s.setNode a { s.node a with runtime := { (s.node a).runtime with state := .silent } }).raise .nodeSilent (.node a)
      (s.node a).config.silenceLimit) d

/-- Such a step leaves what is due as it was. -/
theorem due_of_step {α : Type} (f : State → α → State)
    (hf : ∀ (s : State) d a, f { s with due := d } a = { f s a with due := d }) (s : State) (a : α) :
    (f s a).due = s.due := by
  have := congrArg State.due (hf s s.due a)
  exact this

/-! ## Carrying out what is due, one at a time -/

theorem State.settle_parts (s : State) :
    s.settle = s.settleSilent.settleStale.settleRefresh.settleGoBack := by
  unfold State.settle
  split
  · next h =>
    unfold State.settleSilent State.settleStale State.settleRefresh State.settleGoBack
    obtain ⟨⟩ := s
    simp only at h
    subst h
    rfl
  · rfl

/-- The work of one kind carried out: the first of it, and then the rest, is all of it. -/
theorem settlePart_next {α : Type} (f : State → α → State)
    (hf : ∀ (s : State) d a, f { s with due := d } a = { f s a with due := d }) (put : DueWork → List α → DueWork)
    (hp : ∀ d l l', put (put d l) l' = put d l') (s : State) (a : α) (rest : List α) :
    (let s' := rest.foldl f { f s a with due := put s.due rest }
     { s' with due := put s'.due [] }) =
    (let s' := (a :: rest).foldl f s
     { s' with due := put s'.due [] }) := by
  have hfold : ∀ (l : List α) (s : State), (l.foldl f s).due = s.due := by
    intro l
    induction l with
    | nil => intro s; rfl
    | cons b l ih => intro s; rw [List.foldl_cons, ih, due_of_step f hf]
  dsimp only
  rw [foldl_due f hf, List.foldl_cons, hfold, hp, due_of_step f hf]

/-- NODE_SILENT with work of its kind due leaves the end of the tick event as it was (R28). -/
theorem State.settle_nextSilent (s : State) (h : s.due.silent ≠ []) : s.nextSilent.settle = s.settle := by
  rw [State.settle_parts, s.settle_parts]
  congr 3
  unfold State.nextSilent
  cases hs : s.due.silent with
  | nil => exact absurd hs h
  | cons a rest =>
    have := settlePart_next State.silenceNode State.silenceNode_due (fun d l => { d with silent := l })
      (fun _ _ _ => rfl) s a rest
    unfold State.settleSilent
    rw [hs]
    exact this

theorem State.settleSilent_none (s : State) (h : s.due.silent = []) : s.settleSilent = s := by
  unfold State.settleSilent
  rw [h]
  show ({ s with due := { s.due with silent := [] } } : State) = s
  rw [← h]

theorem State.settleStale_none (s : State) (h : s.due.stale = []) : s.settleStale = s := by
  unfold State.settleStale
  rw [h]
  show ({ s with due := { s.due with stale := [] } } : State) = s
  rw [← h]

theorem State.settleRefresh_none (s : State) (h : s.due.refresh = []) : s.settleRefresh = s := by
  unfold State.settleRefresh
  rw [h]
  show ({ s with due := { s.due with refresh := [] } } : State) = s
  rw [← h]

/-- CHANNEL_STALE with work of its kind due leaves the end of the tick event as it was (R79). -/
theorem State.settle_nextStale (s : State) (h0 : s.due.silent = []) (h : s.due.stale ≠ []) :
    s.nextStale.settle = s.settle := by
  cases hs : s.due.stale with
  | nil => exact absurd hs h
  | cons k rest =>
    have hstep : ∀ (s : State) d k, ({ s with due := d } : State).staleByLimit k = { s.staleByLimit k with due := d } :=
      fun s d k => s.enterStale_due d k .channel
    have := settlePart_next State.staleByLimit hstep (fun d l => { d with stale := l }) (fun _ _ _ => rfl) s k rest
    have e : s.nextStale = { s.staleByLimit k with due := { s.due with stale := rest } } := by
      unfold State.nextStale; rw [hs]
    rw [e, State.settle_parts, s.settle_parts, s.settleSilent_none h0,
      State.settleSilent_none { s.staleByLimit k with due := { s.due with stale := rest } } h0]
    congr 2
    unfold State.settleStale
    rw [hs]
    exact this

/-- REFRESH with work of its kind due leaves the end of the tick event as it was (R100). -/
theorem State.settle_nextRefresh (s : State) (h0 : s.due.silent = []) (h1 : s.due.stale = []) (h : s.due.refresh ≠ []) :
    s.nextRefresh.settle = s.settle := by
  cases hs : s.due.refresh with
  | nil => exact absurd hs h
  | cons i rest =>
    have := settlePart_next State.refreshOutput State.refreshOutput_due (fun d l => { d with refresh := l })
      (fun _ _ _ => rfl) s i rest
    have e : s.nextRefresh = { s.refreshOutput i with due := { s.due with refresh := rest } } := by
      unfold State.nextRefresh; rw [hs]
    rw [e, State.settle_parts, s.settle_parts, s.settleSilent_none h0, s.settleStale_none h1,
      State.settleSilent_none { s.refreshOutput i with due := { s.due with refresh := rest } } h0,
      State.settleStale_none { s.refreshOutput i with due := { s.due with refresh := rest } } h1]
    congr 1
    unfold State.settleRefresh
    rw [hs]
    exact this

/-- GO_BACK found due leaves the end of the tick event as it was (R134). -/
theorem State.settle_takeGoBack (s : State) (h0 : s.due.silent = []) (h1 : s.due.stale = []) (h2 : s.due.refresh = [])
    (h : s.due.goBack = true) : s.takeGoBack.settle = s.settle := by
  have e : s.takeGoBack = s.settleGoBack := by unfold State.takeGoBack; rw [if_pos h]
  have es : s.settle = s.settleGoBack := by
    rw [s.settle_parts, s.settleSilent_none h0, s.settleStale_none h1, s.settleRefresh_none h2]
  have hn : s.settleGoBack.due = .none := by rw [← es]; exact s.settle_due
  rw [e, es, State.settle_idle _ hn]

end Sys2Proof.Machine
end

