-- ==== Sys2Proof/Tests/Slice0.lean ====
section
/-! SUPPORT. Tests: the manual's own worked values, and for every statement with hypotheses a state and operands that meet
them, at the boundaries of each clause. Well-formedness has no check to test: every command is well formed, because an
operand's type holds exactly the values the part can be given (Sys2Proof/WellFormed.lean). -/

namespace Sys2Proof.Machine.Tests

/-! ## Small states -/

/-- A port that has assembled these bytes. -/
def assembled (s : State) (p : Port) (l : List Byte) : State :=
  s.setPort p { s.port p with assembly := some l }

/-- An entry that waits for its execution. -/
def entryOf (kind : RequestKind) (p : List Byte) : RequestEntry :=
  { tag := 1, seq := 2, opcode := kind.opcode, params := p, state := .waiting, response := none }

/-- A state whose one entry waits for its execution. -/
def asked (s : State) (kind : RequestKind) (p : List Byte) : State :=
  { s with queue := { s.queue with entries := [entryOf kind p] } }

/-- A state asked a request executes it. -/
theorem asked_executes (s : State) (h : s.Ready) (hr : s.queue.restartPending = false) (kind : RequestKind)
    (p : List Byte) : (asked s kind p).Executes (entryOf kind p) kind p := by
  refine ⟨h, ?_, rfl, rfl⟩
  unfold State.nextToExecute
  rw [if_neg (by simp [asked, hr])]
  rfl

theorem reset_ready : State.reset.Ready :=
  ⟨rfl, rfl⟩

/-- The reset state asked a request executes it. -/
theorem reset_executes (kind : RequestKind) (p : List Byte) :
    (asked State.reset kind p).Executes (entryOf kind p) kind p :=
  asked_executes _ reset_ready rfl kind p

/-- An enrolled node, LIVE. -/
def withNode (s : State) (a : Addr) (policy : SeqPolicy) (last : Option Byte) : State :=
  s.setNode a { config := { enrolled := true, silenceLimit := 3, seqPolicy := policy }
                runtime := { NodeRuntime.clear with state := .live, lastSeq := last } }

/-- The factory channel, enabled. -/
def channelOn : ChannelConfig :=
  { ChannelConfig.factory with enabled := true }

/-- A channel in a state with a value. -/
def channelIn (st : ChannelState) (v : Half) : ChannelRuntime :=
  { ChannelRuntime.clear true with state := st, value := v, valueValid := st.isValid }

/-- Node 7 enrolled, its local channel 0 bound to slot 3, which holds this configuration and runtime. -/
def withChannel (c : ChannelConfig) (r : ChannelRuntime) : State :=
  { (withNode State.reset 7 .unchecked none).setChannel 3 { config := c, runtime := r } with
    bindings := [{ node := 7, channel := 0, slot := 3 }] }

/-- Slot 3 bound, enabled and IDLE. -/
def boundIdle : State :=
  withChannel channelOn (channelIn .idle 0)

/-- A LATCHING channel with a release count of 3. -/
def latching : ChannelConfig :=
  { channelOn with mode := .latching, releaseCount := 3 }

/-- A channel with the band of section 11.1. -/
def banded : ChannelConfig :=
  { latching with lowTrip := 100, lowClear := 200, highClear := 700, highTrip := 800, assertCount := 2 }

/-- The reset state with a command waiting. -/
def ticking : State :=
  { State.reset with pending := [.tick] }

/-- An enabled output toward (1, 0) fed by slot 3. -/
def outputOn : OutputConfig :=
  { OutputConfig.factory 0 with enabled := true, source := 3, slew := 300, deadband := 20 }

/-- The same output toward (2, 0). -/
def outputMoved : OutputConfig :=
  { outputOn with targetNode := 2 }

/-- Slot 3 in a state, and output 0 following it in a state. -/
def withOutput (c : ChannelConfig) (r : ChannelRuntime) (st : OutputState) (issued : Option Level) : State :=
  (withChannel c r).setOutput 0
    { config := outputOn, runtime := { OutputRuntime.cleared st with issued := issued, target := issued } }

/-- Node 7's local channel 0 at slot 3, whose readings are stripped, its local channel 1 at slot 5, whose readings are
rewritten. -/
def mixed : State :=
  { (withChannel { channelOn with forward := .strip } (channelIn .idle 0)).setChannel 5
      { config := { channelOn with forward := .conditioned }, runtime := channelIn .idle 0 } with
    bindings := [{ node := 7, channel := 0, slot := 3 }, { node := 7, channel := 1, slot := 5 }] }

/-- A frame with a payload, flags clear, seq 10. -/
def frameOf (dst src kind : Byte) (payload : List Byte) : List Byte :=
  buildFrame dst src kind 0 10 payload

/-- The other port's forward queue of port p holding n frames. -/
def withQueue (s : State) (p : Port) (n : Nat) : State :=
  s.setPort (otherPort p) { s.port (otherPort p) with forwardQueue := List.replicate n [] }

/-- The reset state under an unenrolled-source policy, n frames in the S forward queue. -/
def passing (policy : UnenrolledPolicy) (n : Nat) : State :=
  withQueue { State.reset with system := { SystemRecord.factory with policy := policy } } .f n

/-- A record that has seen a sequence number. -/
def lastSeen (last : Byte) : NodeRecord :=
  { NodeRecord.empty with runtime := { NodeRuntime.clear with lastSeq := some last } }

/-- Output 0 owns (1, 0). -/
def owning : State :=
  withOutput channelOn (channelIn .inBand 5) .normal (some 1)

/-- A bank that holds the factory image of a generation, its integrity word written. -/
def bankOf (generation : Half) : Bank :=
  { generation := generation, integrity := integrityWord generation (.intact .factory), image := .intact .factory }

theorem bankOf_valid (g : Half) : (bankOf g).valid = true :=
  Bank.valid_written { generation := g, integrity := 0, image := .intact .factory }

theorem erased_invalid : Bank.erased.valid = false :=
  Bank.invalid_erasedWord .erased

/-- A commit of the factory image to bank B in a phase. -/
def jobIn (ph : CommitPhase) : CommitJob :=
  { phase := ph, target := .b, generation := 8, copy := .factory, writtenSinceStart := true }

/-- The reset state with that commit in flight, bank B holding its generation and copy. -/
def committing (ph : CommitPhase) : State :=
  { State.reset with store := { State.reset.store with commit := some (jobIn ph), bankB := bankOf 8 } }

/-- A notice entry. -/
def noticeOf (number : Half) (kind : NoticeKind) (subject : Subject) (st : SendState) : NoticeEntry :=
  { number := number, kind := kind, subject := subject, value := 1, stamp := 0, coalesceCount := 0, sendState := st,
    sentStamp := if st = .new then none else some 0 }

/-- The reset state with these entries in its log. -/
def withLog (es : List NoticeEntry) (lost : Half) : State :=
  { State.reset with log := { entries := es, nextNumber := BitVec.ofNat 16 es.length, lostSinceMarker := lost } }

/-- A response. -/
def responseOf (opcode : Byte) : Response :=
  { tag := 1, opcode := opcode, status := .ok, repeated := false, lost := 0,
    summary := { exceptional := 0, fallback := 0, occupancy := 0 }, results := [] }

/-- The entry of an answered request. -/
def answered (kind : RequestKind) (st : EntryState) : RequestEntry :=
  { entryOf kind [] with state := st, response := some (responseOf kind.opcode) }

/-- The response of a request in flight on the S-port. -/
def inFlight (kind : RequestKind) (restart : Bool) : State :=
  { State.reset with
    portS := { State.reset.portS with transmitter := some { source := .response, frame := [] } }
    queue := { State.reset.queue with entries := [answered kind .sending], restartPending := restart } }

/-! ## Values the manual works out -/

/-- A declaration the compiler does not defer: it waits here until every theorem above is checked, so that few kernel
evaluations stand open at once. It says nothing. -/
structure CheckedAbove1 where
  mark : Fin 1

theorem test_checkWord : checkWord [49, 50, 51, 52, 53, 54, 55, 56, 57] = 10673 := by decide +kernel

/-- The table of R48. -/
theorem test_conditioning :
    ([(1000, 0, 4096), (5, 0, 6000), (-5, 0, 6000), (30000, 5000, 4096), (-32768, -32768, 100), (12345, -200, 0)].map
      fun (x : Int × Int × Nat) =>
        let r := ({ ChannelConfig.factory with offset := BitVec.ofInt 16 x.2.1, gain := BitVec.ofNat 13 x.2.2 }).condition
          (BitVec.ofInt 16 x.1) .good
        (r.1.toInt, r.2)) =
      [(1000, .good), (7, .good), (-7, .good), (32767, .suspect), (-1600, .good), (0, .good)] := by decide +kernel

/-- The table of R94. -/
theorem test_curve :
    ([-10, 250, 1000, 1500, 2500].map fun v : Int =>
        (curve [⟨0, 0⟩, ⟨1000, 4000⟩, ⟨2000, 4095⟩] (BitVec.ofInt 16 v)).toNat) = [0, 1000, 4000, 4047, 4095] ∧
      curve [⟨0, 100⟩, ⟨7, 0⟩] 3 = 58 := by decide +kernel

/-- Section 2.9: the judgement of sequence numbers around last_seq. -/
theorem test_sequence :
    let r (last : Byte) : NodeRecord := { config := { NodeConfig.empty with enrolled := true },
                                          runtime := { NodeRuntime.clear with lastSeq := some last } }
    [(r 250).judgeSeq false 251, (r 251).judgeSeq false 251, (r 251).judgeSeq false 254, (r 254).judgeSeq false 200,
      (r 255).judgeSeq false 4, (r 4).judgeSeq true 0] = [.inOrder, .duplicate, .gap 2, .replay, .gap 4, .restarted] := by
  decide +kernel

/-- Section 11.1: a release of LATCHING held at release_count, and the acknowledgement that returns the channel. -/
theorem test_heldRelease :
    let s := withChannel banded { channelIn .high 640 with runDir := .release, runCount := 2 }
    let t := s.validReading 3 600 .good
    ((t.channel 3).runtime.state, (t.channel 3).runtime.runCount, (t.acknowledgeBand 3).log.entries.map (·.kind),
      ((t.acknowledgeBand 3).channel 3).runtime.state) = (.high, 3, [.restarted, .ret], .inBand) := by decide +kernel

/-- Section 5.11, event 2: a reading 1400 whose target is 2800 steps from 2000 to 2300. -/
theorem test_slew :
    let s := (withOutput channelOn (channelIn .inBand 1000) .normal (some 2000)).setOutput 0
      { config := { outputOn with points := [⟨0, 0⟩, ⟨2000, 4000⟩] }
        runtime := { OutputRuntime.cleared .normal with issued := some 2000, target := some 2000 } }
    let t := s.outputReading 3 1400
    ((t.output 0).runtime.issued, (t.output 0).runtime.target, t.setpoints.map (·.value)) =
      (some 2300, some 2800, [2300]) := by decide +kernel

/-- The example of R99: 2800 toward safe 500 in steps of 300, and nothing issued yet. -/
theorem test_ramp :
    ((List.range 8).map fun n => ((List.range (n + 1)).foldl (fun w _ => rampStep 300 500 (some w)) 2800).toNat) =
      [2500, 2200, 1900, 1600, 1300, 1000, 700, 500] ∧ rampStep 300 500 none = 500 ∧ rampStep 0 500 (some 2800) = 500 ∧
      rampStep 300 500 (some 100) = 400 := by decide +kernel

/-- R186: a table write sets dirty, and written_since_start of a commit in flight. -/
theorem test_tableWrite :
    (∀ t ∈ [State.reset.tableWritten.store], t.dirty = true ∧ t.commit = none) ∧
      (∀ t ∈ [({ State.reset with store :=
            { State.reset.store with commit := some { jobIn .writing with writtenSinceStart := false } } } : State).tableWritten.store],
        t.dirty = true ∧ t.commit = some (jobIn .writing)) := by decide +kernel

/-- Section 11.2, events 2 and 6: a loss makes the OVERFLOW entry, or counts in lost_since_marker while it is SENT. -/
theorem test_overflow :
    let full := (List.range 31).map fun n => noticeOf (BitVec.ofNat 16 n) .stale (.channel (Fin.ofNat 128 n)) .new
    let l := (withLog full 0).log.raise 0xF 5 .fallbackEnter (.output 9) 9
    let sent := (withLog (full ++ [noticeOf 31 .overflow .none .sent]) 0).log.raise 0xF 5 .fault (.channel 70) 70
    ((l.entries.getLast?.map fun e => (e.kind, e.value)), l.nextNumber, sent.lostSinceMarker, sent.entries.length) =
      (some (.overflow, 1), 32, 1, 32) := by decide +kernel

/-- Chapter 12: the codes of the last kind, status and opcode of each table. -/
theorem test_codes :
    (NoticeKind.overflow.code, Status.busy.code, RequestKind.readImage.opcode, FrameKind.ofCode 7, FrameKind.ofCode 8) =
      (0x10, 0x0E, 0x61, .notice, .unknown) := by decide +kernel

/-! ## The hypotheses of the statements can be met -/

theorem test_hyp_StepTakesFrontCommand :
    ({ State.reset with pending := [.tick] } : State).pending = .tick :: [] ∧ State.reset.pending = [] := ⟨rfl, rfl⟩

theorem test_hyp_ResetHoldsThePart :
    ({ State.reset with held := true } : State).held = true ∧ (∀ f l, Instr.tick ≠ .hardReset f l) ∧ State.reset.Ready :=
  ⟨rfl, by simp, reset_ready⟩

theorem test_hyp_OpenTickEventEndsFirst :
    ({ State.reset with due := { DueWork.none with silent := [1] } } : State).held = false ∧
      (∀ f l, Instr.tick ≠ .hardReset f l) ∧ Instr.tick ≠ .nodeSilent ∧ Instr.tick ≠ .channelStale ∧
      Instr.tick ≠ .refresh ∧ Instr.tick ≠ .goBack ∧ State.reset.due = .none ∧ State.reset.held = false ∧
      (∀ due : DueWork, ({ State.reset with due := due } : State).held = false) ∧
      ({ DueWork.none with silent := [1] }).silent ≠ [] ∧ ({ DueWork.none with stale := [127] }).stale ≠ [] ∧
      ({ DueWork.none with refresh := [15] }).refresh ≠ [] ∧ ({ DueWork.none with goBack := true }).goBack = true ∧
      DueWork.none.silent = [] ∧ DueWork.none.stale = [] ∧ DueWork.none.refresh = [] ∧ DueWork.none.goBack = false :=
  ⟨rfl, by simp, nofun, nofun, nofun, nofun, rfl, rfl, fun _ => rfl, by decide +kernel⟩

theorem select_a (g : Half) :
    ({ State.reset.store with bankA := bankOf g } : ImageStore).select = some (.a, .factory) := by
  have h1 : (bankOf g).load = some .factory := by
    unfold Bank.load; rw [bankOf_valid]; rfl
  unfold ImageStore.select
  dsimp only
  rw [h1]
  rfl

theorem test_hyp_HardResetState :
    State.reset.store.select = none ∧
      ∃ s : State, ∃ id img, s.store.select = some (id, img) :=
  ⟨rfl, { State.reset with store := { State.reset.store with bankA := bankOf 7 } }, .a, .factory, select_a 7⟩

/-- Both banks invalid, one valid, and both valid at the four boundaries of the generations' distance. -/
theorem test_hyp_HardResetSelectsNewerBank :
    (Bank.erased.valid = false) ∧ (∀ g, (bankOf g).valid = true ∧ (bankOf g).image = .intact .factory ∧
      (bankOf g).generation = g) ∧
      ([(7, 8), (1, 32768), (5, 5), (0, 32768)] : List (Half × Half)).map (fun g => (g.2 - g.1).toNat) =
        [1, 32767, 0, 32768] :=
  ⟨erased_invalid, fun g => ⟨bankOf_valid g, rfl, rfl⟩, by decide +kernel⟩

theorem test_hyp_BuiltFramesAreGood : (List.replicate 240 (0 : Byte)).length ≤ 240 := by decide +kernel

theorem test_hyp_RecordRoundTrips :
    ChannelConfig.factory.valid = true ∧ ({ channelOn with gain := 8191, assertCount := 15 }).valid = true ∧
      outputOn.valid 62 = true ∧
      ({ outputOn with points := (List.range 8).map fun n => ⟨BitVec.ofNat 16 n, 4095⟩ }).valid 62 = true := by
  decide +kernel

theorem test_hyp_AssemblyOpensAndGrows :
    ∀ p : Port, State.reset.Ready ∧ (State.reset.port p).link = .up ∧ (State.reset.port p).assembly = none ∧
      (assembled State.reset p []).Receives p [] ∧
      (assembled State.reset p (List.replicate 247 0)).Receives p (List.replicate 247 0) := by
  intro p; cases p <;> decide +kernel

theorem test_hyp_OverlongFrameCountedOnce :
    ∀ p : Port, (assembled State.reset p (List.replicate 248 0)).Receives p (List.replicate 248 0) := by
  intro p; cases p <;> decide +kernel

/-- Lengths 7 and 249, a wrong check word at 8 and 248 bytes, a len that is not the payload's, and a good frame. -/
theorem test_hyp_FrameEndDiscardsBadFrames :
    (∀ n ∈ [0, 7, 249], (assembled State.reset .f (List.replicate n 0)).Receives .f (List.replicate n 0)) ∧
      (∀ n ∈ [6, 246], ∃ l : List Byte, l.length = n + 2 ∧
        checkWord (l.take (l.length - 2)) ≠ halfAt l (l.length - 2)) ∧
      ([1, 2, 3, 0, 0, 1] ++ halfBytes (checkWord [1, 2, 3, 0, 0, 1])).length = 8 ∧
      judgeFrame ([1, 2, 3, 0, 0, 1] ++ halfBytes (checkWord [1, 2, 3, 0, 0, 1])) = .lengthError ∧
      judgeFrame (frameOf 1 2 3 []) = .good := by
  refine ⟨by decide +kernel, fun n _ => ?_, by decide +kernel, by decide +kernel, by decide +kernel⟩
  have h : ∀ body : List Byte, body.length = n →
      checkWord ((body ++ halfBytes (checkWord body + 1)).take n) ≠ halfAt (body ++ halfBytes (checkWord body + 1)) n := by
    intro body hb
    have e := halfAt_append body (checkWord body + 1) [] n hb
    rw [List.append_nil] at e
    rw [List.take_left' hb, e]
    generalize checkWord body = c
    intro h
    have h1 := congrArg BitVec.toNat h
    have h2 := c.isLt
    rw [BitVec.toNat_add] at h1
    simp only [BitVec.reduceToNat] at h1
    omega
  refine ⟨List.replicate n 0 ++ halfBytes (checkWord (List.replicate n 0) + 1), by simp [halfBytes], ?_⟩
  have e : (List.replicate n (0 : Byte) ++ halfBytes (checkWord (List.replicate n 0) + 1)).length - 2 = n := by
    simp [halfBytes]
  rw [e]
  exact h _ (by simp)

theorem test_hyp_SourceAndDirection :
    (∀ src ∈ [0, 63, 62], (assembled State.reset .f (frameOf 1 src 2 [])).Receives .f (frameOf 1 src 2 []) ∧
      judgeFrame (frameOf 1 src 2 []) = .good ∧
        addressOf (byteAt (frameOf 1 src 2 []) 1) ∈ [0, 63, State.reset.system.ownAddress]) ∧
      (∀ l ∈ [frameOf 62 9 1 [], frameOf 1 9 5 [], frameOf 1 9 6 [], frameOf 1 9 7 [], frameOf 1 9 3 [], frameOf 1 9 4 []],
        (assembled State.reset .f l).Receives .f l ∧ judgeFrame l = .good ∧ addressOf (byteAt l 1) = 9 ∧
          (addressOf (byteAt l 0) = 62 ∨
            FrameKind.ofCode (byteAt l 2) ∈ [.request, .response, .notice, .command, .setpoint])) ∧
      (∀ l ∈ [frameOf 62 1 5 [], frameOf 62 0 3 []], (assembled State.reset .s l).Receives .s l ∧ judgeFrame l = .good ∧
        addressOf (byteAt l 0) = 62 ∧ ¬ (FrameKind.ofCode (byteAt l 2) = .request ∧ addressOf (byteAt l 1) = 0)) ∧
      (∀ l ∈ [frameOf 1 0 1 [], frameOf 1 0 2 [], frameOf 1 0 6 [], frameOf 1 0 7 []],
        (assembled State.reset .s l).Receives .s l ∧ judgeFrame l = .good ∧ addressOf (byteAt l 0) ≠ 62 ∧
          FrameKind.ofCode (byteAt l 2) ∈ [.sample, .status, .response, .notice]) :=
  ⟨by decide +kernel, by decide +kernel, by decide +kernel, by decide +kernel⟩

/-- Both directions, with 7 and with 8 frames in the queue they are offered to. -/
theorem test_hyp_TransparentForwarding :
    ∀ n ∈ [7, 8], (∀ l ∈ [frameOf 1 9 8 []],
        (assembled (withQueue State.reset .f n) .f l).Receives .f l ∧ judgeFrame l = .good ∧ addressOf (byteAt l 0) ≠ 62 ∧
          FrameKind.ofCode (byteAt l 2) = .unknown ∧ addressOf (byteAt l 1) = 9 ∧
          ((assembled (withQueue State.reset .f n) .f l).port .s).forwardQueue.length = n) ∧
      (∀ k ∈ [3, 5, 8], ∀ l ∈ [frameOf 1 0 k []],
        (assembled (withQueue State.reset .s n) .s l).Receives .s l ∧ judgeFrame l = .good ∧ addressOf (byteAt l 0) ≠ 62 ∧
          FrameKind.ofCode (byteAt l 2) ∈ [.command, .request, .unknown] ∧
          ((assembled (withQueue State.reset .s n) .s l).port .f).forwardQueue.length = n) := by
  decide +kernel

/-- Each fault of a payload: count 0 and above the limit, a length that disagrees, the last item's own fault. -/
theorem test_hyp_PayloadFormatErrors :
    (∀ pl ∈ [[0], 13 :: List.replicate 39 0, [1, 0, 0], 12 :: (List.replicate 33 0 ++ [0x30, 0, 0])],
      ∀ l ∈ [frameOf 1 9 1 pl],
      (assembled State.reset .f l).FromField l ∧ byteAt l 2 = 1 ∧ ({ bytes := l } : Frame).payload = pl ∧
        sampleReadings pl = none) ∧
      (∀ pl ∈ [[0], 17 :: List.replicate 51 0, [1, 0, 0], 16 :: (List.replicate 45 0 ++ [16, 0, 0]), [1, 0, 0x10, 0]],
        ∀ l ∈ [frameOf 1 0 4 pl],
        (assembled State.reset .s l).Receives .s l ∧ judgeFrame l = .good ∧ addressOf (byteAt l 0) ≠ 62 ∧
          byteAt l 2 = 4 ∧ ({ bytes := l } : Frame).payload = pl ∧ setpointItems pl = none) ∧
      (∀ pl ∈ [[], [1]], ∀ l ∈ [frameOf 62 0 5 pl],
        (assembled State.reset .s l).Receives .s l ∧ judgeFrame l = .good ∧ addressOf (byteAt l 0) = 62 ∧
          addressOf (byteAt l 1) = 0 ∧ byteAt l 2 = 5 ∧ l.length < 10) := by
  decide +kernel

theorem test_hyp_LossAndReturnOfSignal :
    State.reset.Ready ∧ State.reset.portS.link = .up ∧ State.reset.portS.transmitter = none ∧
      (∀ s ∈ [State.reset.setPort .s { State.reset.portS with transmitter := some { source := .notice, frame := [] } }],
        s.Ready ∧ (s.port .s).link = .up ∧ (s.port .s).transmitter = some { source := .notice, frame := [] } ∧
          TxSource.notice ≠ .response) ∧
      (∀ s ∈ [State.reset.setPort .f { State.reset.portF with link := .down }],
        s.Ready ∧ (s.port .f).link = .down) := by
  decide +kernel

/-- An unenrolled source under both policies with 7 and 8 frames queued, and the distances 0, 129 and 255. -/
theorem test_hyp_FramesNotAccepted :
    (∀ n ∈ [7, 8], ∀ policy ∈ [UnenrolledPolicy.pass, .block], ∀ l ∈ [frameOf 1 9 2 [], frameOf 1 9 1 [1, 0, 0, 0]],
      (assembled (passing policy n) .f l).FromField l ∧
        ((passing policy n).node (addressOf (byteAt l 1))).config.enrolled = false ∧
        (byteAt l 2 = 2 ∨ (byteAt l 2 = 1 ∧ (sampleReadings ({ bytes := l } : Frame).payload).isSome = true))) ∧
      (∀ x ∈ [((10 : Byte), 0), (137, 129), (11, 255)],
        (assembled (withNode State.reset 9 .checked (some x.1)) .f (frameOf 1 9 2 [])).FromField (frameOf 1 9 2 []) ∧
          ((withNode State.reset 9 .checked (some x.1)).node 9).config.enrolled = true ∧
          ((withNode State.reset 9 .checked (some x.1)).node 9).runtime.lastSeq = some x.1 ∧
          (byteAt (frameOf 1 9 2 []) 4 - x.1).toNat = x.2) ∧
      addressOf (byteAt (frameOf 1 9 2 []) 1) = 9 ∧ (byteAt (frameOf 1 9 2 []) 3).getLsbD 0 = false :=
  ⟨by decide +kernel, by decide +kernel, by decide +kernel, by decide +kernel⟩

/-- Each way a frame is accepted: RESTART, UNCHECKED, no last_seq, and the distances 1, 2 and 128. -/
theorem test_hyp_AcceptedFrameIsForwarded :
    (assembled (withNode State.reset 9 .checked none) .f (frameOf 1 9 2 [])).FromField (frameOf 1 9 2 []) ∧
      ((withNode State.reset 9 .checked none).node 9).config.enrolled = true ∧
      (sampleReadings ({ bytes := frameOf 1 9 1 [1, 0, 0, 0] } : Frame).payload).isSome = true ∧
      State.reset.bindings = [] ∧
      NodeRecord.empty.acceptedAs true 10 0 (some (.nodeRestart, 10)) ∧
      NodeRecord.empty.acceptedAs false 10 0 none ∧
      ({ NodeRecord.empty with config := { NodeConfig.empty with seqPolicy := .unchecked } }).acceptedAs false 10 0 none ∧
      (lastSeen 9).acceptedAs false 10 0 none ∧ (lastSeen 8).acceptedAs false 10 1 (some (.seqGap, 1)) ∧
      (lastSeen 138).acceptedAs false 10 127 (some (.seqGap, 127)) :=
  ⟨by decide +kernel, by decide +kernel, by decide +kernel, rfl, Or.inl (by decide +kernel),
    Or.inr (Or.inl ⟨rfl, rfl, rfl, Or.inr (Or.inl rfl)⟩), Or.inr (Or.inl ⟨rfl, rfl, rfl, Or.inl rfl⟩),
    Or.inr (Or.inl ⟨rfl, rfl, rfl, Or.inr (Or.inr ⟨9, by decide +kernel⟩)⟩),
    Or.inr (Or.inr ⟨rfl, rfl, 8, by decide +kernel⟩), Or.inr (Or.inr ⟨rfl, rfl, 138, by decide +kernel⟩)⟩

/-- A reading of node 7's local channel 0, under each forward policy and with 7 and 8 frames queued. -/
theorem test_hyp_SampleReadingAtItsChannel :
    ∀ n ∈ [7, 8], ∀ policy ∈ [ForwardPolicy.raw, .conditioned, .strip],
      ∀ s ∈ [withQueue (withOutput { channelOn with forward := policy } (channelIn .stale 0) .fallback none) .f n],
      ∀ l ∈ [frameOf 1 7 1 [1, 0, 0, 5]],
      (assembled s .f l).FromField l ∧ 7 = addressOf (byteAt l 1) ∧ (s.node 7).config.enrolled = true ∧
        (s.node 7).config.seqPolicy = .unchecked ∧ (byteAt l 3).getLsbD 0 = false ∧ byteAt l 2 = 1 ∧
        sampleReadings ({ bytes := l } : Frame).payload = some [{ head := 0, value := 5 }] ∧
        ({ head := 0, value := 5 } : Reading).quality = some .good ∧ s.boundSlot 7 0 = some 3 ∧
        (s.channel 3).config.enabled = true ∧ (s.channel 3).runtime.state ≠ .off ∧ (s.output 0).follows 3 = true ∧
        (s.output 1).follows 3 = false ∧ (s.output 0).runtime.state = .fallback := by
  decide +kernel

/-- Frames of one unbound reading, of one stripped, and of five: a stripped channel twice, a rewritten one with a GOOD and
with a BAD reading, and one unbound. -/
theorem test_hyp_SampleReadings :
    (∀ pl ∈ [[1, 2, 0, 9], [1, 0, 0, 5], [5, 0, 0, 5, 0, 0, 6, 1, 0, 7, 0x21, 0, 8, 2, 0, 9]], ∀ l ∈ [frameOf 1 7 1 pl],
      (assembled mixed .f l).FromField l ∧ 7 = addressOf (byteAt l 1) ∧ (mixed.node 7).config.enrolled = true ∧
        byteAt l 2 = 1 ∧ ({ bytes := l } : Frame).payload = pl) ∧
      (mixed.node 7).acceptedAs false 10 0 none ∧
      (sampleReadings [1, 2, 0, 9] = some [⟨2, 9⟩] ∧ ¬ mixed.readingChanges 7 ⟨2, 9⟩) ∧
      (sampleReadings [1, 0, 0, 5] = some [⟨0, 5⟩] ∧ mixed.readingChanges 7 ⟨0, 5⟩ ∧
        [(⟨0, 5⟩ : Reading)].filterMap (mixed.readingKept 7) = []) ∧
      (∀ rs ∈ [[(⟨0, 5⟩ : Reading), ⟨0, 6⟩, ⟨1, 7⟩, ⟨0x21, 8⟩, ⟨2, 9⟩]],
        sampleReadings [5, 0, 0, 5, 0, 0, 6, 1, 0, 7, 0x21, 0, 8, 2, 0, 9] = some rs ∧
          rs.filterMap (mixed.readingKept 7) = [⟨1, 7⟩, ⟨0x21, 8⟩, ⟨2, 9⟩]) := by
  refine ⟨by decide +kernel, Or.inr (Or.inl ⟨rfl, rfl, rfl, Or.inl rfl⟩), ⟨by decide +kernel, ?_⟩,
    ⟨by decide +kernel, ⟨3, by decide +kernel, Or.inl (by decide +kernel)⟩, by decide +kernel⟩, by decide +kernel⟩
  rintro ⟨k, h, -⟩
  rw [show mixed.supervisedAt 7 ⟨2, 9⟩ = none from by decide +kernel] at h
  cases h

/-- A frame that keeps both items, one that keeps one, and one that keeps none. -/
theorem test_hyp_OwnershipFilter :
    ∀ x ∈ [((2 : Byte), [(2 : Byte), 0, 0, 1, 5, 0, 1], 2), (1, [2, 0, 0, 1, 5, 0, 1], 1), (63, [1, 0, 0, 1], 0)],
      (assembled owning .s (frameOf x.1 0 4 x.2.1)).Receives .s (frameOf x.1 0 4 x.2.1) ∧
        judgeFrame (frameOf x.1 0 4 x.2.1) = .good ∧ addressOf (byteAt (frameOf x.1 0 4 x.2.1) 0) ≠ 62 ∧
        ((setpointItems x.2.1).map fun items =>
          (items.filter fun i => ! owning.ownsTarget (addressOf x.1) i.index).length) = some x.2.2 := by
  decide +kernel

/-- The frame of ECHO with tag 1 and seq 10: a duplicate of an entry, a full queue, a repeat, and a new request. -/
theorem test_hyp_RequestAcceptance :
    (assembled State.reset .s (frameOf 62 0 5 [1, 1])).Receives .s (frameOf 62 0 5 [1, 1]) ∧
      judgeFrame (frameOf 62 0 5 [1, 1]) = .good ∧ addressOf (byteAt (frameOf 62 0 5 [1, 1]) 0) = 62 ∧
      ({ bytes := frameOf 62 0 5 [1, 1] } : Frame).payload = [1, 1] ∧ byteAt (frameOf 62 0 5 [1, 1]) 4 = 10 ∧
      (∀ e ∈ List.replicate 4 (entryOf .echo []), e.tag = 1 ∧ e.seq ≠ 10) ∧
      (∃ e : RequestEntry, e.tag = 1 ∧ e.seq = 10) ∧ State.reset.queue.entries = [] ∧
      State.reset.queue.memory = none ∧ (∃ m : SavedResponse, m.tag = 1 ∧ m.seq = 10) :=
  ⟨by decide +kernel, by decide +kernel, by decide +kernel, by decide +kernel, by decide +kernel, by decide +kernel,
    ⟨{ entryOf .echo [] with seq := 10 }, rfl, rfl⟩, rfl, rfl, { tag := 1, seq := 10, response := responseOf 1 }, rfl, rfl⟩

theorem test_hyp_Ticks :
    State.reset.Ready ∧ State.reset.time.handedOn = .idle ∧
      (∀ s ∈ [({ State.reset with time := { State.reset.time with handedOn := ⟨true, true, true, true⟩ } } : State)],
        s.Ready ∧ s.time.handedOn.nodeTable = true ∧ s.time.handedOn.channelTable = true ∧
          s.time.handedOn.outputUnit = true ∧ s.time.handedOn.noticeLog = true) := by
  decide +kernel

/-- A declaration the compiler does not defer: it waits here until every theorem above is checked, so that few kernel
evaluations stand open at once. It says nothing. -/
structure CheckedAbove2 where
  mark : Fin 1

/-- Node 7 due with a bound channel, and node 9 due with none. -/
theorem test_hyp_NodeGoesSilent :
    ∀ s ∈ [withOutput channelOn (channelIn .inBand 5) .normal (some 1)],
    ∀ t ∈ [({ withNode s 9 .checked none with due := { DueWork.none with silent := [7, 9] } } : State)],
    t.held = false ∧ t.due.silent = 7 :: [9] ∧ (t.node 7).config.enrolled = true ∧ (t.node 9).config.enrolled = true ∧
      (∀ b ∈ t.bindings, b.node ≠ 9) ∧
      (allSlots.filter fun k => decide ((∃ b ∈ t.bindings, b.node = 7 ∧ b.slot = k) ∧
        (t.channel k).config.enabled = true ∧ (t.channel k).runtime.state ≠ .stale)) = [3] ∧ t.handedOver 3 = [0] := by
  decide +kernel

theorem test_hyp_DueWork :
    (∀ s ∈ [({ State.reset with due := { DueWork.none with stale := [127] } } : State)],
      s.held = false ∧ s.due.stale = 127 :: []) ∧
      (∀ s ∈ [({ State.reset with due := { DueWork.none with refresh := [0, 15] } } : State)],
        s.held = false ∧ s.due.refresh = 0 :: [15]) ∧
      (∀ s ∈ [({ State.reset with due := { DueWork.none with goBack := true } } : State)],
        s.held = false ∧ s.due = { DueWork.none with goBack := true }) := by
  decide +kernel

/-- A port DOWN and one busy; the four sources of a start on the S-port: by the bound, alone, a response, a NOTICE of 1
and of 8, none. -/
theorem test_hyp_SPortStarts :
    State.reset.Ready ∧ State.reset.portS.link = .up ∧ State.reset.portS.transmitter = none ∧
      ({ State.reset with portS := { State.reset.portS with link := .down } } : State).portS.link = .down ∧
      (inFlight .echo false).portS.transmitter ≠ none ∧
      ((withQueue State.reset .f 1).portS.forwardQueue = [] :: [] ∧
        ({ withQueue State.reset .f 1 with egress := { Egress.clear with starvationCount := 4 } } : State).egress.starvationCount = 4) ∧
      (∀ e ∈ (withLog [noticeOf 0 .stale (.channel 0) .sent] 0).log.entries, e.sendState = .sent) ∧
      State.reset.queue.entries.head? = none ∧
      (State.reset.portS.forwardQueue = [] ∧ (answered .echo .done).state = .done ∧
        (answered .echo .done).response = some (responseOf RequestKind.echo.opcode)) ∧
      State.reset.log.entries = [] ++ State.reset.log.entries ++ [] ∧ State.reset.log.entries.length = 1 ∧
      (∀ es ∈ [(List.range 9).map fun n => noticeOf (BitVec.ofNat 16 n) .stale (.channel (Fin.ofNat 128 n)) .new],
        (withLog es 0).log.entries = [] ++ es.take 8 ++ es.drop 8 ∧ (es.take 8).length = 8) := by
  decide +kernel

/-- A port DOWN and one busy; the sources of a start on the F-port: each alone, both with each turn, none. -/
theorem test_hyp_FPortStarts :
    ∀ it ∈ [({ output := 0, node := 1, index := 0, value := 4095 } : SetpointItem)],
    State.reset.Ready ∧ State.reset.portF.link = .up ∧ State.reset.portF.transmitter = none ∧
      ({ State.reset.portF with link := .down }).link = .down ∧
      ({ State.reset.portF with transmitter := some { source := .setpoint, frame := [] } }).transmitter ≠ none ∧
      State.reset.portF.forwardQueue = [] ∧ State.reset.setpoints = [] ∧
      (withQueue State.reset .s 1).portF.forwardQueue = [] :: [] ∧ State.reset.egress.nextTurn = .forward ∧
      ({ State.reset with setpoints := [it] } : State).setpoints = it :: [] ∧
      [it].Pairwise (fun x y => x.output ≠ y.output) ∧
      ({ withQueue State.reset .s 1 with
          setpoints := [it], egress := { Egress.clear with nextTurn := .setpoint } } : State).egress.nextTurn = .setpoint := by
  decide +kernel

theorem test_hyp_TransmissionEnds :
    (∀ s ∈ [State.reset.setPort .f { State.reset.portF with transmitter := some { source := .setpoint, frame := [] } }],
      s.Ready ∧ (s.port .f).transmitter = some { source := .setpoint, frame := [] } ∧ TxSource.setpoint ≠ .response) ∧
      (∀ s ∈ [inFlight .echo false],
        s.Ready ∧ (s.port .s).transmitter = some { source := .response, frame := [] } ∧
          s.queue.entries = answered .echo .sending :: [] ∧ (answered .echo .sending).state = .sending ∧
          (answered .echo .sending).response = some (responseOf RequestKind.echo.opcode) ∧
          s.queue.restartPending = false ∧ (s.port .s).link = .up) ∧
      (∀ r ∈ [responseOf 0x01, { responseOf 0x05 with status := .busy }, { responseOf 0x05 with repeated := true }],
        (inFlight .restart true).queue.restartPending = true ∧
          (r.opcode ≠ 0x05 ∨ r.status ≠ .ok ∨ r.repeated = true)) := by
  decide +kernel

theorem test_hyp_SoftRestart :
    ∀ s ∈ [inFlight .restart true],
    s.Ready ∧ s.portS.transmitter = some { source := .response, frame := [] } ∧
      s.queue.entries = answered .restart .sending :: [] ∧ (answered .restart .sending).state = .sending ∧
      s.queue.restartPending = true ∧ (answered .restart .sending).response = some (responseOf 0x05) ∧
      (responseOf 0x05).opcode = 0x05 ∧ (responseOf 0x05).status = .ok ∧ (responseOf 0x05).repeated = false ∧
      s.portS.link = .up := by
  decide +kernel

/-- A parameter length that each request refuses, the shortest of ECHO's among them, an unknown opcode, and no entry. -/
theorem test_hyp_OpcodeAndLength :
    (∀ kind ∈ RequestKind.all, kind.lengthOk 233 = false) ∧ RequestKind.echo.lengthOk 232 = true ∧
      (∀ e ∈ [({ entryOf .echo [] with opcode := 0 } : RequestEntry)],
        ∀ s ∈ [({ State.reset with queue := { RequestQueue.empty with entries := [e] } } : State)],
        s.Ready ∧ s.nextToExecute = some e ∧ knownOpcode e.opcode = false) ∧
      State.reset.Ready ∧ State.reset.nextToExecute = none ∧
      (∀ e ∈ [entryOf .capture []], (asked State.reset .capture []).queue.entries = [] ++ e :: [] ∧ e.state = .waiting ∧
        (asked State.reset .capture []).queue.restartPending = false) ∧
      (answered .echo .done).state ≠ .waiting ∧ (inFlight .restart true).queue.restartPending = true := by
  decide +kernel

theorem test_hyp_ReadRequests :
    (asked State.reset .echo (List.replicate 232 0)).Executes (entryOf .echo (List.replicate 232 0)) .echo
        (List.replicate 232 0) ∧
      (asked State.reset .readSystem []).Executes (entryOf .readSystem []) .readSystem [] ∧
      (asked State.reset .readImage []).Executes (entryOf .readImage []) .readImage [] ∧
      (∀ kind ∈ [RequestKind.readNode, .readChannel, .readOutput], ∀ b,
        (asked State.reset kind [b]).Executes (entryOf kind [b]) kind [b]) ∧
      (List.replicate 232 (0 : Byte)).length = 232 ∧ (0 : Byte).toNat = 0 ∧ (63 : Byte).toNat = 63 ∧
      (∀ a ∈ [(1 : Addr), 62], (a.setWidth 8 : Byte).toNat = a.toNat ∧ a ≠ 0 ∧ a ≠ 63) ∧
      (∀ k ∈ [(0 : Slot), 127], (indexByte k).toNat = k.val) ∧ (128 : Byte).toNat = 128 ∧
      (∀ i ∈ [(0 : OutIdx), 15], (indexByte i).toNat = i.val) ∧ (16 : Byte).toNat = 16 ∧
      ((∀ x ∈ boundIdle.bindings, x.slot ≠ 127) ∧ ∀ x ∈ boundIdle.bindings, x.slot = 3) ∧
      (∀ it ∈ [({ output := 0, node := 1, index := 0, value := 4095 } : SetpointItem)],
        (∀ x ∈ [it], x.output ≠ 15) ∧ [it] = [] ++ it :: [] ∧ it.output = 0) :=
  ⟨reset_executes _ _, reset_executes _ _, reset_executes _ _, fun _ _ _ => reset_executes _ _, by decide +kernel⟩

theorem test_hyp_ReadStats :
    (∀ b ∈ [(0 : Byte), 1, 2], (asked State.reset .readStats [b]).Executes (entryOf .readStats [b]) .readStats [b]) ∧
      ∀ spelled : PortRecord → List Byte, ∃ stats : PortRecord → List Byte, ∀ p, stats p = spelled p :=
  ⟨fun _ _ => reset_executes _ _, fun spelled => ⟨spelled, fun _ => rfl⟩⟩

/-- Each field at both of its bounds, and an address that is enrolled, one that is a target (1, by the factory outputs),
and one that is free. -/
theorem test_hyp_WriteSystem :
    (∀ p, (asked (withNode State.reset 9 .checked none) .writeSystem p).Executes (entryOf .writeSystem p) .writeSystem p) ∧
      ((withNode State.reset 9 .checked none).node (addressOf 9)).config.enrolled = true ∧
      (State.reset.output 0).config.targetNode = addressOf 1 ∧
      (∀ own ∈ [(2 : Byte), 62], (State.reset.node (addressOf own)).config.enrolled = false ∧
        (∀ i, (State.reset.output i).config.targetNode ≠ addressOf own) ∧ 1 ≤ own.toNat ∧ own.toNat ≤ 62) ∧
      ((1 : Half).toNat = 1 ∧ (1000 : Half).toNat = 1000 ∧ (1001 : Half).toNat = 1001 ∧ (15 : Byte).toNat = 15 ∧
        (16 : Byte).toNat = 16 ∧ (1 : Byte).toNat = 1 ∧ (2 : Byte).toNat = 2) :=
  ⟨fun _ => asked_executes _ ⟨rfl, rfl⟩ rfl _ _, by decide +kernel, by decide +kernel, by decide +kernel, by decide +kernel⟩

/-- A commit in flight, and none with each bank current. -/
theorem test_hyp_RestartAndCommit :
    (∀ kind ∈ [RequestKind.restart, .commit], ∀ store : ImageStore,
      (asked { State.reset with store := store } kind []).Executes (entryOf kind []) kind []) ∧
      (∀ j : CommitJob, some j ≠ none) ∧ State.reset.store.commit = none ∧ State.reset.store.current = none ∧
      (∀ id, ({ State.reset.store with current := some id } : ImageStore).current = some id) :=
  ⟨fun _ _ _ => asked_executes _ ⟨rfl, rfl⟩ rfl _ _, by simp, rfl, rfl, fun _ => rfl⟩

/-- Addresses 0, 1, 61, the own address 62 and 63; a node enrolled, bound and not. -/
theorem test_hyp_EnrolAndRetire :
    (∀ kind p, (asked (withChannel channelOn (channelIn .idle 0)) kind p).Executes (entryOf kind p) kind p) ∧
      (∀ b ∈ [(1 : Byte), 61], 1 ≤ b.toNat ∧ b.toNat ≤ 62 ∧ b ≠ State.reset.system.ownAddress.setWidth 8) ∧
      ((62 : Byte) = State.reset.system.ownAddress.setWidth 8 ∧ 62 < (63 : Byte).toNat) ∧
      (∀ s ∈ [withChannel channelOn (channelIn .idle 0)],
        (s.node (addressOf 7)).config.enrolled = true ∧ (∃ x ∈ s.bindings, x.node = addressOf 7) ∧
          (s.node (addressOf 1)).config.enrolled = false) ∧
      (∀ s ∈ [withNode State.reset 9 .checked none],
        (s.node (addressOf 9)).config.enrolled = true ∧ (∀ x ∈ s.bindings, x.node ≠ addressOf 9)) :=
  ⟨fun _ _ => asked_executes _ ⟨rfl, rfl⟩ rfl _ _, by decide +kernel, by decide +kernel, by decide +kernel,
    by decide +kernel⟩

/-- Indexes at their bounds; an unenrolled node, a key in use, a slot in use and a free one; a slot bound and not. -/
theorem test_hyp_BindAndUnbind :
    (∀ kind p, (asked boundIdle kind p).Executes (entryOf kind p) kind p) ∧
      (62 < (63 : Byte).toNat ∧ 15 < (16 : Byte).toNat ∧ 127 < (128 : Byte).toNat) ∧
      ((boundIdle.node 1).config.enrolled = false ∧ (boundIdle.node 7).config.enrolled = true) ∧
      (∃ x ∈ boundIdle.bindings, x.node = 7 ∧ x.channel = 0) ∧
      ((∀ x ∈ boundIdle.bindings, ¬ (x.node = 7 ∧ x.channel = 15)) ∧ (∃ x ∈ boundIdle.bindings, x.slot = 3)) ∧
      ((∀ x ∈ boundIdle.bindings, x.slot ≠ 127) ∧ (boundIdle.channel 127).runtime.state.isValid = false) ∧
      (boundIdle.channel 3).runtime.state.isValid = false ∧
      ((withChannel channelOn (channelIn .high 9)).channel 3).runtime.state.isValid = true :=
  ⟨fun _ _ => asked_executes _ ⟨rfl, rfl⟩ rfl _ _, by decide +kernel, by decide +kernel, by decide +kernel,
    by decide +kernel, by decide +kernel, by decide +kernel, by decide +kernel⟩

/-- A record that is no valid configuration's (its first byte is 2), valid ones, and channels enabled and not. -/
theorem test_hyp_WriteChannel :
    (∀ s ∈ [withChannel channelOn (channelIn .high 9), State.reset], ∀ p,
      (asked s .writeChannel p).Executes (entryOf .writeChannel p) .writeChannel p) ∧
      (List.replicate 20 (2 : Byte)).length = 20 ∧
      (∀ c : ChannelConfig, c.valid = true → List.replicate 20 (2 : Byte) ≠ c.bytes) ∧
      (channelOn.valid = true ∧ channelOn.bytes.length = 20 ∧ ChannelConfig.factory.valid = true ∧
        ChannelConfig.factory.enabled = false) ∧
      ((withChannel channelOn (channelIn .high 9)).channel 3).config.enabled = true ∧
      (State.reset.channel 3).config.enabled = false := by
  refine ⟨?_, rfl, ?_, by decide +kernel, by decide +kernel, by decide +kernel⟩
  · intro s hs p
    simp only [List.mem_cons, List.not_mem_nil, or_false] at hs
    rcases hs with rfl | rfl
    · exact asked_executes _ ⟨rfl, rfl⟩ rfl _ _
    · exact reset_executes _ _
  · intro c _ h
    have h0 := congrArg (fun l : List Byte => l[0]?) h
    cases hb : c.enabled <;> simp [ChannelConfig.bytes, boolCode, hb] at h0

/-- No alarm, a TRACKING alarm, a latched alarm with its release held, and one without. -/
theorem test_hyp_AckBand :
    (∀ c r b, (asked (withChannel c r) .ackBand [b]).Executes (entryOf .ackBand [b]) .ackBand [b]) ∧
      (State.reset.channel 3).config.enabled = false ∧ channelOn.mode = .tracking ∧
      ((channelIn .inBand 5).state ∉ [ChannelState.high, .low]) ∧
      (∀ r ∈ [({ channelIn .high 5 with runDir := .release, runCount := 3 } : ChannelRuntime)],
        latching.enabled = true ∧ r.state ∈ [ChannelState.high, .low] ∧ latching.mode = .latching ∧
          r.runDir = .release ∧ r.runCount = latching.releaseCount) ∧
      (∀ r ∈ [({ channelIn .low 5 with runDir := .release, runCount := 2 } : ChannelRuntime)],
        r.state ∈ [ChannelState.high, .low] ∧ r.runCount ≠ latching.releaseCount) :=
  ⟨fun _ _ _ => asked_executes _ ⟨rfl, rfl⟩ rfl _ _, by decide +kernel, by decide +kernel, by decide +kernel,
    by decide +kernel, by decide +kernel⟩

/-- An output not enabled, values 4095 and 4096, and an output FORCED with its source valid and invalid. -/
theorem test_hyp_ForceAndRelease :
    (∀ c r st w kind p, (asked (withOutput c r st w) kind p).Executes (entryOf kind p) kind p) ∧
      (State.reset.output 0).config.enabled = false ∧ 15 < (16 : Byte).toNat ∧
      (4095 < (4096 : Half).toNat ∧ (4095 : Half) = (4095 : Level).setWidth 16) ∧
      (∀ s ∈ [withOutput channelOn (channelIn .low 5) .forced (some 1)],
        (s.output 0).config.enabled = true ∧ (s.output 0).runtime.state = .forced ∧ s.sourceValid 0 = true) ∧
      (∀ s ∈ [withOutput channelOn (channelIn .stale 5) .forced (some 1)],
        (s.output 0).runtime.state = .forced ∧ s.sourceValid 0 = false) ∧
      (withOutput channelOn (channelIn .stale 5) .normal (some 1)).output 0 ≠ State.reset.output 0 :=
  ⟨fun _ _ _ _ _ _ => asked_executes _ ⟨rfl, rfl⟩ rfl _ _, by decide +kernel, by decide +kernel, by decide +kernel,
    by decide +kernel, by decide +kernel, by decide +kernel⟩

/-- A record with its first byte 2, a valid one, a target pair held by another output and one that is free, a configuration
not enabled, and a source valid and invalid. -/
theorem test_hyp_WriteOutputEnabling :
    (∀ c r st w p, (asked (withOutput c r st w) .writeOutput p).Executes (entryOf .writeOutput p) .writeOutput p) ∧
      (∀ own, outputRecordBad own (List.replicate 46 2)) ∧ (List.replicate 46 (2 : Byte)).length = 46 ∧
      (outputOn.valid 62 = true ∧ outputOn.spelledBy outputOn.bytes ∧ outputOn.enabled = true) ∧
      ((OutputConfig.factory 0).valid 62 = true ∧ (OutputConfig.factory 0).spelledBy (OutputConfig.factory 0).bytes ∧
        (OutputConfig.factory 0).enabled = false) ∧
      (∀ s ∈ [withOutput channelOn (channelIn .high 5) .normal (some 1)],
        (∃ j, j ≠ 15 ∧ (s.output j).config.enabled = true ∧ (s.output j).config.targetNode = outputOn.targetNode ∧
            (s.output j).config.targetIndex = outputOn.targetIndex) ∧
          (s.output 15).config.enabled = false ∧ (s.channel 3).runtime.state.isValid = true ∧
          (∀ j, j ≠ 15 → (s.output j).config.enabled = true →
            ¬ ((s.output j).config.targetNode = 2 ∧ (s.output j).config.targetIndex = 0))) ∧
      (State.reset.channel 3).runtime.state.isValid = false :=
  ⟨fun _ _ _ _ _ => asked_executes _ ⟨rfl, rfl⟩ rfl _ _, fun _ => Or.inl (by decide +kernel), by simp,
    ⟨by decide +kernel, ⟨by decide +kernel, fun _ _ => rfl⟩, rfl⟩,
    ⟨by decide +kernel, ⟨by decide +kernel, fun _ _ => rfl⟩, rfl⟩, by decide +kernel, by decide +kernel⟩

/-- Output 0 in each state, its pair kept and its pair changed to (2, 0), with its source valid and invalid. -/
theorem test_hyp_WriteOutputStaysEnabled :
    (∀ c r st w p, (asked (withOutput c r st w) .writeOutput p).Executes (entryOf .writeOutput p) .writeOutput p) ∧
      (outputOn.valid 62 = true ∧ outputOn.spelledBy outputOn.bytes) ∧
      (outputMoved.valid 62 = true ∧ outputMoved.spelledBy outputMoved.bytes ∧
        outputMoved.targetNode ≠ outputOn.targetNode) ∧
      (∀ x ∈ [(ChannelState.inBand, true), (.stale, false)], ∀ st ∈ [OutputState.normal, .fallback, .forced],
        ∀ s ∈ [withOutput channelOn (channelIn x.1 5) st (some 1)],
        (s.output 0).config.enabled = true ∧ (s.output 0).runtime.state = st ∧
          (s.channel outputOn.source).runtime.state.isValid = x.2 ∧
          (∀ j, j ≠ 0 → (s.output j).config.enabled = false)) :=
  ⟨fun _ _ _ _ _ => asked_executes _ ⟨rfl, rfl⟩ rfl _ _, ⟨by decide +kernel, ⟨by decide +kernel, fun _ _ => rfl⟩⟩,
    ⟨by decide +kernel, ⟨by decide +kernel, fun _ _ => rfl⟩, by decide +kernel⟩, by decide +kernel⟩

/-- A number not SENT, a number of the SENT prefix without and with the OVERFLOW entry before it, and a marker. -/
theorem test_hyp_AckNotices :
    (∀ es lost p, (asked (withLog es lost) .ackNotices p).Executes (entryOf .ackNotices p) .ackNotices p) ∧
      (∀ x ∈ [noticeOf 0 .stale (.channel 0) .new],
        [x] = [] ++ x :: [] ∧ x.number = 0 ∧ ∃ y ∈ [] ++ [x], y.sendState ≠ .sent) ∧
      (∀ a ∈ [noticeOf 0 .stale (.channel 0) .sent],
        ∀ o ∈ [noticeOf 1 .overflow .none .sent],
        (∀ y ∈ [a] ++ [o], y.sendState = .sent) ∧ (∀ y ∈ [a], y.number ≠ 1) ∧ o.number = 1 ∧
          (∃ y ∈ [a] ++ [o], y.kind = .overflow) ∧ (∀ y ∈ [] ++ [a], y.kind ≠ .overflow) ∧ (2 : Half) ≠ 0) :=
  ⟨fun _ _ _ => asked_executes _ ⟨rfl, rfl⟩ rfl _ _, by decide +kernel, by decide +kernel⟩

/-- No capture and one of number 255 and of number 1; every section's last page and the one beyond it. -/
theorem test_hyp_CaptureAndReadCapture :
    (∀ c kind p, (asked { State.reset with capture := c } kind p).Executes (entryOf kind p) kind p) ∧
      (∀ n : Byte, ∃ c : Capture, c.number = n) ∧
      ((0 : Byte) = 0 ∧ (7 : Byte).toNat < 8 ∧ 8 ≤ (8 : Byte).toNat ∧ 1 ≤ (1 : Byte).toNat ∧ (3 : Byte).toNat < 4 ∧
        4 ≤ (4 : Byte).toNat ∧ 2 < (3 : Byte).toNat) :=
  ⟨fun _ _ _ => asked_executes _ ⟨rfl, rfl⟩ rfl _ _,
    fun n => ⟨{ number := n, stamp := 0,
                channels := .replicate 128 { state := .off, value := 0, valueValid := false, quality := none },
                outputs := .replicate 16 { state := .off, issued := none },
                nodes := .replicate 64 { used := false, enrolled := false, state := .unknown, silenceCount := 0 } }, rfl⟩,
    by decide +kernel⟩

/-- A commit in each phase; a target that holds the generation and the copy, and one that does not. -/
theorem test_hyp_CommitPhases :
    (∀ ph, (committing ph).Ready ∧ (committing ph).store.commit = some (jobIn ph) ∧ (jobIn ph).phase = ph ∧
      ((committing ph).store.bank (jobIn ph).target).generation = (jobIn ph).generation ∧
      ((committing ph).store.bank (jobIn ph).target).image = .intact (jobIn ph).copy) ∧
      ¬ (State.reset.store.bank .b).generation = 8 :=
  ⟨fun _ => ⟨reset_ready, rfl, rfl, rfl, rfl⟩, by decide +kernel⟩

/-- A masked class, a subject with a NEW entry, room for the 31st entry, and a full log in its three cases. -/
theorem test_hyp_RaiseEvent :
    ∀ full ∈ [(List.range 31).map fun n => noticeOf (BitVec.ofNat 16 n) .stale (.channel (Fin.ofNat 128 n)) .new],
    (NoticeKind.stale.noticeClass.enabledIn 0 = false ∧ NoticeKind.stale.noticeClass.enabledIn 15 = true) ∧
      (∀ x ∈ [noticeOf 0 .stale (.channel 0) .new],
        NoticeKind.recover.noticeClass ≠ .system ∧ x.sendState = .new ∧ x.subject = .channel 0) ∧
      (((full.take 30).countP fun y => decide (y.kind ≠ .overflow)) = 30 ∧
        (full.countP fun y => decide (y.kind ≠ .overflow)) = 31) ∧
      (∀ y ∈ full, ¬ (y.sendState = .new ∧ y.subject = .channel 70) ∧ y.kind ≠ .overflow) ∧
      (noticeOf 31 .overflow .none .sent).sendState = .sent ∧ (noticeOf 31 .overflow .none .new).sendState ≠ .sent := by
  decide +kernel

/-- Readings at, inside and outside each limit of a band, in each state of a channel. -/
theorem test_hyp_ValidReadingIsJudged :
    (∀ (st : ChannelState) (r : ChannelRuntime), ((withChannel banded { r with state := st }).channel 3).config = banded ∧
      ((withChannel banded { r with state := st }).channel 3).runtime = { r with state := st }) ∧
      ([banded.lowTrip, banded.lowClear, banded.highClear, banded.highTrip].map (·.toInt) = [100, 200, 700, 800]) ∧
      ([(100 : Half), 101, 199, 200, 700, 701, 799, 800].map (·.toInt) = [100, 101, 199, 200, 700, 701, 799, 800]) ∧
      banded.assertCount = 2 ∧ banded.releaseCount = 3 ∧
      ((channelIn .idle 0).state = .idle ∧ (channelIn .stale 0).state = .stale ∧ (channelIn .fault 0).state = .fault) ∧
      1 < banded.assertCount ∧ ({ banded with assertCount := 1 }).assertCount ≤ 1 :=
  ⟨fun _ _ => ⟨by simp [withChannel, State.channel, State.setChannel],
    by simp [withChannel, State.channel, State.setChannel]⟩, by decide +kernel, by decide +kernel, rfl, rfl, ⟨rfl, rfl, rfl⟩,
    by decide +kernel, by decide +kernel⟩

theorem test_hyp_BadReadingIsCounted :
    (∀ st : ChannelState, ∃ s : State, (s.channel 3).runtime.state = st ∧ (s.channel 3).config.badLimit = 3) ∧
      (satInc (1 : BitVec 4) < 3 ∧ (3 : BitVec 4) ≤ satInc 2) := by
  refine ⟨fun st => ⟨withChannel channelOn (channelIn st 5), ?_, ?_⟩, by decide +kernel⟩ <;>
    simp [withChannel, State.channel, State.setChannel, channelIn, channelOn, ChannelConfig.factory]

/-- Results at and just beyond both ends of 16 bits. -/
theorem test_hyp_Conditioning :
    ([(32767, 0), (32767, 1), (-32768, 0), (-32768, -1)].map fun (x : Int × Int) =>
      Int.tdiv (((BitVec.ofInt 16 x.1).toInt + (BitVec.ofInt 16 x.2).toInt) * ((4096 : BitVec 13).toNat : Int)) 4096) =
      [32767, 32768, -32768, -32769] := by
  decide +kernel

/-- Values below and at the first point, between two points, and at the last. -/
theorem test_hyp_CurveInterpolates :
    ∀ p ∈ [(⟨0, 100⟩ : CurvePoint)],
    ∀ q ∈ [(⟨7, 0⟩ : CurvePoint)],
    (-1 : Half).toInt ≤ p.x.toInt ∧ (0 : Half).toInt ≤ p.x.toInt ∧ risingPoints ([p] ++ [q]) = true ∧
      q.x.toInt ≤ (7 : Half).toInt ∧ risingPoints ([] ++ p :: q :: []) = true ∧ p.x.toInt ≤ (6 : Half).toInt ∧
      (6 : Half).toInt < q.x.toInt := by
  decide +kernel

/-- Nothing issued, the issued value itself, distances 19 and 20 about a deadband of 20, 300 and 301 about a slew of
300, in both directions; an item that stands in the set, and none. -/
theorem test_hyp_NormalComputation :
    ∀ s ∈ [withOutput channelOn (channelIn .inBand 5) .normal (some 2000)],
    (State.reset.output 0).runtime.issued = none ∧ (s.output 0).runtime.issued = some 2000 ∧
      (s.output 0).config.deadband = 20 ∧ (s.output 0).config.slew = 300 ∧
      [distance 2019 2000, distance 2020 2000, distance 2300 2000, distance 2301 2000, distance 1699 2000] =
        [19, 20, 300, 301, 301] ∧
      (∀ it ∈ [({ output := 1, node := 1, index := 0, value := 5 } : SetpointItem)],
        (∀ y ∈ [{ it with output := 0 }], y.output ≠ it.output) ∧ ({ it with value := 4 }).output = it.output) := by
  decide +kernel

theorem factory_lawful : Image.factory.Lawful := by
  decide +kernel

/-- A state with a command waiting, as the statements about every step ask for it: each law holds, and the step answers. -/
theorem test_hyp_EveryStepKeeps :
    ticking.Safe ∧ ∃ t, step ticking = .next t := by
  refine ⟨⟨by decide +kernel, by decide +kernel, by decide +kernel, by decide +kernel, by decide +kernel, ⟨?_, ?_⟩,
    ⟨?_, ?_, ?_⟩, ⟨?_, ?_⟩, ?_, by decide +kernel, by decide +kernel, by decide +kernel⟩, _,
    (show step ticking = exec .tick State.reset from rfl).trans (exec_eq .tick State.reset)⟩
  · have h : ticking.liveImage = .factory := by decide +kernel
    rw [h]
    exact factory_lawful
  · intro a _
    show State.reset.node a = .empty
    unfold State.node
    split
    · rfl
    · show (Vector.replicate 62 NodeRecord.empty)[a.toNat - 1]?.getD .empty = _
      by_cases h : a.toNat - 1 < 62 <;> simp [h]
  · intro i h; cases h
  · intro i h; cases h
  · intro i h; cases h
  · intro i h; cases h
  · intro i h; cases h
  · intro k
    have h : ticking.channel k = .cleared .factory := by
      simp [ticking, State.reset, State.channel]
    rw [h]
    exact ⟨by decide +kernel, fun h => by cases h⟩

end Sys2Proof.Machine.Tests
end

