-- ==== Sys2Proof/WellFormed.lean ====
section
/-! DEFINITION. Well-formed commands. Every operand's type holds exactly the values the part can be given (a port,
a byte, a link state, a medium's result), so no check is left: every command is well formed. -/

namespace Sys2Proof

/-- No command has an operand outside its range, because the operand types have no such values. -/
def Instr.wellFormed : Instr → Bool
  | .frameStart _ => true
  | .byteArrival _ _ => true
  | .frameEnd _ => true
  | .lossOfSignal _ => true
  | .returnOfSignal _ => true
  | .tick => true
  | .nodeTableTick => true
  | .nodeSilent => true
  | .channelTableTick => true
  | .channelStale => true
  | .outputUnitTick => true
  | .refresh => true
  | .noticeLogTick => true
  | .goBack => true
  | .sPortStart => true
  | .fPortStart => true
  | .transmissionComplete _ => true
  | .echo => true
  | .readSystem => true
  | .writeSystem => true
  | .readStats => true
  | .restart => true
  | .enrolNode => true
  | .retireNode => true
  | .readNode => true
  | .bind => true
  | .unbind => true
  | .writeChannel => true
  | .readChannel => true
  | .ackBand => true
  | .writeOutput => true
  | .readOutput => true
  | .forceOutput => true
  | .releaseOutput => true
  | .ackNotices => true
  | .capture => true
  | .readCapture => true
  | .commit => true
  | .readImage => true
  | .unknownRequest => true
  | .erasureEnds => true
  | .writingEnds _ => true
  | .readBackEnds => true
  | .resetAsserted => true
  | .hardReset _ _ => true

end Sys2Proof
end

section
/-! SUPPORT. Frames on the link: the check word, the receivers, the direction table, the ports over every step, and both
forms of reset (chapter 1 of the spec). -/

namespace Sys2Proof.Machine

/-! ## The check word (R5) -/

/-- The lowest bit after a step of the check word is the highest bit before it: the polynomial ends in 1. -/
theorem checkBit_getLsbD_zero (c : Half) : (checkBit c).getLsbD 0 = c.msb := by
  unfold checkBit
  split
  · next h => simp [h]
  · next h => simp [h]

/-- A step of the check word can be undone. -/
theorem checkBit_injective : Function.Injective checkBit := by
  intro x y h
  have hm : x.msb = y.msb := by rw [← checkBit_getLsbD_zero, h, checkBit_getLsbD_zero]
  have hs : x <<< 1 = y <<< 1 := by
    unfold checkBit at h
    rw [hm] at h
    split at h
    · exact (BitVec.xor_left_inj _).mp h
    · exact h
  rw [BitVec.msb_eq_decide, BitVec.msb_eq_decide] at hm
  have := congrArg BitVec.toNat hs
  simp at hm this
  apply BitVec.eq_of_toNat_eq
  omega

/-- While no 1 leaves at the top, a step of the check word only shifts. -/
theorem checkBit_toNat_of_lt (c : Half) (h : c.toNat < 2 ^ 15) : (checkBit c).toNat = 2 * c.toNat := by
  have hm : c.msb = false := by
    rw [BitVec.msb_eq_decide, decide_eq_false_iff_not]
    omega
  simp only [checkBit, hm, Bool.false_eq_true, if_false, BitVec.toNat_shiftLeft, Nat.shiftLeft_eq]
  omega

/-- The same for several steps. -/
theorem checkBit_iterate_toNat (n : Nat) (c : Half) (h : c.toNat * 2 ^ n < 2 ^ 16) :
    (checkBit^[n] c).toNat = c.toNat * 2 ^ n := by
  induction n with
  | zero => simp
  | succ n ih =>
    rw [Nat.pow_succ, ← Nat.mul_assoc] at h ⊢
    rw [Function.iterate_succ_apply', checkBit_toNat_of_lt _ (by rw [ih] <;> omega), ih (by omega)]
    omega

/-- A byte of the check word's computation is eight of its steps. -/
theorem checkByte_eq_iterate (c : Half) (b : Byte) : checkByte c b = checkBit^[8] (c ^^^ (b ++ 0#8)) := rfl

/-- The eight steps bring a byte from the lower half to the upper. -/
theorem checkBit_iterate_byte (b : Byte) : checkBit^[8] (0#8 ++ b) = b ++ 0#8 := by
  have hlow : (0#8 ++ b : Half).toNat = b.toNat := (BitVec.toNat_append _ _).trans (by simp)
  have hhigh : (b ++ 0#8 : Half).toNat = b.toNat * 2 ^ 8 :=
    (BitVec.toNat_append _ _).trans (by simp [Nat.shiftLeft_eq])
  apply BitVec.eq_of_toNat_eq
  rw [checkBit_iterate_toNat _ _ (by rw [hlow]; omega), hlow, hhigh]

/-- Two bytes bring the check word to 0 exactly when they are the check word. -/
theorem checkByte_checkByte_eq_zero (c : Half) (a b : Byte) : checkByte (checkByte c a) b = 0 ↔ a ++ b = c := by
  have hzero : checkBit^[8] 0 = 0 := rfl
  have hundo : Function.Injective checkBit^[8] := checkBit_injective.iterate 8
  have hjoin : (a ++ 0#8) ^^^ (0#8 ++ b) = a ++ b := BitVec.xor_append.trans (by simp)
  calc checkByte (checkByte c a) b = 0
      ↔ checkByte c a ^^^ (b ++ 0#8) = 0 := by
        rw [checkByte_eq_iterate (checkByte c a) b]
        exact hundo.eq_iff' hzero
    _ ↔ checkBit^[8] (c ^^^ (a ++ 0#8)) = checkBit^[8] (0#8 ++ b) := by
        rw [checkBit_iterate_byte, ← checkByte_eq_iterate]
        exact BitVec.xor_eq_zero_iff
    _ ↔ c ^^^ (a ++ 0#8) = 0#8 ++ b := hundo.eq_iff
    _ ↔ a ++ b = c := by
        rw [← hjoin]
        constructor
        · intro h; rw [← h, BitVec.xor_comm, BitVec.xor_assoc, BitVec.xor_self, BitVec.xor_zero]
        · intro h; rw [← h, BitVec.xor_comm, ← BitVec.xor_assoc, BitVec.xor_self, BitVec.zero_xor]

/-- Settles O9: the last two bytes are two more bytes of the computation. -/
theorem checkWordRemainder : Obligations.CheckWordRemainder := by
  refine ⟨by decide +kernel, fun body a b => ?_⟩
  rw [checkWord, List.foldl_append]
  exact checkByte_checkByte_eq_zero _ a b

/-! ## Built frames (R1, R200) -/

/-- A byte appended at the low end moves every field above it up by its width. -/
theorem extractLsb'_append_add {w : Nat} (x : BitVec w) (b : Byte) (n : Nat) :
    (x ++ b).extractLsb' (n + 8) 8 = x.extractLsb' n 8 := by
  apply BitVec.eq_of_getLsbD_eq
  intro i hi
  simp only [BitVec.getLsbD_extractLsb', BitVec.getLsbD_append, hi, decide_true, Bool.true_and]
  rw [if_neg (by omega), show n + 8 + i - 8 = n + i by omega]

/-- The byte appended at the low end is the lowest field. -/
theorem extractLsb'_append_zero {w : Nat} (x : BitVec w) (b : Byte) : (x ++ b).extractLsb' 0 8 = b :=
  BitVec.extractLsb'_append_eq_right

theorem halfBytes_append (a b : Byte) : halfBytes (a ++ b) = [a, b] :=
  congrArg₂ (fun x y : Byte => [x, y])
    ((extractLsb'_append_add a b 0).trans BitVec.extractLsb'_eq_self) (extractLsb'_append_zero a b)

theorem quadBytes_append (a b c d : Byte) : quadBytes (a ++ b ++ c ++ d) = [a, b, c, d] := by
  have ha : (a ++ b ++ c ++ d : Quad).extractLsb' 24 8 = a := by
    rw [extractLsb'_append_add _ d 16, extractLsb'_append_add _ c 8, extractLsb'_append_add _ b 0,
      BitVec.extractLsb'_eq_self]
  have hb : (a ++ b ++ c ++ d : Quad).extractLsb' 16 8 = b := by
    rw [extractLsb'_append_add _ d 8, extractLsb'_append_add _ c 0, extractLsb'_append_zero]
  have hc : (a ++ b ++ c ++ d : Quad).extractLsb' 8 8 = c := by
    rw [extractLsb'_append_add _ d 0, extractLsb'_append_zero]
  rw [quadBytes, ha, hb, hc, extractLsb'_append_zero]

theorem halfAt_cons_cons (pre post : List Byte) (a b : Byte) :
    halfAt (pre ++ a :: b :: post) pre.length = a ++ b := by
  simp [halfAt, byteAt]

theorem buildFrame_length (dst src kind flags seq : Byte) (payload : List Byte) :
    (buildFrame dst src kind flags seq payload).length = payload.length + 8 := by
  simp [buildFrame, halfBytes]

theorem buildFrame_payload (dst src kind flags seq : Byte) (payload : List Byte) :
    ({ bytes := buildFrame dst src kind flags seq payload } : Frame).payload = payload := by
  rw [Frame.payload, buildFrame_length, Nat.add_sub_cancel]
  simp [buildFrame]

theorem judgeFrame_buildFrame (dst src kind flags seq : Byte) (payload : List Byte) (h : payload.length ≤ 240) :
    judgeFrame (buildFrame dst src kind flags seq payload) = .good := by
  have hlen := buildFrame_length dst src kind flags seq payload
  have htake : (buildFrame dst src kind flags seq payload).take (payload.length + 6) =
      [dst, src, kind, flags, seq, BitVec.ofNat 8 payload.length] ++ payload := by
    simp [buildFrame]
  have hhalf : halfAt (buildFrame dst src kind flags seq payload) (payload.length + 6) =
      checkWord ([dst, src, kind, flags, seq, BitVec.ofNat 8 payload.length] ++ payload) := by
    rw [buildFrame, ← List.append_nil (halfBytes _)]
    exact halfAt_append _ _ _ _ (by simp)
  have hcount : (byteAt (buildFrame dst src kind flags seq payload) 5).toNat = payload.length := by
    simp [buildFrame, byteAt]
    omega
  unfold judgeFrame
  rw [hlen, if_neg (by omega), show payload.length + 8 - 2 = payload.length + 6 by omega, htake, hhalf,
    if_neg (fun h => h rfl), hcount, if_neg (by omega)]

/-- Settles O10. -/
theorem builtFramesAreGood : Obligations.BuiltFramesAreGood := by
  refine ⟨fun dst src kind flags seq payload h => ⟨?_, ?_, ?_, ?_⟩, fun a b c d => ⟨?_, ?_⟩, ?_⟩
  · exact judgeFrame_buildFrame dst src kind flags seq payload h
  · exact buildFrame_length dst src kind flags seq payload
  · exact buildFrame_payload dst src kind flags seq payload
  · rfl
  · exact halfBytes_append a b
  · exact quadBytes_append a b c d
  · exact halfAt_cons_cons

/-! ## The line events at a port (R6, R7, R17) -/

theorem exec_frameStart {s : State} (h : s.Ready) (p : Port) :
    exec (.frameStart p) s = .next (State.frameStart p s) := exec_ready h (.frameStart p) rfl rfl

theorem exec_byteArrival {s : State} (h : s.Ready) (p : Port) (b : Byte) :
    exec (.byteArrival p b) s = .next (State.byteArrival p b s) := exec_ready h (.byteArrival p b) rfl rfl

theorem exec_frameEnd_ready {s : State} (h : s.Ready) (p : Port) :
    exec (.frameEnd p) s = .next (State.frameEnd p s) := exec_ready h (.frameEnd p) rfl rfl

theorem exec_lossOfSignal {s : State} (h : s.Ready) (p : Port) :
    exec (.lossOfSignal p) s = .next (State.lossOfSignal p s) := exec_ready h (.lossOfSignal p) rfl rfl

theorem exec_returnOfSignal {s : State} (h : s.Ready) (p : Port) :
    exec (.returnOfSignal p) s = .next (State.returnOfSignal p s) := exec_ready h (.returnOfSignal p) rfl rfl

theorem State.frameStart_closed {s : State} {p : Port} (hl : (s.port p).link = .up) (ha : (s.port p).assembly = none) :
    State.frameStart p s = s.setPort p { s.port p with assembly := some [] } := by
  simp [State.frameStart, hl, ha]

theorem State.frameStart_open {s : State} {p : Port} {l : List Byte} (hl : (s.port p).link = .up)
    (ha : (s.port p).assembly = some l) :
    State.frameStart p s = s.setPort p { s.port p with
      assembly := some [], stats := (s.port p).stats.inc .rxLengthError } := by
  simp [State.frameStart, hl, ha, State.count_setPort]

theorem State.byteArrival_closed {s : State} {p : Port} (b : Byte) (ha : (s.port p).assembly = none) :
    State.byteArrival p b s = s := by
  simp [State.byteArrival, ha]

theorem State.byteArrival_open {s : State} {p : Port} {l : List Byte} (b : Byte) (hl : (s.port p).link = .up)
    (ha : (s.port p).assembly = some l) (hlen : l.length < 248) :
    State.byteArrival p b s = s.setPort p { s.port p with assembly := some (l ++ [b]) } := by
  simp [State.byteArrival, hl, ha, Nat.not_le.mpr hlen]

theorem State.byteArrival_full {s : State} {p : Port} {l : List Byte} (b : Byte) (hl : (s.port p).link = .up)
    (ha : (s.port p).assembly = some l) (hlen : 248 ≤ l.length) :
    State.byteArrival p b s = s.setPort p { s.port p with
      assembly := none, stats := (s.port p).stats.inc .rxLengthError } := by
  simp [State.byteArrival, hl, ha, hlen, State.count_setPort]

theorem State.frameEnd_closed {s : State} {p : Port} (ha : (s.port p).assembly = none) : State.frameEnd p s = s := by
  simp [State.frameEnd, ha]

/-- A port that is DOWN takes no start, byte or end of a frame, and no second loss of signal (R17). -/
theorem State.lineEvents_down {s : State} {p : Port} (hl : (s.port p).link = .down) :
    State.frameStart p s = s ∧ (∀ b, State.byteArrival p b s = s) ∧ State.frameEnd p s = s ∧
      State.lossOfSignal p s = s := by
  simp [State.frameStart, State.byteArrival, State.frameEnd, State.lossOfSignal, hl]

theorem State.lossOfSignal_up {s : State} {p : Port} (hl : (s.port p).link = .up) :
    State.lossOfSignal p s =
      (s.setPort p { s.port p with link := .down, assembly := none }).endTransmission p false := by
  simp [State.lossOfSignal, hl]

/-- A count of 32 bits goes up by one until all its bits are ones (R19). -/
theorem satInc_quad_toNat (x : Quad) : (satInc x).toNat = min (x.toNat + 1) 4294967295 :=
  (satInc_toNat x).trans (Nat.min_comm _ _)

theorem State.Ready.setPort {s : State} (h : s.Ready) (p : Port) (r : PortRecord) : (s.setPort p r).Ready :=
  ⟨(s.setPort_held p r).trans h.1, (s.setPort_due p r).trans h.2⟩

/-- Settles O13. -/
theorem assemblyOpensAndGrows : Obligations.AssemblyOpensAndGrows := by
  refine ⟨fun s p hs hl => ⟨fun l ha => ⟨?_, fun hlen b => ?_⟩, fun ha => ⟨?_, fun b => ?_, ?_⟩⟩, fun t => ?_,
    satInc_quad_toNat, State.count_setPort⟩
  · rw [exec_frameStart hs, State.frameStart_open hl ha]
  · rw [exec_byteArrival hs, State.byteArrival_open b hl ha hlen]
  · rw [exec_frameStart hs, State.frameStart_closed hl ha]
  · rw [exec_byteArrival hs, State.byteArrival_closed b ha]
  · rw [exec_frameEnd_ready hs, State.frameEnd_closed ha]
  · exact ⟨rfl, rfl, rfl, rfl, rfl, rfl, rfl, rfl, rfl, rfl, rfl, rfl⟩

/-- Settles O14: the byte closes the assembly, and without an assembly a byte or an end does nothing. -/
theorem overlongFrameCountedOnce : Obligations.OverlongFrameCountedOnce := by
  intro s p l b ⟨hs, hl, ha⟩ hlen
  refine ⟨_, exec_byteArrival hs p b, State.byteArrival_full b hl ha hlen.ge, ?_⟩
  rw [State.byteArrival_full b hl ha hlen.ge]
  have hready : (s.setPort p { s.port p with
      assembly := none, stats := (s.port p).stats.inc .rxLengthError }).Ready := hs.setPort p _
  have hclosed : ((s.setPort p { s.port p with
      assembly := none, stats := (s.port p).stats.inc .rxLengthError }).port p).assembly = none := by simp
  exact ⟨fun b' => by rw [exec_byteArrival hready, State.byteArrival_closed b' hclosed],
    by rw [exec_frameEnd_ready hready, State.frameEnd_closed hclosed]⟩

/-- Settles O19. -/
theorem lossAndReturnOfSignal : Obligations.LossAndReturnOfSignal := by
  intro s p hs
  refine ⟨fun hl ht => ?_, fun x hl ht hx => ?_, fun hl => ?_, fun hl => ?_⟩
  · rw [exec_lossOfSignal hs, State.lossOfSignal_up hl, State.endTransmission_none _ _ _ (by simpa using ht)]
  · rw [exec_lossOfSignal hs, State.lossOfSignal_up hl, State.endTransmission_eq _ _ _ x (by simpa using ht),
      if_neg hx]
    simp
  · obtain ⟨hstart, hbyte, hend, hloss⟩ := State.lineEvents_down hl
    refine ⟨?_, ?_, ?_, fun b => ?_, ?_⟩
    · rw [exec_lossOfSignal hs, hloss]
    · rw [exec_returnOfSignal hs]
      simp [State.returnOfSignal, hl]
    · rw [exec_frameStart hs, hstart]
    · rw [exec_byteArrival hs, hbyte]
    · rw [exec_frameEnd_ready hs, hend]
  · rw [exec_returnOfSignal hs]
    simp [State.returnOfSignal, hl]

/-! ## The end of a frame (R8) -/

theorem judgeFrame_length {l : List Byte} (h : l.length < 8 ∨ 248 < l.length) : judgeFrame l = .lengthError :=
  if_pos h

theorem judgeFrame_check {l : List Byte} (h8 : 8 ≤ l.length) (h248 : l.length ≤ 248)
    (hc : checkWord (l.take (l.length - 2)) ≠ halfAt l (l.length - 2)) : judgeFrame l = .checkError := by
  rw [judgeFrame, if_neg (by omega), if_pos hc]

/-- A frame of a length in range whose check word is correct is judged by its length byte. -/
theorem judgeFrame_len {l : List Byte} (h8 : 8 ≤ l.length) (h248 : l.length ≤ 248)
    (hc : checkWord (l.take (l.length - 2)) = halfAt l (l.length - 2)) :
    judgeFrame l = if (byteAt l 5).toNat ≠ l.length - 8 then .lengthError else .good := by
  rw [judgeFrame, if_neg (by omega), if_neg (not_not_intro hc)]

theorem exec_frameEnd_lengthError {s : State} {p : Port} {l : List Byte} (h : s.Receives p l)
    (hj : judgeFrame l = .lengthError) :
    exec (.frameEnd p) s = .next (s.setPort p { s.port p with
      assembly := none, stats := (s.port p).stats.inc .rxLengthError }) := by
  rw [exec_frameEnd h]
  simp [State.judgeEnd, hj, State.count_setPort]

theorem exec_frameEnd_checkError {s : State} {p : Port} {l : List Byte} (h : s.Receives p l)
    (hj : judgeFrame l = .checkError) :
    exec (.frameEnd p) s = .next (s.setPort p { s.port p with
      assembly := none, stats := (s.port p).stats.inc .rxCheckError }) := by
  rw [exec_frameEnd h]
  simp [State.judgeEnd, hj, State.count_setPort]

/-- Settles O15. -/
theorem frameEndDiscardsBadFrames : Obligations.FrameEndDiscardsBadFrames := by
  intro s p l h
  refine ⟨fun hlen => ?_, fun h8 h248 hc => ?_, fun h8 h248 hc hn => ?_, fun h8 h248 hc hn => ?_⟩
  · exact exec_frameEnd_lengthError h (judgeFrame_length hlen)
  · exact exec_frameEnd_checkError h (judgeFrame_check h8 h248 hc)
  · exact exec_frameEnd_lengthError h ((judgeFrame_len h8 h248 hc).trans (if_pos hn))
  · exact (judgeFrame_len h8 h248 hc).trans (if_neg (not_not_intro hn))

/-! ## The direction table and the payload checks (R10 to R15) -/

theorem FrameKind.ofCode_unknown {b : Byte} (h : b = 0 ∨ 7 < b.toNat) : FrameKind.ofCode b = .unknown := by
  have hne : ∀ n : Byte, n ∈ ([0x01, 0x02, 0x03, 0x04, 0x05, 0x06, 0x07] : List Byte) → b ≠ n := by
    rintro n hn rfl
    revert h
    fin_cases hn <;> decide
  simp only [List.mem_cons, List.not_mem_nil, or_false, forall_eq_or_imp, forall_eq] at hne
  obtain ⟨h1, h2, h3, h4, h5, h6, h7⟩ := hne
  simp only [FrameKind.ofCode, h1, h2, h3, h4, h5, h6, h7, if_false]

theorem State.badSource_iff (s : State) (a : Addr) :
    s.badSource a = true ↔ a = 0 ∨ a = 63 ∨ a = s.system.ownAddress := by
  simp [State.badSource]

/-- What the F-port discards: a frame for the part, or of a kind that no node sends (R11). -/
theorem directionTable_f_misdirected {kind : FrameKind} {own sup : Bool}
    (h : own = true ∨ kind ∈ [.request, .response, .notice, .command, .setpoint]) :
    directionTable .f kind own sup = .misdirected := by
  rcases h with rfl | h
  · rfl
  · cases own with
    | true => rfl
    | false => fin_cases h <;> rfl

/-- What the S-port discards: a frame for the part that is no supervisor's request, or of a kind no supervisor sends
(R11). -/
theorem directionTable_s_misdirected {kind : FrameKind} {own sup : Bool}
    (h : (own = true ∧ ¬ (kind = .request ∧ sup = true)) ∨
      (own = false ∧ kind ∈ [.sample, .status, .response, .notice])) :
    directionTable .s kind own sup = .misdirected := by
  rcases h with ⟨rfl, hk⟩ | ⟨rfl, hk⟩
  · simp only [directionTable, if_true, if_neg hk]
  · fin_cases hk <;> rfl

/-- What is forwarded as it came: an unknown kind upward; a command, a request or an unknown kind downward (R11). -/
theorem directionTable_forward {p : Port} {kind : FrameKind} {sup : Bool}
    (h : (p = .f ∧ kind = .unknown) ∨ (p = .s ∧ kind ∈ [.command, .request, .unknown])) :
    directionTable p kind false sup = .forward := by
  rcases h with ⟨rfl, rfl⟩ | ⟨rfl, hk⟩
  · rfl
  · fin_cases hk <;> rfl

/-- A good frame that does not fail the source check is handed off as the direction table says (R9 to R11). -/
theorem exec_frameEnd_route {s : State} {p : Port} {l : List Byte} {r : Route} (h : s.Receives p l)
    (hg : judgeFrame l = .good) (hsrc : p = .f → s.badSource (addressOf (byteAt l 1)) = false)
    (hr : directionTable p (FrameKind.ofCode (byteAt l 2)) (addressOf (byteAt l 0) = s.system.ownAddress)
      (addressOf (byteAt l 1) = 0) = r) :
    exec (.frameEnd p) s = .next ((s.received p).handOff p { bytes := l } r) := by
  rw [exec_frameEnd_good h hg, if_neg (fun ⟨hp, hb⟩ => by simp [hsrc hp] at hb), hr]

theorem State.badSource_eq_false {s : State} {a : Addr} (h0 : a ≠ 0) (h63 : a ≠ 63) (ho : a ≠ s.system.ownAddress) :
    s.badSource a = false := by
  rw [← Bool.not_eq_true, State.badSource_iff]
  exact not_or.mpr ⟨h0, not_or.mpr ⟨h63, ho⟩⟩

/-- Settles O16. -/
theorem sourceAndDirection : Obligations.SourceAndDirection := by
  refine ⟨fun s l h hg hsrc => ?_, ⟨fun s l h hg h0 h63 ho hdir => ?_, fun s l h hg hdir => ?_⟩, by decide,
    fun b => FrameKind.ofCode_unknown⟩
  · rw [exec_frameEnd_good h hg, if_pos ⟨rfl, (s.badSource_iff _).mpr hsrc⟩]
  · exact exec_frameEnd_route h hg (fun _ => State.badSource_eq_false h0 h63 ho)
      (directionTable_f_misdirected (by simpa using hdir))
  · exact exec_frameEnd_route h hg nofun (directionTable_s_misdirected (by simpa using hdir))

/-- Settles O17. -/
theorem transparentForwarding : Obligations.TransparentForwarding := by
  intro s p l h hg hdst hroute
  have hexec : exec (.frameEnd p) s = .next ((s.received p).offerForward p l) := by
    apply exec_frameEnd_route (r := .forward) h hg
    · rintro rfl
      rcases hroute with ⟨-, -, h0, h63, ho⟩ | ⟨hp, -⟩
      · exact State.badSource_eq_false h0 h63 ho
      · cases hp
    · rw [decide_eq_false hdst]
      exact directionTable_forward (hroute.imp (fun ⟨hp, hk, _⟩ => ⟨hp, hk⟩) id)
  obtain ⟨hroom, hfull⟩ := s.received_offerForward p l
  exact ⟨fun hq => by rw [hexec, hroom hq], fun hq => by rw [hexec, hfull hq]⟩

/-! ## The payload checks (R14, R15) -/

/-- A SAMPLE payload fails its check by its count, its length, or a reading of the invalid quality code (R14). -/
theorem sampleReadings_eq_none {n : Byte} {rest : List Byte}
    (h : n = 0 ∨ 12 < n.toNat ∨ rest.length ≠ 3 * n.toNat ∨
      ∃ j, j < n.toNat ∧ (byteAt rest (3 * j)).extractLsb' 4 2 = 3#2) :
    sampleReadings (n :: rest) = none := by
  unfold sampleReadings
  dsimp only
  split
  · rfl
  · next hcount =>
    rw [List.length_cons] at hcount
    obtain ⟨hzero, hmax, hlen⟩ : n ≠ 0 ∧ ¬ 12 < n.toNat ∧ rest.length = 3 * n.toNat :=
      ⟨fun h => hcount (.inl h), fun h => hcount (.inr (.inl h)), by omega⟩
    obtain ⟨j, hj, hq⟩ : ∃ j, j < n.toNat ∧ (byteAt rest (3 * j)).extractLsb' 4 2 = 3#2 := by
      simpa only [hzero, hmax, hlen, ne_eq, not_true_eq_false, false_or] using h
    refine if_pos (List.any_eq_true.mpr ⟨_, mem_readingsOf rest j (by omega), ?_⟩)
    simp [Reading.quality, hq]

/-- A SETPOINT payload fails its check by its count, its length, or an item out of range (R15). -/
theorem setpointItems_eq_none {n : Byte} {rest : List Byte}
    (h : n = 0 ∨ 16 < n.toNat ∨ rest.length ≠ 3 * n.toNat ∨
      ∃ j, j < n.toNat ∧ (15 < (byteAt rest (3 * j)).toNat ∨ 4095 < (halfAt rest (3 * j + 1)).toNat)) :
    setpointItems (n :: rest) = none := by
  unfold setpointItems
  dsimp only
  split
  · rfl
  · next hcount =>
    rw [List.length_cons] at hcount
    obtain ⟨hzero, hmax, hlen⟩ : n ≠ 0 ∧ ¬ 16 < n.toNat ∧ rest.length = 3 * n.toNat :=
      ⟨fun h => hcount (.inl h), fun h => hcount (.inr (.inl h)), by omega⟩
    obtain ⟨j, hj, hrange⟩ : ∃ j, j < n.toNat ∧
        (15 < (byteAt rest (3 * j)).toNat ∨ 4095 < (halfAt rest (3 * j + 1)).toNat) := by
      simpa only [hzero, hmax, hlen, ne_eq, not_true_eq_false, false_or] using h
    exact if_pos (List.any_eq_true.mpr ⟨_, mem_frameItemsOf rest j (by omega), decide_eq_true hrange⟩)

theorem Frame.payload_length (f : Frame) : f.payload.length = f.bytes.length - 8 := by
  rw [Frame.payload, List.length_take, List.length_drop]
  omega

theorem State.handOff_sample_bad {s : State} {p : Port} {f : Frame} (h : sampleReadings f.payload = none) :
    s.handOff p f .sample = s.count p .rxFormatError := by
  simp only [State.handOff, h]

theorem State.handOff_setpoint_bad {s : State} {p : Port} {f : Frame} (h : setpointItems f.payload = none) :
    s.handOff p f .setpoint = s.count p .rxFormatError := by
  simp only [State.handOff, h]

/-- A REQUEST too short for a tag and an opcode is a format error (R15). -/
theorem State.handOff_request_short {s : State} {p : Port} {f : Frame} (h : f.bytes.length < 10) :
    s.handOff p f .request = s.count p .rxFormatError := by
  have hlen : f.payload.length < 2 := by rw [f.payload_length]; omega
  simp only [State.handOff]
  split
  · next heq => simp only [heq, List.length_cons] at hlen; omega
  · rfl

/-- Settles O18. -/
theorem payloadFormatErrors : Obligations.PayloadFormatErrors := by
  refine ⟨fun s l n rest h hk hp hbad => ?_, fun s l n rest h hg hd hk hp hbad => ?_,
    fun s l h hg hd hs hk hlen => ?_⟩
  · rw [exec_frameEnd_f h, hk]
    exact congrArg _ (State.handOff_sample_bad (by rw [hp, sampleReadings_eq_none hbad]))
  · rw [exec_frameEnd_s h hg, hk, decide_eq_false hd]
    exact congrArg _ (State.handOff_setpoint_bad (by rw [hp, setpointItems_eq_none hbad]))
  · rw [exec_frameEnd_s h hg, hk, decide_eq_true hd, decide_eq_true hs]
    exact congrArg _ (State.handOff_request_short hlen)

/-! ## Tables after a reset (R19, R20, R188) -/

/-- A table of equal entries, that entry standing also for what lies outside it, reads alike everywhere. -/
theorem getElem?_replicate_getD {α : Type} (n : Nat) (x : α) (i : Nat) : (Vector.replicate n x)[i]?.getD x = x := by
  rw [Vector.getElem?_replicate]
  split <;> rfl

theorem State.reset_node (a : Addr) : State.reset.node a = .empty := by
  unfold State.node
  split
  · rfl
  · exact getElem?_replicate_getD 62 NodeRecord.empty _

theorem State.reset_channel (k : Slot) : State.reset.channel k = .cleared .factory :=
  Vector.getElem_replicate k.isLt

theorem State.reset_output (i : OutIdx) :
    State.reset.output i = { config := .factory (BitVec.ofNat 4 i.val), runtime := .cleared .off } :=
  tableOf_getElem 16 (fun i => ({ config := .factory (BitVec.ofNat 4 i), runtime := .cleared .off } : OutputRecord))
    i.val i.isLt

theorem PortStats.zero_get (n : StatName) : PortStats.zero.get n = 0 := by
  cases n <;> rfl

theorem State.reset_port (p : Port) : State.reset.port p = .reset := by
  cases p <;> rfl

/-- Settles O5. -/
theorem resetValues : Obligations.ResetValues := by
  refine ⟨rfl, State.reset_node, rfl, State.reset_channel, State.reset_output, rfl, rfl, rfl, rfl, fun p => ?_,
    rfl, rfl, rfl, rfl, rfl, rfl, rfl⟩
  rw [State.reset_port]
  exact ⟨rfl, rfl, rfl, PortStats.zero_get⟩

/-! ## Every block after either form of reset (R37, R62, R117) -/

/-- What a reset leaves in an output's runtime, from its configuration (R98, R117). -/
def OutputConfig.resetRuntime (c : OutputConfig) : OutputRuntime :=
  if c.enabled = true then
    { state := .fallback, target := none, forced := none, refreshCount := 0,
      issued := match c.fallback with
        | .hold => none
        | .safe => some c.safe
        | .ramp => some c.safe }
  else .cleared .off

/-- The setpoint set a reset leaves: an item for every enabled output whose policy issues at once (R98, R117). -/
def State.resetSetpoints (s : State) : List SetpointItem :=
  (allOutputs.filter fun i => (s.output i).config.enabled && decide ((s.output i).config.fallback ≠ .hold)).map
    fun i => { output := i, node := (s.output i).config.targetNode, index := (s.output i).config.targetIndex,
               value := (s.output i).config.safe }

/-- The state both forms of reset leave in every block but the ports, the tables' configuration and the Image Store;
`value` is RESTARTED's (R37, R62, R87, R117, R138, R139, R153, R154, R164, R175, R182). -/
structure State.BlocksReset (value : Half) (t : State) : Prop where
  node : ∀ a : Addr, (t.node a).runtime = .clear
  channel : ∀ k : Slot, (t.channel k).runtime = .clear (t.channel k).config.enabled
  output : ∀ i : OutIdx, (t.output i).runtime = (t.output i).config.resetRuntime
  setpoints : t.setpoints = t.resetSetpoints
  log : t.log = .restarted value
  queue : t.queue = .empty
  egress : t.egress = .clear
  time : t.time = { counter := 0, interval := t.system.tickPeriod, handedOn := .idle }
  due : t.due = .none
  capture : t.capture = none

theorem State.restartBlocks_blocksReset (s : State) (v : Half) : (s.restartBlocks v).BlocksReset v where
  node a := by rw [State.restartBlocks_node]
  channel k := by rw [State.restartBlocks_channel]; rfl
  output i := by
    rw [State.restartBlocks_output_config]
    exact s.restartBlocks_output_runtime v i
  setpoints := by
    simp only [State.resetSetpoints, State.restartBlocks_output_config]
    exact s.restartBlocks_setpoints v
  log := s.restartBlocks_log v
  queue := s.restartBlocks_queue v
  egress := s.restartBlocks_egress v
  time := by rw [State.restartBlocks_time, State.restartBlocks_system]
  due := s.restartBlocks_due v
  capture := s.restartBlocks_capture v

/-! ## The hard reset (R18, R187, R188, R197) -/

theorem State.endInFlight_select (s : State) : s.endInFlight.store.select = s.store.select := rfl

/-- The start-up loads the image of the bank it selects (R187, R188). -/
theorem State.startUp_some {s : State} {id : BankId} {img : Image} (h : s.store.select = some (id, img)) :
    s.startUp.liveImage = img ∧
      s.startUp.store = { s.store with current := some id, commit := none, lastResult := .none, dirty := false } := by
  unfold State.startUp
  rw [h]
  exact ⟨s.loadImage_liveImage img, rfl⟩

/-- Without a bank to load the start-up sets the factory defaults (R188). -/
theorem State.startUp_none {s : State} (h : s.store.select = none) :
    s.startUp.liveImage = .factory ∧
      s.startUp.store = { s.store with current := none, commit := none, lastResult := .none, dirty := false } := by
  unfold State.startUp
  rw [h]
  exact ⟨s.loadImage_liveImage .factory, rfl⟩

/-- The start-up touches the tables and the Image Store, whose banks stand as they were (R187, R188). -/
theorem State.startUp_frame (s : State) :
    s.startUp.pending = s.pending ∧ s.startUp.portF = s.portF ∧ s.startUp.portS = s.portS ∧
      s.startUp.store = { s.store with current := s.startUp.store.current, commit := none, lastResult := .none,
                                       dirty := false } := by
  unfold State.startUp
  split <;> exact ⟨rfl, rfl, rfl, rfl⟩

/-- The part let go from RESET, its links as the lines show them (R18, R196). -/
def State.released (s : State) (lineF lineS : LinkState) : State :=
  { s with held := false, portF := { s.portF with link := lineF }, portS := { s.portS with link := lineS } }

/-- A hard reset is the reset of the blocks on the tables its start-up loaded, and then the release (R196, R197). -/
theorem State.hardReset_eq (s : State) (lineF lineS : LinkState) :
    s.hardReset lineF lineS = (s.endInFlight.startUp.restartBlocks 0).released lineF lineS := rfl

theorem State.released_frame (s : State) (lineF lineS : LinkState) :
    (s.released lineF lineS).pending = s.pending ∧ (s.released lineF lineS).liveImage = s.liveImage ∧
      (s.released lineF lineS).store = s.store := ⟨rfl, rfl, rfl⟩

theorem State.BlocksReset.released {t : State} {v : Half} (h : t.BlocksReset v) (lineF lineS : LinkState) :
    (t.released lineF lineS).BlocksReset v :=
  ⟨h.node, h.channel, h.output, h.setpoints, h.log, h.queue, h.egress, h.time, h.due, h.capture⟩

theorem State.hardReset_blocksReset (s : State) (lineF lineS : LinkState) : (s.hardReset lineF lineS).BlocksReset 0 := by
  rw [State.hardReset_eq]
  exact (s.endInFlight.startUp.restartBlocks_blocksReset 0).released lineF lineS

/-- A hard reset keeps the queue of commands, and its configuration and Image Store are the start-up's. -/
theorem State.hardReset_frame (s : State) (lineF lineS : LinkState) :
    (s.hardReset lineF lineS).pending = s.pending ∧
      (s.hardReset lineF lineS).liveImage = s.endInFlight.startUp.liveImage ∧
      (s.hardReset lineF lineS).store = s.endInFlight.startUp.store := by
  obtain ⟨hpending, himage, hstore⟩ := (s.endInFlight.startUp.restartBlocks 0).released_frame lineF lineS
  obtain ⟨hqueue, -⟩ := s.endInFlight.startUp_frame
  rw [State.hardReset_eq, hpending, himage, hstore, State.restartBlocks_liveImage, State.restartBlocks_store,
    State.restartBlocks_pending]
  exact ⟨hqueue, rfl, rfl⟩

/-- A hard reset leaves each port with its link as the line shows it and nothing else (R18, R19, R153). -/
theorem State.hardReset_ports (s : State) (lineF lineS : LinkState) :
    (s.hardReset lineF lineS).portF =
        { link := lineF, assembly := none, stats := .zero, transmitter := none, forwardQueue := [] } ∧
      (s.hardReset lineF lineS).portS =
        { link := lineS, assembly := none, stats := .zero, transmitter := none, forwardQueue := [] } := by
  obtain ⟨-, hF, hS, -⟩ := s.endInFlight.startUp_frame
  simp only [State.hardReset, State.restartBlocks_portF, State.restartBlocks_portS, hF, hS]
  exact ⟨rfl, rfl⟩

theorem State.hardReset_held (s : State) (lineF lineS : LinkState) : (s.hardReset lineF lineS).held = false := rfl

/-! ## Images (R183, R188) -/

theorem Image.factory_nodeAt (a : Addr) : Image.factory.nodeAt a = .empty := by
  unfold Image.nodeAt
  split
  · rfl
  · exact getElem?_replicate_getD 62 NodeConfig.empty _

theorem Image.factory_channel (k : Slot) : Image.factory.channels[k.val] = .factory :=
  Vector.getElem_replicate k.isLt

theorem Image.factory_output (i : OutIdx) : Image.factory.outputs[i.val] = .factory (BitVec.ofNat 4 i.val) :=
  tableOf_getElem 16 (fun i => OutputConfig.factory (BitVec.ofNat 4 i)) i.val i.isLt

theorem State.liveImage_nodeAt (s : State) (a : Addr) : s.liveImage.nodeAt a = (s.node a).config := by
  unfold Image.nodeAt State.node
  split
  · rfl
  · rw [State.liveImage, tableMap_getElem?]
    cases s.nodes[a.toNat - 1]? <;> rfl

theorem State.liveImage_channel (s : State) (k : Slot) : s.liveImage.channels[k.val] = (s.channel k).config :=
  tableMap_getElem _ _ _ _

theorem State.liveImage_output (s : State) (i : OutIdx) : s.liveImage.outputs[i.val] = (s.output i).config :=
  tableMap_getElem _ _ _ _

/-- Settles O7. -/
theorem hardResetState : Obligations.HardResetState := by
  refine ⟨fun s lineF lineS => ⟨s.hardReset lineF lineS, rfl, ?_⟩, ?_, ?_, fun s => ?_⟩
  · obtain ⟨hpending, himage, hstore⟩ := s.hardReset_frame lineF lineS
    obtain ⟨hF, hS⟩ := s.hardReset_ports lineF lineS
    obtain ⟨hnode, hchannel, houtput, hset, hlog, hqueue, hegress, htime, hdue, hcapture⟩ :=
      s.hardReset_blocksReset lineF lineS
    obtain ⟨-, -, -, hbanks⟩ := s.endInFlight.startUp_frame
    have hheld := s.hardReset_held lineF lineS
    generalize s.hardReset lineF lineS = t at *
    rw [himage, hstore]
    refine ⟨hpending, hheld, fun id img h => ?_, fun h => ?_, ?_, ?_, ?_, ?_, ?_, hF, hS, hnode, hchannel, houtput, hset,
      hlog, hqueue, hegress, htime, hdue, hcapture⟩
    · obtain ⟨hi, hs⟩ := State.startUp_some (s.endInFlight_select.trans h)
      exact ⟨hi, by rw [hs]⟩
    · obtain ⟨hi, hs⟩ := State.startUp_none (s.endInFlight_select.trans h)
      exact ⟨hi, by rw [hs]⟩
    · rw [hbanks]; rfl
    · rw [hbanks]; rfl
    all_goals rw [hbanks]
  · exact ⟨fun _ => rfl, rfl, rfl, fun _ => rfl, rfl, rfl⟩
  · exact ⟨rfl, Image.factory_nodeAt, rfl, Image.factory_channel, Image.factory_output⟩
  · exact ⟨rfl, rfl, s.liveImage_nodeAt, s.liveImage_channel, s.liveImage_output⟩

/-! ## The soft restart (R171, R198, R199) -/

/-- The head entry leaves the queue; a completed response becomes the memory (R162). -/
def RequestQueue.released (q : RequestQueue) (completed : Bool) (e : RequestEntry) (rest : List RequestEntry) :
    RequestQueue :=
  { q with
    entries := rest
    memory :=
      match completed, e.response with
      | true, some r => some { tag := e.tag, seq := e.seq, response := r }
      | _, _ => q.memory }

theorem State.releaseResponse_sending {s : State} {e : RequestEntry} {rest : List RequestEntry}
    (hq : s.queue.entries = e :: rest) (he : e.state = .sending) (completed : Bool) :
    s.releaseResponse completed =
      if s.queue.restartPending ∧ e.isRestart then
        ({ s with queue := s.queue.released completed e rest } : State).softRestart
      else { s with queue := s.queue.released completed e rest } := by
  unfold State.releaseResponse
  rw [hq]
  dsimp only
  rw [if_neg (not_not_intro he)]
  rfl

/-- The response of the RESTART itself ends, one way or the other: the part restarts, its S-port as it stands with the
transmitter free (R171, R198). -/
theorem State.endTransmission_restart {s : State} {x : Transmission} {e : RequestEntry} {rest : List RequestEntry}
    (ht : s.portS.transmitter = some x) (hx : x.source = .response) (hq : s.queue.entries = e :: rest)
    (he : e.state = .sending) (hp : s.queue.restartPending = true) (hr : e.isRestart = true) (completed : Bool) :
    s.endTransmission .s completed =
      { s.restartBlocks 1 with portS := ({ s.portS with transmitter := none } : PortRecord).restarted } := by
  rw [State.endTransmission_eq s .s completed x ht, if_pos hx,
    State.releaseResponse_sending (e := e) (rest := rest) (by simpa using hq) he, if_pos ⟨by simpa using hp, hr⟩]
  exact s.restartBlocks_ended 1 s.portS _ s.queue _

/-- The S-port's record does not enter a restart of the blocks but for itself. -/
theorem State.restartBlocks_setPort_s (s : State) (v : Half) (r : PortRecord) :
    (s.setPort .s r).restartBlocks v = { s.restartBlocks v with portS := r.restarted } :=
  s.restartBlocks_ended v s.portS r s.queue s.queue

theorem RequestEntry.isRestart_of_response {e : RequestEntry} {r : Response} (he : e.response = some r)
    (ho : r.opcode = 0x05) (hs : r.status = .ok) (hr : r.repeated = false) : e.isRestart = true := by
  simp [RequestEntry.isRestart, he, ho, hs, hr, RequestKind.opcode]

/-- Settles O34. -/
theorem softRestart : Obligations.SoftRestart := by
  intro s x e r rest hs ht hx hq he hp hresp ho hst hrep
  have hr : e.isRestart = true := RequestEntry.isRestart_of_response hresp ho hst hrep
  have hcomplete : exec (.transmissionComplete .s) s = .next (s.endTransmission .s true) :=
    exec_ready hs (.transmissionComplete .s) rfl rfl
  rw [State.endTransmission_restart ht hx hq he hp hr] at hcomplete
  refine ⟨_, hcomplete, fun hl => ?_, ?_⟩
  · rw [exec_lossOfSignal hs, State.lossOfSignal_up (p := .s) hl, State.endTransmission_restart (by simpa using ht) hx
      (by simpa using hq) he (by simpa using hp) hr, State.restartBlocks_setPort_s]
    rfl
  · obtain ⟨hnode, hchannel, houtput, hset, hlog, hqueue, hegress, htime, hdue, hcapture⟩ := s.restartBlocks_blocksReset 1
    have himage := s.restartBlocks_liveImage 1
    have hstore := s.restartBlocks_store 1
    have hF := s.restartBlocks_portF 1
    have hpending := s.restartBlocks_pending 1
    have hheld := (s.restartBlocks_held 1).trans hs.1
    rw [s.restartBlocks_system] at htime
    generalize s.restartBlocks 1 = t at *
    exact ⟨hpending, hheld, himage, hstore, hF, rfl, hnode, hchannel, houtput, hset, hlog, hqueue, hegress, htime, hdue,
      hcapture⟩

/-! ## The bounds of the ports and the frames they hold (R7, R17, R140, R141) -/

/-- A port's bounds, and every frame it holds good. -/
structure PortRecord.Safe (r : PortRecord) : Prop where
  room : r.forwardQueue.length ≤ 8
  assembled : ∀ l ∈ r.assembly, l.length ≤ 248
  down : r.link = .down → r.assembly = none ∧ r.transmitter = none
  queued : ∀ f ∈ r.forwardQueue, judgeFrame f = .good
  flying : ∀ t ∈ r.transmitter, judgeFrame t.frame = .good

namespace PortRecord.Safe

variable {r : PortRecord}

theorem withStats (h : r.Safe) (x : PortStats) : { r with stats := x }.Safe :=
  ⟨h.room, h.assembled, h.down, h.queued, h.flying⟩

/-- A receiver without an open assembly, the link as it was. -/
theorem closed (h : r.Safe) : { r with assembly := none }.Safe :=
  ⟨h.room, nofun, fun hl => ⟨rfl, (h.down hl).2⟩, h.queued, h.flying⟩

theorem opened (h : r.Safe) (hl : r.link = .up) {l : List Byte} (hlen : l.length ≤ 248) :
    { r with assembly := some l }.Safe :=
  ⟨h.room, fun _ hm => Option.mem_some.mp hm ▸ hlen, fun hd => absurd (hl.symm.trans hd) nofun, h.queued, h.flying⟩

/-- A transmitter without a frame in flight. -/
theorem freed (h : r.Safe) : { r with transmitter := none }.Safe :=
  ⟨h.room, h.assembled, fun hl => ⟨(h.down hl).1, rfl⟩, h.queued, nofun⟩

theorem transmitting (h : r.Safe) (hl : r.link = .up) {x : Transmission} (hg : judgeFrame x.frame = .good) :
    { r with transmitter := some x }.Safe :=
  ⟨h.room, h.assembled, fun hd => absurd (hl.symm.trans hd) nofun, h.queued, fun _ hm => Option.mem_some.mp hm ▸ hg⟩

/-- A forward queue that has lost its head. -/
theorem dequeued (h : r.Safe) {f : List Byte} {rest : List (List Byte)} (hq : r.forwardQueue = f :: rest) :
    { r with forwardQueue := rest }.Safe :=
  ⟨by have := h.room; rw [hq, List.length_cons] at this; exact Nat.le_of_succ_le this, h.assembled, h.down,
    fun x hx => h.queued x (by rw [hq]; exact List.mem_cons_of_mem f hx), h.flying⟩

/-- A forward queue with room that a good frame has joined. -/
theorem enqueued (h : r.Safe) (hroom : r.forwardQueue.length < 8) {f : List Byte} (hg : judgeFrame f = .good) :
    { r with forwardQueue := r.forwardQueue ++ [f] }.Safe :=
  ⟨by simpa using hroom, h.assembled, h.down,
    fun x hx => (List.mem_append.mp hx).elim (h.queued x) fun hx => List.mem_singleton.mp hx ▸ hg, h.flying⟩

/-- A link that has changed, with neither an assembly nor a transmission left behind by it. -/
theorem linked (h : r.Safe) (l : LinkState) (ht : l = .down → r.transmitter = none) :
    { r with link := l, assembly := none }.Safe :=
  ⟨h.room, nofun, fun hl => ⟨rfl, ht hl⟩, h.queued, h.flying⟩

theorem restarted (h : r.Safe) : r.restarted.Safe :=
  ⟨Nat.zero_le 8, nofun, fun hl => ⟨rfl, (h.down hl).2⟩, nofun, h.flying⟩

theorem blank (l : LinkState) :
    PortRecord.Safe { link := l, assembly := none, stats := .zero, transmitter := none, forwardQueue := [] } :=
  ⟨Nat.zero_le 8, nofun, fun _ => ⟨rfl, rfl⟩, nofun, nofun⟩

end PortRecord.Safe

/-- The responses a queue holds leave room for their frame's header (section 12.3). -/
structure RequestQueue.Fits (q : RequestQueue) : Prop where
  entries : ∀ e ∈ q.entries, ∀ r ∈ e.response, r.results.length ≤ 232
  memory : ∀ m ∈ q.memory, m.response.results.length ≤ 232

/-- A head released takes its response with it, or leaves it in the memory (R158, R162). -/
theorem RequestQueue.Fits.released {q : RequestQueue} (h : q.Fits) {e : RequestEntry} {rest : List RequestEntry}
    (hq : q.entries = e :: rest) (completed : Bool) : (q.released completed e rest).Fits := by
  have hentries := h.entries
  rw [hq] at hentries
  refine ⟨fun x hx => hentries x (List.mem_cons_of_mem e hx), ?_⟩
  unfold RequestQueue.released
  dsimp only
  split
  · next r hr =>
    rintro _ ⟨⟩
    exact hentries e List.mem_cons_self r hr
  · exact h.memory

/-- What every step keeps of the ports, the arbiters and the responses. -/
structure State.FramesSafe (s : State) : Prop where
  port : ∀ p, (s.port p).Safe
  starvation : s.egress.starvationCount ≤ 4
  fits : s.queue.Fits

theorem State.framesSafe_iff (s : State) : s.FramesSafe ↔ s.PortsLawful ∧ s.FramesGood ∧ s.ResultsFit := by
  constructor
  · rintro ⟨hport, hstarvation, hentries, hmemory⟩
    obtain ⟨froom, fassembled, fdown, fqueued, fflying⟩ := hport .f
    obtain ⟨sroom, sassembled, sdown, squeued, sflying⟩ := hport .s
    exact ⟨⟨⟨froom, fassembled, fdown⟩, ⟨sroom, sassembled, sdown⟩, hstarvation⟩,
      ⟨fun x hx => (List.mem_append.mp hx).elim (fqueued x) (squeued x), fflying, sflying⟩, hentries, hmemory⟩
  · rintro ⟨⟨⟨froom, fassembled, fdown⟩, ⟨sroom, sassembled, sdown⟩, hstarvation⟩, ⟨hqueued, fflying, sflying⟩,
      hentries, hmemory⟩
    refine ⟨fun p => ?_, hstarvation, hentries, hmemory⟩
    cases p with
    | f => exact ⟨froom, fassembled, fdown, fun x hx => hqueued x (List.mem_append_left _ hx), fflying⟩
    | s => exact ⟨sroom, sassembled, sdown, fun x hx => hqueued x (List.mem_append_right _ hx), sflying⟩

namespace State.FramesSafe

variable {s t : State}

/-- The ports of a safe state, with arbiters and a queue in bounds. -/
theorem ofPorts (h : s.FramesSafe) (hF : t.portF = s.portF) (hS : t.portS = s.portS)
    (he : t.egress.starvationCount ≤ 4) (hq : t.queue.Fits) : t.FramesSafe := by
  refine ⟨fun p => ?_, he, hq⟩
  cases p with
  | f => rw [State.port_f, hF]; exact h.port .f
  | s => rw [State.port_s, hS]; exact h.port .s

theorem congr (h : s.FramesSafe) (hF : t.portF = s.portF) (hS : t.portS = s.portS) (he : t.egress = s.egress)
    (hq : t.queue = s.queue) : t.FramesSafe :=
  h.ofPorts hF hS (he ▸ h.starvation) (hq ▸ h.fits)

theorem runtime (h : s.FramesSafe) (hr : s.RuntimeOnly t) : t.FramesSafe :=
  h.congr hr.portF_eq hr.portS_eq hr.egress_eq hr.queue_eq

theorem setPort (h : s.FramesSafe) {p : Port} {r : PortRecord} (hr : r.Safe) : (s.setPort p r).FramesSafe := by
  refine ⟨fun q => ?_, ?_, ?_⟩
  · rw [State.port_setPort]
    split
    · exact hr
    · exact h.port q
  · rw [State.setPort_egress]; exact h.starvation
  · rw [State.setPort_queue]; exact h.fits

theorem count (h : s.FramesSafe) (p : Port) (n : StatName) : (s.count p n).FramesSafe :=
  h.setPort ((h.port p).withStats _)

theorem withQueue (h : s.FramesSafe) {q : RequestQueue} (hq : q.Fits) : ({ s with queue := q } : State).FramesSafe :=
  h.ofPorts rfl rfl h.starvation hq

/-! ### The end of a frame -/

/-- A good frame offered joins a queue with room, or is counted (R13, R140). -/
theorem offerForward (h : s.FramesSafe) (p : Port) {f : List Byte} (hg : judgeFrame f = .good) :
    (s.offerForward p f).FramesSafe := by
  unfold State.offerForward
  dsimp only
  split
  · next hroom => exact h.setPort ((h.port _).enqueued hroom hg)
  · exact h.count p _

theorem samplePath (h : s.FramesSafe) {f : Frame} (hg : judgeFrame f.bytes = .good) {rs : List Reading}
    (hrs : rs.length ≤ 12) : (s.samplePath f rs).FramesSafe := by
  have hpath := h.runtime (PathState.readings_supervisionOnly f.src rs ⟨s, [], false⟩).runtimeOnly
  have hkept := PathState.readings_kept f.src rs ⟨s, [], false⟩
  unfold State.samplePath
  dsimp only
  split
  · exact hpath.offerForward .f hg
  · split
    · exact hpath.count .f _
    · refine hpath.offerForward .f (judgeFrame_buildFrame _ _ _ _ _ _ ?_)
      rw [samplePayload_length]
      rw [List.length_nil] at hkept
      omega

theorem nodeTable (h : s.FramesSafe) {f : Frame} (hg : judgeFrame f.bytes = .good) {accepted : State → State}
    (ha : ∀ u : State, u.FramesSafe → (accepted u).FramesSafe) : (s.nodeTable f accepted).FramesSafe := by
  have harrival := h.runtime (s.nodeArrival_runtimeOnly f.src f.restartFlag f.seq)
  unfold State.nodeTable
  dsimp only
  split
  · split
    · exact ha _ harrival
    · exact harrival
  · split
    · exact h.offerForward .f hg
    · exact h.count .f _

theorem ownershipFilter (h : s.FramesSafe) {f : Frame} (hg : judgeFrame f.bytes = .good) {items : List FrameItem}
    (hi : items.length ≤ 16) : (s.ownershipFilter f items).FramesSafe := by
  unfold State.ownershipFilter
  dsimp only
  have hcounted := foldl_invariant State.FramesSafe (fun (s : State) (_ : Nat) => s.count .s .rxOwnedStripped)
    (List.range (items.length - (items.filter fun i => ! s.ownsTarget f.dst i.index).length))
    (fun u _ _ hu => hu.count .s _) s h
  split
  · exact hcounted.offerForward .s hg
  · split
    · exact hcounted.count .s _
    · refine hcounted.offerForward .s (judgeFrame_buildFrame _ _ _ _ _ _ ?_)
      rw [setpointPayload_length]
      have := List.length_filter_le (fun i => ! s.ownsTarget f.dst i.index) items
      omega

/-- An accepted request is WAITING, or answered again from the memory (R156, R158). -/
theorem acceptRequest (h : s.FramesSafe) (tag seq opcode : Byte) (params : List Byte) :
    (s.acceptRequest tag seq opcode params).FramesSafe := by
  unfold State.acceptRequest
  dsimp only
  split
  · exact h.count .s _
  · split
    · exact h.withQueue ⟨h.fits.entries, h.fits.memory⟩
    · refine h.withQueue ⟨fun e he => (List.mem_append.mp he).elim (h.fits.entries e) fun he => ?_, h.fits.memory⟩
      rw [List.mem_singleton.mp he]
      split
      · exact nofun
      · next m hm =>
        split
        · rintro _ ⟨⟩
          exact h.fits.memory m hm
        · exact nofun

theorem handOff (h : s.FramesSafe) (p : Port) {f : Frame} (hg : judgeFrame f.bytes = .good) (r : Route) :
    (s.handOff p f r).FramesSafe := by
  cases r with
  | misdirected => exact h.count p _
  | forward => exact h.offerForward p hg
  | sample =>
    simp only [State.handOff]
    split
    · exact h.count p _
    · next rs hrs => exact h.nodeTable hg fun u hu => hu.samplePath hg (sampleReadings_length _ rs hrs)
  | status => exact h.nodeTable hg fun u hu => hu.offerForward .f hg
  | setpoint =>
    simp only [State.handOff]
    split
    · exact h.count p _
    · next items hitems => exact h.ownershipFilter hg (setpointItems_length _ items hitems)
  | request =>
    simp only [State.handOff]
    split
    · exact h.acceptRequest _ _ _ _
    · exact h.count p _

theorem judgeEnd (h : s.FramesSafe) (p : Port) (l : List Byte) : (s.judgeEnd p l).FramesSafe := by
  unfold State.judgeEnd
  split
  · exact h.count p _
  · exact h.count p _
  · next hg =>
    unfold State.goodFrame
    dsimp only
    split
    · exact (h.count p _).count p _
    · exact (h.count p _).handOff p hg _

/-! ### The line events -/

theorem frameStart (h : s.FramesSafe) (p : Port) : (State.frameStart p s).FramesSafe := by
  cases hl : (s.port p).link with
  | down =>
    obtain ⟨hstart, -⟩ := State.lineEvents_down hl
    rw [hstart]; exact h
  | up =>
    cases ha : (s.port p).assembly with
    | none =>
      rw [State.frameStart_closed hl ha]
      exact h.setPort ((h.port p).opened hl (Nat.zero_le 248))
    | some l =>
      rw [State.frameStart_open hl ha]
      exact h.setPort (((h.port p).withStats ((s.port p).stats.inc .rxLengthError)).opened hl (l := []) (Nat.zero_le 248))

theorem byteArrival (h : s.FramesSafe) (p : Port) (b : Byte) : (State.byteArrival p b s).FramesSafe := by
  cases hl : (s.port p).link with
  | down =>
    obtain ⟨-, hbyte, -⟩ := State.lineEvents_down hl
    rw [hbyte]; exact h
  | up =>
    cases ha : (s.port p).assembly with
    | none => rw [State.byteArrival_closed b ha]; exact h
    | some l =>
      rcases Nat.lt_or_ge l.length 248 with hlen | hlen
      · rw [State.byteArrival_open b hl ha hlen]
        exact h.setPort ((h.port p).opened hl (by simpa using hlen))
      · rw [State.byteArrival_full b hl ha hlen]
        exact h.setPort ((h.port p).withStats ((s.port p).stats.inc .rxLengthError)).closed

theorem frameEnd (h : s.FramesSafe) (p : Port) : (State.frameEnd p s).FramesSafe := by
  unfold State.frameEnd
  split
  · exact h
  · split
    · exact h
    · exact (h.setPort (h.port p).closed).judgeEnd p _

theorem returnOfSignal (h : s.FramesSafe) (p : Port) : (State.returnOfSignal p s).FramesSafe := by
  unfold State.returnOfSignal
  split
  · exact h
  · exact h.setPort ((h.port p).linked .up nofun)

/-! ### The end of a transmission -/

theorem restartBlocks (h : s.FramesSafe) (v : Half) : (s.restartBlocks v).FramesSafe := by
  refine ⟨fun p => ?_, ?_, ?_⟩
  · cases p with
    | f => rw [State.port_f, State.restartBlocks_portF]; exact (h.port .f).restarted
    | s => rw [State.port_s, State.restartBlocks_portS]; exact (h.port .s).restarted
  · rw [State.restartBlocks_egress]; exact Nat.zero_le 4
  · rw [State.restartBlocks_queue]; exact ⟨nofun, nofun⟩

theorem releaseResponse (h : s.FramesSafe) (completed : Bool) : (s.releaseResponse completed).FramesSafe := by
  unfold State.releaseResponse
  split
  · exact h
  · next e rest hq =>
    split
    · exact h
    · have hfreed := h.withQueue (h.fits.released hq completed)
      dsimp only
      split
      · exact hfreed.restartBlocks 1
      · exact hfreed

/-- The end of a transmission on a port whose record is in bounds but for the frame in flight. -/
theorem endTransmission (h : s.FramesSafe) (p : Port) {r : PortRecord} (hr : { r with transmitter := none }.Safe)
    (completed : Bool) : ((s.setPort p r).endTransmission p completed).FramesSafe := by
  cases ht : r.transmitter with
  | none =>
    rw [State.endTransmission_none _ p completed (by rw [State.port_setPort_self, ht])]
    refine h.setPort ?_
    rwa [← ht] at hr
  | some x =>
    rw [State.endTransmission_eq _ p completed x (by rw [State.port_setPort_self, ht]), State.setPort_setPort,
      State.port_setPort_self]
    have hended := h.setPort (p := p) (hr.withStats (r.stats.inc (if completed then .txFrames else .txAbandoned)))
    split
    · exact hended.releaseResponse completed
    · exact hended

theorem transmissionComplete (h : s.FramesSafe) (p : Port) : (s.endTransmission p true).FramesSafe := by
  have hend := h.endTransmission p (h.port p).freed true
  rwa [State.setPort_port] at hend

theorem lossOfSignal (h : s.FramesSafe) (p : Port) : (State.lossOfSignal p s).FramesSafe := by
  cases hl : (s.port p).link with
  | down =>
    obtain ⟨-, -, -, hloss⟩ := State.lineEvents_down hl
    rw [hloss]; exact h
  | up =>
    rw [State.lossOfSignal_up hl]
    exact h.endTransmission p ((h.port p).freed.linked .down fun _ => rfl) false

end State.FramesSafe

/-! ## Frames the part originates (R1, R4, R112, R128, R141) -/

theorem flatMap_length_const {α β : Type} (f : α → List β) (n : Nat) (h : ∀ a, (f a).length = n) (l : List α) :
    (l.flatMap f).length = n * l.length := by
  induction l with
  | nil => rfl
  | cons a l ih => rw [List.flatMap_cons, List.length_append, h, ih, List.length_cons]; ring

theorem NoticeEntry.bytes_length (e : NoticeEntry) : e.bytes.length = 11 := rfl

theorem noticePayload_length (x : Summary) (es : List NoticeEntry) :
    (noticePayload x es).length = 4 + 11 * es.length := by
  simp only [noticePayload, Summary.bytes, List.length_append, List.length_cons, List.length_nil,
    flatMap_length_const _ 11 NoticeEntry.bytes_length]

theorem Response.bytes_length (r : Response) : r.bytes.length = 8 + r.results.length := by
  simp only [Response.bytes, Summary.bytes, List.length_append, List.length_cons, List.length_nil]

theorem State.ownFrame_good (s : State) (dst : Addr) (kind seq : Byte) {payload : List Byte}
    (h : payload.length ≤ 240) : judgeFrame (s.ownFrame dst kind seq payload) = .good :=
  judgeFrame_buildFrame _ _ _ _ _ payload h

theorem NoticeLog.selected_length (l : NoticeLog) : l.selected.length ≤ 8 :=
  List.length_take_le _ _

/-- A SETPOINT frame carries at most one item per output (R112). -/
theorem State.itemsFor_length (s : State) (a : Addr) : (s.itemsFor a).length ≤ 16 :=
  List.length_filterMap_le _ _

theorem RequestQueue.offered_eq_some {q : RequestQueue} {r : Response} (h : q.offered = some r) :
    ∃ e ∈ q.entries, e.response = some r := by
  unfold RequestQueue.offered at h
  split at h
  · cases h
  · next e rest hq =>
    split at h
    · exact ⟨e, hq ▸ List.mem_cons_self, h⟩
    · cases h

theorem Egress.afterOwnStart_le (e : Egress) : e.afterOwnStart.starvationCount ≤ 4 :=
  Nat.min_le_left 4 _

theorem RequestQueue.Fits.headSending {q : RequestQueue} (h : q.Fits) : q.headSending.Fits := by
  unfold RequestQueue.headSending
  split
  · exact h
  · next e rest hq =>
    have hentries := h.entries
    rw [hq] at hentries
    exact ⟨fun x hx => (List.mem_cons.mp hx).elim (fun hx => hx ▸ hentries e List.mem_cons_self)
      fun hx => hentries x (List.mem_cons_of_mem e hx), h.memory⟩

namespace State.FramesSafe

variable {s t : State}

theorem transmit (h : s.FramesSafe) {p : Port} (hl : (s.port p).link = .up) (x : TxSource) {f : List Byte}
    (hg : judgeFrame f = .good) : (s.transmit p x f).FramesSafe :=
  h.setPort ((h.port p).transmitting hl hg)

theorem startForwarded (h : s.FramesSafe) {p : Port} (hl : (s.port p).link = .up) : (s.startForwarded p).FramesSafe := by
  unfold State.startForwarded
  split
  · exact h
  · next f rest hq =>
    refine (h.setPort ((h.port p).dequeued hq)).transmit ?_ _ ((h.port p).queued f ?_)
    · rw [State.port_setPort_self]; exact hl
    · rw [hq]; exact List.mem_cons_self

theorem startResponse (h : s.FramesSafe) (hl : s.portS.link = .up) : s.startResponse.FramesSafe := by
  unfold State.startResponse
  split
  · exact h
  · next r hr =>
    obtain ⟨e, he, her⟩ := RequestQueue.offered_eq_some hr
    have hpayload : r.bytes.length ≤ 240 := by
      rw [r.bytes_length]
      have := h.fits.entries e he r her
      omega
    exact (h.transmit (p := .s) hl .response (s.ownFrame_good 0 0x06 s.egress.seqS hpayload)).ofPorts rfl rfl
      s.egress.afterOwnStart_le h.fits.headSending

theorem startNotice (h : s.FramesSafe) (hl : s.portS.link = .up) : s.startNotice.FramesSafe := by
  have hgood : judgeFrame (s.ownFrame 0 0x07 s.egress.seqS (noticePayload s.summary
      (s.log.selected.map fun e => { e with sendState := .sent, sentStamp := some s.time.counter }))) = .good := by
    apply s.ownFrame_good
    rw [noticePayload_length, List.length_map]
    have := s.log.selected_length
    omega
  exact (h.transmit (p := .s) hl .notice hgood).ofPorts rfl rfl s.egress.afterOwnStart_le h.fits

theorem startS (h : s.FramesSafe) : s.startS.FramesSafe := by
  unfold State.startS
  split
  · exact h
  · next hstart =>
    obtain ⟨hl, -⟩ := (s.mayStart_iff .s).mp (not_not.mp hstart)
    split
    · exact h
    · have hforward := h.startForwarded (p := .s) hl
      exact hforward.ofPorts rfl rfl (Nat.zero_le 4) hforward.fits
    · exact h.startResponse hl
    · exact h.startNotice hl
    · exact h

theorem startSetpoint (h : s.FramesSafe) (hl : s.portF.link = .up) : s.startSetpoint.FramesSafe := by
  unfold State.startSetpoint
  split
  · exact h
  · next head rest _ =>
    have hgood : judgeFrame (s.ownFrame head.node 0x04 s.egress.seqF
        (setpointPayload ((s.itemsFor head.node).map SetpointItem.frameItem))) = .good := by
      apply s.ownFrame_good
      rw [setpointPayload_length, List.length_map]
      have := s.itemsFor_length head.node
      omega
    exact (h.transmit (p := .f) hl .setpoint hgood).ofPorts rfl rfl h.starvation h.fits

theorem startF (h : s.FramesSafe) : s.startF.FramesSafe := by
  unfold State.startF
  split
  · exact h
  · next hstart =>
    obtain ⟨hl, -⟩ := (s.mayStart_iff .f).mp (not_not.mp hstart)
    split
    · exact h
    · have hforward := h.startForwarded (p := .f) hl
      exact hforward.ofPorts rfl rfl hforward.starvation hforward.fits
    · have hset := h.startSetpoint hl
      exact hset.ofPorts rfl rfl hset.starvation hset.fits

end State.FramesSafe

/-! ## The results of the requests (section 12.10) -/

@[simp] theorem halfBytes_length (h : Half) : (halfBytes h).length = 2 := rfl

@[simp] theorem quadBytes_length (q : Quad) : (quadBytes q).length = 4 := rfl

@[simp] theorem halfOrNone_length (h : Option Half) : (halfOrNone h).length = 2 := by
  cases h <;> rfl

@[simp] theorem levelOrNone_length (l : Option Level) : (levelOrNone l).length = 2 :=
  halfOrNone_length _

@[simp] theorem stampOrNone_length (q : Option Quad) : (stampOrNone q).length = 5 := by
  cases q <;> rfl

@[simp] theorem bindingBytes_length (b : Option Binding) : (bindingBytes b).length = 3 := by
  cases b <;> rfl

@[simp] theorem pendingBytes_length (it : Option SetpointItem) : (pendingBytes it).length = 3 := by
  cases it <;> rfl

@[simp] theorem PortRecord.statsBytes_length (r : PortRecord) : r.statsBytes.length = 49 := rfl

@[simp] theorem ChannelConfig.bytes_length (c : ChannelConfig) : c.bytes.length = 20 := rfl

@[simp] theorem ChannelRuntime.bytes_length (r : ChannelRuntime) : r.bytes.length = 17 := by
  simp [ChannelRuntime.bytes]

theorem OutputConfig.bytes_length {c : OutputConfig} (h : c.points.length ≤ 8) : c.bytes.length = 46 := by
  have hpoints := flatMap_length_const CurvePoint.bytes 4 (fun _ => rfl)
    (c.points ++ List.replicate (8 - c.points.length) (CurvePoint.mk 0 0))
  rw [List.length_append, List.length_replicate, Nat.add_sub_cancel' h] at hpoints
  simp only [OutputConfig.bytes, List.length_append, hpoints, halfBytes_length, List.length_cons, List.length_nil]

theorem State.nodeResults_length (s : State) (a : Addr) : (s.nodeResults a).length = 22 := by
  simp [State.nodeResults]

theorem State.channelResults_length (s : State) (k : Slot) : (s.channelResults k).length = 41 := by
  simp [State.channelResults]

theorem State.outputResults_length {s : State} {i : OutIdx} (h : (s.output i).config.points.length ≤ 8) :
    (s.outputResults i).length = 59 := by
  simp [State.outputResults, OutputConfig.bytes_length h]

/-- A page of a capture is at most 16 entries of at most 5 bytes (R180). -/
theorem Capture.page_length (c : Capture) (sec : CaptureSection) (n : Nat) : (c.page sec n).length ≤ 80 := by
  cases sec with
  | channels =>
    rw [Capture.page, flatMap_length_const _ 5 fun _ => rfl]
    exact Nat.mul_le_mul_left 5 (List.length_take_le 16 _)
  | outputs =>
    rw [Capture.page, flatMap_length_const _ 3 fun o => by simp [OutputSnapshot.bytes]]
    exact (Nat.mul_le_mul_left 3 (List.length_take_le 16 _)).trans (by decide)
  | nodes =>
    rw [Capture.page, flatMap_length_const _ 5 fun _ => rfl]
    exact Nat.mul_le_mul_left 5 (List.length_take_le 16 _)

/-- The requests whose answer can carry results. -/
def RequestKind.hasResults : RequestKind → Bool
  | .echo | .readSystem | .readStats | .readNode | .readChannel | .readOutput | .capture | .readCapture | .commit
  | .readImage => true
  | _ => false

/-- Every other request is answered by its status alone (section 12.10). -/
theorem requestOf_noResults {c : Instr} {kind : RequestKind} {body : State → List Byte → Answer}
    (h : requestOf c = some (kind, body)) (hk : kind.hasResults = false) (s : State) (p : List Byte) :
    (body s p).results = [] := by
  cases c <;> simp only [requestOf, Option.some.injEq, Prod.mk.injEq, reduceCtorEq] at h <;>
    obtain ⟨rfl, rfl⟩ := h <;> simp only [RequestKind.hasResults, Bool.true_eq_false] at hk
  case writeSystem => unfold State.doWriteSystem; (repeat' split) <;> rfl
  case restart => unfold State.doRestart; split <;> rfl
  case enrolNode => unfold State.doEnrolNode; (repeat' split) <;> rfl
  case retireNode => unfold State.doRetireNode; (repeat' split) <;> rfl
  case bind => unfold State.doBind; (repeat' split) <;> rfl
  case unbind => unfold State.doUnbind; (repeat' split) <;> rfl
  case writeChannel => unfold State.doWriteChannel; (repeat' split) <;> rfl
  case ackBand => unfold State.doAckBand; (repeat' split) <;> rfl
  case writeOutput => unfold State.doWriteOutput; (repeat' split) <;> rfl
  case forceOutput => unfold State.doForceOutput; (repeat' split) <;> rfl
  case releaseOutput => unfold State.doReleaseOutput; (repeat' split) <;> rfl
  case ackNotices => unfold State.doAckNotices; split <;> rfl

/-- Every output's curve has at most eight points, as R89 asks: the record READ_OUTPUT returns is then 46 bytes long. -/
def State.PointsFit (s : State) : Prop :=
  ∀ i : OutIdx, (s.output i).config.points.length ≤ 8

theorem State.TablesLawful.pointsFit {s : State} (h : s.TablesLawful) : s.PointsFit := by
  intro i
  obtain ⟨⟨-, -, -, -, -, -, -, -, -, houtputs, -⟩, -⟩ := h
  have hvalid := houtputs i
  rw [State.liveImage_output] at hvalid
  simp only [OutputConfig.valid, Bool.and_eq_true, decide_eq_true_eq] at hvalid
  obtain ⟨⟨-, hpoints⟩, -⟩ := hvalid
  exact hpoints

/-- The results of every request leave room for the response's header (R161, section 12.3). -/
theorem requestOf_results_length {c : Instr} {kind : RequestKind} {body : State → List Byte → Answer}
    (h : requestOf c = some (kind, body)) {s : State} {p : List Byte} (hl : kind.lengthOk p.length = true)
    (hpoints : s.PointsFit) : (body s p).results.length ≤ 232 := by
  cases hk : kind.hasResults with
  | false => rw [requestOf_noResults h hk]; exact Nat.zero_le 232
  | true =>
    cases c <;> simp only [requestOf, Option.some.injEq, Prod.mk.injEq, reduceCtorEq] at h <;>
      obtain ⟨rfl, rfl⟩ := h <;> simp only [RequestKind.hasResults, Bool.false_eq_true] at hk
    case echo => exact of_decide_eq_true hl
    case readSystem => exact Nat.le_of_ble_eq_true rfl
    case readStats =>
      unfold State.doReadStats
      split
      · exact Nat.zero_le 232
      · simp [State.okayWith]
    case readNode =>
      unfold State.doReadNode
      split
      · exact Nat.zero_le 232
      · next a _ => exact (s.nodeResults_length a).trans_le (by decide)
    case readChannel =>
      unfold State.doReadChannel
      split
      · exact Nat.zero_le 232
      · next k _ => exact (s.channelResults_length k).trans_le (by decide)
    case readOutput =>
      unfold State.doReadOutput
      split
      · exact Nat.zero_le 232
      · next i _ => exact (State.outputResults_length (hpoints i)).trans_le (by decide)
    case capture => exact Nat.le_of_ble_eq_true rfl
    case readCapture =>
      unfold State.doReadCapture
      split
      · exact Nat.zero_le 232
      · next sec _ =>
        split
        · exact Nat.zero_le 232
        · split
          · exact Nat.zero_le 232
          · next c _ =>
            have hpage := c.page_length sec (byteAt p 1).toNat
            simp only [State.okayWith, List.length_append, List.length_cons, List.length_nil, quadBytes_length]
            omega
    case commit =>
      unfold State.doCommit
      split
      · exact Nat.zero_le 232
      · exact Nat.le_of_ble_eq_true rfl
    case readImage => exact Nat.le_of_ble_eq_true rfl

namespace State.FramesSafe

variable {s t : State}

/-! ### Requests -/

theorem requestOnly (h : s.FramesSafe) (hr : s.RequestOnly t) : t.FramesSafe := by
  obtain ⟨-, -, hegress, -, -, hF, hS, hqueue⟩ := hr
  refine ⟨fun p => ?_, hegress ▸ h.starvation, hqueue ▸ h.fits⟩
  cases p with
  | f => rw [State.port_f, hF]; exact (h.port .f).withStats _
  | s => rw [State.port_s, hS]; exact (h.port .s).withStats _

/-- An answer whose results fit keeps the queue's responses in bounds (R161). -/
theorem withAnswer (h : t.FramesSafe) (e : RequestEntry) (status : Status) {results : List Byte}
    (hr : results.length ≤ 232) : (t.withAnswer e status results).FramesSafe := by
  refine h.withQueue ⟨fun x hx => ?_, h.fits.memory⟩
  rcases mem_updateFirst hx with hx | ⟨y, -, -, rfl⟩
  · exact h.fits.entries x hx
  · rintro _ ⟨⟩
    exact hr

theorem doRestart (h : s.FramesSafe) (p : List Byte) : (s.doRestart p).state.FramesSafe := by
  rcases s.doRestart_state p with ⟨-, hs⟩ | ⟨-, -, hs⟩
  · rw [hs]; exact h
  · rw [hs]; exact h.withQueue ⟨h.fits.entries, h.fits.memory⟩

/-- The execution of a request of the catalogue. -/
theorem request (h : s.FramesSafe) (hpoints : s.PointsFit) {c : Instr} {kind : RequestKind}
    {body : State → List Byte → Answer} (hc : requestOf c = some (kind, body)) : (effectOf c s).FramesSafe := by
  rw [effectOf_request c kind body s hc]
  rcases s.executeRequest_cases kind body with hs | ⟨e, -, hs⟩ | ⟨e, -, -, hl, hs⟩
  · rw [hs]; exact h
  · rw [hs]; exact h.withAnswer e .badLength (Nat.zero_le 232)
  · rw [hs]
    refine withAnswer ?_ e _ (requestOf_results_length hc hl hpoints)
    by_cases hk : kind = .restart
    · subst hk
      rw [requestOf_restart c body hc]
      exact h.doRestart _
    · exact h.requestOnly (requestOf_requestOnly c kind body hc hk s _)

theorem executeUnknown (h : s.FramesSafe) : s.executeUnknown.FramesSafe := by
  unfold State.executeUnknown
  split
  · exact h
  · split
    · exact h
    · rw [Answer.finish_eq]
      exact h.withAnswer _ _ (Nat.zero_le 232)

/-! ### Ticks -/

theorem settle (h : s.FramesSafe) : s.settle.FramesSafe :=
  h.runtime s.settle_runtimeOnly

theorem tick (h : s.FramesSafe) : s.tick.FramesSafe := by
  unfold State.tick
  split
  · exact h
  · exact h.congr rfl rfl rfl rfl

theorem nodeTableTick (h : s.FramesSafe) : s.nodeTableTick.FramesSafe := by
  unfold State.nodeTableTick
  split
  · exact h
  · exact h.congr rfl rfl rfl rfl

theorem channelTableTick (h : s.FramesSafe) : s.channelTableTick.FramesSafe := by
  unfold State.channelTableTick
  split
  · exact h
  · exact h.congr rfl rfl rfl rfl

theorem outputUnitTick (h : s.FramesSafe) : s.outputUnitTick.FramesSafe := by
  unfold State.outputUnitTick
  split
  · exact h
  · exact h.congr rfl rfl rfl rfl

theorem noticeLogTick (h : s.FramesSafe) : s.noticeLogTick.FramesSafe := by
  unfold State.noticeLogTick
  split
  · exact h
  · exact h.congr rfl rfl rfl rfl

theorem nextSilent (h : s.FramesSafe) : s.nextSilent.FramesSafe := by
  unfold State.nextSilent
  split
  · exact h.settle
  · exact h.runtime ((s.silenceNode_runtimeOnly _).trans (State.due_runtimeOnly _ _))

theorem nextStale (h : s.FramesSafe) : s.nextStale.FramesSafe := by
  unfold State.nextStale
  split
  · exact h.settle
  · exact h.runtime ((s.enterStale_supervisionOnly _ _).runtimeOnly.trans (State.due_runtimeOnly _ _))

theorem nextRefresh (h : s.FramesSafe) : s.nextRefresh.FramesSafe := by
  unfold State.nextRefresh
  split
  · exact h.settle
  · exact h.runtime ((s.refreshOutput_outputsOnly _).supervisionOnly.runtimeOnly.trans (State.due_runtimeOnly _ _))

theorem takeGoBack (h : s.FramesSafe) : s.takeGoBack.FramesSafe := by
  unfold State.takeGoBack
  split
  · exact h.runtime s.settleGoBack_runtimeOnly
  · exact h.settle

/-! ### The Image Store and the resets -/

theorem endErasure (h : s.FramesSafe) : s.endErasure.FramesSafe := by
  unfold State.endErasure
  split
  · exact h
  · split
    · exact h.congr rfl rfl rfl rfl
    · exact h

theorem endWriting (h : s.FramesSafe) (m : MediumResult) : (s.endWriting m).FramesSafe := by
  unfold State.endWriting
  split
  · exact h
  · split
    · exact h.congr rfl rfl rfl rfl
    · exact h

theorem endReadBack (h : s.FramesSafe) : s.endReadBack.FramesSafe := by
  unfold State.endReadBack
  split
  · exact h
  · split
    · dsimp only
      split <;> exact h.congr rfl rfl rfl rfl
    · exact h

theorem assertReset (h : s.FramesSafe) : s.assertReset.FramesSafe := by
  refine ⟨fun p => ?_, h.starvation, h.fits⟩
  cases p with
  | f => exact (h.port .f).freed
  | s => exact (h.port .s).freed

theorem hardReset (s : State) (lineF lineS : LinkState) : (s.hardReset lineF lineS).FramesSafe := by
  obtain ⟨hF, hS⟩ := s.hardReset_ports lineF lineS
  have hblocks := s.hardReset_blocksReset lineF lineS
  refine ⟨fun p => ?_, ?_, ?_⟩
  · cases p with
    | f => rw [State.port_f, hF]; exact .blank lineF
    | s => rw [State.port_s, hS]; exact .blank lineS
  · rw [hblocks.egress]; exact Nat.zero_le 4
  · rw [hblocks.queue]; exact ⟨nofun, nofun⟩

/-! ### Every command -/

/-- Every command's own effect keeps the ports' bounds and every frame held good. -/
theorem effect (h : s.FramesSafe) (hpoints : s.PointsFit) (c : Instr) : (effectOf c s).FramesSafe := by
  cases hc : requestOf c with
  | some r => exact h.request hpoints hc
  | none =>
    cases c with
    | frameStart p => exact h.frameStart p
    | byteArrival p b => exact h.byteArrival p b
    | frameEnd p => exact h.frameEnd p
    | lossOfSignal p => exact h.lossOfSignal p
    | returnOfSignal p => exact h.returnOfSignal p
    | tick => exact h.tick
    | nodeTableTick => exact h.nodeTableTick
    | nodeSilent => exact h.nextSilent
    | channelTableTick => exact h.channelTableTick
    | channelStale => exact h.nextStale
    | outputUnitTick => exact h.outputUnitTick
    | refresh => exact h.nextRefresh
    | noticeLogTick => exact h.noticeLogTick
    | goBack => exact h.takeGoBack
    | sPortStart => exact h.startS
    | fPortStart => exact h.startF
    | transmissionComplete p => exact h.transmissionComplete p
    | unknownRequest => exact h.executeUnknown
    | erasureEnds => exact h.endErasure
    | writingEnds m => exact h.endWriting m
    | readBackEnds => exact h.endReadBack
    | resetAsserted => exact h.assertReset
    | hardReset lineF lineS => exact hardReset s lineF lineS
    | echo | readSystem | writeSystem | readStats | restart | enrolNode | retireNode | readNode | bind | unbind
    | writeChannel | readChannel | ackBand | writeOutput | readOutput | forceOutput | releaseOutput | ackNotices
    | capture | readCapture | commit | readImage => cases hc

/-- Every command does, after any open tick event has been carried to its end. -/
theorem of_exec (h : s.FramesSafe) (hpoints : s.PointsFit) (c : Instr) (ht : exec c s = .next t) : t.FramesSafe := by
  have hsettled : s.settle.PointsFit := by
    obtain ⟨-, -, -, hconfig⟩ := s.settle_runtimeOnly
    intro i
    rw [hconfig i]
    exact hpoints i
  rw [exec_eq] at ht
  cases ht
  split
  · exact h.effect hpoints c
  · split
    · exact h
    · split
      · exact h.effect hpoints c
      · exact h.settle.effect hsettled c

end State.FramesSafe

/-- Settles O56: a step runs the front command on the state with the queue's rest, or idles. -/
theorem portsStaySafe : Obligations.PortsStaySafe := by
  intro s t hports hframes hresults htables hstep
  rw [← State.framesSafe_iff]
  have hs : s.FramesSafe := s.framesSafe_iff.mpr ⟨hports, hframes, hresults⟩
  have hpoints : s.PointsFit := htables.pointsFit
  unfold step at hstep
  split at hstep
  · cases hstep
    exact hs
  · next c rest _ =>
    exact State.FramesSafe.of_exec (s := { s with pending := rest }) (hs.congr rfl rfl rfl rfl) hpoints c hstep

end Sys2Proof.Machine
end

section
/-! SUPPORT. The configuration over every step: the live tables, the images of the banks and the Image Store. -/

namespace Sys2Proof.Machine

/-! ## The laws of the live tables (R20, R38, R44, R89, R90, R167) -/

/-- The laws of the live tables, each read at the records of the state. -/
structure State.LawfulTables (s : State) : Prop where
  ownAddress : 1 ≤ s.system.ownAddress.toNat ∧ s.system.ownAddress.toNat ≤ 62
  tickPeriod : 1 ≤ s.system.tickPeriod.toNat ∧ s.system.tickPeriod.toNat ≤ 1000
  resendTicks : s.system.resendTicks ≠ 0
  ownNode : (s.node s.system.ownAddress).config.enrolled = false
  empty : ∀ a, (s.node a).config.enrolled = false → s.node a = .empty
  ordered : s.bindings.Pairwise fun b b' => b.slot < b'.slot
  keys : s.bindings.Pairwise fun b b' => ¬ (b.node = b'.node ∧ b.channel = b'.channel)
  bound : ∀ b ∈ s.bindings, (s.node b.node).config.enrolled = true
  channel : ∀ k, (s.channel k).config.valid = true
  output : ∀ i, (s.output i).config.valid s.system.ownAddress = true
  targets : ∀ i j, i ≠ j → (s.output i).config.enabled = true → (s.output j).config.enabled = true →
    ¬ ((s.output i).config.targetNode = (s.output j).config.targetNode ∧
      (s.output i).config.targetIndex = (s.output j).config.targetIndex)

theorem State.lawfulTables_iff (s : State) : s.LawfulTables ↔ s.TablesLawful := by
  simp only [State.TablesLawful, Image.Lawful, State.liveImage_nodeAt, State.liveImage_channel, State.liveImage_output]
  constructor
  · intro h
    exact ⟨⟨h.ownAddress, h.tickPeriod, h.resendTicks, h.ownNode, fun a ha => congrArg NodeRecord.config (h.empty a ha),
      h.ordered, h.keys, h.bound, h.channel, h.output, h.targets⟩, h.empty⟩
  · rintro ⟨⟨hown, hperiod, hresend, hnode, -, hordered, hkeys, hbound, hchannel, houtput, htargets⟩, hempty⟩
    exact ⟨hown, hperiod, hresend, hnode, hempty, hordered, hkeys, hbound, hchannel, houtput, htargets⟩

/-- What every step keeps of the tables, the banks and the Image Store. -/
structure State.ConfigurationLawful (s : State) : Prop where
  tables : s.LawfulTables
  images : s.store.ImagesLawful
  store : s.store.Lawful

/-! ## What leaves the configuration as it is -/

/-- No configuration differs, no empty node record is touched, and the Image Store is the same. -/
structure State.ConfigurationKept (s t : State) : Prop where
  system : t.system = s.system
  bindings : t.bindings = s.bindings
  node : ∀ a, (t.node a).config = (s.node a).config
  channel : ∀ k, (t.channel k).config = (s.channel k).config
  output : ∀ i, (t.output i).config = (s.output i).config
  empty : ∀ a, s.node a = .empty → t.node a = .empty
  store : t.store = s.store

theorem State.ConfigurationLawful.kept {s t : State} (h : s.ConfigurationLawful) (hk : s.ConfigurationKept t) :
    t.ConfigurationLawful := by
  obtain ⟨hsystem, hbindings, hnode, hchannel, houtput, hempty, hstore⟩ := hk
  obtain ⟨⟨hown, hperiod, hresend, hownNode, hunenrolled, hordered, hkeys, hbound, hvalid, hvalid', htargets⟩,
    himages, hlawful⟩ := h
  refine ⟨?_, hstore ▸ himages, hstore ▸ hlawful⟩
  refine ⟨?_, ?_, ?_, ?_, fun a ha => hempty a (hunenrolled a (hnode a ▸ ha)), ?_, ?_, ?_, ?_, ?_, ?_⟩
  all_goals simpa only [hsystem, hbindings, hnode, hchannel, houtput]

namespace State.ConfigurationKept

variable {s t u : State}

theorem refl (s : State) : s.ConfigurationKept s :=
  ⟨rfl, rfl, fun _ => rfl, fun _ => rfl, fun _ => rfl, fun _ h => h, rfl⟩

theorem trans (h : s.ConfigurationKept t) (h' : t.ConfigurationKept u) : s.ConfigurationKept u :=
  ⟨h'.system.trans h.system, h'.bindings.trans h.bindings, fun a => (h'.node a).trans (h.node a),
    fun k => (h'.channel k).trans (h.channel k), fun i => (h'.output i).trans (h.output i),
    fun a ha => h'.empty a (h.empty a ha), h'.store.trans h.store⟩

/-- The tables and the store stand as they were. -/
theorem of_eq (hsystem : t.system = s.system) (hnodes : t.nodes = s.nodes) (hbindings : t.bindings = s.bindings)
    (hchannels : t.channels = s.channels) (houtputs : t.outputs = s.outputs) (hstore : t.store = s.store) :
    s.ConfigurationKept t := by
  have hnode : ∀ a, t.node a = s.node a := fun a => by simp only [State.node, hnodes]
  refine ⟨hsystem, hbindings, fun a => by rw [hnode], fun k => ?_, fun i => ?_, fun a ha => (hnode a).trans ha, hstore⟩
  · simp only [State.channel, hchannels]
  · simp only [State.output, houtputs]

theorem of_runtime (h : s.RuntimeOnly t) (hempty : ∀ a, s.node a = .empty → t.node a = .empty) :
    s.ConfigurationKept t := by
  have hstore := h.store_eq
  have hsystem := h.system_eq
  have hbindings := h.bindings_eq
  obtain ⟨-, hnode, hchannel, houtput⟩ := h
  exact ⟨hsystem, hbindings, hnode, hchannel, houtput, hempty, hstore⟩

theorem of_supervision (h : s.SupervisionOnly t) : s.ConfigurationKept t :=
  of_runtime h.runtimeOnly fun a ha => (h.node_eq a).trans ha

theorem of_outputs (h : s.OutputsOnly t) : s.ConfigurationKept t :=
  of_supervision h.supervisionOnly

theorem setPort (s : State) (p : Port) (r : PortRecord) : s.ConfigurationKept (s.setPort p r) :=
  of_eq (by simp) (by simp) (by simp) (by simp) (by simp) (by simp)

theorem count (s : State) (p : Port) (n : StatName) : s.ConfigurationKept (s.count p n) :=
  setPort s p _

theorem offerForward (s : State) (p : Port) (l : List Byte) : s.ConfigurationKept (s.offerForward p l) :=
  of_eq (by simp) (by simp) (by simp) (by simp) (by simp) (by simp)

theorem withAnswer (s : State) (e : RequestEntry) (x : Status) (results : List Byte) :
    s.ConfigurationKept (s.withAnswer e x results) :=
  of_eq rfl rfl rfl rfl rfl rfl

/-! ### The end of a frame -/

/-- An enrolled record is not empty. -/
theorem ne_of_enrolled {a b : Addr} (ha : (s.node a).config.enrolled = true) (hb : s.node b = .empty) : a ≠ b := by
  rintro rfl
  rw [hb] at ha
  cases ha

theorem nodeArrival {a : Addr} (ha : (s.node a).config.enrolled = true) (restart : Bool) (seq : Byte) :
    s.ConfigurationKept (s.nodeArrival a restart seq).1 := by
  refine of_runtime (s.nodeArrival_runtimeOnly a restart seq) fun b hb => ?_
  have hne : ∀ r, (s.setNode a r).node b = .empty := fun r =>
    (s.node_setNode_ne a b r (ne_of_enrolled ha hb)).trans hb
  have haccept : ∀ j, (s.acceptFrame a seq j).node b = .empty := fun j => by
    unfold State.acceptFrame
    dsimp only
    split <;> split <;> exact hne _
  unfold State.nodeArrival
  dsimp only
  split
  · exact hne _
  · exact hne _
  · exact haccept _
  · exact haccept _
  · exact haccept _

theorem samplePath (s : State) (f : Frame) (rs : List Reading) : s.ConfigurationKept (s.samplePath f rs) := by
  have hpath := of_supervision (PathState.readings_supervisionOnly f.src rs { state := s, kept := [], changed := false })
  unfold State.samplePath
  dsimp only
  split
  · exact hpath.trans (offerForward _ _ _)
  · split
    · exact hpath.trans (count _ _ _)
    · exact hpath.trans (offerForward _ _ _)

theorem nodeTable (s : State) (f : Frame) {accepted : State → State}
    (haccepted : ∀ u : State, u.ConfigurationKept (accepted u)) : s.ConfigurationKept (s.nodeTable f accepted) := by
  unfold State.nodeTable
  dsimp only
  split
  · next ha =>
    have harrival := nodeArrival ha f.restartFlag f.seq
    split
    · exact harrival.trans (haccepted _)
    · exact harrival
  · split
    · exact offerForward _ _ _
    · exact count _ _ _

theorem ownershipFilter (s : State) (f : Frame) (items : List FrameItem) :
    s.ConfigurationKept (s.ownershipFilter f items) := by
  unfold State.ownershipFilter
  dsimp only
  have hcounted := foldl_keeps State.ConfigurationKept .refl (fun _ _ _ => .trans)
    (fun (s : State) (_ : Nat) => s.count .s .rxOwnedStripped) (fun s _ => count s _ _)
    (List.range (items.length - (items.filter fun i => ! s.ownsTarget f.dst i.index).length)) s
  split
  · exact hcounted.trans (offerForward _ _ _)
  · split
    · exact hcounted.trans (count _ _ _)
    · exact hcounted.trans (offerForward _ _ _)

theorem acceptRequest (s : State) (tag seq opcode : Byte) (params : List Byte) :
    s.ConfigurationKept (s.acceptRequest tag seq opcode params) := by
  unfold State.acceptRequest
  dsimp only
  split
  · exact count _ _ _
  · split <;> exact of_eq rfl rfl rfl rfl rfl rfl

theorem handOff (s : State) (p : Port) (f : Frame) (r : Route) : s.ConfigurationKept (s.handOff p f r) := by
  cases r with
  | misdirected => exact count s p _
  | forward => exact offerForward s p _
  | sample =>
    simp only [State.handOff]
    split
    · exact count s p _
    · exact nodeTable s f fun u => samplePath u f _
  | status => exact nodeTable s f fun u => offerForward u .f _
  | setpoint =>
    simp only [State.handOff]
    split
    · exact count s p _
    · exact ownershipFilter s f _
  | request =>
    simp only [State.handOff]
    split
    · exact acceptRequest s _ _ _ _
    · exact count s p _

theorem judgeEnd (s : State) (p : Port) (l : List Byte) : s.ConfigurationKept (s.judgeEnd p l) := by
  unfold State.judgeEnd
  split
  · exact count s p _
  · exact count s p _
  · unfold State.goodFrame
    dsimp only
    split
    · exact (count s p _).trans (count _ p _)
    · exact (count s p _).trans (handOff _ p _ _)

/-! ### The line events and the ends of transmissions -/

theorem frameStart (s : State) (p : Port) : s.ConfigurationKept (State.frameStart p s) := by
  unfold State.frameStart
  dsimp only
  split
  · exact refl s
  · split
    · exact (count s p _).trans (setPort _ p _)
    · exact setPort s p _

theorem byteArrival (s : State) (p : Port) (b : Byte) : s.ConfigurationKept (State.byteArrival p b s) := by
  unfold State.byteArrival
  split
  · exact refl s
  · split
    · exact refl s
    · split
      · exact (setPort s p _).trans (count _ p _)
      · exact setPort s p _

theorem frameEnd (s : State) (p : Port) : s.ConfigurationKept (State.frameEnd p s) := by
  unfold State.frameEnd
  split
  · exact refl s
  · split
    · exact refl s
    · exact (setPort s p _).trans (judgeEnd _ p _)

theorem returnOfSignal (s : State) (p : Port) : s.ConfigurationKept (State.returnOfSignal p s) := by
  unfold State.returnOfSignal
  split
  · exact refl s
  · exact setPort s p _

/-- A restart of the blocks clears runtimes, and an empty record's is clear (R20, R171). -/
theorem restartBlocks (s : State) (v : Half) : s.ConfigurationKept (s.restartBlocks v) where
  system := s.restartBlocks_system v
  bindings := s.restartBlocks_bindings v
  node a := by rw [State.restartBlocks_node]
  channel k := by rw [State.restartBlocks_channel]; rfl
  output := s.restartBlocks_output_config v
  empty a ha := by rw [State.restartBlocks_node, ha]; rfl
  store := s.restartBlocks_store v

theorem releaseResponse (s : State) (completed : Bool) : s.ConfigurationKept (s.releaseResponse completed) := by
  unfold State.releaseResponse
  split
  · exact refl s
  · next e rest _ =>
    split
    · exact refl s
    · have hfreed : ∀ q, s.ConfigurationKept { s with queue := q } := fun _ => of_eq rfl rfl rfl rfl rfl rfl
      dsimp only
      split
      · exact (hfreed _).trans (restartBlocks _ 1)
      · exact hfreed _

theorem endTransmission (s : State) (p : Port) (completed : Bool) :
    s.ConfigurationKept (s.endTransmission p completed) := by
  unfold State.endTransmission
  split
  · exact refl s
  · have hended := (setPort s p { s.port p with transmitter := none }).trans
      (count _ p (if completed then .txFrames else .txAbandoned))
    dsimp only
    split
    · exact hended.trans (releaseResponse _ completed)
    · exact hended

theorem lossOfSignal (s : State) (p : Port) : s.ConfigurationKept (State.lossOfSignal p s) := by
  unfold State.lossOfSignal
  split
  · exact refl s
  · exact (setPort s p _).trans (endTransmission _ p false)

/-! ### The starts of transmissions -/

theorem transmit (s : State) (p : Port) (x : TxSource) (l : List Byte) : s.ConfigurationKept (s.transmit p x l) :=
  setPort s p _

theorem startForwarded (s : State) (p : Port) : s.ConfigurationKept (s.startForwarded p) := by
  unfold State.startForwarded
  split
  · exact refl s
  · exact (setPort s p _).trans (transmit _ p _ _)

/-- The arbiters' own state, the setpoint set, the log and the queue hold no configuration. -/
theorem withEgress (s : State) (setpoints log queue egress) :
    s.ConfigurationKept { s with setpoints := setpoints, log := log, queue := queue, egress := egress } :=
  of_eq rfl rfl rfl rfl rfl rfl

theorem startS (s : State) : s.ConfigurationKept s.startS := by
  unfold State.startS
  split
  · exact refl s
  · split
    · exact refl s
    · exact (startForwarded s .s).trans (withEgress _ _ _ _ _)
    · unfold State.startResponse
      split
      · exact refl s
      · exact (transmit s .s _ _).trans (withEgress _ _ _ _ _)
    · exact (transmit s .s _ _).trans (withEgress _ _ _ _ _)
    · exact refl s

theorem startF (s : State) : s.ConfigurationKept s.startF := by
  unfold State.startF
  split
  · exact refl s
  · split
    · exact refl s
    · exact (startForwarded s .f).trans (withEgress _ _ _ _ _)
    · unfold State.startSetpoint
      split
      · exact withEgress s _ _ _ _
      · exact (transmit s .f _ _).trans (withEgress _ _ _ _ _)

/-! ### Ticks -/

theorem tick (s : State) : s.ConfigurationKept s.tick := by
  unfold State.tick
  split
  · exact refl s
  · exact of_eq rfl rfl rfl rfl rfl rfl

end State.ConfigurationKept

/-! ## Tables mapped record by record -/

theorem State.node_tableMap (s : State) (f : NodeRecord → NodeRecord) (hf : f .empty = .empty) (a : Addr) :
    ({ s with nodes := tableMap f s.nodes } : State).node a = f (s.node a) := by
  unfold State.node
  split
  · exact hf.symm
  · dsimp only
    rw [tableMap_getElem?]
    cases s.nodes[a.toNat - 1]? with
    | none => exact hf.symm
    | some r => rfl

theorem State.channel_tableMap (s : State) (f : ChannelRecord → ChannelRecord) (k : Slot) :
    ({ s with channels := tableMap f s.channels } : State).channel k = f (s.channel k) :=
  tableMap_getElem f s.channels k.val k.isLt

theorem State.output_tableMap (s : State) (f : OutputRecord → OutputRecord) (i : OutIdx) :
    ({ s with outputs := tableMap f s.outputs } : State).output i = f (s.output i) :=
  tableMap_getElem f s.outputs i.val i.isLt

theorem NodeRecord.tick_config (r : NodeRecord) : r.tick.config = r.config := by
  unfold NodeRecord.tick
  split <;> rfl

theorem ChannelRecord.tick_config (c : ChannelRecord) : c.tick.config = c.config := by
  unfold ChannelRecord.tick
  split <;> rfl

theorem OutputRecord.tick_config (o : OutputRecord) : o.tick.config = o.config := by
  unfold OutputRecord.tick
  split <;> rfl

theorem NodeRecord.tick_empty : NodeRecord.tick .empty = .empty := rfl

theorem NodeRecord.enrolled_of_silentDue {r : NodeRecord} (h : r.silentDue = true) : r.config.enrolled = true := by
  simp only [NodeRecord.silentDue, NodeRecord.countsSilence, Bool.and_eq_true, decide_eq_true_eq] at h
  obtain ⟨⟨henrolled, -⟩, -⟩ := h
  exact henrolled

/-! ## Ticks and open tick events -/

namespace State.ConfigurationKept

variable {s t : State}

theorem nodeTableTick (s : State) : s.ConfigurationKept s.nodeTableTick := by
  unfold State.nodeTableTick
  split
  · exact refl s
  · have hnode := s.node_tableMap NodeRecord.tick NodeRecord.tick_empty
    exact ⟨rfl, rfl, fun a => (congrArg NodeRecord.config (hnode a)).trans (s.node a).tick_config, fun _ => rfl,
      fun _ => rfl, fun a ha => (hnode a).trans (by rw [ha, NodeRecord.tick_empty]), rfl⟩

theorem channelTableTick (s : State) : s.ConfigurationKept s.channelTableTick := by
  unfold State.channelTableTick
  split
  · exact refl s
  · exact ⟨rfl, rfl, fun _ => rfl, fun k =>
      (congrArg ChannelRecord.config (s.channel_tableMap ChannelRecord.tick k)).trans (s.channel k).tick_config,
      fun _ => rfl, fun _ h => h, rfl⟩

theorem outputUnitTick (s : State) : s.ConfigurationKept s.outputUnitTick := by
  unfold State.outputUnitTick
  split
  · exact refl s
  · exact ⟨rfl, rfl, fun _ => rfl, fun _ => rfl, fun i =>
      (congrArg OutputRecord.config (s.output_tableMap OutputRecord.tick i)).trans (s.output i).tick_config,
      fun _ h => h, rfl⟩

theorem noticeLogTick (s : State) : s.ConfigurationKept s.noticeLogTick := by
  unfold State.noticeLogTick
  split
  · exact refl s
  · exact of_eq rfl rfl rfl rfl rfl rfl

theorem withDue (s : State) (d : DueWork) : s.ConfigurationKept { s with due := d } :=
  of_eq rfl rfl rfl rfl rfl rfl

/-- Only an enrolled record goes SILENT, so that the empty ones stay empty (R20, R28). -/
theorem silenceNode {a : Addr} (ha : (s.node a).config.enrolled = true) : s.ConfigurationKept (s.silenceNode a) := by
  refine of_runtime (s.silenceNode_runtimeOnly a) fun b hb => ?_
  unfold State.silenceNode
  dsimp only
  rw [(foldl_keeps State.SupervisionOnly .refl (fun _ _ _ => .trans) _ State.nodeStaleOne_supervisionOnly _ _).node_eq]
  exact (s.node_setNode_ne a b _ (ne_of_enrolled ha hb)).trans hb

theorem silenceNodes (l : List Addr) (hl : ∀ a ∈ l, (s.node a).config.enrolled = true) :
    s.ConfigurationKept (l.foldl State.silenceNode s) :=
  foldl_invariant (s.ConfigurationKept) _ l
    (fun _ a ha hk => hk.trans (silenceNode ((congrArg NodeConfig.enrolled (hk.node a)).trans (hl a ha)))) s (refl s)

theorem settleStale (s : State) : s.ConfigurationKept s.settleStale :=
  (foldl_keeps State.ConfigurationKept .refl (fun _ _ _ => .trans) State.staleByLimit
    (fun u k => of_supervision (u.enterStale_supervisionOnly k _)) s.due.stale s).trans (withDue _ _)

theorem settleRefresh (s : State) : s.ConfigurationKept s.settleRefresh :=
  (foldl_keeps State.ConfigurationKept .refl (fun _ _ _ => .trans) State.refreshOutput
    (fun u i => of_outputs (u.refreshOutput_outputsOnly i)) s.due.refresh s).trans (withDue _ _)

theorem settleGoBack (s : State) : s.ConfigurationKept s.settleGoBack :=
  of_runtime s.settleGoBack_runtimeOnly fun _ ha => by
    unfold State.settleGoBack
    dsimp only
    split <;> exact ha

theorem settle (hdue : ∀ a ∈ s.due.silent, (s.node a).config.enrolled = true) : s.ConfigurationKept s.settle := by
  rw [s.settle_parts]
  exact (((silenceNodes s.due.silent hdue).trans (withDue _ _)).trans (settleStale _)).trans
    ((settleRefresh _).trans (settleGoBack _))

theorem nextSilent (hdue : ∀ a ∈ s.due.silent, (s.node a).config.enrolled = true) :
    s.ConfigurationKept s.nextSilent := by
  unfold State.nextSilent
  split
  · exact settle hdue
  · next a rest hs =>
    have ha := hdue a (by rw [hs]; exact List.mem_cons_self)
    exact (silenceNode ha).trans (withDue _ _)

theorem nextStale (hdue : ∀ a ∈ s.due.silent, (s.node a).config.enrolled = true) :
    s.ConfigurationKept s.nextStale := by
  unfold State.nextStale
  split
  · exact settle hdue
  · exact (of_supervision (s.enterStale_supervisionOnly _ _)).trans (withDue _ _)

theorem nextRefresh (hdue : ∀ a ∈ s.due.silent, (s.node a).config.enrolled = true) :
    s.ConfigurationKept s.nextRefresh := by
  unfold State.nextRefresh
  split
  · exact settle hdue
  · exact (of_outputs (s.refreshOutput_outputsOnly _)).trans (withDue _ _)

theorem takeGoBack (hdue : ∀ a ∈ s.due.silent, (s.node a).config.enrolled = true) :
    s.ConfigurationKept s.takeGoBack := by
  unfold State.takeGoBack
  split
  · exact settleGoBack s
  · exact settle hdue

end State.ConfigurationKept

/-! ## What the parameter records spell (R33, R44, R89, R167) -/

theorem nodeOf_range {b : Byte} {a : Addr} (h : nodeOf b = some a) : 1 ≤ a.toNat ∧ a.toNat ≤ 62 := by
  unfold nodeOf at h
  split at h
  · next hb =>
    cases h
    rw [BitVec.toNat_setWidth]
    omega
  · cases h

theorem channelConfigOf_valid {p : List Byte} {c : ChannelConfig} (h : channelConfigOf p = some c) : c.valid = true := by
  simp only [channelConfigOf, Option.bind_eq_bind, Option.bind_eq_some_iff, Option.ite_none_right_eq_some,
    Option.some.injEq] at h
  obtain ⟨_, -, _, -, _, -, _, -, _, -, _, -, ⟨-, hvalid⟩, rfl⟩ := h
  exact hvalid

theorem outputConfigOf_valid {own : Addr} {p : List Byte} {c : OutputConfig} (h : outputConfigOf own p = some c) :
    c.valid own = true := by
  simp only [outputConfigOf, Option.bind_eq_bind, Option.bind_eq_some_iff] at h
  obtain ⟨_, -, _, -, _, -, _, -, h⟩ := h
  split at h
  · simp only [Option.bind_eq_some_iff, Option.ite_none_right_eq_some, Option.some.injEq] at h
    obtain ⟨_, -, _, -, _, -, _, -, _, -, hvalid, rfl⟩ := h
    exact hvalid
  · cases h

theorem systemRecordOf_range {p : List Byte} {r : SystemRecord} (h : systemRecordOf p = some r) :
    (1 ≤ r.ownAddress.toNat ∧ r.ownAddress.toNat ≤ 62) ∧ (1 ≤ r.tickPeriod.toNat ∧ r.tickPeriod.toNat ≤ 1000) ∧
      r.resendTicks ≠ 0 := by
  simp only [systemRecordOf, Option.bind_eq_bind, Option.bind_eq_some_iff, Option.ite_none_right_eq_some,
    Option.some.injEq] at h
  obtain ⟨own, hown, _, -, ⟨hlow, hhigh, hresend, -⟩, rfl⟩ := h
  exact ⟨nodeOf_range hown, ⟨hlow, hhigh⟩, hresend⟩

/-- A configuration's own conditions, and its target other than the own address (R89). -/
theorem OutputConfig.valid_of_own {own own' : Addr} {c : OutputConfig} (h : c.valid own = true)
    (hne : c.targetNode ≠ own') : c.valid own' = true := by
  simp only [OutputConfig.valid, Bool.and_eq_true, decide_eq_true_eq, bne_iff_ne] at h ⊢
  obtain ⟨⟨⟨⟨⟨hlow, hhigh⟩, -⟩, htwo⟩, height⟩, hrising⟩ := h
  exact ⟨⟨⟨⟨⟨hlow, hhigh⟩, hne⟩, htwo⟩, height⟩, hrising⟩

/-! ## The Binding Table (R38, R39) -/

theorem State.boundSlot_none {s : State} {a : Addr} {ch : BitVec 4} (h : (s.boundSlot a ch).isSome ≠ true) :
    ∀ b ∈ s.bindings, ¬ (b.node = a ∧ b.channel = ch) := by
  simpa [State.boundSlot] using h

theorem State.bindingOf_none {s : State} {k : Slot} (h : (s.bindingOf k).isSome ≠ true) :
    ∀ b ∈ s.bindings, b.slot ≠ k := by
  simpa [State.bindingOf] using h

theorem insertBinding_perm (b : Binding) (l : List Binding) : (insertBinding b l).Perm (b :: l) := by
  induction l with
  | nil => exact .refl _
  | cons c l ih =>
    unfold insertBinding
    split
    · exact .refl _
    · exact (ih.cons c).trans (.swap b c l)

theorem insertBinding_ordered (b : Binding) (l : List Binding) (hl : l.Pairwise fun x y => x.slot < y.slot)
    (hb : ∀ x ∈ l, x.slot ≠ b.slot) : (insertBinding b l).Pairwise fun x y => x.slot < y.slot := by
  induction l with
  | nil => exact List.pairwise_singleton _ _
  | cons c l ih =>
    obtain ⟨hc, htail⟩ := List.pairwise_cons.mp hl
    unfold insertBinding
    split
    · next hlt =>
      refine List.pairwise_cons.mpr ⟨fun x hx => ?_, hl⟩
      rcases List.mem_cons.mp hx with rfl | hx
      · exact hlt
      · exact hlt.trans (hc x hx)
    · next hge =>
      refine List.pairwise_cons.mpr ⟨fun x hx => ?_, ih htail fun x hx => hb x (List.mem_cons_of_mem c hx)⟩
      rcases List.mem_cons.mp ((insertBinding_perm b l).mem_iff.mp hx) with rfl | hx
      · exact lt_of_le_of_ne (not_lt.mp hge) (hb c List.mem_cons_self)
      · exact hc x hx

/-! ## Writes of the tables keep their laws -/

namespace State.LawfulTables

variable {s t : State}

/-- A record written at an address of the table: enrolled, or empty and without a binding (R20, R38). -/
theorem setNode (h : s.LawfulTables) {a : Addr} (ha : 1 ≤ a.toNat ∧ a.toNat ≤ 62) (hown : a ≠ s.system.ownAddress)
    {r : NodeRecord} (hr : r.config.enrolled = true ∨ (r = .empty ∧ ∀ b ∈ s.bindings, b.node ≠ a)) :
    (s.setNode a r).LawfulTables := by
  have hnode : ∀ b, (s.setNode a r).node b = if a = b then r else s.node b := fun b =>
    s.node_setNode a b r (by rintro rfl; simp at ha) (by rintro rfl; simp at ha)
  refine ⟨h.ownAddress, h.tickPeriod, h.resendTicks, ?_, fun b hb => ?_, h.ordered, h.keys, fun b hb => ?_, h.channel,
    h.output, h.targets⟩
  · rw [State.setNode_system, hnode, if_neg hown]
    exact h.ownNode
  · rw [hnode] at hb ⊢
    split at hb
    · next hab =>
      rw [if_pos hab]
      rcases hr with hr | ⟨hr, -⟩
      · rw [hr] at hb; cases hb
      · exact hr
    · next hab =>
      rw [if_neg hab]
      exact h.empty b hb
  · rw [hnode]
    split
    · next hab =>
      rcases hr with hr | ⟨-, hr⟩
      · exact hr
      · exact absurd hab.symm (hr b hb)
    · exact h.bound b hb

theorem withSystem (h : s.LawfulTables) {r : SystemRecord} (hown : 1 ≤ r.ownAddress.toNat ∧ r.ownAddress.toNat ≤ 62)
    (hperiod : 1 ≤ r.tickPeriod.toNat ∧ r.tickPeriod.toNat ≤ 1000) (hresend : r.resendTicks ≠ 0)
    (hfree : s.addressInUse r.ownAddress ≠ true) : ({ s with system := r } : State).LawfulTables := by
  simp only [State.addressInUse, Bool.not_eq_true, Bool.or_eq_false_iff, List.any_eq_false, decide_eq_true_eq] at hfree
  obtain ⟨hnode, htarget⟩ := hfree
  refine ⟨hown, hperiod, hresend, hnode, h.empty, h.ordered, h.keys, h.bound, h.channel, fun i => ?_, h.targets⟩
  have hmem : s.output i ∈ s.outputs.toList := Vector.mem_toList_iff.mpr (Vector.getElem_mem i.isLt)
  exact OutputConfig.valid_of_own (h.output i) (htarget _ hmem)

theorem bind (h : s.LawfulTables) {a : Addr} {ch : BitVec 4} {k : Slot} (ha : (s.node a).config.enrolled = true)
    (hkey : (s.boundSlot a ch).isSome ≠ true) (hslot : (s.bindingOf k).isSome ≠ true) :
    ({ s with bindings := insertBinding { node := a, channel := ch, slot := k } s.bindings } : State).LawfulTables := by
  have hperm := insertBinding_perm { node := a, channel := ch, slot := k } s.bindings
  refine ⟨h.ownAddress, h.tickPeriod, h.resendTicks, h.ownNode, h.empty,
    insertBinding_ordered _ _ h.ordered (State.bindingOf_none hslot), ?_, fun b hb => ?_, h.channel, h.output, h.targets⟩
  · refine (hperm.pairwise_iff fun hxy hyx => hxy ⟨hyx.1.symm, hyx.2.symm⟩).mpr (List.pairwise_cons.mpr ⟨?_, h.keys⟩)
    exact fun b hb hab => State.boundSlot_none hkey b hb ⟨hab.1.symm, hab.2.symm⟩
  · rcases List.mem_cons.mp (hperm.mem_iff.mp hb) with rfl | hb
    · exact ha
    · exact h.bound b hb

theorem unbind (h : s.LawfulTables) (k : Slot) :
    ({ s with bindings := s.bindings.filter fun b => b.slot ≠ k } : State).LawfulTables :=
  ⟨h.ownAddress, h.tickPeriod, h.resendTicks, h.ownNode, h.empty, h.ordered.filter _, h.keys.filter _,
    fun b hb => h.bound b (List.mem_of_mem_filter hb), h.channel, h.output, h.targets⟩

theorem setChannel (h : s.LawfulTables) {k : Slot} {r : ChannelRecord} (hr : r.config.valid = true) :
    (s.setChannel k r).LawfulTables := by
  refine ⟨h.ownAddress, h.tickPeriod, h.resendTicks, h.ownNode, h.empty, h.ordered, h.keys, h.bound, fun j => ?_,
    h.output, h.targets⟩
  rw [State.channel_setChannel]
  split
  · exact hr
  · exact h.channel j

/-- An output written with a valid configuration; enabled, no other enabled output has its target pair (R89, R90). -/
theorem setOutput (h : s.LawfulTables) {i : OutIdx} {r : OutputRecord} (hr : r.config.valid s.system.ownAddress = true)
    (hpair : r.config.enabled = true → ∀ j, j ≠ i → (s.output j).config.enabled = true →
      ¬ ((s.output j).config.targetNode = r.config.targetNode ∧ (s.output j).config.targetIndex = r.config.targetIndex)) :
    (s.setOutput i r).LawfulTables := by
  refine ⟨h.ownAddress, h.tickPeriod, h.resendTicks, h.ownNode, h.empty, h.ordered, h.keys, h.bound, h.channel,
    fun j => ?_, fun j j' hne => ?_⟩
  · rw [State.output_setOutput]
    split
    · exact hr
    · exact h.output j
  · rw [State.output_setOutput, State.output_setOutput]
    split
    · next hj =>
      subst hj
      rw [if_neg hne]
      exact fun he he' hsame => hpair he j' hne.symm he' ⟨hsame.1.symm, hsame.2.symm⟩
    · split
      · next hj' =>
        subst hj'
        exact fun he he' hsame => hpair he' j hne he hsame
      · exact h.targets j j' hne

end State.LawfulTables

/-! ## The images and laws of the Image Store (R183 to R185, R191 to R193) -/

theorem ImageStore.imagesLawful_iff (st : ImageStore) :
    st.ImagesLawful ↔ (∀ id, (st.bank id).Lawful) ∧ ∀ j ∈ st.commit, j.copy.Lawful := by
  constructor
  · rintro ⟨ha, hb, hcopy⟩
    refine ⟨fun id => ?_, hcopy⟩
    cases id with
    | a => exact ha
    | b => exact hb
  · rintro ⟨hbank, hcopy⟩
    exact ⟨hbank .a, hbank .b, hcopy⟩

/-- The fields beside the two banks do not enter what a bank holds. -/
theorem ImageStore.bank_flags (st : ImageStore) (current : Option BankId) (commit : Option CommitJob)
    (lastResult : LastResult) (dirty : Bool) (id : BankId) :
    ({ st with current := current, commit := commit, lastResult := lastResult, dirty := dirty } : ImageStore).bank id =
      st.bank id := by
  cases id <;> rfl

theorem ImageStore.setBank_current (st : ImageStore) (id : BankId) (b : Bank) :
    (st.setBank id b).current = st.current := by
  cases id <;> rfl

theorem Bank.erased_lawful : Bank.erased.Lawful := nofun

theorem Bank.load_some {b : Bank} {img : Image} (h : b.load = some img) : b.image = .intact img := by
  unfold Bank.load at h
  split at h
  · next heq =>
    split at h
    · cases h; exact heq
    · cases h
  · cases h
  · cases h

theorem Bank.Lawful.load {b : Bank} (h : b.Lawful) {img : Image} (hl : b.load = some img) : img.Lawful :=
  h img (by rw [Bank.load_some hl]; rfl)

theorem Bank.load_intact {b : Bank} {img : Image} (hi : b.image = .intact img) (hv : b.valid = true) :
    b.load = some img := by
  simp only [Bank.load, hi, hv, if_true]

/-- The bank selected at a hard reset is one that loads (R187). -/
theorem ImageStore.select_load {st : ImageStore} {id : BankId} {img : Image} (h : st.select = some (id, img)) :
    (st.bank id).load = some img := by
  unfold ImageStore.select at h
  split at h
  · cases h
  · next ha _ => cases h; exact ha
  · next _ hb => cases h; exact hb
  · next ha hb =>
    split at h
    · cases h; exact hb
    · cases h; exact ha

theorem ImageStore.nextTarget_ne (st : ImageStore) : st.current ≠ some st.nextTarget := by
  unfold ImageStore.nextTarget
  split
  · next h => rw [h]; exact nofun
  · next h => rw [h]; exact nofun
  · next h => rw [h]; exact nofun

theorem Image.factory_lawful : Image.factory.Lawful := by
  refine ⟨by decide, by decide, by decide, ?_, fun a _ => Image.factory_nodeAt a, .nil, .nil, nofun, fun k => ?_,
    fun i => ?_, fun i j _ he => ?_⟩
  · rw [Image.factory_nodeAt]; rfl
  · rw [Image.factory_channel]; rfl
  · rw [Image.factory_output]; rfl
  · rw [Image.factory_output] at he; cases he

namespace State.ConfigurationLawful

variable {s t : State}

/-- The live image is lawful, and so is a copy of it (R183, R190). -/
theorem liveImage (h : s.ConfigurationLawful) : s.liveImage.Lawful :=
  (s.lawfulTables_iff.mp h.tables).1

/-! ### Table writes -/

theorem withTables (h : s.ConfigurationLawful) (ht : t.LawfulTables) (hs : t.store = s.store) :
    t.ConfigurationLawful :=
  ⟨ht, hs ▸ h.images, hs ▸ h.store⟩

/-- A change of the store alone. -/
theorem withStore (h : s.ConfigurationLawful) {st : ImageStore} (himages : st.ImagesLawful) (hlawful : st.Lawful) :
    ({ s with store := st } : State).ConfigurationLawful := by
  obtain ⟨⟨hown, hperiod, hresend, hnode, hempty, hordered, hkeys, hbound, hchannel, houtput, htargets⟩, -, -⟩ := h
  exact ⟨⟨hown, hperiod, hresend, hnode, hempty, hordered, hkeys, hbound, hchannel, houtput, htargets⟩, himages,
    hlawful⟩

/-- A table write sets flags of the store, and touches neither its banks nor a commit's target and copy (R186). -/
theorem tableWritten (h : s.ConfigurationLawful) : s.tableWritten.ConfigurationLawful := by
  obtain ⟨ha, hb, hcopy⟩ := h.images
  obtain ⟨htarget, hcurrent⟩ := h.store
  have hjob : ∀ j ∈ s.tableWritten.store.commit, ∃ j' ∈ s.store.commit, j.target = j'.target ∧ j.copy = j'.copy := by
    intro j hj
    obtain ⟨j', hj', rfl⟩ := Option.map_eq_some_iff.mp hj
    exact ⟨j', hj', rfl, rfl⟩
  refine h.withStore ⟨ha, hb, fun j hj => ?_⟩ ⟨fun j hj => ?_, hcurrent⟩
  · obtain ⟨j', hj', -, he⟩ := hjob j hj
    exact he ▸ hcopy j' hj'
  · obtain ⟨j', hj', he, -⟩ := hjob j hj
    rw [he]
    exact htarget j' hj'

theorem doWriteSystem (h : s.ConfigurationLawful) (p : List Byte) : (s.doWriteSystem p).state.ConfigurationLawful := by
  unfold State.doWriteSystem
  split
  · exact h
  · next r hr =>
    obtain ⟨hown, hperiod, hresend⟩ := systemRecordOf_range hr
    split
    · exact h
    · next hfree => exact (h.withTables (h.tables.withSystem hown hperiod hresend hfree) rfl).tableWritten

theorem doEnrolNode (h : s.ConfigurationLawful) (p : List Byte) : (s.doEnrolNode p).state.ConfigurationLawful := by
  unfold State.doEnrolNode
  split
  · exact h
  · next a ha =>
    split
    · exact h
    · next hown =>
      split
      · exact h
      · exact (h.withTables (h.tables.setNode (nodeOf_range ha) hown (.inl rfl)) rfl).tableWritten

theorem doRetireNode (h : s.ConfigurationLawful) (p : List Byte) : (s.doRetireNode p).state.ConfigurationLawful := by
  unfold State.doRetireNode
  split
  · exact h
  · next a ha =>
    split
    · exact h
    · next hown =>
      split
      · exact h
      · split
        · exact h
        · next hfree =>
          have hunbound : ∀ b ∈ s.bindings, b.node ≠ a := by simpa using hfree
          exact (h.withTables (h.tables.setNode (nodeOf_range ha) hown (.inr ⟨rfl, hunbound⟩)) rfl).tableWritten

theorem clearChannel (h : s.ConfigurationLawful) (k : Slot) : (s.clearChannel k).ConfigurationLawful :=
  h.kept (.of_supervision (s.clearChannel_supervisionOnly k))

theorem doBind (h : s.ConfigurationLawful) (p : List Byte) : (s.doBind p).state.ConfigurationLawful := by
  unfold State.doBind
  split
  · next a ch k _ _ _ =>
    split
    · exact h
    · next henrolled =>
      split
      · exact h
      · next hkey =>
        split
        · exact h
        · next hslot =>
          have htables := h.tables.bind (not_not.mp henrolled) hkey hslot
          exact ((h.withTables htables rfl).clearChannel k).tableWritten
  · exact h

theorem doUnbind (h : s.ConfigurationLawful) (p : List Byte) : (s.doUnbind p).state.ConfigurationLawful := by
  unfold State.doUnbind
  split
  · exact h
  · next k _ =>
    split
    · exact h
    · exact ((h.withTables (h.tables.unbind k) rfl).clearChannel k).tableWritten

theorem rewriteChannel (h : s.ConfigurationLawful) (k : Slot) {c : ChannelConfig} (hc : c.valid = true) :
    (s.rewriteChannel k c).ConfigurationLawful := by
  have hset : ∀ r, (s.setChannel k { config := c, runtime := r }).ConfigurationLawful := fun _ =>
    h.withTables (h.tables.setChannel hc) rfl
  unfold State.rewriteChannel
  dsimp only
  split
  · exact hset _
  · exact (hset _).clearChannel k

theorem doWriteChannel (h : s.ConfigurationLawful) (p : List Byte) : (s.doWriteChannel p).state.ConfigurationLawful := by
  unfold State.doWriteChannel
  split
  · exact h
  · next k _ =>
    split
    · exact h
    · next c hc => exact (h.rewriteChannel k (channelConfigOf_valid hc)).tableWritten

/-- The configuration is written first; what follows is the Output Unit's own work (R105 to R107). -/
theorem rewriteOutput (h : s.ConfigurationLawful) {i : OutIdx} {c : OutputConfig}
    (hc : c.valid s.system.ownAddress = true)
    (hpair : ¬ (c.enabled = true ∧ s.targetHeld i c.targetNode c.targetIndex = true)) :
    (s.rewriteOutput i c).ConfigurationLawful := by
  have hfree : c.enabled = true → ∀ j, j ≠ i → (s.output j).config.enabled = true →
      ¬ ((s.output j).config.targetNode = c.targetNode ∧ (s.output j).config.targetIndex = c.targetIndex) := by
    intro he j hj hej hsame
    refine hpair ⟨he, List.any_eq_true.mpr ⟨j, mem_allOutputs j, ?_⟩⟩
    simpa using ⟨hj, hej, hsame⟩
  have hset : ∀ r, (s.setOutput i { config := c, runtime := r }).ConfigurationLawful := fun _ =>
    h.withTables (h.tables.setOutput hc hfree) rfl
  unfold State.rewriteOutput
  dsimp only
  split
  · exact (hset _).kept (.of_eq rfl rfl rfl rfl rfl rfl)
  · split
    · exact (hset _).kept (.of_outputs (State.judgeAfresh_outputsOnly _ i))
    · split
      · exact (hset _).kept (.of_outputs (State.rewriteSameTarget_outputsOnly _ i))
      · exact (hset _).kept (.of_outputs (State.rewriteNewTarget_outputsOnly _ i))

theorem doWriteOutput (h : s.ConfigurationLawful) (p : List Byte) : (s.doWriteOutput p).state.ConfigurationLawful := by
  unfold State.doWriteOutput
  split
  · exact h
  · split
    · exact h
    · next c hc =>
      split
      · exact h
      · next hpair => exact (h.rewriteOutput (outputConfigOf_valid hc) hpair).tableWritten

/-! ### A commit and its ends -/

/-- The other banks are as they were when one that is not current is written. -/
theorem current_setBank (h : s.ConfigurationLawful) {target : BankId} (ht : s.store.current ≠ some target) (b : Bank) :
    ∀ id ∈ s.store.current, ((s.store.setBank target b).bank id).load.isSome = true := by
  intro id hid
  obtain ⟨-, hcurrent⟩ := h.store
  rw [ImageStore.bank_setBank, if_neg]
  · exact hcurrent id hid
  · rintro rfl
    exact ht hid

theorem banks_setBank (h : s.ConfigurationLawful) (target : BankId) {b : Bank} (hb : b.Lawful) (id : BankId) :
    ((s.store.setBank target b).bank id).Lawful := by
  obtain ⟨hbank, -⟩ := s.store.imagesLawful_iff.mp h.images
  rw [ImageStore.bank_setBank]
  split
  · exact hb
  · exact hbank id

/-- A store whose bank `target` has been written, with a commit in flight toward it. -/
theorem withJob (h : s.ConfigurationLawful) {b : Bank} (hb : b.Lawful) (hword : b.integrity = 0xFFFFFFFF)
    {j : CommitJob} (ht : s.store.current ≠ some j.target) (hcopy : j.copy.Lawful) :
    ({ s with store := { s.store.setBank j.target b with commit := some j } } : State).ConfigurationLawful := by
  have hsame := (s.store.setBank j.target b).bank_flags (s.store.setBank j.target b).current (some j)
    (s.store.setBank j.target b).lastResult (s.store.setBank j.target b).dirty
  have hcur := s.store.setBank_current j.target b
  refine h.withStore ((ImageStore.imagesLawful_iff _).mpr ⟨fun id => ?_, ?_⟩) ⟨?_, fun id hid => ?_⟩
  · rw [hsame]; exact h.banks_setBank j.target hb id
  · rintro _ ⟨⟩; exact hcopy
  · rintro _ ⟨⟩
    rw [hsame, ImageStore.bank_setBank, if_pos rfl]
    exact ⟨hcur ▸ ht, hword⟩
  · rw [hsame]
    exact h.current_setBank ht b id (hcur ▸ hid)

theorem doCommit (h : s.ConfigurationLawful) (p : List Byte) : (s.doCommit p).state.ConfigurationLawful := by
  unfold State.doCommit
  split
  · exact h
  · exact h.withJob (j := { phase := .erasing, target := s.store.nextTarget, generation := s.store.nextGeneration,
                            copy := s.liveImage, writtenSinceStart := false })
      Bank.erased_lawful rfl s.store.nextTarget_ne h.liveImage

theorem endErasure (h : s.ConfigurationLawful) : s.endErasure.ConfigurationLawful := by
  unfold State.endErasure
  split
  · exact h
  · next j hj =>
    split
    · obtain ⟨ha, hb, hcopy⟩ := h.images
      obtain ⟨htarget, hcurrent⟩ := h.store
      refine h.withStore ⟨ha, hb, ?_⟩ ⟨?_, hcurrent⟩
      · rintro _ ⟨⟩; exact hcopy j hj
      · rintro _ ⟨⟩; exact htarget j hj
    · exact h

theorem endWriting (h : s.ConfigurationLawful) (m : MediumResult) : (s.endWriting m).ConfigurationLawful := by
  unfold State.endWriting
  split
  · exact h
  · next j hj =>
    split
    · obtain ⟨-, -, hcopy⟩ := h.images
      obtain ⟨htarget, -⟩ := h.store
      obtain ⟨hne, -⟩ := htarget j hj
      have hwritten : (j.written m).Lawful := by
        cases m with
        | good => rintro _ ⟨⟩; exact hcopy j hj
        | faulty g => exact nofun
      have hword : (j.written m).integrity = 0xFFFFFFFF := by cases m <;> rfl
      exact h.withJob (j := { j with phase := .verifying }) hwritten hword hne (hcopy j hj)
    · exact h

/-- A store whose bank `target` has been written and whose commit has ended. -/
theorem withEnd (h : s.ConfigurationLawful) {target : BankId} {b : Bank} (hb : b.Lawful) {current : Option BankId}
    (hcurrent : ∀ id ∈ current, ((s.store.setBank target b).bank id).load.isSome = true) (result : LastResult)
    (dirty : Bool) :
    ({ s with store := { s.store.setBank target b with current := current, lastResult := result, dirty := dirty,
                                                       commit := none } } : State).ConfigurationLawful := by
  have hsame := (s.store.setBank target b).bank_flags current none result dirty
  refine h.withStore ((ImageStore.imagesLawful_iff _).mpr ⟨fun id => ?_, nofun⟩) ⟨nofun, fun id hid => ?_⟩
  · rw [hsame]; exact h.banks_setBank target hb id
  · rw [hsame]; exact hcurrent id hid

/-- A success makes the bank it wrote valid and current (R192). -/
theorem commitSucceeds (h : s.ConfigurationLawful) (j : CommitJob) (hi : (s.store.bank j.target).image = .intact j.copy) :
    (s.commitSucceeds j).ConfigurationLawful := by
  obtain ⟨hbank, -⟩ := s.store.imagesLawful_iff.mp h.images
  refine (h.withEnd (target := j.target) (b := { s.store.bank j.target with
    integrity := integrityWord (s.store.bank j.target).generation (s.store.bank j.target).image }) (hbank j.target)
    (current := some j.target) ?_ .done j.writtenSinceStart).kept (.of_outputs (State.raise_outputsOnly _ _ _ _))
  rintro _ ⟨⟩
  rw [ImageStore.bank_setBank, if_pos rfl]
  exact Option.isSome_of_eq_some (Bank.load_intact (img := j.copy) hi (Bank.valid_written _))

/-- A failure leaves the current bank and its validity as they were (R193). -/
theorem commitFails (h : s.ConfigurationLawful) (j : CommitJob) (ht : s.store.current ≠ some j.target) :
    (s.commitFails j).ConfigurationLawful := by
  obtain ⟨hbank, -⟩ := s.store.imagesLawful_iff.mp h.images
  refine (h.withEnd (target := j.target) (b := { s.store.bank j.target with integrity := 0xFFFFFFFF }) (hbank j.target)
    (current := (s.store.setBank j.target { s.store.bank j.target with integrity := 0xFFFFFFFF }).current) ?_ .failed
    true).kept (.of_outputs (State.raise_outputsOnly _ .commitFailed .none j.generation))
  rw [ImageStore.setBank_current]
  exact h.current_setBank ht _

theorem endReadBack (h : s.ConfigurationLawful) : s.endReadBack.ConfigurationLawful := by
  unfold State.endReadBack
  split
  · exact h
  · next j hj =>
    split
    · dsimp only
      split
      · next hsame => exact h.commitSucceeds j hsame.2
      · obtain ⟨htarget, -⟩ := h.store
        obtain ⟨hne, -⟩ := htarget j hj
        exact h.commitFails j hne
    · exact h

/-! ### Resets -/

theorem assertReset (h : s.ConfigurationLawful) : s.assertReset.ConfigurationLawful := by
  obtain ⟨ha, hb, -⟩ := h.images
  obtain ⟨-, hcurrent⟩ := h.store
  have hended := h.withStore (st := { s.store with commit := none }) ⟨ha, hb, nofun⟩ ⟨nofun, hcurrent⟩
  exact hended.kept (.of_eq rfl rfl rfl rfl rfl rfl)

/-- The start-up loads a lawful image, and the bank it selects is valid (R187, R188). -/
theorem startUp (h : s.ConfigurationLawful) : s.endInFlight.startUp.liveImage.Lawful ∧
    ∀ id ∈ s.endInFlight.startUp.store.current, (s.endInFlight.startUp.store.bank id).load.isSome = true := by
  obtain ⟨hbank, -⟩ := s.store.imagesLawful_iff.mp h.images
  cases hsel : s.store.select with
  | none =>
    obtain ⟨hi, hs⟩ := State.startUp_none (s.endInFlight_select.trans hsel)
    rw [hi, hs]
    exact ⟨Image.factory_lawful, nofun⟩
  | some r =>
    obtain ⟨id, img⟩ := r
    obtain ⟨hi, hs⟩ := State.startUp_some (s.endInFlight_select.trans hsel)
    have hload := ImageStore.select_load hsel
    rw [hi, hs]
    refine ⟨(hbank id).load hload, ?_⟩
    rintro _ ⟨⟩
    rw [ImageStore.bank_flags]
    exact Option.isSome_of_eq_some hload

/-- A hard reset loads a lawful image, and what it selects is valid (R187, R188). -/
theorem hardReset (h : s.ConfigurationLawful) (lineF lineS : LinkState) :
    (s.hardReset lineF lineS).ConfigurationLawful := by
  obtain ⟨hbank, -⟩ := s.store.imagesLawful_iff.mp h.images
  obtain ⟨-, himage, hstore⟩ := s.hardReset_frame lineF lineS
  have hclear := (s.hardReset_blocksReset lineF lineS).node
  obtain ⟨himg, hcurrent⟩ := h.startUp
  obtain ⟨-, -, -, hbanks⟩ := s.endInFlight.startUp_frame
  rw [← himage] at himg
  rw [← hstore] at hcurrent hbanks
  generalize s.hardReset lineF lineS = t at *
  refine ⟨t.lawfulTables_iff.mpr ⟨himg, fun a ha => ?_⟩, (ImageStore.imagesLawful_iff _).mpr ⟨fun id => ?_, ?_⟩, ?_,
    hcurrent⟩
  · obtain ⟨-, -, -, -, hempty, -⟩ := himg
    have hconfig := hempty a (by rwa [State.liveImage_nodeAt])
    rw [State.liveImage_nodeAt] at hconfig
    exact congrArg₂ NodeRecord.mk hconfig (hclear a)
  · rw [hbanks, ImageStore.bank_flags]; exact hbank id
  · rw [hbanks]; exact nofun
  · rw [hbanks]; exact nofun

/-! ### Every command -/

/-- Every request's owning rule keeps the configuration lawful. -/
theorem request (h : s.ConfigurationLawful) {c : Instr} {kind : RequestKind} {body : State → List Byte → Answer}
    (hc : requestOf c = some (kind, body)) (p : List Byte) : (body s p).state.ConfigurationLawful := by
  cases c <;> simp only [requestOf, Option.some.injEq, Prod.mk.injEq, reduceCtorEq] at hc <;>
    obtain ⟨rfl, rfl⟩ := hc
  case echo => exact h
  case readSystem => exact h
  case writeSystem => exact h.doWriteSystem p
  case readStats =>
    unfold State.doReadStats
    split
    · exact h
    · split <;> exact h.kept (.of_eq rfl rfl rfl rfl rfl rfl)
  case restart => unfold State.doRestart; split <;> exact h.kept (.of_eq rfl rfl rfl rfl rfl rfl)
  case enrolNode => exact h.doEnrolNode p
  case retireNode => exact h.doRetireNode p
  case readNode => unfold State.doReadNode; split <;> exact h
  case bind => exact h.doBind p
  case unbind => exact h.doUnbind p
  case writeChannel => exact h.doWriteChannel p
  case readChannel => unfold State.doReadChannel; split <;> exact h
  case ackBand =>
    unfold State.doAckBand
    split
    · exact h
    · split
      · exact h.kept (.of_supervision (s.acknowledgeBand_supervisionOnly _))
      · exact h
  case writeOutput => exact h.doWriteOutput p
  case readOutput => unfold State.doReadOutput; split <;> exact h
  case forceOutput =>
    unfold State.doForceOutput
    split
    · exact h
    · split
      · exact h
      · split
        · exact h
        · exact h.kept (.of_outputs (s.force_outputsOnly _ _))
  case releaseOutput =>
    unfold State.doReleaseOutput
    split
    · exact h
    · split
      · exact h.kept (.of_outputs (s.judgeAfresh_outputsOnly _))
      · exact h
  case ackNotices =>
    unfold State.doAckNotices
    split
    · exact h
    · exact h.kept (.of_eq rfl rfl rfl rfl rfl rfl)
  case capture => exact h.kept (.of_eq rfl rfl rfl rfl rfl rfl)
  case readCapture => unfold State.doReadCapture; (repeat' split) <;> exact h
  case commit => exact h.doCommit p
  case readImage => exact h

theorem executeUnknown (h : s.ConfigurationLawful) : s.executeUnknown.ConfigurationLawful := by
  unfold State.executeUnknown
  split
  · exact h
  · split
    · exact h
    · exact h.kept (.withAnswer s _ _ _)

/-- The execution of a request, its answer included. -/
theorem executed (h : s.ConfigurationLawful) {c : Instr} {kind : RequestKind} {body : State → List Byte → Answer}
    (hc : requestOf c = some (kind, body)) : (effectOf c s).ConfigurationLawful := by
  rw [effectOf_request c kind body s hc]
  rcases s.executeRequest_cases kind body with hs | ⟨e, -, hs⟩ | ⟨e, -, -, -, hs⟩
  · rw [hs]; exact h
  · rw [hs]; exact h.kept (.withAnswer s e _ _)
  · rw [hs]; exact (h.request hc e.params).kept (.withAnswer _ e _ _)

/-- Every command's own effect keeps the configuration lawful, whatever records are due to go SILENT being enrolled. -/
theorem effect (h : s.ConfigurationLawful) (hdue : ∀ a ∈ s.due.silent, (s.node a).config.enrolled = true) (c : Instr) :
    (effectOf c s).ConfigurationLawful := by
  cases hc : requestOf c with
  | some r => exact h.executed hc
  | none =>
    cases c with
    | frameStart p => exact h.kept (.frameStart s p)
    | byteArrival p b => exact h.kept (.byteArrival s p b)
    | frameEnd p => exact h.kept (.frameEnd s p)
    | lossOfSignal p => exact h.kept (.lossOfSignal s p)
    | returnOfSignal p => exact h.kept (.returnOfSignal s p)
    | tick => exact h.kept (.tick s)
    | nodeTableTick => exact h.kept (.nodeTableTick s)
    | nodeSilent => exact h.kept (.nextSilent hdue)
    | channelTableTick => exact h.kept (.channelTableTick s)
    | channelStale => exact h.kept (.nextStale hdue)
    | outputUnitTick => exact h.kept (.outputUnitTick s)
    | refresh => exact h.kept (.nextRefresh hdue)
    | noticeLogTick => exact h.kept (.noticeLogTick s)
    | goBack => exact h.kept (.takeGoBack hdue)
    | sPortStart => exact h.kept (.startS s)
    | fPortStart => exact h.kept (.startF s)
    | transmissionComplete p => exact h.kept (.endTransmission s p true)
    | unknownRequest => exact h.executeUnknown
    | erasureEnds => exact h.endErasure
    | writingEnds m => exact h.endWriting m
    | readBackEnds => exact h.endReadBack
    | resetAsserted => exact h.assertReset
    | hardReset lineF lineS => exact h.hardReset lineF lineS
    | echo | readSystem | writeSystem | readStats | restart | enrolNode | retireNode | readNode | bind | unbind
    | writeChannel | readChannel | ackBand | writeOutput | readOutput | forceOutput | releaseOutput | ackNotices
    | capture | readCapture | commit | readImage => cases hc

/-- Every command does, after any open tick event has been carried to its end. -/
theorem of_exec (h : s.ConfigurationLawful) (hdue : ∀ a ∈ s.due.silent, (s.node a).config.enrolled = true) (c : Instr)
    (ht : exec c s = .next t) : t.ConfigurationLawful := by
  rw [exec_eq] at ht
  cases ht
  split
  · exact h.effect hdue c
  · split
    · exact h
    · split
      · exact h.effect hdue c
      · exact (h.kept (.settle hdue)).effect (by rw [s.settle_due]; exact nofun) c

end State.ConfigurationLawful

/-- Settles O59: a step runs the front command on the state with the queue's rest, or idles. What DueLawful adds is that
only enrolled records are due to go SILENT. -/
theorem configurationStaysLawful : Obligations.ConfigurationStaysLawful := by
  rintro s t htables himages hstore ⟨-, hdue, -⟩ hstep
  have hs : s.ConfigurationLawful := ⟨s.lawfulTables_iff.mpr htables, himages, hstore⟩
  have ht : t.ConfigurationLawful := by
    unfold step at hstep
    split at hstep
    · cases hstep
      exact hs
    · next c rest _ =>
      exact State.ConfigurationLawful.of_exec (s := { s with pending := rest }) (hs.kept (.of_eq rfl rfl rfl rfl rfl rfl))
        (fun a ha => NodeRecord.enrolled_of_silentDue (hdue a ha)) c hstep
  exact ⟨t.lawfulTables_iff.mp ht.tables, ht.images, ht.store⟩

end Sys2Proof.Machine
end

section
/-! SUPPORT. The Node Table: an open tick event's end, frames at the table, ticks, silence, enrolment (chapter 2). -/

namespace Sys2Proof.Machine

/-! ## An open tick event (R28, R79, R100, R134) -/

/-- A command that is neither a step of the tick event nor the hard reset acts on the end of the open tick event. -/
theorem exec_settle {s : State} (hs : s.held = false) {c : Instr} (hr : isHardReset c = false)
    (ht : isTickStep c = false) : exec c s = exec c s.settle := by
  simp only [exec_eq, hr, ht, s.settle_held, hs, State.settle_idle _ s.settle_due, Bool.false_eq_true, if_false]

/-- A step of the tick event that finds nothing due of its own kind carries the event to its end. -/
theorem State.tickStep_none (s : State) :
    (s.due.silent = [] → s.nextSilent = s.settle) ∧ (s.due.stale = [] → s.nextStale = s.settle) ∧
      (s.due.refresh = [] → s.nextRefresh = s.settle) ∧ (s.due.goBack = false → s.takeGoBack = s.settle) := by
  refine ⟨fun h => ?_, fun h => ?_, fun h => ?_, fun h => ?_⟩
  · simp only [State.nextSilent, h]
  · simp only [State.nextStale, h]
  · simp only [State.nextRefresh, h]
  · simp only [State.takeGoBack, h, Bool.false_eq_true, if_false]

/-- Settles O4. -/
theorem openTickEventEndsFirst : Obligations.OpenTickEventEndsFirst := by
  refine ⟨fun c s hs hr h1 h2 h3 h4 => ⟨s.settle_due, s.settle_held.trans hs, exec_settle hs ?_ ?_⟩, State.settle_idle,
    fun s hs => ?_⟩
  · cases c with
    | hardReset lineF lineS => exact absurd rfl (hr lineF lineS)
    | _ => rfl
  · cases c with
    | nodeSilent => exact absurd rfl h1
    | channelStale => exact absurd rfl h2
    | refresh => exact absurd rfl h3
    | goBack => exact absurd rfl h4
    | _ => rfl
  · have hsilent : exec .nodeSilent s = .next s.nextSilent := exec_tickStep hs .nodeSilent rfl rfl
    have hstale : exec .channelStale s = .next s.nextStale := exec_tickStep hs .channelStale rfl rfl
    have hrefresh : exec .refresh s = .next s.nextRefresh := exec_tickStep hs .refresh rfl rfl
    have hgoBack : exec .goBack s = .next s.takeGoBack := exec_tickStep hs .goBack rfl rfl
    obtain ⟨n1, n2, n3, n4⟩ := s.tickStep_none
    exact ⟨fun h => ⟨_, hsilent, s.settle_nextSilent h⟩, fun h => hsilent.trans (congrArg _ (n1 h)),
      fun h0 h => ⟨_, hstale, s.settle_nextStale h0 h⟩, fun h => hstale.trans (congrArg _ (n2 h)),
      fun h0 h1 h => ⟨_, hrefresh, s.settle_nextRefresh h0 h1 h⟩, fun h => hrefresh.trans (congrArg _ (n3 h)),
      fun h0 h1 h2 h => ⟨_, hgoBack, s.settle_takeGoBack h0 h1 h2 h⟩, fun h => hgoBack.trans (congrArg _ (n4 h))⟩

/-! ## Frames at the Node Table (R21 to R27) -/

theorem exec_frameEnd_status {s : State} {l : List Byte} (h : s.FromField l) (hk : byteAt l 2 = 0x02) :
    exec (.frameEnd .f) s = .next ((s.received .f).nodeTable { bytes := l } fun u => u.offerForward .f l) := by
  rw [exec_frameEnd_f h, hk]
  rfl

theorem exec_frameEnd_sample {s : State} {l : List Byte} {rs : List Reading} (h : s.FromField l)
    (hk : byteAt l 2 = 0x01) (hrs : sampleReadings ({ bytes := l } : Frame).payload = some rs) :
    exec (.frameEnd .f) s = .next ((s.received .f).nodeTable { bytes := l } fun u => u.samplePath { bytes := l } rs) := by
  rw [exec_frameEnd_f h, hk]
  show Host.Outcome.next ((s.received .f).handOff .f { bytes := l } .sample) = _
  simp only [State.handOff, hrs]

/-- A STATUS frame and a SAMPLE frame that passes its check reach the Node Table alike (R21). -/
theorem exec_frameEnd_nodeTable {s : State} {l : List Byte} (h : s.FromField l)
    (hk : byteAt l 2 = 0x02 ∨ (byteAt l 2 = 0x01 ∧ (sampleReadings ({ bytes := l } : Frame).payload).isSome = true)) :
    ∃ accepted : State → State, exec (.frameEnd .f) s = .next ((s.received .f).nodeTable { bytes := l } accepted) := by
  rcases hk with hk | ⟨hk, hrs⟩
  · exact ⟨_, exec_frameEnd_status h hk⟩
  · obtain ⟨rs, hrs⟩ := Option.isSome_iff_exists.mp hrs
    exact ⟨_, exec_frameEnd_sample h hk hrs⟩

/-- A frame of an unenrolled source, by the unenrolled-source policy (R22). -/
theorem State.nodeTable_unenrolled {s : State} {f : Frame} (h : (s.node f.src).config.enrolled = false)
    (accepted : State → State) :
    (s.system.policy = .block → s.nodeTable f accepted = s.count .f .rxBlocked) ∧
      (s.system.policy = .pass → s.nodeTable f accepted = s.offerForward .f f.bytes) := by
  simp only [State.nodeTable, h, Bool.false_eq_true, if_false]
  exact ⟨fun hp => by rw [hp], fun hp => by rw [hp]⟩

/-- A frame that the sequence judgement discards changes its record alone (R24, R26). -/
theorem State.nodeTable_discarded {s t : State} {f : Frame} (h : (s.node f.src).config.enrolled = true)
    (ht : s.nodeArrival f.src f.restartFlag f.seq = (t, false)) (accepted : State → State) :
    s.nodeTable f accepted = t := by
  simp only [State.nodeTable, h, ht, if_true, Bool.false_eq_true, if_false]

theorem State.nodeTable_accepted {s t : State} {f : Frame} (h : (s.node f.src).config.enrolled = true)
    (ht : s.nodeArrival f.src f.restartFlag f.seq = (t, true)) (accepted : State → State) :
    s.nodeTable f accepted = accepted t := by
  simp only [State.nodeTable, h, ht, if_true]

/-- The judgement of a frame without RESTART against a CHECKED record that holds a last_seq (R24). -/
theorem NodeRecord.judgeSeq_checked {r : NodeRecord} {last : Byte} (hp : r.config.seqPolicy = .checked)
    (hl : r.runtime.lastSeq = some last) (seq : Byte) :
    ((seq - last).toNat = 0 → r.judgeSeq false seq = .duplicate) ∧
      (129 ≤ (seq - last).toNat → r.judgeSeq false seq = .replay) := by
  simp only [NodeRecord.judgeSeq, hp, hl, Bool.false_eq_true, if_false]
  refine ⟨fun h => if_pos h, fun h => ?_⟩
  rw [if_neg (by omega), if_neg (by omega), if_neg (by omega)]

/-- What a duplicate and a replay count in their node's record (R24). -/
theorem State.nodeArrival_discarded {s : State} {a : Addr} {restart : Bool} {seq : Byte} :
    ((s.node a).judgeSeq restart seq = .duplicate →
      s.nodeArrival a restart seq = (s.setNode a { s.node a with
        runtime := { (s.node a).runtime with dupCount := satInc (s.node a).runtime.dupCount } }, false)) ∧
    ((s.node a).judgeSeq restart seq = .replay →
      s.nodeArrival a restart seq = (s.setNode a { s.node a with
        runtime := { (s.node a).runtime with replayCount := satInc (s.node a).runtime.replayCount } }, false)) := by
  constructor <;> intro h <;> simp only [State.nodeArrival, h]

/-- Settles O20. -/
theorem framesNotAccepted : Obligations.FramesNotAccepted := by
  refine ⟨fun s l h hn hk => ?_, fun s l last h hk hn hp hl hr => ?_⟩
  · obtain ⟨accepted, hexec⟩ := exec_frameEnd_nodeTable h hk
    obtain ⟨hblock, hpass⟩ := State.nodeTable_unenrolled (s := s.received .f) (f := { bytes := l }) hn accepted
    obtain ⟨hroom, hfull⟩ := s.received_offerForward .f l
    exact ⟨fun hb => hexec.trans (congrArg _ (hblock hb)),
      fun hp hq => hexec.trans (congrArg _ ((hpass hp).trans (hroom hq))),
      fun hp hq => hexec.trans (congrArg _ ((hpass hp).trans (hfull hq)))⟩
  · obtain ⟨accepted, hexec⟩ := exec_frameEnd_nodeTable h hk
    obtain ⟨hdup, hreplay⟩ := NodeRecord.judgeSeq_checked hp hl (byteAt l 4)
    rw [← hr] at hdup hreplay
    obtain ⟨hdup', hreplay'⟩ := State.nodeArrival_discarded (s := s.received .f) (a := addressOf (byteAt l 1))
      (restart := (byteAt l 3).getLsbD 0) (seq := byteAt l 4)
    have hdiscard := fun t ht => State.nodeTable_discarded (s := s.received .f) (t := t) (f := { bytes := l }) hn ht accepted
    exact ⟨fun hd => hexec.trans (congrArg _ (hdiscard _ (hdup' (hdup hd)))),
      fun hd => hexec.trans (congrArg _ (hdiscard _ (hreplay' (hreplay hd))))⟩

/-- A SAMPLE frame none of whose readings is supervised leaves the part as it is and is offered as it arrived (R47,
R55). -/
theorem State.samplePath_unbound {s : State} {f : Frame} {rs : List Reading}
    (h : ∀ r ∈ rs, ∀ k, s.boundSlot f.src r.channel = some k → (s.channel k).config.enabled = false) :
    s.samplePath f rs = s.offerForward .f f.bytes := by
  simp only [State.samplePath, PathState.foldl_reading_unbound f.src rs s h, Bool.false_eq_true, not_false_eq_true,
    if_true]

/-- Settles O21. -/
theorem acceptedFrameIsForwarded : Obligations.AcceptedFrameIsForwarded := by
  rintro s l _ missing notice h rfl hn hk hacc
  have harrival := State.received_nodeArrival hacc
  rcases hk with hk | ⟨hk, rs, hrs, hfree⟩
  · rw [exec_frameEnd_status h hk]
    exact congrArg _ (State.nodeTable_accepted (s := s.received .f) (f := { bytes := l }) hn harrival _)
  · rw [exec_frameEnd_sample h hk hrs]
    refine congrArg _ ((State.nodeTable_accepted (s := s.received .f) (f := { bytes := l }) hn harrival _).trans ?_)
    exact State.samplePath_unbound hfree

/-! ## Ticks (R28, R79, R100) -/

theorem NodeRecord.countsSilence_iff (r : NodeRecord) :
    r.countsSilence = true ↔ r.config.enrolled = true ∧ r.runtime.state ≠ .silent ∧ r.config.silenceLimit ≠ 0 := by
  simp [NodeRecord.countsSilence]

theorem ChannelRecord.countsSilence_iff (c : ChannelRecord) :
    c.countsSilence = true ↔ c.config.enabled = true ∧ c.config.silenceLimit ≠ 0 ∧
      c.runtime.state ∈ [.idle, .inBand, .high, .low] := by
  unfold ChannelRecord.countsSilence
  cases c.runtime.state <;> simp

theorem OutputRecord.refreshes_iff (o : OutputRecord) :
    o.refreshes = true ↔ o.runtime.state ≠ .off ∧ o.config.refresh ≠ 0 := by
  simp [OutputRecord.refreshes]

/-- A record that has counted is due when its count has reached its limit; one that does not count is not (R28). -/
theorem NodeRecord.silentDue_tick (r : NodeRecord) :
    r.tick.silentDue = true ↔ r.config.enrolled = true ∧ r.runtime.state ≠ .silent ∧ r.config.silenceLimit ≠ 0 ∧
      r.config.silenceLimit ≤ satInc r.runtime.silenceCount := by
  have hiff := r.countsSilence_iff
  have hcounts : r.tick.countsSilence = r.countsSilence := by
    unfold NodeRecord.tick
    split <;> rfl
  rw [NodeRecord.silentDue, hcounts, Bool.and_eq_true, decide_eq_true_eq]
  by_cases h : r.countsSilence = true
  · rw [NodeRecord.tick, if_pos h]
    tauto
  · tauto

theorem ChannelRecord.staleDue_tick (c : ChannelRecord) :
    c.tick.staleDue = true ↔ c.config.enabled = true ∧ c.config.silenceLimit ≠ 0 ∧
      c.runtime.state ∈ [.idle, .inBand, .high, .low] ∧ c.config.silenceLimit ≤ satInc c.runtime.silenceCount := by
  have hiff := c.countsSilence_iff
  have hcounts : c.tick.countsSilence = c.countsSilence := by
    unfold ChannelRecord.tick
    split <;> rfl
  rw [ChannelRecord.staleDue, hcounts, Bool.and_eq_true, decide_eq_true_eq]
  by_cases h : c.countsSilence = true
  · rw [ChannelRecord.tick, if_pos h]
    tauto
  · tauto

theorem OutputRecord.refreshDue_tick (o : OutputRecord) :
    o.tick.refreshDue = true ↔ o.runtime.state ≠ .off ∧ o.config.refresh ≠ 0 ∧
      o.config.refresh ≤ satInc o.runtime.refreshCount := by
  have hiff := o.refreshes_iff
  have hcounts : o.tick.refreshes = o.refreshes := by
    unfold OutputRecord.tick
    split <;> rfl
  rw [OutputRecord.refreshDue, hcounts, Bool.and_eq_true, decide_eq_true_eq]
  by_cases h : o.refreshes = true
  · rw [OutputRecord.tick, if_pos h]
    tauto
  · tauto

/-- Only the addresses 1 to 62 have records, so only they are enrolled (R20). -/
theorem State.address_of_enrolled {s : State} {a : Addr} (h : (s.node a).config.enrolled = true) : a ≠ 0 ∧ a ≠ 63 := by
  constructor
  · rintro rfl
    cases h
  · rintro rfl
    simp [State.node, NodeRecord.empty, NodeConfig.empty] at h

theorem exec_nodeTableTick {s : State} (hs : s.Ready) (hh : s.time.handedOn.nodeTable = true) :
    exec .nodeTableTick s = .next { s with
      time := { s.time with handedOn := { s.time.handedOn with nodeTable := false } }
      nodes := tableMap NodeRecord.tick s.nodes
      due := { DueWork.none with silent := allNodes.filter fun a => (s.node a).tick.silentDue } } := by
  have hnode := s.node_tableMap NodeRecord.tick NodeRecord.tick_empty
  have hdue : (allNodes.filter fun a =>
      (({ s with nodes := tableMap NodeRecord.tick s.nodes } : State).node a).silentDue) =
        allNodes.filter fun a => (s.node a).tick.silentDue :=
    List.filter_congr fun a _ => by rw [hnode]
  rw [exec_ready hs .nodeTableTick rfl rfl, ← hdue, ← hs.2]
  simp only [effectOf, State.nodeTableTick, hh, not_true, if_false]
  rfl

theorem exec_channelTableTick {s : State} (hs : s.Ready) (hh : s.time.handedOn.channelTable = true) :
    exec .channelTableTick s = .next { s with
      time := { s.time with handedOn := { s.time.handedOn with channelTable := false } }
      channels := tableMap ChannelRecord.tick s.channels
      due := { DueWork.none with stale := allSlots.filter fun k => (s.channel k).tick.staleDue } } := by
  have hdue : (allSlots.filter fun k =>
      (({ s with channels := tableMap ChannelRecord.tick s.channels } : State).channel k).staleDue) =
        allSlots.filter fun k => (s.channel k).tick.staleDue :=
    List.filter_congr fun k _ => by rw [s.channel_tableMap ChannelRecord.tick]
  rw [exec_ready hs .channelTableTick rfl rfl, ← hdue, ← hs.2]
  simp only [effectOf, State.channelTableTick, hh, not_true, if_false]
  rfl

theorem exec_outputUnitTick {s : State} (hs : s.Ready) (hh : s.time.handedOn.outputUnit = true) :
    exec .outputUnitTick s = .next { s with
      time := { s.time with handedOn := { s.time.handedOn with outputUnit := false } }
      outputs := tableMap OutputRecord.tick s.outputs
      due := { DueWork.none with refresh := allOutputs.filter fun i => (s.output i).tick.refreshDue } } := by
  have hdue : (allOutputs.filter fun i =>
      (({ s with outputs := tableMap OutputRecord.tick s.outputs } : State).output i).refreshDue) =
        allOutputs.filter fun i => (s.output i).tick.refreshDue :=
    List.filter_congr fun i _ => by rw [s.output_tableMap OutputRecord.tick]
  rw [exec_ready hs .outputUnitTick rfl rfl, ← hdue, ← hs.2]
  simp only [effectOf, State.outputUnitTick, hh, not_true, if_false]
  rfl

/-- Settles O26. -/
theorem ownersTakeTick : Obligations.OwnersTakeTick := by
  refine ⟨fun s hs hh => ⟨_, exec_nodeTableTick hs hh, rfl, fun a => ?_,
      allNodes_sorted.filter fun a => (s.node a).tick.silentDue, fun a => ?_⟩,
    fun s hs hh => ⟨_, exec_channelTableTick hs hh, rfl, fun k => ?_,
      allSlots_sorted.filter fun k => (s.channel k).tick.staleDue, fun k => ?_⟩,
    fun s hs hh => ⟨_, exec_outputUnitTick hs hh, rfl, fun i => ?_,
      allOutputs_sorted.filter fun i => (s.output i).tick.refreshDue, fun i => ?_⟩,
    fun x => (satInc_toNat x).trans (Nat.min_comm _ _)⟩
  · refine (s.node_tableMap NodeRecord.tick NodeRecord.tick_empty a).trans ?_
    simp only [NodeRecord.tick, NodeRecord.countsSilence_iff]
  · rw [List.mem_filter, mem_allNodes, NodeRecord.silentDue_tick]
    exact ⟨fun h => h.2, fun h => ⟨State.address_of_enrolled h.1, h⟩⟩
  · refine (s.channel_tableMap ChannelRecord.tick k).trans ?_
    simp only [ChannelRecord.tick, ChannelRecord.countsSilence_iff]
  · rw [List.mem_filter, ChannelRecord.staleDue_tick]
    exact and_iff_right (mem_allSlots k)
  · refine (s.output_tableMap OutputRecord.tick i).trans ?_
    simp only [OutputRecord.tick, OutputRecord.refreshes_iff]
  · rw [List.mem_filter, OutputRecord.refreshDue_tick]
    exact and_iff_right (mem_allOutputs i)

/-! ## A node goes SILENT (R28, R29) -/

/-- The state once a node's record and its notice have been written, before its channels are visited (R28). -/
def State.silenced (s : State) (a : Addr) : State :=
  (s.setNode a { s.node a with runtime := { (s.node a).runtime with state := .silent } }).raise .nodeSilent (.node a)
    (s.node a).config.silenceLimit

theorem State.silenceNode_eq (s : State) (a : Addr) :
    s.silenceNode a = (s.slotsOf a).foldl State.nodeStaleOne (s.silenced a) := rfl

theorem State.slotsOf_nodup (s : State) (a : Addr) : (s.slotsOf a).Nodup :=
  allSlots_nodup.filter _

theorem State.node_silenceNode (s : State) (a b : Addr) :
    (s.silenceNode a).node b =
      (s.setNode a { s.node a with runtime := { (s.node a).runtime with state := .silent } }).node b := by
  rw [State.silenceNode_eq]
  exact (foldl_keeps State.SupervisionOnly .refl (fun _ _ _ => .trans) _ State.nodeStaleOne_supervisionOnly _ _).node_eq b

/-- The enabled channels bound to a node that are not STALE, in ascending order (R29). -/
theorem State.slotsOf_filter (s : State) (a : Addr) :
    ((s.slotsOf a).filter fun k => decide ((s.channel k).config.enabled = true ∧ (s.channel k).runtime.state ≠ .stale)) =
      allSlots.filter fun k => decide ((∃ b ∈ s.bindings, b.node = a ∧ b.slot = k) ∧
        (s.channel k).config.enabled = true ∧ (s.channel k).runtime.state ≠ .stale) := by
  unfold State.slotsOf
  rw [List.filter_filter]
  refine List.filter_congr fun k _ => ?_
  rw [Bool.eq_iff_iff]
  simp only [Bool.and_eq_true, List.any_eq_true, decide_eq_true_eq]
  exact and_comm

/-- Settles O27. -/
theorem nodeGoesSilent : Obligations.NodeGoesSilent := by
  intro s a rest hs hdue hn
  have hexec : exec .nodeSilent s = .next { s.silenceNode a with due := { s.due with silent := rest } } := by
    rw [exec_tickStep hs .nodeSilent rfl rfl]
    simp only [effectOf, State.nextSilent, hdue]
  obtain ⟨h0, h63⟩ := State.address_of_enrolled hn
  obtain ⟨hchannel, houtput⟩ := State.foldl_nodeStaleOne (s.slotsOf a) (s.silenced a) (s.slotsOf_nodup a)
  obtain ⟨hset, hlog⟩ := State.foldl_nodeStaleOne_sets (s.slotsOf a) (s.silenced a) (s.slotsOf_nodup a)
  obtain ⟨hframe, -⟩ := s.silenceNode_runtimeOnly a
  rw [← State.silenceNode_eq] at hchannel houtput hset hlog
  refine ⟨_, hexec, ?_, ?_, fun b hb => ?_, fun k => ?_, fun i => ?_, fun slots hslots => ?_⟩
  · rw [hframe]
  · exact (s.node_silenceNode a a).trans ((s.node_setNode a a _ h0 h63).trans (if_pos rfl))
  · exact (s.node_silenceNode a b).trans (s.node_setNode_ne a b _ hb.symm)
  · exact (hchannel k).trans (if_congr (and_congr_left' (s.mem_slotsOf a k)) rfl rfl)
  · refine (houtput i).trans (if_congr ?_ rfl rfl)
    rw [← State.mem_slotsOf]
    exact Iff.rfl
  · rw [← s.slotsOf_filter a] at hslots
    subst hslots
    exact ⟨hset, hlog⟩

/-! ## The three ways a request is answered (R161) -/

section
variable {s t : State} {e : RequestEntry} {kind : RequestKind} {p : List Byte} (c : Instr)
  (body : State → List Byte → Answer)

theorem exec_refuse (hc : requestOf c = some (kind, body)) (h : s.Executes e kind p) (hl : kind.lengthOk p.length = true)
    {x : Status} (hbody : body s p = s.refuse x) : exec c s = .next (s.withAnswer e x []) := by
  rw [exec_executes c body hc h hl, hbody]
  rfl

theorem exec_okay (hc : requestOf c = some (kind, body)) (h : s.Executes e kind p) (hl : kind.lengthOk p.length = true)
    (hbody : body s p = t.okay) : exec c s = .next (t.withAnswer e .ok []) := by
  rw [exec_executes c body hc h hl, hbody]
  rfl

theorem exec_okayWith (hc : requestOf c = some (kind, body)) (h : s.Executes e kind p)
    (hl : kind.lengthOk p.length = true) {results expected : List Byte} (hbody : body s p = t.okayWith results)
    (hresults : results = expected) : exec c s = .next (t.withAnswer e .ok expected) := by
  rw [exec_executes c body hc h hl, hbody, hresults]
  rfl

end

/-! ## Enrolment and retirement (R33, R35) -/

theorem addressOf_eq_iff {b : Byte} (hb : b.toNat ≤ 62) (a : Addr) : addressOf b = a ↔ b = a.setWidth 8 := by
  constructor
  · rintro rfl
    apply BitVec.eq_of_toNat_eq
    simp only [addressOf, BitVec.toNat_setWidth, BitVec.extractLsb'_toNat]
    omega
  · rintro rfl
    apply BitVec.eq_of_toNat_eq
    simp only [addressOf, BitVec.toNat_setWidth, BitVec.extractLsb'_toNat]
    omega

/-- An address byte out of 1 to 62, or the own address, names no node that a request may address (R33, R35). -/
theorem nodeOf_refused {b : Byte} {own : Addr} (h : b.toNat = 0 ∨ 62 < b.toNat ∨ b = own.setWidth 8) :
    nodeOf b = none ∨ nodeOf b = some own := by
  by_cases hr : 1 ≤ b.toNat ∧ b.toNat ≤ 62
  · obtain ⟨h1, h62⟩ := hr
    have hown : b = own.setWidth 8 := by
      rcases h with h | h | h
      · omega
      · omega
      · exact h
    rw [nodeOf_addressOf b h1 h62, (addressOf_eq_iff h62 own).mpr hown]
    exact .inr rfl
  · exact .inl (nodeOf_none b (by omega))

theorem seqPolicyOf_eq {b : Byte} :
    (1 < b.toNat → seqPolicyOf b = none) ∧
      (b.toNat ≤ 1 → seqPolicyOf b = some (if b = 0 then .checked else .unchecked)) := by
  unfold seqPolicyOf
  constructor
  · intro h
    rw [if_neg (by rintro rfl; simp at h), if_neg (by rintro rfl; simp at h)]
  · intro h
    by_cases h0 : b = 0
    · rw [if_pos h0, if_pos h0]
    · have h1 : b = 1 := by bv_omega
      rw [if_neg h0, if_neg h0, if_pos h1]

/-- ENROL_NODE's own rule on its four parameter bytes (R33). -/
theorem State.doEnrolNode_eq (s : State) (b policy : Byte) (limit : Half) :
    (nodeOf b = none ∨ nodeOf b = some s.system.ownAddress →
      s.doEnrolNode ([b] ++ halfBytes limit ++ [policy]) = s.refuse .badIndex) ∧
    (∀ a, nodeOf b = some a → a ≠ s.system.ownAddress →
      (seqPolicyOf policy = none → s.doEnrolNode ([b] ++ halfBytes limit ++ [policy]) = s.refuse .invalidRecord) ∧
      (∀ x, seqPolicyOf policy = some x →
        s.doEnrolNode ([b] ++ halfBytes limit ++ [policy]) =
          (s.setNode a ((s.node a).enrol limit x)).tableWritten.okay)) := by
  have hb : byteAt ([b] ++ halfBytes limit ++ [policy]) 0 = b := rfl
  have hlimit : halfAt ([b] ++ halfBytes limit ++ [policy]) 1 = limit := halfAt_one b limit [policy]
  have hpolicy : byteAt ([b] ++ halfBytes limit ++ [policy]) 3 = policy := rfl
  simp only [State.doEnrolNode, hb, hlimit, hpolicy]
  refine ⟨?_, fun a ha hown => ⟨fun hx => ?_, fun x hx => ?_⟩⟩
  · rintro (ha | ha)
    · simp only [ha]
    · simp only [ha, if_true]
  · simp only [ha, if_neg hown, hx]
  · simp only [ha, if_neg hown, hx]

/-- RETIRE_NODE's own rule (R35). -/
theorem State.doRetireNode_eq (s : State) (b : Byte) :
    (nodeOf b = none ∨ nodeOf b = some s.system.ownAddress → s.doRetireNode [b] = s.refuse .badIndex) ∧
    (∀ a, nodeOf b = some a → a ≠ s.system.ownAddress →
      ((s.node a).config.enrolled = false → s.doRetireNode [b] = s.refuse .notEnrolled) ∧
      ((s.node a).config.enrolled = true →
        ((∃ x ∈ s.bindings, x.node = a) → s.doRetireNode [b] = s.refuse .inUse) ∧
        ((∀ x ∈ s.bindings, x.node ≠ a) → s.doRetireNode [b] = (s.setNode a .empty).tableWritten.okay))) := by
  have hb : byteAt [b] 0 = b := rfl
  simp only [State.doRetireNode, hb]
  refine ⟨?_, fun a ha hown => ⟨fun hn => ?_, fun hn => ⟨fun hx => ?_, fun hx => ?_⟩⟩⟩
  · rintro (ha | ha)
    · simp only [ha]
    · simp only [ha, if_true]
  · simp only [ha, if_neg hown, hn, Bool.false_eq_true, not_false_eq_true, if_true]
  · have hany : (s.bindings.any fun x => decide (x.node = a)) = true := by simpa using hx
    simp only [ha, if_neg hown, hn, not_true, if_false, hany, if_true]
  · have hany : (s.bindings.any fun x => decide (x.node = a)) = false := by simpa using hx
    simp only [ha, if_neg hown, hn, not_true, if_false, hany, Bool.false_eq_true]

/-- Settles O40. -/
theorem enrolAndRetire : Obligations.EnrolAndRetire := by
  refine ⟨fun s e b policy limit h => ?_, fun s e b h => ?_⟩
  · obtain ⟨hrefused, htaken⟩ := s.doEnrolNode_eq b policy limit
    obtain ⟨hbad, hgood⟩ := seqPolicyOf_eq (b := policy)
    refine ⟨fun hb => exec_refuse .enrolNode State.doEnrolNode rfl h rfl (hrefused (nodeOf_refused hb)),
      fun h1 h62 hown => ?_⟩
    obtain ⟨hinvalid, henrol⟩ := htaken (addressOf b) (nodeOf_addressOf b h1 h62) (mt (addressOf_eq_iff h62 _).mp hown)
    exact ⟨fun hp => exec_refuse .enrolNode State.doEnrolNode rfl h rfl (hinvalid (hbad hp)),
      fun hp => exec_okay .enrolNode State.doEnrolNode rfl h rfl (henrol _ (hgood hp))⟩
  · obtain ⟨hrefused, htaken⟩ := s.doRetireNode_eq b
    refine ⟨fun hb => exec_refuse .retireNode State.doRetireNode rfl h rfl (hrefused (nodeOf_refused hb)),
      fun h1 h62 hown => ?_⟩
    obtain ⟨hnot, hretire⟩ := htaken (addressOf b) (nodeOf_addressOf b h1 h62) (mt (addressOf_eq_iff h62 _).mp hown)
    refine ⟨fun hn => exec_refuse .retireNode State.doRetireNode rfl h rfl (hnot hn), fun hn hx => ?_, fun hn hx => ?_⟩
    · obtain ⟨hused, -⟩ := hretire hn
      exact exec_refuse .retireNode State.doRetireNode rfl h rfl (hused hx)
    · obtain ⟨-, hfree⟩ := hretire hn
      exact exec_okay .retireNode State.doRetireNode rfl h rfl (hfree hx)

end Sys2Proof.Machine
end

section
/-! SUPPORT. The requests that only read: the bytes of their results (sections 12.5, 12.9, 12.10). -/

namespace Sys2Proof.Machine

/-! ## Fields that may be none -/

/-- A byte in a 16-bit field: its upper byte is 0 (R200). -/
theorem halfBytes_setWidth (x : Byte) : halfBytes (x.setWidth 16) = [0x00, x] := by
  have hx := x.isLt
  have hhigh : (x.setWidth 16).extractLsb' 8 8 = 0#8 := by
    apply BitVec.eq_of_toNat_eq
    simp only [BitVec.extractLsb'_toNat, BitVec.toNat_setWidth, BitVec.toNat_ofNat]
    omega
  have hlow : (x.setWidth 16).extractLsb' 0 8 = x := by
    apply BitVec.eq_of_toNat_eq
    simp only [BitVec.extractLsb'_toNat, BitVec.toNat_setWidth]
    omega
  rw [halfBytes, hhigh, hlow]
  rfl

/-- A seq, or none, in a 16-bit field (R36). -/
theorem halfOrNone_seq (x : Option Byte) :
    halfOrNone (x.map fun y => y.setWidth 16) = (match x with | none => [0xFF, 0xFF] | some y => [0x00, y]) := by
  cases x with
  | none => rfl
  | some y => exact halfBytes_setWidth y

theorem stampOrNone_eq (x : Option Quad) :
    stampOrNone x = (match x with | none => [0x00, 0x00, 0x00, 0x00, 0x00] | some t => 0x01 :: quadBytes t) := by
  cases x <;> rfl

theorem qualityCode_eq (x : Option Quality) :
    qualityCode x = (match x with | some .good => 0x00 | some .suspect => 0x01 | some .bad => 0x02 | none => 0x03) := by
  cases x with
  | none => rfl
  | some q => cases q <;> rfl

theorem levelOrNone_eq {level : Option Level → List Byte}
    (h : level none = [0xFF, 0xFF] ∧ ∀ w : Level, level (some w) = halfBytes (w.setWidth 16)) (x : Option Level) :
    levelOrNone x = level x := by
  obtain ⟨hnone, hsome⟩ := h
  cases x with
  | none => exact hnone.symm
  | some w => exact (hsome w).symm

/-- The binding part of READ_CHANNEL's results is that of the first binding that names the slot (R61). -/
theorem State.bindingBytes_eq {s : State} {k : Slot} {bound : List Byte}
    (h : ((∀ x ∈ s.bindings, x.slot ≠ k) ∧ bound = [0x00, 0x00, 0x00]) ∨
      (∃ pre x post, s.bindings = pre ++ x :: post ∧ (∀ y ∈ pre, y.slot ≠ k) ∧ x.slot = k ∧
        bound = [0x01, x.node.setWidth 8, x.channel.setWidth 8])) :
    bindingBytes (s.bindingOf k) = bound := by
  rcases h with ⟨hnone, rfl⟩ | ⟨pre, x, post, hb, hpre, hx, rfl⟩
  · have hfind : s.bindingOf k = none := List.find?_eq_none.mpr (by simpa using hnone)
    rw [hfind]
    rfl
  · have hfind : s.bindingOf k = some x :=
      List.find?_eq_some_iff_append.mpr ⟨by simpa using hx, pre, post, hb, by simpa using hpre⟩
    rw [hfind]
    rfl

/-- The pending part of READ_OUTPUT's results is that of the output's item (R108). -/
theorem State.pendingBytes_eq {s : State} {i : OutIdx} {pending : List Byte}
    (h : ((∀ x ∈ s.setpoints, x.output ≠ i) ∧ pending = [0x00, 0xFF, 0xFF]) ∨
      (∃ pre x post, s.setpoints = pre ++ x :: post ∧ (∀ y ∈ pre, y.output ≠ i) ∧ x.output = i ∧
        pending = 0x01 :: halfBytes (x.value.setWidth 16))) :
    pendingBytes (s.pendingItem i) = pending := by
  rcases h with ⟨hnone, rfl⟩ | ⟨pre, x, post, hb, hpre, hx, rfl⟩
  · have hfind : s.pendingItem i = none := List.find?_eq_none.mpr (by simpa using hnone)
    rw [hfind]
    rfl
  · have hfind : s.pendingItem i = some x :=
      List.find?_eq_some_iff_append.mpr ⟨by simpa using hx, pre, post, hb, by simpa using hpre⟩
    rw [hfind]
    rfl

/-! ## The answers -/

/-- READ_NODE's own rule (R36). -/
theorem State.doReadNode_eq (s : State) (b : Byte) :
    (nodeOf b = none → s.doReadNode [b] = s.refuse .badIndex) ∧
      (∀ a, nodeOf b = some a → s.doReadNode [b] = s.okayWith (s.nodeResults a)) := by
  have hb : byteAt [b] 0 = b := rfl
  simp only [State.doReadNode, hb]
  exact ⟨fun h => by rw [h], fun _ h => by rw [h]⟩

/-- READ_CHANNEL's own rule (R61). -/
theorem State.doReadChannel_eq (s : State) (b : Byte) :
    (slotOf b = none → s.doReadChannel [b] = s.refuse .badIndex) ∧
      (∀ k, slotOf b = some k → s.doReadChannel [b] = s.okayWith (s.channelResults k)) := by
  have hb : byteAt [b] 0 = b := rfl
  simp only [State.doReadChannel, hb]
  exact ⟨fun h => by rw [h], fun _ h => by rw [h]⟩

/-- READ_OUTPUT's own rule (R108). -/
theorem State.doReadOutput_eq (s : State) (b : Byte) :
    (outputOf b = none → s.doReadOutput [b] = s.refuse .badIndex) ∧
      (∀ i, outputOf b = some i → s.doReadOutput [b] = s.okayWith (s.outputResults i)) := by
  have hb : byteAt [b] 0 = b := rfl
  simp only [State.doReadOutput, hb]
  exact ⟨fun h => by rw [h], fun _ h => by rw [h]⟩

/-- Settles O36. -/
theorem readRequests : Obligations.ReadRequests := by
  refine ⟨fun s e p h hp => ?_, fun s e h => ?_, fun s e b h => ⟨fun hb => ?_, ?_⟩, fun s e b h => ⟨fun hb => ?_, ?_⟩,
    fun s e b h => ⟨fun hb => ?_, ?_⟩, fun s e h => ?_⟩
  · exact exec_okayWith .echo State.doEcho rfl h (decide_eq_true hp) rfl rfl
  · refine exec_okayWith .readSystem State.doReadSystem rfl h rfl rfl ?_
    simp only [State.systemResults]
    cases s.system.policy <;> rfl
  · obtain ⟨hbad, -⟩ := s.doReadNode_eq b
    exact exec_refuse .readNode State.doReadNode rfl h rfl (hbad (nodeOf_none b hb))
  · rintro a rfl h0 h63 r rfl
    obtain ⟨-, hgood⟩ := s.doReadNode_eq (a.setWidth 8)
    refine exec_okayWith .readNode State.doReadNode rfl h rfl (hgood a (nodeOf_setWidth a h0 h63)) ?_
    simp only [State.nodeResults, halfOrNone_seq, stampOrNone_eq]
    rfl
  · obtain ⟨hbad, -⟩ := s.doReadChannel_eq b
    exact exec_refuse .readChannel State.doReadChannel rfl h rfl (hbad (slotOf_none b hb))
  · rintro k rfl c r bound rfl rfl hbound
    obtain ⟨-, hgood⟩ := s.doReadChannel_eq (indexByte k)
    refine exec_okayWith .readChannel State.doReadChannel rfl h rfl (hgood k (slotOf_indexByte k)) ?_
    simp only [State.channelResults, State.bindingBytes_eq hbound, ChannelConfig.bytes, ChannelRuntime.bytes,
      stampOrNone_eq, qualityCode_eq, List.append_assoc, List.cons_append, List.nil_append]
    rfl
  · obtain ⟨hbad, -⟩ := s.doReadOutput_eq b
    exact exec_refuse .readOutput State.doReadOutput rfl h rfl (hbad (outputOf_none b hb))
  · rintro i rfl c r level pending rfl rfl hlevel hpending
    obtain ⟨-, hgood⟩ := s.doReadOutput_eq (indexByte i)
    refine exec_okayWith .readOutput State.doReadOutput rfl h rfl (hgood i (outputOf_indexByte i)) ?_
    simp only [State.outputResults, State.pendingBytes_eq hpending, levelOrNone_eq hlevel, OutputConfig.bytes,
      List.append_assoc, List.cons_append, List.nil_append]
    rfl
  · refine exec_okayWith .readImage State.doReadImage rfl h rfl rfl ?_
    simp only [State.imageResults, ImageStore.reportedGeneration]
    cases s.store.current with
    | none => dsimp only; rfl
    | some id => cases id <;> rfl

end Sys2Proof.Machine
end

section
/-! SUPPORT. Conditioning and the channel record: values and bytes of a channel's configuration (sections 3.2 to 3.4). -/

namespace Sys2Proof.Machine

/-! ## Conditioning (R48, R49) -/

/-- A quotient within 16 bits is the conditioned value, and the quality stands. -/
theorem ChannelConfig.condition_inRange {c : ChannelConfig} {raw : Half} (hlow : -32768 ≤ c.scaled raw)
    (hhigh : c.scaled raw ≤ 32767) (q : Quality) : c.condition raw q = (BitVec.ofInt 16 (c.scaled raw), q) := by
  simp only [ChannelConfig.condition, if_neg (not_lt.mpr hhigh), if_neg (not_lt.mpr hlow)]

theorem ChannelConfig.condition_above {c : ChannelConfig} {raw : Half} (h : 32767 < c.scaled raw) (q : Quality) :
    c.condition raw q = (0x7FFF, .suspect) := by
  simp only [ChannelConfig.condition, if_pos h]

theorem ChannelConfig.condition_below {c : ChannelConfig} {raw : Half} (h : c.scaled raw < -32768) (q : Quality) :
    c.condition raw q = (0x8000, .suspect) := by
  have hnot : ¬ 32767 < c.scaled raw := by omega
  simp only [ChannelConfig.condition, if_neg hnot, if_pos h]

/-- Settles O53. -/
theorem conditioning : Obligations.Conditioning := by
  rintro c raw q _ rfl
  refine ⟨fun hlow hhigh => ?_, fun h => ?_, fun h => ?_⟩
  · rw [ChannelConfig.condition_inRange hlow hhigh]
    exact ⟨BitVec.toInt_ofInt_eq_self (by decide) hlow (Int.lt_add_one_of_le hhigh), rfl⟩
  · rw [ChannelConfig.condition_above h]
    exact ⟨rfl, rfl⟩
  · rw [ChannelConfig.condition_below h]
    exact ⟨rfl, rfl⟩

/-! ## Codes read and written again (section 12.5) -/

theorem boolCode_of_boolOf {b : Byte} {x : Bool} (h : boolOf b = some x) : boolCode x = b := by
  unfold boolOf at h
  split_ifs at h with h0 h1 <;> cases h
  · exact h0.symm
  · exact h1.symm

theorem ForwardPolicy.code_of_forwardOf {b : Byte} {x : ForwardPolicy} (h : forwardOf b = some x) : x.code = b := by
  unfold forwardOf at h
  split_ifs at h with h0 h1 h2 <;> cases h
  · exact h0.symm
  · exact h1.symm
  · exact h2.symm

theorem AlarmMode.code_of_modeOf {b : Byte} {x : AlarmMode} (h : modeOf b = some x) : x.code = b := by
  unfold modeOf at h
  split_ifs at h with h0 h1 <;> cases h
  · exact h0.symm
  · exact h1.symm

/-- A value that fits a narrower field survives it. -/
theorem setWidth_setWidth_of_lt {v w : Nat} {x : BitVec v} (h : x.toNat < 2 ^ w) : (x.setWidth w).setWidth v = x := by
  apply BitVec.eq_of_toNat_eq
  rw [BitVec.toNat_setWidth, BitVec.toNat_setWidth, Nat.mod_eq_of_lt h, Nat.mod_eq_of_lt x.isLt]

theorem zeroExtend_of_countOf {b : Byte} {x : BitVec 4} (h : countOf b = some x) : x.zeroExtend 8 = b := by
  unfold countOf at h
  split_ifs at h with hb
  cases h
  exact setWidth_setWidth_of_lt (Nat.lt_succ_of_le hb.2)

/-! ## The channel record (R44, R61) -/

/-- A field's two bytes are those it was read from (R200). -/
theorem halfBytes_halfAt (p : List Byte) (i : Nat) : halfBytes (halfAt p i) = [byteAt p i, byteAt p (i + 1)] :=
  halfBytes_append _ _

/-- A byte list is the list of the bytes at its offsets. -/
theorem map_byteAt_range {p : List Byte} {n : Nat} (h : p.length = n) : (List.range n).map (byteAt p) = p := by
  subst h
  refine List.ext_getElem (by simp) fun i _ hi => ?_
  simp [byteAt, hi]

/-- The bounds that R44 puts on the counts, in a valid configuration. -/
theorem ChannelConfig.valid_counts {c : ChannelConfig} (h : c.valid = true) :
    1 ≤ c.assertCount.toNat ∧ 1 ≤ c.releaseCount.toNat ∧ 1 ≤ c.badLimit.toNat := by
  simp only [ChannelConfig.valid, Bool.and_eq_true, decide_eq_true_eq] at h
  obtain ⟨⟨⟨-, hassert⟩, hrelease⟩, hbad⟩ := h
  exact ⟨hassert, hrelease, hbad⟩

/-- A valid configuration is read back from its record (R44, R61). -/
theorem channelConfigOf_bytes {c : ChannelConfig} (h : c.valid = true) : channelConfigOf c.bytes = some c := by
  obtain ⟨hassert, hrelease, hbad⟩ := ChannelConfig.valid_counts h
  have henabled : boolOf (byteAt c.bytes 0) = some c.enabled := boolOf_boolCode c.enabled
  have hforward : forwardOf (byteAt c.bytes 5) = some c.forward := forwardOf_code c.forward
  have hmode : modeOf (byteAt c.bytes 16) = some c.mode := modeOf_code c.mode
  have hassert' : countOf (byteAt c.bytes 14) = some c.assertCount := countOf_zeroExtend c.assertCount hassert
  have hrelease' : countOf (byteAt c.bytes 15) = some c.releaseCount := countOf_zeroExtend c.releaseCount hrelease
  have hbad' : countOf (byteAt c.bytes 17) = some c.badLimit := countOf_zeroExtend c.badLimit hbad
  have hgain : halfAt c.bytes 3 = c.gain.setWidth 16 := halfBytes_join _
  have hoffset : halfAt c.bytes 1 = c.offset := halfBytes_join _
  have hlowTrip : halfAt c.bytes 6 = c.lowTrip := halfBytes_join _
  have hlowClear : halfAt c.bytes 8 = c.lowClear := halfBytes_join _
  have hhighClear : halfAt c.bytes 10 = c.highClear := halfBytes_join _
  have hhighTrip : halfAt c.bytes 12 = c.highTrip := halfBytes_join _
  have hsilence : halfAt c.bytes 18 = c.silenceLimit := halfBytes_join _
  have hrange : (c.gain.setWidth 16).toNat ≤ 8191 := by
    rw [BitVec.toNat_setWidth]
    omega
  have hback : (c.gain.setWidth 16).setWidth 13 = c.gain := by simp
  simp only [channelConfigOf, henabled, hforward, hmode, hassert', hrelease', hbad', hgain, hoffset, hlowTrip, hlowClear,
    hhighClear, hhighTrip, hsilence, hback, Option.bind_eq_bind, Option.bind_some]
  exact if_pos ⟨hrange, h⟩

/-- What is read from 20 bytes is written as these bytes: every byte of the record counts (R44, R61). -/
theorem bytes_of_channelConfigOf {p : List Byte} {c : ChannelConfig} (hp : p.length = 20)
    (h : channelConfigOf p = some c) : c.bytes = p := by
  simp only [channelConfigOf, Option.bind_eq_bind, Option.bind_eq_some_iff, Option.ite_none_right_eq_some,
    Option.some.injEq] at h
  obtain ⟨enabled, henabled, forward, hforward, mode, hmode, assertCount, hassert, releaseCount, hrelease, badLimit, hbad,
    ⟨hgain, -⟩, rfl⟩ := h
  have hgain' : ((halfAt p 3).setWidth 13).zeroExtend 16 = halfAt p 3 :=
    setWidth_setWidth_of_lt (Nat.lt_succ_of_le hgain)
  simp only [ChannelConfig.bytes, boolCode_of_boolOf henabled, ForwardPolicy.code_of_forwardOf hforward,
    AlarmMode.code_of_modeOf hmode, zeroExtend_of_countOf hassert, zeroExtend_of_countOf hrelease,
    zeroExtend_of_countOf hbad, hgain', halfBytes_halfAt]
  exact map_byteAt_range hp

/-- Twenty bytes are read as a configuration exactly when it is valid and they are its record (R44, R57). -/
theorem channelConfigOf_eq_some_iff {p : List Byte} {c : ChannelConfig} (hp : p.length = 20) :
    channelConfigOf p = some c ↔ c.valid = true ∧ p = c.bytes := by
  constructor
  · intro h
    exact ⟨channelConfigOf_valid h, (bytes_of_channelConfigOf hp h).symm⟩
  · rintro ⟨hvalid, rfl⟩
    exact channelConfigOf_bytes hvalid

/-- Settles O11. -/
theorem channelRecordRoundTrip : Obligations.ChannelRecordRoundTrip :=
  fun c hvalid => ⟨c.bytes_length, channelConfigOf_bytes hvalid⟩

end Sys2Proof.Machine
end

section
/-! SUPPORT. The requests that change a channel's binding or its configuration: BIND, UNBIND, WRITE_CHANNEL (sections 3.1 and
3.4). -/

namespace Sys2Proof.Machine

/-! ## A channel cleared (R43, R58, R84, R87) -/

/-- A channel without a valid value is cleared and hands nothing over (R84, R87). -/
theorem State.clearChannel_invalid {s : State} {k : Slot} (h : (s.channel k).runtime.state.isValid = false) :
    s.clearChannel k = s.setRuntime k (.clear (s.channel k).config.enabled) := by
  simp only [State.clearChannel, State.handOverFrom, h, Bool.false_eq_true, if_false]

/-- A table write whose last act is the hand-over of a slot's outputs, in one equation over the state before it: bindings
and channels as written, the outputs handed over with their items and notices, the store marked (R84, R98, R186). -/
theorem State.handOverFrom_tableWritten {s t : State} {k : Slot} {bindings : List Binding}
    {channels : Vector ChannelRecord 128}
    (ht : t = ({ s with bindings := bindings, channels := channels } : State).handOverFrom k
      (s.channel k).runtime.state) :
    t.tableWritten = { s with
      bindings := bindings
      channels := channels
      outputs := t.tableWritten.outputs
      setpoints := s.withItems OutputRecord.entryIssue (s.handedOver k)
      log := s.outputNotices s.log .fallbackEnter (s.handedOver k)
      store := s.storeWritten } ∧
    (∀ i, t.tableWritten.output i =
      if (s.channel k).runtime.state.isValid = true ∧ (s.output i).follows k = true ∧
          (s.output i).runtime.state = .normal then (s.output i).fellBack
      else s.output i) := by
  subst ht
  obtain ⟨hset, hlog⟩ := s.handOverFrom_sets { s with bindings := bindings, channels := channels } k (fun _ => rfl) rfl rfl
  obtain ⟨hframe, -⟩ := State.handOverFrom_outputsOnly { s with bindings := bindings, channels := channels } k
    (s.channel k).runtime.state
  refine ⟨?_, State.output_handOverFrom _ k _⟩
  rw [hset, hlog] at hframe
  exact congrArg State.tableWritten hframe

/-! ## BIND and UNBIND (R40 to R43) -/

theorem State.boundSlot_isSome (s : State) (a : Addr) (ch : BitVec 4) :
    (s.boundSlot a ch).isSome = true ↔ ∃ x ∈ s.bindings, x.node = a ∧ x.channel = ch := by
  simp [State.boundSlot]

theorem State.bindingOf_isSome (s : State) (k : Slot) : (s.bindingOf k).isSome = true ↔ ∃ x ∈ s.bindings, x.slot = k := by
  simp [State.bindingOf]

/-- BIND's parameters out of their ranges: no node, no local channel or no slot (R40). -/
theorem State.doBind_badIndex (s : State) {n c b : Byte}
    (h : n.toNat = 0 ∨ 62 < n.toNat ∨ 15 < c.toNat ∨ 127 < b.toNat) : s.doBind [n, c, b] = s.refuse .badIndex := by
  have hn : byteAt [n, c, b] 0 = n := rfl
  have hc : byteAt [n, c, b] 1 = c := rfl
  have hb : byteAt [n, c, b] 2 = b := rfl
  unfold State.doBind
  rw [hn, hc, hb]
  split
  · next a ch k ha hch hk =>
    rcases h with h | h | h | h
    · rw [nodeOf_none n (.inl h)] at ha
      cases ha
    · rw [nodeOf_none n (.inr h)] at ha
      cases ha
    · rw [nibbleOf_none c h] at hch
      cases hch
    · rw [slotOf_none b h] at hk
      cases hk
  · rfl

/-- BIND's own rule on parameters in range: its three further checks in order, then the binding (R40, R41). -/
theorem State.doBind_eq (s : State) {a : Addr} {ch : BitVec 4} {k : Slot} (h0 : a ≠ 0) (h63 : a ≠ 63) :
    s.doBind [a.setWidth 8, ch.setWidth 8, indexByte k] =
      if (s.node a).config.enrolled = false then s.refuse .notEnrolled
      else if ∃ x ∈ s.bindings, x.node = a ∧ x.channel = ch then s.refuse .duplicate
      else if ∃ x ∈ s.bindings, x.slot = k then s.refuse .inUse
      else (State.clearChannel { s with
        bindings := insertBinding { node := a, channel := ch, slot := k } s.bindings } k).tableWritten.okay := by
  have ha : nodeOf (byteAt [a.setWidth 8, ch.setWidth 8, indexByte k] 0) = some a := nodeOf_setWidth a h0 h63
  have hch : nibbleOf (byteAt [a.setWidth 8, ch.setWidth 8, indexByte k] 1) = some ch := nibbleOf_setWidth ch
  have hk : slotOf (byteAt [a.setWidth 8, ch.setWidth 8, indexByte k] 2) = some k := slotOf_indexByte k
  simp only [State.doBind, ha, hch, hk, State.boundSlot_isSome, State.bindingOf_isSome, Bool.not_eq_true]

/-- UNBIND's own rule (R42, R43). -/
theorem State.doUnbind_eq (s : State) (b : Byte) :
    (slotOf b = none → s.doUnbind [b] = s.refuse .badIndex) ∧
    (∀ k, slotOf b = some k →
      ((∀ x ∈ s.bindings, x.slot ≠ k) → s.doUnbind [b] = s.refuse .notBound) ∧
      ((∃ x ∈ s.bindings, x.slot = k) → s.doUnbind [b] =
        (State.clearChannel { s with
          bindings := s.bindings.filter fun x => decide (x.slot ≠ k) } k).tableWritten.okay)) := by
  have hb : byteAt [b] 0 = b := rfl
  simp only [State.doUnbind, hb]
  refine ⟨fun h => by rw [h], fun k hk => ⟨fun hx => ?_, fun hx => ?_⟩⟩
  · have hnone : (s.bindingOf k).isNone = true := by simpa [State.bindingOf] using hx
    simp only [hk, if_pos hnone]
  · have hsome : ¬ (s.bindingOf k).isNone = true := by simpa [State.bindingOf] using hx
    simp only [hk, if_neg hsome]

/-- Settles O41. -/
theorem bindAndUnbind : Obligations.BindAndUnbind := by
  refine ⟨fun s e n c b h => ⟨fun hbad => ?_, ?_⟩, fun s e b h => ⟨fun hbad => ?_, fun k hk => ⟨fun hx => ?_, fun hx => ?_⟩⟩⟩
  · exact exec_refuse .bind State.doBind rfl h rfl (s.doBind_badIndex hbad)
  · rintro a ch k h0 h63 rfl rfl rfl
    have hbody := s.doBind_eq (ch := ch) (k := k) h0 h63
    refine ⟨fun hn => ?_, fun hn hkey => ?_, fun hn hkey hslot => ?_, fun hn hkey hslot hinvalid => ?_⟩
    · rw [if_pos hn] at hbody
      exact exec_refuse .bind State.doBind rfl h rfl hbody
    · rw [if_neg (by simp [hn]), if_pos hkey] at hbody
      exact exec_refuse .bind State.doBind rfl h rfl hbody
    · rw [if_neg (by simp [hn]), if_neg (by simpa using hkey), if_pos hslot] at hbody
      exact exec_refuse .bind State.doBind rfl h rfl hbody
    · have hclear := State.clearChannel_invalid
        (s := { s with bindings := insertBinding { node := a, channel := ch, slot := k } s.bindings }) hinvalid
      rw [if_neg (by simp [hn]), if_neg (by simpa using hkey), if_neg (by simpa using hslot), hclear,
        insertBinding_eq _ _ hslot] at hbody
      exact exec_okay .bind State.doBind rfl h rfl hbody
  · obtain ⟨hnone, -⟩ := s.doUnbind_eq b
    exact exec_refuse .unbind State.doUnbind rfl h rfl (hnone (slotOf_none b hbad))
  · subst hk
    obtain ⟨-, hsome⟩ := s.doUnbind_eq (indexByte k)
    obtain ⟨hnot, -⟩ := hsome k (slotOf_indexByte k)
    exact exec_refuse .unbind State.doUnbind rfl h rfl (hnot hx)
  · subst hk
    obtain ⟨-, hsome⟩ := s.doUnbind_eq (indexByte k)
    obtain ⟨-, hunbind⟩ := hsome k (slotOf_indexByte k)
    exact ⟨_, exec_okay .unbind State.doUnbind rfl h rfl (hunbind hx), State.handOverFrom_tableWritten rfl⟩

/-! ## WRITE_CHANNEL (R57 to R60) -/

/-- WRITE_CHANNEL's own rule on a record of 20 bytes (R57). -/
theorem State.doWriteChannel_eq (s : State) (b : Byte) {record : List Byte} (hlength : record.length = 20) :
    (slotOf b = none → s.doWriteChannel (b :: record) = s.refuse .badIndex) ∧
    (∀ k, slotOf b = some k →
      ((∀ c : ChannelConfig, c.valid = true → record ≠ c.bytes) →
        s.doWriteChannel (b :: record) = s.refuse .invalidRecord) ∧
      (∀ c : ChannelConfig, c.valid = true → record = c.bytes →
        s.doWriteChannel (b :: record) = (s.rewriteChannel k c).tableWritten.okay)) := by
  have hb : byteAt (b :: record) 0 = b := rfl
  simp only [State.doWriteChannel, hb, List.drop_succ_cons, List.drop_zero]
  refine ⟨fun h => by rw [h], fun k hk => ⟨fun hbad => ?_, fun c hvalid hbytes => ?_⟩⟩
  · have hnone : channelConfigOf record = none :=
      Option.eq_none_iff_forall_ne_some.mpr fun c hc =>
        let ⟨hvalid, hbytes⟩ := (channelConfigOf_eq_some_iff hlength).mp hc
        hbad c hvalid hbytes
    simp only [hk, hnone]
  · have hsome : channelConfigOf record = some c := (channelConfigOf_eq_some_iff hlength).mpr ⟨hvalid, hbytes⟩
    simp only [hk, hsome]

/-- A channel rewritten enabled to enabled: its state kept, its run cleared (R59, R60). -/
theorem State.rewriteChannel_enabled {s : State} {k : Slot} {c : ChannelConfig}
    (hold : (s.channel k).config.enabled = true) (hnew : c.enabled = true) :
    s.rewriteChannel k c = s.setChannel k
      { config := c, runtime := (s.channel k).runtime.rewritten (s.channel k).config.mode c.mode } := by
  simp only [State.rewriteChannel, hold, hnew, and_self, if_true]

theorem State.setRuntime_setChannel (s : State) (k : Slot) (c : ChannelRecord) (r : ChannelRuntime) :
    (s.setChannel k c).setRuntime k r = s.setChannel k { config := c.config, runtime := r } := by
  rw [State.setRuntime, State.channel_setChannel_self]
  simp only [State.setChannel, Vector.set_set]

/-- A channel rewritten from or to disabled: its runtime cleared, its outputs handed over (R58). -/
theorem State.rewriteChannel_cleared {s : State} {k : Slot} {c : ChannelConfig}
    (h : (s.channel k).config.enabled = false ∨ c.enabled = false) :
    s.rewriteChannel k c =
      (s.setChannel k { config := c, runtime := .clear c.enabled }).handOverFrom k (s.channel k).runtime.state := by
  have hnot : ¬ ((s.channel k).config.enabled = true ∧ c.enabled = true) := by
    rintro ⟨hold, hnew⟩
    simp [hold, hnew] at h
  simp only [State.rewriteChannel, if_neg hnot, State.clearChannel, State.channel_setChannel_self,
    State.setRuntime_setChannel]

/-- Settles O42. -/
theorem writeChannel : Obligations.WriteChannel := by
  intro s e b record hlength h
  obtain ⟨hnone, hsome⟩ := s.doWriteChannel_eq b hlength
  have hok : RequestKind.writeChannel.lengthOk (b :: record).length = true := by
    rw [List.length_cons, hlength]
    rfl
  refine ⟨fun hb => exec_refuse .writeChannel State.doWriteChannel rfl h hok (hnone (slotOf_none b hb)), ?_⟩
  rintro k rfl
  obtain ⟨hbad, hwrite⟩ := hsome k (slotOf_indexByte k)
  refine ⟨fun hrecord => exec_refuse .writeChannel State.doWriteChannel rfl h hok (hbad hrecord),
    fun c hvalid hbytes => ⟨fun hold hnew => ?_, fun hdisabled => ?_⟩⟩
  · rw [exec_okay .writeChannel State.doWriteChannel rfl h hok (hwrite c hvalid hbytes),
      State.rewriteChannel_enabled hold hnew]
    rfl
  · exact ⟨_, exec_okay .writeChannel State.doWriteChannel rfl h hok (hwrite c hvalid hbytes),
      State.handOverFrom_tableWritten (State.rewriteChannel_cleared hdisabled)⟩

end Sys2Proof.Machine
end

section
/-! SUPPORT. The sample path: an accepted SAMPLE frame's readings at their channels and outputs, and the frame forwarded
(section 3.3). -/

namespace Sys2Proof.Machine

/-! ## The frame accepted (R14, R23 to R27) -/

/-- The state in which the readings of a SAMPLE frame are taken: the frame counted, its node's record and the log
written (R21, R23 to R27). -/
def State.sampleAccepted (s : State) (a : Addr) (seq : Byte) (missing : Nat) (notice : Option (NoticeKind × Half)) :
    State :=
  { (s.received .f).setNode a { s.node a with
      runtime := { (s.node a).runtime with
        lastSeq := some seq
        gapSum := satAdd (s.node a).runtime.gapSum (BitVec.ofNat 16 missing)
        silenceCount := 0
        lastStamp := some s.time.counter
        state := .live } } with
    log := s.acceptedLog a seq notice }

/-- The readings of a payload that passes its check carry a quality (R14). -/
theorem quality_of_sampleReadings {payload : List Byte} {rs : List Reading} (h : sampleReadings payload = some rs) :
    ∀ r ∈ rs, r.quality ≠ none := by
  unfold sampleReadings at h
  split at h
  · cases h
  · split at h
    · cases h
    · split at h
      · cases h
      · next hany =>
        cases h
        simpa using hany

/-- An accepted SAMPLE frame goes through the sample path (R21, R45). -/
theorem exec_frameEnd_samplePath {s : State} {l : List Byte} {a : Addr} {missing : Nat}
    {notice : Option (NoticeKind × Half)} {rs : List Reading} (h : s.FromField l) (ha : a = addressOf (byteAt l 1))
    (hn : (s.node a).config.enrolled = true) (hk : byteAt l 2 = 0x01)
    (hrs : sampleReadings ({ bytes := l } : Frame).payload = some rs)
    (hacc : (s.node a).acceptedAs ((byteAt l 3).getLsbD 0) (byteAt l 4) missing notice) :
    exec (.frameEnd .f) s =
      .next ((s.sampleAccepted a (byteAt l 4) missing notice).samplePath { bytes := l } rs) := by
  subst ha
  rw [exec_frameEnd_sample h hk hrs]
  exact congrArg _ (State.nodeTable_accepted (s := s.received .f) (f := { bytes := l }) hn
    (State.received_nodeArrival hacc) _)

/-! ## The frame forwarded (R54 to R56) -/

/-- The sample path: the readings taken in the order of the frame, then the frame offered as it arrived, counted as
emptied, or rebuilt with the readings kept (R46, R54 to R56). -/
theorem State.samplePath_eq {u t : State} {f : Frame} {rs kept : List Reading} (hq : ∀ r ∈ rs, r.quality ≠ none)
    (ht : t = rs.foldl (u.readingTaken f.src) u) (hkept : kept = rs.filterMap (u.readingKept f.src)) :
    ((∀ r ∈ rs, ¬ u.readingChanges f.src r) → u.samplePath f rs = t.offerForward .f f.bytes) ∧
    ((∃ r ∈ rs, u.readingChanges f.src r) → kept = [] → u.samplePath f rs = t.count .f .rxEmptied) ∧
    ((∃ r ∈ rs, u.readingChanges f.src r) → kept ≠ [] → u.samplePath f rs = t.offerForward .f
      (buildFrame (byteAt f.bytes 0) (byteAt f.bytes 1) (byteAt f.bytes 2) (withModified f.flags) f.seq
        (samplePayload kept))) := by
  obtain ⟨changed, hfold, hchanged⟩ := PathState.foldl_reading f.src rs u (.refl u) hq [] false
  rw [List.nil_append, ← ht, ← hkept] at hfold
  simp only [Bool.false_eq_true, false_or] at hchanged
  simp only [State.samplePath, hfold]
  refine ⟨fun h => ?_, fun h he => ?_, fun h he => ?_⟩
  · have hnot : ¬ changed = true := fun hc => let ⟨r, hr, hx⟩ := hchanged.mp hc; h r hr hx
    rw [if_pos hnot]
  · rw [if_neg (not_not_intro (hchanged.mpr h)), if_pos he]
  · rw [if_neg (not_not_intro (hchanged.mpr h)), if_neg he]

/-- A SAMPLE frame's readings and the frame forwarded, from the end of the frame on (R45, R46, R54 to R56). -/
theorem exec_frameEnd_readings {s t : State} {l : List Byte} {a : Addr} {missing : Nat}
    {notice : Option (NoticeKind × Half)} {rs kept : List Reading} (h : s.FromField l) (ha : a = addressOf (byteAt l 1))
    (hn : (s.node a).config.enrolled = true) (hk : byteAt l 2 = 0x01)
    (hrs : sampleReadings ({ bytes := l } : Frame).payload = some rs)
    (hacc : (s.node a).acceptedAs ((byteAt l 3).getLsbD 0) (byteAt l 4) missing notice)
    (ht : t = rs.foldl (s.readingTaken a) (s.sampleAccepted a (byteAt l 4) missing notice))
    (hkept : kept = rs.filterMap (s.readingKept a)) :
    ((∀ r ∈ rs, ¬ s.readingChanges a r) → exec (.frameEnd .f) s = .next (t.offerForward .f l)) ∧
    ((∃ r ∈ rs, s.readingChanges a r) → kept = [] → exec (.frameEnd .f) s = .next (t.count .f .rxEmptied)) ∧
    ((∃ r ∈ rs, s.readingChanges a r) → kept ≠ [] → exec (.frameEnd .f) s = .next (t.offerForward .f
      (buildFrame (byteAt l 0) (byteAt l 1) 0x01 (byteAt l 3 ||| 0x02) (byteAt l 4)
        (BitVec.ofNat 8 kept.length :: kept.flatMap fun r => r.head :: halfBytes r.value)))) := by
  rw [exec_frameEnd_samplePath h ha hn hk hrs hacc]
  subst ha
  obtain ⟨hsame, hempty, hbuilt⟩ := State.samplePath_eq (u := s.sampleAccepted (addressOf (byteAt l 1)) (byteAt l 4)
    missing notice) (f := { bytes := l }) (quality_of_sampleReadings hrs) ht hkept
  rw [← hk]
  exact ⟨fun hc => congrArg _ (hsame hc), fun hc he => congrArg _ (hempty hc he),
    fun hc he => congrArg _ (hbuilt hc he)⟩

/-! ## One valid reading (R48 to R53, R65, R69, R96) -/

section
variable {s : State} {a : Addr} {r : Reading} {q : Quality} {k : Slot}

theorem State.supervisedAt_eq (hb : s.boundSlot a r.channel = some k) (he : (s.channel k).config.enabled = true) :
    s.supervisedAt a r = some k := by
  simp [State.supervisedAt, hb, he]

theorem State.conditioned_eq (hr : r.quality = some q) (hq : q ≠ .bad) :
    s.conditioned k r = some ((s.channel k).config.condition r.value q) := by
  simp [State.conditioned, hr, hq]

/-- A valid reading at its channel and outputs, with its conditioned value and quality (R50). -/
theorem State.readingTaken_eq (hk : s.supervisedAt a r = some k) {d : Half × Quality} (hd : s.conditioned k r = some d)
    (u : State) : s.readingTaken a u r = u.takeReading k d := by
  simp only [State.readingTaken, hk, hd, State.takeReading]

/-- What a valid reading leaves of itself, by its channel's forward policy (R52, R53). -/
theorem State.readingKept_eq (hk : s.supervisedAt a r = some k) {d : Half × Quality} (hd : s.conditioned k r = some d) :
    ((s.channel k).config.forward = .strip → s.readingKept a r = none) ∧
      ((s.channel k).config.forward = .conditioned → s.readingKept a r = some (r.rewritten d.1 d.2)) := by
  simp only [State.readingKept, hk, hd]
  exact ⟨fun h => by rw [h], fun h => by rw [h]; rfl⟩

/-- A valid reading changes the frame unless its channel's forward policy is RAW (R52, R53). -/
theorem State.readingChanges_iff (hk : s.supervisedAt a r = some k) {d : Half × Quality}
    (hd : s.conditioned k r = some d) : s.readingChanges a r ↔ (s.channel k).config.forward ≠ .raw := by
  simp only [State.readingChanges, hk, Option.some.injEq, exists_eq_left', hd]
  cases (s.channel k).config.forward <;> simp

end

theorem OutputRecord.afterReading_fallback {o : OutputRecord} (h : o.runtime.state = .fallback) (v : Half) :
    (o.afterReading v).runtime.state = .normal := by
  simp only [OutputRecord.afterReading, h, OutputRecord.withIssue_runtime]

/-- A valid reading at its channel: the channel holds the value and its quality, no other channel changes (R65, R69). -/
theorem State.takeReading_channel {u : State} {k : Slot} (h : (u.channel k).runtime.state ≠ .off) (d : Half × Quality) :
    (∀ j, j ≠ k → (u.takeReading k d).channel j = u.channel j) ∧
    ((u.takeReading k d).channel k).config = (u.channel k).config ∧
    (let x := ((u.takeReading k d).channel k).runtime
     x.value = d.1 ∧ x.quality = some d.2 ∧ x.valueValid = true ∧ x.state.isValid = true ∧ x.badCount = 0 ∧
       x.silenceCount = 0 ∧ x.lastStamp = some u.time.counter) := by
  obtain ⟨hother, -, hself⟩ := u.validReading_channel k d.1 d.2 h
  have hchannel := (State.outputReading_outputsOnly (u.validReading k d.1 d.2) k d.1).channel_eq
  obtain ⟨-, hconfig, -⟩ := u.takeReading_supervisionOnly k d
  refine ⟨fun j hj => (hchannel j).trans (hother j hj), hconfig k, ?_⟩
  rw [State.takeReading, hchannel k]
  exact hself

/-- A valid reading at the outputs: one that does not follow its slot is kept, one in FALLBACK that does is in NORMAL
(R96, R97). -/
theorem State.takeReading_output {u : State} {k : Slot} (h : (u.channel k).runtime.state ≠ .off) (d : Half × Quality) :
    (∀ i, ((u.takeReading k d).output i).config = (u.output i).config) ∧
    (∀ i, (u.output i).follows k = false → (u.takeReading k d).output i = u.output i) ∧
    (∀ i, (u.output i).follows k = true → (u.output i).runtime.state = .fallback →
      ((u.takeReading k d).output i).runtime.state = .normal) := by
  obtain ⟨-, hsame, -⟩ := u.validReading_channel k d.1 d.2 h
  obtain ⟨hreading, -, -⟩ := (u.validReading k d.1 d.2).outputReading_sets k d.1
  obtain ⟨-, -, hconfig⟩ := u.takeReading_supervisionOnly k d
  simp only [hsame] at hreading
  refine ⟨hconfig, fun i hf => (hreading i).trans (if_neg (by simp [hf])), fun i hf hs => ?_⟩
  rw [State.takeReading, hreading i, if_pos hf]
  exact OutputRecord.afterReading_fallback hs d.1

/-- Only the ports differ. -/
def State.PortsOnly (s t : State) : Prop :=
  t = { s with portF := t.portF, portS := t.portS }

theorem State.offerForward_portsOnly (s : State) (p : Port) (l : List Byte) : s.PortsOnly (s.offerForward p l) := by
  cases p <;> (unfold State.offerForward; dsimp only; split <;> rfl)

theorem State.count_portsOnly (s : State) (p : Port) (n : StatName) : s.PortsOnly (s.count p n) := by
  cases p <;> rfl

/-- A frame from the F-port waits behind those of the S forward queue, or is counted at the F-port (R13, R140). -/
theorem State.offerForward_f_ports (s : State) (l : List Byte) :
    (s.portS.forwardQueue.length < 8 → (s.offerForward .f l).portF = s.portF ∧
      (s.offerForward .f l).portS = { s.portS with forwardQueue := s.portS.forwardQueue ++ [l] }) ∧
    (8 ≤ s.portS.forwardQueue.length → s.offerForward .f l = s.count .f .rxQueueFull) := by
  have hout : s.port (otherPort .f) = s.portS := rfl
  simp only [State.offerForward, hout]
  refine ⟨fun h => ?_, fun h => if_neg (by omega)⟩
  rw [if_pos h]
  exact ⟨rfl, rfl⟩

theorem State.PortsOnly.node_eq {s t : State} (h : s.PortsOnly t) (a : Addr) : t.node a = s.node a := by
  rw [h]
  rfl

theorem State.PortsOnly.channel_eq {s t : State} (h : s.PortsOnly t) (k : Slot) : t.channel k = s.channel k := by
  rw [h]
  rfl

theorem State.PortsOnly.output_eq {s t : State} (h : s.PortsOnly t) (i : OutIdx) : t.output i = s.output i := by
  rw [h]
  rfl

/-- The ports after one valid reading of a field frame, by the channel's forward policy and the room in the S forward
queue: the states s before it, t after it (R13, R52 to R56). -/
def State.readingForwarded (s t : State) (l rebuilt : List Byte) (policy : ForwardPolicy) : Prop :=
  (policy = .strip → t.portS = s.portS ∧ t.portF = ((s.received .f).count .f .rxEmptied).portF) ∧
  (policy ≠ .strip → 8 ≤ s.portS.forwardQueue.length →
    t.portS = s.portS ∧ t.portF = ((s.received .f).count .f .rxQueueFull).portF) ∧
  (policy = .raw → s.portS.forwardQueue.length < 8 →
    t.portF = (s.received .f).portF ∧ t.portS = { s.portS with forwardQueue := s.portS.forwardQueue ++ [l] }) ∧
  (policy = .conditioned → s.portS.forwardQueue.length < 8 →
    t.portF = (s.received .f).portF ∧ t.portS = { s.portS with forwardQueue := s.portS.forwardQueue ++ [rebuilt] })

/-- One valid reading of an enabled channel, taken with the conditioned value d: the frame's end takes it and forwards the
frame by the channel's policy (R50, R52 to R56). -/
theorem exec_frameEnd_reading {s w : State} {l : List Byte} {a : Addr} {missing : Nat}
    {notice : Option (NoticeKind × Half)} {r : Reading} {k : Slot} {d : Half × Quality} (h : s.FromField l)
    (ha : a = addressOf (byteAt l 1)) (hn : (s.node a).config.enrolled = true) (hk : byteAt l 2 = 0x01)
    (hrs : sampleReadings ({ bytes := l } : Frame).payload = some [r])
    (hacc : (s.node a).acceptedAs ((byteAt l 3).getLsbD 0) (byteAt l 4) missing notice)
    (hsup : s.supervisedAt a r = some k) (hd : s.conditioned k r = some d)
    (hw : w = (s.sampleAccepted a (byteAt l 4) missing notice).takeReading k d) :
    ∃ t, exec (.frameEnd .f) s = .next t ∧ w.PortsOnly t ∧
      s.readingForwarded t l (buildFrame (byteAt l 0) (byteAt l 1) 0x01 (byteAt l 3 ||| 0x02) (byteAt l 4)
        (0x01 :: (r.rewritten d.1 d.2).head :: halfBytes d.1)) (s.channel k).config.forward := by
  have htaken : w = [r].foldl (s.readingTaken a) (s.sampleAccepted a (byteAt l 4) missing notice) :=
    hw.trans (State.readingTaken_eq hsup hd _).symm
  obtain ⟨hsame, hempty, hbuilt⟩ := exec_frameEnd_readings h ha hn hk hrs hacc htaken rfl
  obtain ⟨hstrip, hconditioned⟩ := State.readingKept_eq hsup hd
  have hframe : (s.sampleAccepted a (byteAt l 4) missing notice).SupervisionOnly w :=
    hw ▸ State.takeReading_supervisionOnly _ k d
  have hF : w.portF = (s.received .f).portF := hframe.portF_eq
  have hS : w.portS = s.portS := hframe.portS_eq
  have hcountF : ∀ n, (w.count .f n).portF = ((s.received .f).count .f n).portF := fun n => by
    simp only [State.count_setPort, State.setPort_f_portF, State.port_f, hF]
  have hcountS : ∀ n, (w.count .f n).portS = s.portS := fun _ => hS
  have hoffer := w.offerForward_f_ports
  simp only [hF, hS] at hoffer
  have hfull : ∀ x, 8 ≤ s.portS.forwardQueue.length → (w.offerForward .f x).portS = s.portS ∧
      (w.offerForward .f x).portF = ((s.received .f).count .f .rxQueueFull).portF := fun x hq => by
    rw [(hoffer x).2 hq]
    exact ⟨hcountS _, hcountF _⟩
  simp only [List.mem_singleton, forall_eq, exists_eq_left, State.readingChanges_iff hsup hd] at hsame hempty hbuilt
  cases hp : (s.channel k).config.forward with
  | raw =>
    exact ⟨_, hsame (by simp [hp]), w.offerForward_portsOnly .f l, nofun, fun _ => hfull l, fun _ => (hoffer l).1, nofun⟩
  | strip =>
    refine ⟨_, hempty (by simp [hp]) (by simp [hstrip hp]), w.count_portsOnly .f _, fun _ => ⟨hcountS _, hcountF _⟩,
      fun hne => absurd rfl hne, nofun, nofun⟩
  | conditioned =>
    rw [List.filterMap_cons_some (hconditioned hp)] at hbuilt
    exact ⟨_, hbuilt (by simp [hp]) (by simp), w.offerForward_portsOnly .f _, nofun, fun _ => hfull _, nofun,
      fun _ => (hoffer _).1⟩

/-- Supervision and then forwarding change the ports, the channels, the outputs, the setpoint set and the log alone. -/
theorem State.PortsOnly.of_supervisionOnly {u w t : State} (hw : u.SupervisionOnly w) (h : w.PortsOnly t) :
    t = { u with portF := t.portF, portS := t.portS, channels := t.channels, outputs := t.outputs,
                 setpoints := t.setpoints, log := t.log } := by
  obtain ⟨hframe, -⟩ := hw
  rw [h, hframe]

/-- Beside the ports, a reading taken from an accepted frame changes the tables, the setpoint set and the log alone. -/
theorem State.sampleReading_frame {s w t : State} {a : Addr} {seq : Byte} {missing : Nat}
    {notice : Option (NoticeKind × Half)} (hw : (s.sampleAccepted a seq missing notice).SupervisionOnly w)
    (h : w.PortsOnly t) :
    t = { s with portF := t.portF, portS := t.portS, nodes := t.nodes, channels := t.channels, outputs := t.outputs,
                 setpoints := t.setpoints, log := t.log } := by
  have hnodes : t.nodes = (s.sampleAccepted a seq missing notice).nodes := by
    rw [h]
    exact hw.nodes_eq
  rw [hnodes]
  exact h.of_supervisionOnly hw

/-- A valid reading's outputs, setpoint items and notices, in one equation (R96, R97). -/
theorem State.outputReading_eq (s : State) (k : Slot) (v : Half) :
    s.outputReading k v = { s with
      outputs := (s.outputReading k v).outputs
      setpoints := s.withItems (OutputRecord.readingIssue v) (allOutputs.filter fun i => (s.output i).follows k)
      log := s.outputNotices s.log .fallbackExit (allOutputs.filter fun i =>
        decide ((s.output i).follows k = true ∧ (s.output i).runtime.state = .fallback)) } := by
  obtain ⟨-, hset, hlog⟩ := s.outputReading_sets k v
  obtain ⟨hframe, -⟩ := s.outputReading_outputsOnly k v
  rwa [hset, hlog] at hframe

/-- Settles O22. -/
theorem sampleReadingAtItsChannel : Obligations.SampleReadingAtItsChannel := by
  refine ⟨?_, fun s l a missing notice rs kept t h ha hn hk hrs hacc ht hkept =>
      exec_frameEnd_readings h ha hn hk hrs hacc ht hkept,
    fun s k v => let ⟨houtputs, _⟩ := s.outputReading_sets k v; ⟨_, rfl, s.outputReading_eq k v, houtputs⟩⟩
  intro s l a r q k h ha hn hpolicy hrestart hk hrs hr hq hb he hst
  have hacc : (s.node a).acceptedAs ((byteAt l 3).getLsbD 0) (byteAt l 4) 0 none :=
    .inr (.inl ⟨hrestart, rfl, rfl, .inl hpolicy⟩)
  obtain ⟨h0, h63⟩ := State.address_of_enrolled hn
  obtain ⟨t, hexec, hports, hforward⟩ := exec_frameEnd_reading h ha hn hk hrs hacc (State.supervisedAt_eq hb he)
    (State.conditioned_eq hr hq) rfl
  have hframe := State.takeReading_supervisionOnly (s.sampleAccepted a (byteAt l 4) 0 none) k
    ((s.channel k).config.condition r.value q)
  have hnode := fun b => (hports.node_eq b).trans (hframe.node_eq b)
  have hself := (hnode a).trans ((State.node_setNode _ a a _ h0 h63).trans (if_pos rfl))
  obtain ⟨hother, hchannel⟩ := State.takeReading_channel (u := s.sampleAccepted a (byteAt l 4) 0 none) (k := k) hst
    ((s.channel k).config.condition r.value q)
  obtain ⟨houtput, hkept, hback⟩ := State.takeReading_output (u := s.sampleAccepted a (byteAt l 4) 0 none) (k := k) hst
    ((s.channel k).config.condition r.value q)
  simp only [← hports.channel_eq, ← hports.output_eq] at hother hchannel houtput hkept hback
  obtain ⟨hconfig, hvalue, hquality, hvalid, hstate, hbad, hsilence, hstamp⟩ := hchannel
  exact ⟨t, hexec, State.sampleReading_frame hframe hports,
    fun b hne => (hnode b).trans (State.node_setNode_ne _ a b _ hne.symm), by rw [hself], by rw [hself], by rw [hself],
    hother, hconfig, hvalue, hquality, hvalid, hstate, hbad, hsilence, hstamp, houtput, hkept, hback, hforward⟩

end Sys2Proof.Machine
end

section
/-! SUPPORT. The Band Supervisor: what a reading and an acknowledgement write to a channel, and the notice it raises
(sections 4.2 to 4.4). -/

namespace Sys2Proof.Machine

/-! ## A channel's runtime and its notice (R85) -/

/-- A log once a channel's notice, if any, has been raised toward it (R85). -/
def State.channelNotice (s : State) (log : NoticeLog) (k : Slot) (v : Half) : Option NoticeKind → NoticeLog
  | none => log
  | some kind => log.raise s.system.classMask s.time.counter kind (.channel k) v

/-- A channel's judgement written: its runtime, and its notice after those already in the log. -/
def State.judged (s : State) (k : Slot) (v : Half) (log : NoticeLog) (x : ChannelRuntime × Option NoticeKind) : State :=
  { s.setRuntime k x.1 with log := s.channelNotice log k v x.2 }

theorem State.settleChannel_eq (s : State) (k : Slot) (v : Half) (x : ChannelRuntime × Option NoticeKind) :
    s.settleChannel k v x = s.judged k v s.log x := by
  obtain ⟨r, kind⟩ := x
  cases kind <;> rfl

theorem State.setRuntime_setRuntime (s : State) (k : Slot) (r r' : ChannelRuntime) :
    (s.setRuntime k r).setRuntime k r' = s.setRuntime k r' :=
  s.setRuntime_setChannel k _ r'

/-- A recovery's notice comes before that of the judgement after it (R70). -/
theorem State.raise_settleChannel_eq (s : State) (k : Slot) (v : Half) (r : ChannelRuntime) (kind : NoticeKind)
    (x : ChannelRuntime × Option NoticeKind) :
    ((s.setRuntime k r).raiseChannel k kind v).settleChannel k v x =
      s.judged k v (s.channelNotice s.log k v (some kind)) x := by
  rw [State.settleChannel_eq]
  unfold State.judged
  rw [← s.setRuntime_setRuntime k r x.1]
  rfl

/-! ## A valid reading (R65, R69 to R73) -/

/-- A channel's runtime once a valid reading has refreshed it, before it is judged (R65, R69). -/
def ChannelRuntime.valued (r : ChannelRuntime) (now : Quad) (v : Half) (q : Quality) : ChannelRuntime :=
  { r with silenceCount := 0, lastStamp := some now, quality := some q, value := v, valueValid := true, badCount := 0 }

section
variable {s : State} {k : Slot} {v : Half} {q : Quality} {c : ChannelConfig} {r : ChannelRuntime}

/-- In IN_BAND a valid reading is judged against the trip limits (R71). -/
theorem State.validReading_inBand (hc : c = (s.channel k).config)
    (hr : r = (s.channel k).runtime.valued s.time.counter v q) (h : r.state = .inBand) :
    s.validReading k v q = s.judged k v s.log (r.judgeInBand c v) := by
  subst hc hr
  have hstate : (s.channel k).runtime.state = .inBand := h
  rw [← State.settleChannel_eq]
  simp only [State.validReading, ChannelRuntime.refreshed, ChannelRuntime.valued, hstate]

/-- In HIGH and LOW a valid reading is judged against the clear limit (R72, R73). -/
theorem State.validReading_alarm (hc : c = (s.channel k).config)
    (hr : r = (s.channel k).runtime.valued s.time.counter v q) (h : r.state = .high ∨ r.state = .low) :
    s.validReading k v q = s.judged k v s.log (r.judgeAlarm c v) := by
  subst hc hr
  have hstate : (s.channel k).runtime.state = .high ∨ (s.channel k).runtime.state = .low := h
  rw [← State.settleChannel_eq]
  rcases hstate with hstate | hstate
  · simp only [State.validReading, ChannelRuntime.refreshed, ChannelRuntime.valued, hstate]
  · simp only [State.validReading, ChannelRuntime.refreshed, ChannelRuntime.valued, hstate]

/-- The log after a channel's recovery: RECOVER from STALE and FAULT, nothing from IDLE (R70). -/
def State.recoveryLog (s : State) (k : Slot) (v : Half) (st : ChannelState) (log : NoticeLog) : Prop :=
  (st = .idle ∧ log = s.log) ∨
    ((st = .stale ∨ st = .fault) ∧ log = s.log.raise s.system.classMask s.time.counter .recover (.channel k) v)

/-- From IDLE, STALE and FAULT a valid reading first recovers the channel into IN_BAND (R70). -/
theorem State.validReading_recovery (hc : c = (s.channel k).config)
    (hr : r = (s.channel k).runtime.valued s.time.counter v q) {log : NoticeLog} (h : s.recoveryLog k v r.state log) :
    s.validReading k v q = s.judged k v log (r.recovered.judgeInBand c v) := by
  subst hc hr
  rcases h with ⟨hstate, rfl⟩ | ⟨hstate, rfl⟩
  · replace hstate : (s.channel k).runtime.state = .idle := hstate
    rw [← State.settleChannel_eq]
    simp only [State.validReading, ChannelRuntime.refreshed, hstate]
    rfl
  · replace hstate : (s.channel k).runtime.state = .stale ∨ (s.channel k).runtime.state = .fault := hstate
    refine Eq.trans ?_ (s.raise_settleChannel_eq k v
      ((s.channel k).runtime.valued s.time.counter v q).recovered .recover _)
    rcases hstate with hstate | hstate
    · simp only [State.validReading, ChannelRuntime.refreshed, hstate]
      rfl
    · simp only [State.validReading, ChannelRuntime.refreshed, hstate]
      rfl

/-! ## Runs toward an alarm and release from it (R71 to R73) -/

/-- A reading that counts toward an alarm: the alarm entered at assert_count, else the run one longer (R71). -/
def ChannelRuntime.toward (r : ChannelRuntime) (c : ChannelConfig) (d : RunDir) (st : ChannelState) (kind : NoticeKind) :
    ChannelRuntime × Option NoticeKind :=
  if c.assertCount ≤ r.runAfter d then (r.alarmed st, some kind)
  else ({ r with runDir := d, runCount := r.runAfter d }, none)

theorem ChannelRuntime.judgeInBand_up (h : c.highTrip.toInt ≤ v.toInt) :
    r.judgeInBand c v = r.toward c .up .high .enterHigh := by
  have hd : c.tripDir v = .up := if_pos h
  simp only [ChannelRuntime.judgeInBand, hd, ChannelRuntime.toward]

theorem ChannelRuntime.judgeInBand_down (h : v.toInt < c.highTrip.toInt) (h' : v.toInt ≤ c.lowTrip.toInt) :
    r.judgeInBand c v = r.toward c .down .low .enterLow := by
  have hd : c.tripDir v = .down := (if_neg (not_le.mpr h)).trans (if_pos h')
  simp only [ChannelRuntime.judgeInBand, hd, ChannelRuntime.toward]

theorem ChannelRuntime.judgeInBand_between (h : c.lowTrip.toInt < v.toInt) (h' : v.toInt < c.highTrip.toInt) :
    r.judgeInBand c v = (r.clearRuns, none) := by
  have hd : c.tripDir v = .none := (if_neg (not_le.mpr h')).trans (if_neg (not_le.mpr h))
  simp only [ChannelRuntime.judgeInBand, hd]

/-- What a run toward an alarm comes to at the count n it reaches (R71). -/
theorem ChannelRuntime.toward_eq {d : RunDir} {n : BitVec 4} (hn : n = r.runAfter d) (st : ChannelState)
    (kind : NoticeKind) :
    (c.assertCount ≤ n → r.toward c d st kind = (r.alarmed st, some kind)) ∧
      (n < c.assertCount → r.toward c d st kind = ({ r with runDir := d, runCount := n }, none)) := by
  subst hn
  exact ⟨fun h => if_pos h, fun h => if_neg (BitVec.not_le.mpr h)⟩

theorem ChannelConfig.insideClear_iff (hs : r.state = .high ∨ r.state = .low) :
    c.insideClear r.state v = true ↔
      (r.state = .high ∧ v.toInt ≤ c.highClear.toInt) ∨ (r.state = .low ∧ c.lowClear.toInt ≤ v.toInt) := by
  rcases hs with hs | hs <;> simp [ChannelConfig.insideClear, hs]

/-- A reading beyond the clear limit ends a release run (R72). -/
theorem ChannelRuntime.judgeAlarm_outside (h : ¬ c.insideClear r.state v = true) :
    r.judgeAlarm c v = (r.clearRuns, none) :=
  if_pos h

/-- A reading inside the clear limit, by the release count n it reaches (R72, R73). -/
theorem ChannelRuntime.judgeAlarm_inside (h : c.insideClear r.state v = true) {n : BitVec 4}
    (hn : n = r.releaseAfter c) :
    (n = c.releaseCount ∧ (c.mode = .tracking ∨ r.acked = true) → r.judgeAlarm c v = (r.returned, some .ret)) ∧
      (¬ (n = c.releaseCount ∧ (c.mode = .tracking ∨ r.acked = true)) →
        r.judgeAlarm c v = ({ r with runDir := .release, runCount := n }, none)) := by
  subst hn
  simp only [ChannelRuntime.judgeAlarm, h, not_true, if_false]
  exact ⟨fun hq => if_pos hq, fun hq => if_neg hq⟩

/-- The release run holds at release_count (R72). -/
theorem ChannelRuntime.releaseAfter_eq (h : r.runDir ≠ .release ∨ r.runCount ≤ c.releaseCount) :
    r.releaseAfter c =
      if r.runDir = .release then (if r.runCount = c.releaseCount then c.releaseCount else r.runCount + 1) else 1 := by
  unfold ChannelRuntime.releaseAfter
  split
  · next hd =>
    have hle := h.resolve_left (not_not_intro hd)
    by_cases he : r.runCount = c.releaseCount
    · rw [if_pos he, if_neg (by rw [he]; exact BitVec.lt_irrefl _)]
    · rw [if_neg he, if_pos (by bv_omega)]
  · rfl

end

/-- Settles O51. -/
theorem validReadingIsJudged : Obligations.ValidReadingIsJudged := by
  intro s k v q c r hc hr
  refine ⟨fun hs hlow hhigh => ?_, fun hs hhigh n hn => ?_, fun hs hlow hhigh n hn => ?_, fun hout => ?_,
    fun hin hrun _ n hn => ?_, fun hs hlow hhigh => ?_, fun hs hlow hhigh => ?_, fun log hlog => ?_⟩
  · rw [State.validReading_inBand hc hr hs, ChannelRuntime.judgeInBand_between hlow hhigh]
    rfl
  · rw [State.validReading_inBand hc hr hs, ChannelRuntime.judgeInBand_up hhigh]
    obtain ⟨halarm, hcount⟩ := ChannelRuntime.toward_eq (c := c) hn .high .enterHigh
    exact ⟨fun h => by rw [halarm h]; rfl, fun h => by rw [hcount h]; rfl⟩
  · rw [State.validReading_inBand hc hr hs, ChannelRuntime.judgeInBand_down hhigh hlow]
    obtain ⟨halarm, hcount⟩ := ChannelRuntime.toward_eq (c := c) hn .low .enterLow
    exact ⟨fun h => by rw [halarm h]; rfl, fun h => by rw [hcount h]; rfl⟩
  · have hs : r.state = .high ∨ r.state = .low := hout.imp And.left And.left
    rw [State.validReading_alarm hc hr hs, ChannelRuntime.judgeAlarm_outside]
    · rfl
    · rw [ChannelConfig.insideClear_iff hs]
      rcases hout with ⟨hst, hv⟩ | ⟨hst, hv⟩ <;> simp [hst, hv]
  · have hs : r.state = .high ∨ r.state = .low := hin.imp And.left And.left
    obtain ⟨hret, hhold⟩ := ChannelRuntime.judgeAlarm_inside ((ChannelConfig.insideClear_iff hs).mpr hin)
      (hn.trans (ChannelRuntime.releaseAfter_eq hrun).symm)
    rw [State.validReading_alarm hc hr hs]
    refine ⟨fun hq hm => by rw [hret ⟨hq, hm⟩]; rfl, fun hq => ?_⟩
    rw [hhold]
    · rfl
    · rintro ⟨hq', hm⟩
      rcases hq with hq | ⟨hmode, hacked⟩
      · exact hq hq'
      · simp [hmode, hacked] at hm
  · rw [State.validReading_recovery hc hr (.inl ⟨hs, rfl⟩), ChannelRuntime.judgeInBand_between hlow hhigh]
    rfl
  · rw [State.validReading_recovery hc hr (.inr ⟨hs, rfl⟩), ChannelRuntime.judgeInBand_between hlow hhigh]
    rfl
  · rw [State.validReading_recovery hc hr hlog]
    have hone : ∀ d, d ≠ .none → 1 = r.recovered.runAfter d := fun d hd => (if_neg (Ne.symm hd)).symm
    refine ⟨fun hhigh => ?_, fun hlow hhigh => ?_⟩
    · obtain ⟨halarm, hcount⟩ := ChannelRuntime.toward_eq (c := c) (hone .up (by decide)) .high .enterHigh
      rw [ChannelRuntime.judgeInBand_up hhigh]
      exact ⟨fun h => by rw [halarm h]; rfl, fun h => by rw [hcount h]; rfl⟩
    · obtain ⟨halarm, hcount⟩ := ChannelRuntime.toward_eq (c := c) (hone .down (by decide)) .low .enterLow
      rw [ChannelRuntime.judgeInBand_down hhigh hlow]
      exact ⟨fun h => by rw [halarm h]; rfl, fun h => by rw [hcount h]; rfl⟩

/-! ## A BAD reading (R65 to R68) -/

/-- A BAD reading: in FAULT it only refreshes the silence, elsewhere it counts, and at bad_limit the channel enters FAULT
and hands its outputs over (R66 to R68). -/
theorem State.badReading_eq {s : State} {k : Slot} {r : ChannelRuntime} {n : BitVec 4}
    (hr : r = (s.channel k).runtime.refreshed s.time.counter .bad) (hn : n = satInc r.badCount) :
    (r.state = .fault → s.badReading k = s.setRuntime k r) ∧
    (r.state ∈ [.idle, .inBand, .high, .low, .stale] →
      (n < (s.channel k).config.badLimit → s.badReading k = s.setRuntime k { r with badCount := n }) ∧
      ((s.channel k).config.badLimit ≤ n → s.badReading k =
        ((s.setRuntime k ({ r with badCount := n } : ChannelRuntime).faulted).raiseChannel k .fault
          (slotValue k)).handOverFrom k r.state)) := by
  subst hr hn
  refine ⟨fun h => ?_, fun h => ?_⟩
  · simp only [State.badReading, h]
  · unfold State.badReading
    dsimp only
    split
    · next hst => simp [hst] at h
    · next hst => simp [hst] at h
    all_goals
      next hst => exact ⟨fun hlt => if_neg (BitVec.not_le.mpr hlt), fun hle => (if_pos hle).trans (by rw [hst])⟩

/-- Settles O52. -/
theorem badReadingIsCounted : Obligations.BadReadingIsCounted := by
  intro s k r n hr hn
  obtain ⟨hfault, hcounts⟩ := State.badReading_eq (k := k) (n := n) hr hn
  refine ⟨hfault, fun hs hlt => ?_, fun hs hle => ?_⟩
  · obtain ⟨hcount, -⟩ := hcounts hs
    exact hcount hlt
  · obtain ⟨-, henter⟩ := hcounts hs
    have hstate : r.state = (s.channel k).runtime.state := by rw [hr]
    have hset := s.handOverFrom_sets ((s.setRuntime k ({ r with badCount := n } : ChannelRuntime).faulted).raiseChannel k
      .fault (slotValue k)) k (fun _ => rfl) rfl rfl
    have hframe := State.handOverFrom_outputsOnly ((s.setRuntime k
      ({ r with badCount := n } : ChannelRuntime).faulted).raiseChannel k .fault (slotValue k)) k r.state
    rw [← hstate, ← henter hle] at hset
    rw [← henter hle] at hframe
    obtain ⟨hsetpoints, hlog⟩ := hset
    obtain ⟨heq, -⟩ := hframe
    rw [hsetpoints, hlog] at heq
    exact ⟨_, rfl, heq, fun i => (congrArg (·.output i) (henter hle)).trans (State.output_handOverFrom _ k r.state i)⟩

/-! ## ACK_BAND (R76, R77) -/

/-- ACK_BAND's own rule (R76, R77). -/
theorem State.doAckBand_eq (s : State) (b : Byte) :
    (slotOf b = none → s.doAckBand [b] = s.refuse .badIndex) ∧
    (∀ k, slotOf b = some k →
      ((s.channel k).latched = false → s.doAckBand [b] = s.refuse .notLatched) ∧
      ((s.channel k).latched = true → s.doAckBand [b] = (s.acknowledgeBand k).okay)) := by
  have hb : byteAt [b] 0 = b := rfl
  simp only [State.doAckBand, hb]
  refine ⟨fun h => by rw [h], fun k hk => ⟨fun h => ?_, fun h => ?_⟩⟩
  · simp only [hk, h, Bool.false_eq_true, if_false]
  · simp only [hk, h, if_true]

theorem ChannelRecord.latched_iff (c : ChannelRecord) :
    c.latched = true ↔ c.config.enabled = true ∧ c.runtime.state ∈ [.high, .low] ∧ c.config.mode = .latching := by
  simp [ChannelRecord.latched]

theorem ChannelRecord.releaseHeld_iff (c : ChannelRecord) :
    c.releaseHeld = true ↔ c.runtime.runDir = .release ∧ c.runtime.runCount = c.config.releaseCount := by
  simp [ChannelRecord.releaseHeld]

/-- Settles O43. -/
theorem ackBand : Obligations.AckBand := by
  intro s e b h
  obtain ⟨hnone, hsome⟩ := s.doAckBand_eq b
  refine ⟨fun hb => exec_refuse .ackBand State.doAckBand rfl h rfl (hnone (slotOf_none b hb)), ?_⟩
  rintro k rfl
  obtain ⟨hrefuse, htake⟩ := hsome k (slotOf_indexByte k)
  refine ⟨fun hnot => ?_, fun hen hst hmode => ?_⟩
  · refine exec_refuse .ackBand State.doAckBand rfl h rfl (hrefuse ?_)
    rw [← Bool.not_eq_true, ChannelRecord.latched_iff]
    rintro ⟨hen, hst, hmode⟩
    rcases hnot with hnot | hnot | hnot
    · simp [hen] at hnot
    · exact hnot hst
    · simp [hmode] at hnot
  · have hexec := exec_okay .ackBand State.doAckBand rfl h rfl
      (htake ((s.channel k).latched_iff.mpr ⟨hen, hst, hmode⟩))
    unfold State.acknowledgeBand at hexec
    simp only [ChannelRecord.releaseHeld_iff] at hexec
    refine ⟨fun hdir hcount => ?_, fun hnot => ?_⟩
    · rw [if_pos ⟨hdir, hcount⟩] at hexec
      exact hexec
    · rw [if_neg (by tauto)] at hexec
      exact hexec

/-! ## A channel goes STALE by its own limit (R79, R80) -/

/-- Entry into STALE, in one equation: the channel and its notice, then the outputs handed over (R80, R84, R98). -/
theorem State.enterStale_eq (s : State) (k : Slot) (cause : StaleCause) :
    s.enterStale k cause = { s.setRuntime k ((s.channel k).runtime.staled cause) with
      outputs := (s.enterStale k cause).outputs
      setpoints := s.withItems OutputRecord.entryIssue (s.handedOver k)
      log := s.outputNotices
        (s.log.raise s.system.classMask s.time.counter .stale (.channel k) (BitVec.ofNat 16 k.val))
        .fallbackEnter (s.handedOver k) } := by
  obtain ⟨hset, hlog⟩ := s.enterStale_sets k cause
  obtain ⟨hframe, -⟩ := State.handOverFrom_outputsOnly
    ((s.setRuntime k ((s.channel k).runtime.staled cause)).raiseChannel k .stale (slotValue k)) k
    (s.channel k).runtime.state
  rw [← hset, ← hlog]
  exact hframe

/-- Settles O28. -/
theorem channelGoesStale : Obligations.ChannelGoesStale := by
  intro s k rest hs hdue
  have hexec : exec .channelStale s = .next { s.enterStale k .channel with due := { s.due with stale := rest } } := by
    rw [exec_tickStep hs .channelStale rfl rfl]
    simp only [effectOf, State.nextStale, hdue, State.staleByLimit]
  obtain ⟨hset, hlog⟩ := s.enterStale_sets k .channel
  refine ⟨_, hexec, ?_, ?_, fun j hj => ?_, s.output_enterStale k .channel, hset, hlog⟩
  · rw [s.enterStale_eq k .channel]
    rfl
  · exact (s.channel_enterStale k .channel k).trans (if_pos rfl)
  · exact (s.channel_enterStale k .channel j).trans (if_neg hj.symm)

end Sys2Proof.Machine
end

section
/-! SUPPORT. The Executor's frame: opcodes and lengths, the entry executed, the answer's summary (sections 8.2, 8.3 and
12.9). -/

namespace Sys2Proof.Machine

/-! ## Opcodes and commands (R160, section 12.9) -/

theorem RequestKind.mem_all (kind : RequestKind) : kind ∈ RequestKind.all := by
  cases kind <;> decide

theorem knownOpcode_iff (b : Byte) : knownOpcode b = true ↔ ∃ kind : RequestKind, b = kind.opcode := by
  simp only [knownOpcode, List.any_eq_true, decide_eq_true_eq, RequestKind.mem_all, true_and, eq_comm (a := b)]

/-- A request's command takes the execution of its kind. -/
theorem exec_command (kind : RequestKind) :
    ∃ body, ∀ s, exec kind.command s = s.take fun s => s.executeRequest kind body := by
  cases kind <;> exact ⟨_, fun _ => rfl⟩

/-- An entry whose opcode names no request is refused (R160). -/
theorem State.executeUnknown_eq {s : State} {e : RequestEntry} (hn : s.nextToExecute = some e)
    (ho : knownOpcode e.opcode = false) : s.executeUnknown = s.withAnswer e .unknownRequest [] := by
  simp only [State.executeUnknown, hn, ho, Bool.false_eq_true, if_false, State.withAnswer_refuse]

/-! ## The summary (R86, R91, R137) -/

theorem State.channels_toList (s : State) : s.channels.toList = allSlots.map s.channel := by
  refine List.ext_getElem (by simp [allSlots]) fun n h _ => ?_
  have hn : n < 128 := by simpa using h
  simp [allSlots, State.channel, Nat.mod_eq_of_lt hn]

theorem State.outputs_toList (s : State) : s.outputs.toList = allOutputs.map s.output := by
  refine List.ext_getElem (by simp [allOutputs]) fun n h _ => ?_
  have hn : n < 16 := by simpa using h
  simp [allOutputs, State.output, Nat.mod_eq_of_lt hn]

theorem ChannelState.isExceptional_iff (st : ChannelState) :
    st.isExceptional = true ↔ st ∈ [.high, .low, .stale, .fault] := by
  cases st <;> decide

theorem State.exceptionalCount_eq (s : State) :
    s.exceptionalCount =
      (allSlots.filter fun k => decide ((s.channel k).runtime.state ∈ [.high, .low, .stale, .fault])).length := by
  rw [State.exceptionalCount, State.channels_toList, List.countP_map, List.countP_eq_length_filter]
  refine congrArg List.length (List.filter_congr fun k _ => ?_)
  rw [Bool.eq_iff_iff, decide_eq_true_iff, ← ChannelState.isExceptional_iff]
  rfl

theorem State.fallbackCount_eq (s : State) :
    s.fallbackCount = (allOutputs.filter fun i => decide ((s.output i).runtime.state = .fallback)).length := by
  rw [State.fallbackCount, State.outputs_toList, List.countP_map, List.countP_eq_length_filter]
  rfl

/-- A count of at most 128 records fits the summary's byte. -/
theorem State.exceptionalCount_lt (s : State) : s.exceptionalCount < 2 ^ 8 := by
  have h : s.exceptionalCount ≤ s.channels.toList.length := List.countP_le_length
  rw [Vector.length_toList] at h
  omega

theorem State.fallbackCount_lt (s : State) : s.fallbackCount < 2 ^ 8 := by
  have h : s.fallbackCount ≤ s.outputs.toList.length := List.countP_le_length
  rw [Vector.length_toList] at h
  omega

/-! ## The entry executed and its answer (R157, R159, R161, R170) -/

theorem RequestEntry.isWaiting_iff (e : RequestEntry) : e.isWaiting = true ↔ e.state = .waiting :=
  decide_eq_true_iff

theorem RequestEntry.isWaiting_false {l : List RequestEntry} (h : ∀ x ∈ l, x.state ≠ .waiting) :
    ∀ x ∈ l, x.isWaiting = false :=
  fun x hx => decide_eq_false (h x hx)

theorem State.nextToExecute_none {s : State}
    (h : s.queue.restartPending = true ∨ ∀ x ∈ s.queue.entries, x.state ≠ .waiting) : s.nextToExecute = none := by
  unfold State.nextToExecute
  rcases h with h | h
  · rw [if_pos h]
  · rw [List.find?_eq_none.mpr fun x hx => mt x.isWaiting_iff.mp (h x hx), ite_self]

section
variable {s : State} {pre post : List RequestEntry} {e : RequestEntry}

theorem State.nextToExecute_eq (hq : s.queue.entries = pre ++ e :: post) (hpre : ∀ x ∈ pre, x.state ≠ .waiting)
    (he : e.state = .waiting) (hp : s.queue.restartPending = false) : s.nextToExecute = some e := by
  have hnone : pre.find? RequestEntry.isWaiting = none :=
    List.find?_eq_none.mpr fun x hx => mt x.isWaiting_iff.mp (hpre x hx)
  rw [State.nextToExecute, hp, hq, List.find?_append, hnone, List.find?_cons_of_pos (e.isWaiting_iff.mpr he)]
  rfl

/-- The answer stands in the oldest WAITING entry's place (R159, R161). -/
theorem State.withAnswer_eq (hq : s.queue.entries = pre ++ e :: post) (hpre : ∀ x ∈ pre, x.state ≠ .waiting)
    (he : e.state = .waiting) (status : Status) (results : List Byte) :
    s.withAnswer e status results = { s with queue := { s.queue with
      lostCount := 0
      entries := pre ++ { e with
        state := .done
        response := some { tag := e.tag, opcode := e.opcode, status := status, repeated := false,
                           lost := s.queue.lostCount, summary := s.summary, results := results } } :: post } } := by
  rw [State.withAnswer, hq, updateFirst_append _ _ pre e post (RequestEntry.isWaiting_false hpre)
    (e.isWaiting_iff.mpr he)]

end

/-- Settles O35. -/
theorem opcodeAndLength : Obligations.OpcodeAndLength := by
  refine ⟨⟨fun x hx => ?_, rfl, fun n => decide_eq_true_iff, knownOpcode_iff⟩, fun kind s e p h hl => ?_,
    fun s e h hn ho => ?_, fun kind s h hn => ?_, fun s => ⟨?_, ?_, rfl⟩,
    fun s pre post e hq hpre he => ⟨State.nextToExecute_eq hq hpre he, State.withAnswer_eq hq hpre he⟩,
    fun s => State.nextToExecute_none⟩
  · fin_cases hx <;> exact ⟨rfl, fun n => decide_eq_true_iff⟩
  · obtain ⟨body, hexec⟩ := exec_command kind
    rw [hexec, s.take_badLength e kind p body h hl]
  · rw [exec_ready h .unknownRequest rfl rfl]
    exact congrArg _ (State.executeUnknown_eq hn ho)
  · obtain ⟨body, hexec⟩ := exec_command kind
    rw [hexec, s.take_noEntry kind body h hn]
  · rw [← s.exceptionalCount_eq]
    exact (BitVec.toNat_ofNat _ _).trans (Nat.mod_eq_of_lt s.exceptionalCount_lt)
  · rw [← s.fallbackCount_eq]
    exact (BitVec.toNat_ofNat _ _).trans (Nat.mod_eq_of_lt s.fallbackCount_lt)

end Sys2Proof.Machine
end

section
/-! SUPPORT. Supervision over every step: the laws of channels, outputs, the setpoint set and the open tick event (sections
4.1, 4.5, 5.2 and 5.8). -/

namespace Sys2Proof.Machine

/-! ## Channel records (R63, R64, R80) -/

section
variable {c : ChannelConfig} {r : ChannelRuntime}

/-- Without a run, a record's laws are those of its state. -/
theorem ChannelRecord.lawful_clearRuns (hoff : r.state = .off ↔ c.enabled = false)
    (hvalid : r.valueValid = r.state.isValid) (hcause : r.staleCause = .none ↔ r.state ≠ .stale) :
    ({ config := c, runtime := r.clearRuns } : ChannelRecord).Lawful :=
  ⟨hoff, hvalid, hcause, fun _ => rfl, fun h => h.elim nofun nofun, nofun⟩

theorem ChannelRecord.cleared_lawful (c : ChannelConfig) : (ChannelRecord.cleared c).Lawful := by
  refine ChannelRecord.lawful_clearRuns (r := .clear c.enabled) ?_ ?_ ?_
  all_goals
    cases hc : c.enabled <;> simp [ChannelRuntime.clear, ChannelState.isValid]

theorem ChannelRuntime.clear_invalid (enabled : Bool) : (ChannelRuntime.clear enabled).state.isValid = false := by
  cases enabled <;> rfl

theorem ChannelRecord.staled_lawful (he : c.enabled = true) (r : ChannelRuntime) {cause : StaleCause}
    (hcause : cause ≠ .none) : ({ config := c, runtime := r.staled cause } : ChannelRecord).Lawful :=
  ChannelRecord.lawful_clearRuns
    (r := { r with state := .stale, staleCause := cause, valueValid := false, acked := false })
    (by simp [he]) rfl (by simpa using hcause)

theorem ChannelRecord.faulted_lawful (he : c.enabled = true) (r : ChannelRuntime) :
    ({ config := c, runtime := r.faulted } : ChannelRecord).Lawful :=
  ChannelRecord.lawful_clearRuns (r := { r with state := .fault, valueValid := false, acked := false, staleCause := .none })
    (by simp [he]) rfl (by simp)

/-- A lawful record that holds a valid value. -/
structure ChannelRecord.Measured (c : ChannelRecord) : Prop where
  lawful : c.Lawful
  valid : c.runtime.state.isValid = true

/-- Without a run, an enabled channel with a valid value. -/
theorem ChannelRecord.measured_clearRuns (he : c.enabled = true) (hs : r.state.isValid = true)
    (hvalid : r.valueValid = true) (hcause : r.staleCause = .none) :
    ({ config := c, runtime := r.clearRuns } : ChannelRecord).Measured := by
  refine ⟨ChannelRecord.lawful_clearRuns ⟨fun h => ?_, fun h => ?_⟩ (hvalid.trans hs.symm) ⟨fun _ h => ?_, fun _ => hcause⟩,
    hs⟩
  · rw [h] at hs; cases hs
  · rw [he] at h; cases h
  · rw [h] at hs; cases hs

theorem ChannelRecord.Lawful.enabled {c : ChannelRecord} (h : c.Lawful) (hs : c.runtime.state ≠ .off) :
    c.config.enabled = true := by
  obtain ⟨hoff, -⟩ := h
  exact Bool.eq_true_of_not_eq_false (mt hoff.mpr hs)

theorem ChannelRecord.Lawful.state_ne_off {c : ChannelRecord} (h : c.Lawful) (he : c.config.enabled = true) :
    c.runtime.state ≠ .off := by
  obtain ⟨hoff, -⟩ := h
  intro hs
  rw [hoff.mp hs] at he
  cases he

/-- Enabled, and holding a value without a stale cause, in every state that is valid. -/
theorem ChannelRecord.Lawful.of_valid {c : ChannelRecord} (h : c.Lawful) (hs : c.runtime.state.isValid = true) :
    c.config.enabled = true ∧ c.runtime.valueValid = true ∧ c.runtime.staleCause = .none := by
  have hoff : c.runtime.state ≠ .off := fun hst => by rw [hst] at hs; cases hs
  have hstale : c.runtime.state ≠ .stale := fun hst => by rw [hst] at hs; cases hs
  have he := h.enabled hoff
  obtain ⟨-, hvalid, hcause, -⟩ := h
  exact ⟨he, hvalid.trans hs, hcause.mpr hstale⟩

/-- A reading counted toward an alarm, in IN_BAND (R71). -/
theorem ChannelRuntime.toward_measured (h : ({ config := c, runtime := r } : ChannelRecord).Lawful)
    (hs : r.state = .inBand) {d : RunDir} (hd : d = .up ∨ d = .down) {st : ChannelState} (hst : st.isValid = true)
    (kind : NoticeKind) : ({ config := c, runtime := (r.toward c d st kind).1 } : ChannelRecord).Measured := by
  have hv : r.state.isValid = true := by rw [hs]; rfl
  obtain ⟨he, hvalid, hcause⟩ := h.of_valid hv
  unfold ChannelRuntime.toward
  split
  · exact ChannelRecord.measured_clearRuns (r := { r with state := st, acked := false }) he hst hvalid hcause
  · next hlt =>
    obtain ⟨hoff, hval, hstale, -⟩ := h
    refine ⟨⟨hoff, hval, hstale, fun hn => ?_, fun _ => ⟨hs, BitVec.le_of_lt (BitVec.not_le.mp hlt)⟩, fun hr => ?_⟩, hv⟩
    · rcases hd with rfl | rfl <;> cases hn
    · rcases hd with rfl | rfl <;> cases hr

theorem ChannelRuntime.judgeInBand_measured (h : ({ config := c, runtime := r } : ChannelRecord).Lawful)
    (hs : r.state = .inBand) (v : Half) :
    ({ config := c, runtime := (r.judgeInBand c v).1 } : ChannelRecord).Measured := by
  have hv : r.state.isValid = true := by rw [hs]; rfl
  obtain ⟨he, hvalid, hcause⟩ := h.of_valid hv
  rcases le_or_gt c.highTrip.toInt v.toInt with hhigh | hhigh
  · rw [ChannelRuntime.judgeInBand_up hhigh]
    exact ChannelRuntime.toward_measured h hs (.inl rfl) rfl _
  · rcases le_or_gt v.toInt c.lowTrip.toInt with hlow | hlow
    · rw [ChannelRuntime.judgeInBand_down hhigh hlow]
      exact ChannelRuntime.toward_measured h hs (.inr rfl) rfl _
    · rw [ChannelRuntime.judgeInBand_between hlow hhigh]
      exact ChannelRecord.measured_clearRuns he hv hvalid hcause

/-- The release run stays within release_count (R64, R72). -/
theorem ChannelRuntime.releaseAfter_le (hc : c.valid = true) : r.releaseAfter c ≤ c.releaseCount := by
  simp only [ChannelConfig.valid, Bool.and_eq_true, decide_eq_true_eq] at hc
  obtain ⟨⟨-, hrelease⟩, -⟩ := hc
  unfold ChannelRuntime.releaseAfter
  split
  · split
    · bv_omega
    · exact BitVec.le_refl _
  · bv_omega

theorem ChannelRuntime.judgeAlarm_measured (h : ({ config := c, runtime := r } : ChannelRecord).Lawful)
    (hs : r.state = .high ∨ r.state = .low) (hc : c.valid = true) (v : Half) :
    ({ config := c, runtime := (r.judgeAlarm c v).1 } : ChannelRecord).Measured := by
  have hv : r.state.isValid = true := by rcases hs with hs | hs <;> rw [hs] <;> rfl
  obtain ⟨he, hvalid, hcause⟩ := h.of_valid hv
  by_cases hin : c.insideClear r.state v = true
  · obtain ⟨hret, hhold⟩ := ChannelRuntime.judgeAlarm_inside (r := r) hin rfl
    by_cases hq : r.releaseAfter c = c.releaseCount ∧ (c.mode = .tracking ∨ r.acked = true)
    · rw [hret hq]
      exact ChannelRecord.measured_clearRuns (r := { r with state := .inBand }) he rfl hvalid hcause
    · rw [hhold hq]
      obtain ⟨hoff, hval, hstale, -⟩ := h
      exact ⟨⟨hoff, hval, hstale, nofun, fun h => h.elim nofun nofun, fun _ => ⟨hs, r.releaseAfter_le hc⟩⟩, hv⟩
  · rw [ChannelRuntime.judgeAlarm_outside hin]
    exact ChannelRecord.measured_clearRuns he hv hvalid hcause

end

/-- A valid reading at an enabled channel leaves it with a valid value, its runs within the counts (R63, R64, R69). -/
theorem State.validReading_measured {s : State} {k : Slot} (h : (s.channel k).Lawful)
    (he : (s.channel k).config.enabled = true) (hc : (s.channel k).config.valid = true) (v : Half) (q : Quality) :
    ∃ log x, s.validReading k v q = s.judged k v log x ∧
      ({ config := (s.channel k).config, runtime := x.1 } : ChannelRecord).Measured := by
  obtain ⟨r, hr⟩ : ∃ r, r = (s.channel k).runtime.valued s.time.counter v q := ⟨_, rfl⟩
  have hstate : (s.channel k).runtime.state = r.state := by rw [hr]; rfl
  have hrecovery : ({ config := (s.channel k).config, runtime := r.recovered } : ChannelRecord).Lawful :=
    (ChannelRecord.measured_clearRuns (r := { r with state := .inBand, staleCause := .none }) he rfl (by rw [hr]; rfl)
      rfl).lawful
  have hvalued : r.state.isValid = true → ({ config := (s.channel k).config, runtime := r } : ChannelRecord).Lawful := by
    intro hv
    obtain ⟨hoff, -, hcause, hrun⟩ := h
    rw [hr] at hv ⊢
    exact ⟨hoff, hv.symm, hcause, hrun⟩
  have hrecover : ∀ log, s.recoveryLog k v r.state log → ∃ log x, s.validReading k v q = s.judged k v log x ∧
      ({ config := (s.channel k).config, runtime := x.1 } : ChannelRecord).Measured := fun log hlog =>
    ⟨log, _, State.validReading_recovery rfl hr hlog, ChannelRuntime.judgeInBand_measured hrecovery rfl v⟩
  have halarm : r.state = .high ∨ r.state = .low → ∃ log x, s.validReading k v q = s.judged k v log x ∧
      ({ config := (s.channel k).config, runtime := x.1 } : ChannelRecord).Measured := fun hs =>
    ⟨_, _, State.validReading_alarm rfl hr hs, ChannelRuntime.judgeAlarm_measured
      (hvalued (by rcases hs with hs | hs <;> rw [hs] <;> rfl)) hs hc v⟩
  cases hs : r.state with
  | off => exact absurd (hstate.trans hs) (h.state_ne_off he)
  | idle => exact hrecover _ (.inl ⟨hs, rfl⟩)
  | stale => exact hrecover _ (.inr ⟨.inl hs, rfl⟩)
  | fault => exact hrecover _ (.inr ⟨.inr hs, rfl⟩)
  | inBand =>
    exact ⟨_, _, State.validReading_inBand rfl hr hs,
      ChannelRuntime.judgeInBand_measured (hvalued (by rw [hs]; rfl)) hs v⟩
  | high => exact halarm (.inl hs)
  | low => exact halarm (.inr hs)

/-! ## Output records (R91, R92, R100) -/

/-- An output's laws, its source being valid or not. -/
structure OutputRecord.Agrees (o : OutputRecord) (valid : Bool) : Prop where
  lawful : o.Lawful
  normal : o.runtime.state = .normal → valid = true
  fallback : o.runtime.state = .fallback → valid = false

section
variable {o : OutputRecord} {valid : Bool}

theorem OutputRecord.Lawful.enabled (h : o.Lawful) (hs : o.runtime.state ≠ .off) : o.config.enabled = true := by
  obtain ⟨hoff, -⟩ := h
  exact Bool.eq_true_of_not_eq_false (mt hoff.mpr hs)

theorem OutputRecord.Lawful.state_ne_off (h : o.Lawful) (he : o.config.enabled = true) : o.runtime.state ≠ .off := by
  obtain ⟨hoff, -⟩ := h
  intro hs
  rw [hoff.mp hs] at he
  cases he

theorem OutputRecord.Lawful.forced_none (h : o.Lawful) (hs : o.runtime.state ≠ .forced) : o.runtime.forced = none := by
  obtain ⟨-, -, hforced, -⟩ := h
  simpa using mt hforced.mp hs

theorem OutputRecord.agrees_off {c : OutputConfig} (he : c.enabled = false) (valid : Bool) :
    ({ config := c, runtime := .cleared .off } : OutputRecord).Agrees valid :=
  ⟨⟨⟨fun _ => he, fun _ => rfl⟩, fun _ => rfl, by simp [OutputRuntime.cleared], nofun⟩, nofun, nofun⟩

theorem OutputRecord.agrees_fallback (he : o.config.enabled = true) (hs : o.runtime.state = .fallback)
    (hf : o.runtime.forced = none) : o.Agrees false :=
  ⟨⟨by simp [hs, he], by simp [hs], by simp [hs, hf], by simp [hs]⟩, by simp [hs], fun _ => rfl⟩

theorem OutputRecord.agrees_normal (he : o.config.enabled = true) (hs : o.runtime.state = .normal)
    (hf : o.runtime.forced = none) (hi : o.runtime.issued.isSome = true) (ht : o.runtime.target.isSome = true) :
    o.Agrees true :=
  ⟨⟨by simp [hs, he], by simp [hs], by simp [hs, hf], fun _ => ⟨hi, ht⟩⟩, fun _ => rfl, by simp [hs]⟩

theorem OutputRecord.agrees_forced (he : o.config.enabled = true) (hs : o.runtime.state = .forced)
    (hf : o.runtime.forced.isSome = true) (valid : Bool) : o.Agrees valid :=
  ⟨⟨by simp [hs, he], by simp [hs], by simp [hs, hf], by simp [hs]⟩, by simp [hs], by simp [hs]⟩

theorem OutputRecord.fellBack_agrees (he : o.config.enabled = true) : o.fellBack.Agrees false := by
  refine OutputRecord.agrees_fallback ?_ ?_ ?_
  · rw [OutputRecord.fellBack_config]; exact he
  · rw [OutputRecord.fellBack, OutputRecord.withIssue_runtime]
  · rw [OutputRecord.fellBack, OutputRecord.withIssue_runtime]

/-- The NORMAL computation leaves a value issued (R95). -/
theorem OutputRecord.normalIssue_or_isSome (o : OutputRecord) (target : Level) :
    ((o.normalIssue target).or o.runtime.issued).isSome = true := by
  unfold OutputRecord.normalIssue
  cases o.runtime.issued with
  | none => rfl
  | some u => rw [Option.isSome_or]; simp

/-- An output that has followed its source, its new runtime r before the issue (R95, R97, R107). -/
theorem OutputRecord.followed_agrees {r : OutputRuntime} {target : Level} (he : o.config.enabled = true)
    (hs : r.state = .normal) (hf : r.forced = none) (hi : r.issued = o.runtime.issued) (ht : r.target = some target) :
    (({ o with runtime := r } : OutputRecord).withIssue (o.normalIssue target)).Agrees true := by
  refine OutputRecord.agrees_normal ?_ ?_ ?_ ?_ ?_
  · rw [OutputRecord.withIssue_config]; exact he
  · rw [OutputRecord.withIssue_runtime]; exact hs
  · rw [OutputRecord.withIssue_runtime]; exact hf
  · rw [OutputRecord.withIssue_runtime]
    dsimp only
    rw [hi]
    exact o.normalIssue_or_isSome target
  · rw [OutputRecord.withIssue_runtime]
    dsimp only
    rw [ht]
    rfl

/-- An output of an enabled record after a valid reading of its source (R96, R97). -/
theorem OutputRecord.afterReading_agrees (h : o.Lawful) (he : o.config.enabled = true) (v : Half) :
    (o.afterReading v).Agrees true := by
  unfold OutputRecord.afterReading
  cases hs : o.runtime.state with
  | off => exact absurd hs (h.state_ne_off he)
  | forced =>
    obtain ⟨-, -, hforced, -⟩ := h
    exact OutputRecord.agrees_forced
      (o := { o with runtime := { o.runtime with target := some (curve o.config.points v) } }) he hs (hforced.mpr hs) true
  | normal => exact OutputRecord.followed_agrees he rfl (h.forced_none (by simp [hs])) rfl rfl
  | fallback => exact OutputRecord.followed_agrees he rfl (h.forced_none (by simp [hs])) rfl rfl

/-- An issue, and a new refresh_count, in a state other than OFF (R93, R100). -/
theorem OutputRecord.Agrees.issued (h : o.Agrees valid) (hs : o.runtime.state ≠ .off) (count : Half) (w : Option Level) :
    (({ o with runtime := { o.runtime with refreshCount := count } } : OutputRecord).withIssue w).Agrees valid := by
  obtain ⟨⟨hoff, -, hforced, hnormal⟩, hvalid, hinvalid⟩ := h
  cases w with
  | none => exact ⟨⟨hoff, fun h => absurd h hs, hforced, hnormal⟩, hvalid, hinvalid⟩
  | some w =>
    refine ⟨⟨hoff, fun h => absurd h hs, hforced, fun h => ⟨rfl, ?_⟩⟩, hvalid, hinvalid⟩
    obtain ⟨-, htarget⟩ := hnormal h
    exact htarget

theorem OutputRecord.Agrees.tick (h : o.Agrees valid) : o.tick.Agrees valid := by
  unfold OutputRecord.tick
  split
  · next hr =>
    obtain ⟨hs, -⟩ := o.refreshes_iff.mp hr
    exact h.issued hs _ none
  · exact h

/-- What a reset leaves in an output (R98, R117). -/
theorem OutputConfig.resetRuntime_agrees (c : OutputConfig) :
    ({ config := c, runtime := c.resetRuntime } : OutputRecord).Agrees false := by
  unfold OutputConfig.resetRuntime
  split
  · next he => exact OutputRecord.agrees_fallback he rfl rfl
  · next he => exact OutputRecord.agrees_off (Bool.eq_false_of_not_eq_true he) false

end

end Sys2Proof.Machine
end

section
/-! SUPPORT. Supervision over every step: the operations on channels, outputs and the setpoint set (chapters 4 and 5). -/

namespace Sys2Proof.Machine

/-! ## The setpoint set (R109 to R112) -/

namespace State.SetpointsLawful

variable {s t : State}

/-- The set's laws look at the set and the outputs' configurations. -/
theorem congr (h : s.SetpointsLawful) (hset : t.setpoints = s.setpoints)
    (hconfig : ∀ i, (t.output i).config = (s.output i).config) : t.SetpointsLawful := by
  obtain ⟨hdistinct, hitems⟩ := h
  refine ⟨hset ▸ hdistinct, fun it hit => ?_⟩
  rw [hconfig]
  exact hitems it (hset ▸ hit)

theorem sublist (h : s.SetpointsLawful) {l : List SetpointItem} (hl : l.Sublist s.setpoints) :
    ({ s with setpoints := l } : State).SetpointsLawful := by
  obtain ⟨hdistinct, hitems⟩ := h
  exact ⟨hdistinct.sublist hl, fun it hit => hitems it (hl.subset hit)⟩

/-- A configuration changed where no item is for its output. -/
theorem of_free (h : s.SetpointsLawful) {i : OutIdx} (hfree : ∀ it ∈ s.setpoints, it.output ≠ i)
    (hset : t.setpoints = s.setpoints) (hconfig : ∀ j, j ≠ i → (t.output j).config = (s.output j).config) :
    t.SetpointsLawful := by
  obtain ⟨hdistinct, hitems⟩ := h
  refine ⟨hset ▸ hdistinct, fun it hit => ?_⟩
  rw [hset] at hit
  rw [hconfig it.output (hfree it hit)]
  exact hitems it hit

/-- No item is for a disabled output (R106, R109). -/
theorem free_of_disabled (h : s.SetpointsLawful) {i : OutIdx} (hi : (s.output i).config.enabled = false) :
    ∀ it ∈ s.setpoints, it.output ≠ i := by
  rintro it hit rfl
  obtain ⟨-, hitems⟩ := h
  obtain ⟨he, -⟩ := hitems it hit
  rw [hi] at he
  cases he

/-- What an enabled output issues, if anything, keeps the set lawful (R109, R110). -/
theorem withItem (h : s.SetpointsLawful) {i : OutIdx} (he : (s.output i).config.enabled = true) (w : Option Level) :
    ({ s with setpoints := s.withItem i w } : State).SetpointsLawful := by
  cases w with
  | none => exact h
  | some w =>
    obtain ⟨hdistinct, hitems⟩ := h
    simp only [State.withItem, placeItem]
    split
    · have houtputs := map_updateFirst (fun x : SetpointItem => decide (x.output = i)) (fun x => { x with value := w })
        SetpointItem.output (fun _ _ => rfl) s.setpoints
      refine ⟨?_, fun it hit => ?_⟩
      · rw [← List.pairwise_map (f := SetpointItem.output) (R := fun x y => x ≠ y)] at hdistinct ⊢
        exact houtputs ▸ hdistinct
      · rcases mem_updateFirst hit with hit | ⟨y, hy, -, rfl⟩
        · exact hitems it hit
        · exact hitems y hy
    · next hnone =>
      refine ⟨List.pairwise_append.mpr ⟨hdistinct, List.pairwise_singleton _ _, fun x hx y hy => ?_⟩, fun it hit => ?_⟩
      · rw [List.mem_singleton.mp hy]
        exact fun hxi => hnone (List.any_eq_true.mpr ⟨x, hx, decide_eq_true hxi⟩)
      · rcases List.mem_append.mp hit with hit | hit
        · exact hitems it hit
        · rw [List.mem_singleton.mp hit]
          exact ⟨he, rfl, rfl⟩

/-- What the enabled outputs of a list issue, one after another, keeps the set lawful. -/
theorem withItems (h : s.SetpointsLawful) (issue : OutputRecord → Option Level) {l : List OutIdx}
    (he : ∀ i ∈ l, (s.output i).config.enabled = true) :
    ({ s with setpoints := s.withItems issue l } : State).SetpointsLawful :=
  foldl_invariant (fun set => ({ s with setpoints := set } : State).SetpointsLawful) _ l
    (fun set i hi hs => withItem (s := { s with setpoints := set }) hs (he i hi) _) s.setpoints h

end State.SetpointsLawful

/-! ## The laws between commands -/

/-- The laws of channels, outputs and the setpoint set (R63, R64, R91, R92, R109). -/
structure State.Supervised (s : State) : Prop where
  channels : s.ChannelsLawful
  output : ∀ i, (s.output i).Agrees (s.sourceValid i)
  setpoints : s.SetpointsLawful

theorem State.supervised_iff (s : State) :
    s.Supervised ↔ s.ChannelsLawful ∧ s.OutputsLawful ∧ s.SetpointsLawful := by
  constructor
  · rintro ⟨hchannels, houtput, hset⟩
    exact ⟨hchannels, fun i => ⟨(houtput i).lawful, (houtput i).normal, (houtput i).fallback⟩, hset⟩
  · rintro ⟨hchannels, houtput, hset⟩
    refine ⟨hchannels, fun i => ?_, hset⟩
    obtain ⟨hlawful, hnormal, hfallback⟩ := houtput i
    exact ⟨hlawful, hnormal, hfallback⟩

/-- The laws, but for one output, which an operation is about to write. -/
structure State.SupervisedBut (i : OutIdx) (s : State) : Prop where
  channels : s.ChannelsLawful
  other : ∀ j, j ≠ i → (s.output j).Agrees (s.sourceValid j)
  setpoints : s.SetpointsLawful

theorem State.OutputsOnly.sourceValid_eq {s t : State} (h : s.OutputsOnly t) (i : OutIdx) :
    t.sourceValid i = s.sourceValid i := by
  have hchannel := h.channel_eq
  obtain ⟨-, hconfig⟩ := h
  simp only [State.sourceValid, hchannel, hconfig]

/-- An enabled output follows the slot it names. -/
theorem OutputRecord.follows_iff (o : OutputRecord) (k : Slot) :
    o.follows k = true ↔ o.config.enabled = true ∧ o.config.source = k := by
  simp [OutputRecord.follows]

namespace State.Supervised

variable {s t u : State} {k : Slot} {i : OutIdx}

theorem congr (h : s.Supervised) (hbindings : t.bindings = s.bindings) (hchannels : t.channels = s.channels)
    (houtputs : t.outputs = s.outputs) (hset : t.setpoints = s.setpoints) : t.Supervised := by
  have hchannel : ∀ k, t.channel k = s.channel k := fun k => by simp only [State.channel, hchannels]
  have houtput : ∀ i, t.output i = s.output i := fun i => by simp only [State.output, houtputs]
  have hsource : ∀ i, t.sourceValid i = s.sourceValid i := fun i => by
    simp only [State.sourceValid, hchannel, houtput]
  refine ⟨fun k => ?_, fun i => ?_, h.setpoints.congr hset fun i => by rw [houtput]⟩
  · rw [hchannel, hbindings]
    exact h.channels k
  · rw [houtput, hsource]
    exact h.output i

/-! ### Channels -/

/-- Channels rewritten, each with a valid value exactly where it had one. -/
theorem sameValidity (h : s.Supervised) (hbindings : t.bindings = s.bindings) (houtputs : t.outputs = s.outputs)
    (hset : t.setpoints = s.setpoints) (hlawful : ∀ k, (t.channel k).Lawful)
    (hvalid : ∀ k, (t.channel k).runtime.state.isValid = (s.channel k).runtime.state.isValid) : t.Supervised := by
  have houtput : ∀ i, t.output i = s.output i := fun i => by simp only [State.output, houtputs]
  have hsource : ∀ i, t.sourceValid i = s.sourceValid i := fun i => by
    simp only [State.sourceValid, hvalid, houtput]
  refine ⟨fun k => ⟨hlawful k, fun hv => ?_⟩, fun i => ?_, h.setpoints.congr hset fun i => by rw [houtput]⟩
  · obtain ⟨-, hbound⟩ := h.channels k
    rw [hbindings]
    exact hbound ((hvalid k).symm.trans hv)
  · rw [houtput, hsource]
    exact h.output i

/-- One channel rewritten, with a valid value exactly if it had one. -/
theorem setChannel (h : s.Supervised) {c : ChannelRecord} (hc : c.Lawful)
    (hvalid : c.runtime.state.isValid = (s.channel k).runtime.state.isValid) : (s.setChannel k c).Supervised := by
  refine h.sameValidity (s.setChannel_bindings k c) (s.setChannel_outputs k c) (s.setChannel_setpoints k c)
    (fun j => ?_) fun j => ?_
  · rw [State.channel_setChannel]
    split
    · exact hc
    · obtain ⟨hlawful, -⟩ := h.channels j
      exact hlawful
  · rw [State.channel_setChannel]
    split
    · next hj => rw [← hj]; exact hvalid
    · rfl

/-- A channel left without a valid value, and the outputs that named it handed over (R84): from the state u, in which the
channel at k has been written. -/
theorem handOver (h : s.Supervised)
    (hu : u = { s with bindings := u.bindings, channels := u.channels, log := u.log })
    (hother : ∀ j, j ≠ k → u.channel j = s.channel j) (hself : (u.channel k).Lawful)
    (hinvalid : (u.channel k).runtime.state.isValid = false)
    (hbound : ∀ b ∈ s.bindings, b.slot ≠ k → b ∈ u.bindings) :
    (u.handOverFrom k (s.channel k).runtime.state).Supervised := by
  have houtputs : ∀ i, u.output i = s.output i := fun i => by rw [hu]; rfl
  have hframe := u.handOverFrom_outputsOnly k (s.channel k).runtime.state
  obtain ⟨-, hconfig⟩ := u.handOverFrom_outputsOnly k (s.channel k).runtime.state
  obtain ⟨hset, -⟩ := s.handOverFrom_sets u k houtputs (by rw [hu]) (by rw [hu])
  rw [show u.setpoints = s.setpoints by rw [hu]] at hset
  have houtput := u.output_handOverFrom k (s.channel k).runtime.state
  simp only [houtputs] at houtput hconfig
  have hsource : ∀ i, (u.handOverFrom k (s.channel k).runtime.state).sourceValid i =
      (u.channel (s.output i).config.source).runtime.state.isValid := fun i => by
    rw [hframe.sourceValid_eq, State.sourceValid, houtputs]
  refine ⟨fun j => ?_, fun i => ?_, ?_⟩
  · rw [hframe.channel_eq, hframe.bindings_eq]
    by_cases hj : j = k
    · subst hj
      exact ⟨hself, fun hv => by rw [hinvalid] at hv; cases hv⟩
    · obtain ⟨hlawful, hb⟩ := h.channels j
      rw [hother j hj]
      refine ⟨hlawful, fun hv => ?_⟩
      obtain ⟨b, hb, hslot⟩ := hb hv
      exact ⟨b, hbound b hb (hslot ▸ hj), hslot⟩
  · rw [houtput i, hsource]
    have hi := h.output i
    by_cases hk : (s.output i).config.source = k
    · rw [hk, hinvalid]
      split
      · next hcond =>
        obtain ⟨-, -, hstate⟩ := hcond
        exact OutputRecord.fellBack_agrees (hi.lawful.enabled (by simp [hstate]))
      · next hcond =>
        refine ⟨hi.lawful, fun hstate => absurd ⟨?_, ?_, hstate⟩ hcond, fun _ => rfl⟩
        · have hv := hi.normal hstate
          rwa [State.sourceValid, hk] at hv
        · exact (OutputRecord.follows_iff _ k).mpr ⟨hi.lawful.enabled (by simp [hstate]), hk⟩
    · rw [if_neg fun ⟨_, hfollows, _⟩ => hk ((OutputRecord.follows_iff _ k).mp hfollows).2, hother _ hk]
      exact hi
  · refine (h.setpoints.withItems OutputRecord.entryIssue (l := s.handedOver k) fun i hi => ?_).congr hset hconfig
    obtain ⟨-, hmem⟩ := List.mem_filter.mp hi
    obtain ⟨-, hfollows, -⟩ := of_decide_eq_true hmem
    obtain ⟨he, -⟩ := (OutputRecord.follows_iff _ k).mp hfollows
    exact he

/-- A bound channel that holds a valid value, and the outputs that name it acting on the reading (R96, R97): from the state
u, in which the channel at k has been written. -/
theorem outputReading (h : s.Supervised) (hu : u = { s with channels := u.channels, log := u.log })
    (hother : ∀ j, j ≠ k → u.channel j = s.channel j) (hself : (u.channel k).Measured)
    (hbound : ∃ b ∈ s.bindings, b.slot = k) (v : Half) : (u.outputReading k v).Supervised := by
  have houtputs : ∀ i, u.output i = s.output i := fun i => by rw [hu]; rfl
  have hbindings : u.bindings = s.bindings := by rw [hu]
  have hframe := u.outputReading_outputsOnly k v
  obtain ⟨-, hconfig⟩ := u.outputReading_outputsOnly k v
  obtain ⟨houtput, hset, -⟩ := u.outputReading_sets k v
  simp only [houtputs] at houtput hconfig
  have hsource : ∀ i, (u.outputReading k v).sourceValid i =
      (u.channel (s.output i).config.source).runtime.state.isValid := fun i => by
    rw [hframe.sourceValid_eq, State.sourceValid, houtputs]
  refine ⟨fun j => ?_, fun i => ?_, ?_⟩
  · rw [hframe.channel_eq, hframe.bindings_eq, hbindings]
    by_cases hj : j = k
    · subst hj
      exact ⟨hself.lawful, fun _ => hbound⟩
    · rw [hother j hj]
      exact h.channels j
  · rw [houtput i, hsource]
    have hi := h.output i
    by_cases hk : (s.output i).config.source = k
    · rw [hk, hself.valid]
      by_cases he : (s.output i).config.enabled = true
      · rw [if_pos ((OutputRecord.follows_iff _ k).mpr ⟨he, hk⟩)]
        exact OutputRecord.afterReading_agrees hi.lawful he v
      · rw [if_neg fun hf => he ((OutputRecord.follows_iff _ k).mp hf).1]
        exact ⟨hi.lawful, fun _ => rfl, fun hstate => absurd (hi.lawful.enabled (by simp [hstate])) he⟩
    · rw [if_neg fun hf => hk ((OutputRecord.follows_iff _ k).mp hf).2, hother _ hk]
      exact hi
  · have hsetpoints : u.SetpointsLawful := h.setpoints.congr (by rw [hu]) fun i => by rw [houtputs]
    refine (hsetpoints.withItems (OutputRecord.readingIssue v) fun i hi => ?_).congr hset fun i => by
      rw [hconfig, ← houtputs]
      rfl
    obtain ⟨-, hfollows⟩ := List.mem_filter.mp hi
    obtain ⟨he, -⟩ := (OutputRecord.follows_iff _ k).mp hfollows
    exact he

theorem takeReading (h : s.Supervised) (he : (s.channel k).config.enabled = true)
    (hc : (s.channel k).config.valid = true) (hbound : ∃ b ∈ s.bindings, b.slot = k) (d : Half × Quality) :
    (s.takeReading k d).Supervised := by
  obtain ⟨hlawful, -⟩ := h.channels k
  obtain ⟨log, x, heq, hx⟩ := State.validReading_measured hlawful he hc d.1 d.2
  rw [State.takeReading, heq]
  refine h.outputReading rfl (fun j hj => ?_) ?_ hbound d.1
  · exact (s.channel_setRuntime k j x.1).trans (if_neg hj.symm)
  · exact (s.channel_setRuntime_self k x.1).symm ▸ hx

theorem badReading (h : s.Supervised) (he : (s.channel k).config.enabled = true) : (s.badReading k).Supervised := by
  obtain ⟨hlawful, -⟩ := h.channels k
  obtain ⟨r, hr⟩ : ∃ r, r = (s.channel k).runtime.refreshed s.time.counter .bad := ⟨_, rfl⟩
  have hstate : (s.channel k).runtime.state = r.state := by rw [hr]; rfl
  have hcounted : ∀ n, ({ config := (s.channel k).config, runtime := { r with badCount := n } } : ChannelRecord).Lawful :=
    fun n => by rw [hr]; exact hlawful
  obtain ⟨hfault, hcounts⟩ := State.badReading_eq (k := k) hr rfl
  by_cases hs : r.state = .fault
  · rw [hfault hs]
    exact h.setChannel (hcounted r.badCount) (by rw [hstate])
  · obtain ⟨hcount, henter⟩ := hcounts (by
      have hoff : r.state ≠ .off := hstate ▸ hlawful.state_ne_off he
      cases hst : r.state <;> simp_all)
    by_cases hle : (s.channel k).config.badLimit ≤ satInc r.badCount
    · rw [henter hle, ← hstate]
      refine h.handOver rfl (fun j hj => ?_) ?_ ?_ fun b hb _ => hb
      · exact (s.channel_setRuntime k j _).trans (if_neg hj.symm)
      · exact (s.channel_setRuntime_self k _).symm ▸ ChannelRecord.faulted_lawful he _
      · exact congrArg (fun c => c.runtime.state.isValid) (s.channel_setRuntime_self k _)
    · rw [hcount (BitVec.not_le.mp hle)]
      exact h.setChannel (hcounted (satInc r.badCount)) (by rw [hstate])

theorem enterStale (h : s.Supervised) (he : (s.channel k).config.enabled = true) {cause : StaleCause}
    (hcause : cause ≠ .none) : (s.enterStale k cause).Supervised := by
  refine h.handOver rfl (fun j hj => ?_) ?_ ?_ fun b hb _ => hb
  · exact (s.channel_setRuntime k j _).trans (if_neg hj.symm)
  · exact (s.channel_setRuntime_self k _).symm ▸ ChannelRecord.staled_lawful he _ hcause
  · exact congrArg (fun c => c.runtime.state.isValid) (s.channel_setRuntime_self k _)

theorem nodeStaleOne (h : s.Supervised) (k : Slot) : (s.nodeStaleOne k).Supervised := by
  unfold State.nodeStaleOne
  dsimp only
  split
  · next hc => exact h.enterStale hc.1 (by decide)
  · exact h

theorem silenceNode (h : s.Supervised) (a : Addr) : (s.silenceNode a).Supervised := by
  rw [State.silenceNode_eq]
  exact foldl_invariant State.Supervised _ _ (fun _ k _ hs => hs.nodeStaleOne k) _ (h.congr rfl rfl rfl rfl)

/-- A channel's binding entered or removed and the channel cleared (R41, R43). -/
theorem rebind (h : s.Supervised) {bindings : List Binding} (hb : ∀ b ∈ s.bindings, b.slot ≠ k → b ∈ bindings) :
    (State.clearChannel { s with bindings := bindings } k).Supervised := by
  refine h.handOver rfl (fun j hj => ?_) ?_ ?_ hb
  · exact (State.channel_setRuntime _ k j _).trans (if_neg hj.symm)
  · exact (State.channel_setRuntime_self _ k _).symm ▸ ChannelRecord.cleared_lawful _
  · exact (congrArg (fun c => c.runtime.state.isValid) (State.channel_setRuntime_self _ k _)).trans
      (ChannelRuntime.clear_invalid _)

theorem rewriteChannel (h : s.Supervised) (k : Slot) (c : ChannelConfig) : (s.rewriteChannel k c).Supervised := by
  obtain ⟨hlawful, -⟩ := h.channels k
  by_cases hc : (s.channel k).config.enabled = true ∧ c.enabled = true
  · obtain ⟨hold, hnew⟩ := hc
    rw [State.rewriteChannel_enabled hold hnew]
    obtain ⟨hoff, hvalid, hcause, -⟩ := hlawful
    refine h.setChannel (ChannelRecord.lawful_clearRuns (r := { (s.channel k).runtime with
      acked := ((s.channel k).runtime.rewritten (s.channel k).config.mode c.mode).acked }) ?_ hvalid hcause) rfl
    rw [hnew, ← hold]
    exact hoff
  · have hdisabled : (s.channel k).config.enabled = false ∨ c.enabled = false := by
      rw [← Bool.not_eq_true, ← Bool.not_eq_true]
      exact not_and_or.mp hc
    rw [State.rewriteChannel_cleared hdisabled]
    refine h.handOver rfl (fun j hj => ?_) ?_ ?_ fun b hb _ => hb
    · exact (s.channel_setChannel k j _).trans (if_neg hj.symm)
    · exact (s.channel_setChannel_self k _).symm ▸ ChannelRecord.cleared_lawful c
    · rw [State.channel_setChannel_self]
      exact ChannelRuntime.clear_invalid _

theorem acknowledgeBand (h : s.Supervised) (hl : (s.channel k).latched = true) : (s.acknowledgeBand k).Supervised := by
  obtain ⟨hlawful, -⟩ := h.channels k
  obtain ⟨he, hst, -⟩ := (s.channel k).latched_iff.mp hl
  have hvalid : (s.channel k).runtime.state.isValid = true := by
    rcases List.mem_pair.mp hst with hst | hst <;> rw [hst] <;> rfl
  obtain ⟨-, hvalue, hcause⟩ := hlawful.of_valid hvalid
  unfold State.acknowledgeBand
  dsimp only
  split
  · have hreturned := ChannelRecord.measured_clearRuns (r := { (s.channel k).runtime with state := .inBand }) he rfl hvalue
      hcause
    exact (h.setChannel (k := k) hreturned.lawful (hreturned.valid.trans hvalid.symm)).congr rfl rfl rfl rfl
  · exact h.setChannel hlawful rfl

/-! ### Outputs -/

theorem but (h : s.Supervised) (i : OutIdx) : s.SupervisedBut i :=
  ⟨h.channels, fun j _ => h.output j, h.setpoints⟩

theorem dropItem (h : s.Supervised) (i : OutIdx) : (s.dropItem i).Supervised :=
  ⟨h.channels, h.output, h.setpoints.sublist List.filter_sublist⟩

end State.Supervised

/-- Writing one output leaves the sources of the others as they were. -/
theorem State.sourceValid_setOutput_ne (s : State) {i j : OutIdx} (o : OutputRecord) (h : j ≠ i) :
    (s.setOutput i o).sourceValid j = s.sourceValid j := by
  have hj : (s.setOutput i o).output j = s.output j := (s.output_setOutput i j o).trans (if_neg h.symm)
  simp only [State.sourceValid, hj]
  rfl

theorem State.sourceValid_setOutput_self (s : State) {i : OutIdx} {o : OutputRecord}
    (h : o.config.source = (s.output i).config.source) : (s.setOutput i o).sourceValid i = s.sourceValid i := by
  simp only [State.sourceValid, State.output_setOutput_self, h]
  rfl

namespace State.SupervisedBut

variable {s : State} {i : OutIdx}

theorem supervised (h : s.SupervisedBut i) (hi : (s.output i).Agrees (s.sourceValid i)) : s.Supervised := by
  refine ⟨h.channels, fun j => ?_, h.setpoints⟩
  by_cases hj : j = i
  · rw [hj]; exact hi
  · exact h.other j hj

/-- The output written, and with it the set and the log. -/
theorem setOutput (h : s.SupervisedBut i) {o : OutputRecord} {set : List SetpointItem} {log : NoticeLog}
    (hset : ({ s.setOutput i o with setpoints := set, log := log } : State).SetpointsLawful) :
    ({ s.setOutput i o with setpoints := set, log := log } : State).SupervisedBut i := by
  refine ⟨h.channels, fun j hj => ?_, hset⟩
  have hj' : (s.setOutput i o).output j = s.output j := (s.output_setOutput i j o).trans (if_neg hj.symm)
  have hv := s.sourceValid_setOutput_ne o hj
  have := h.other j hj
  rw [← hj', ← hv] at this
  exact this

/-- The output's runtime written, with what it issues, its configuration kept. -/
theorem written (h : s.SupervisedBut i) {o : OutputRecord} {w : Option Level} {log : NoticeLog}
    (hconfig : o.config = (s.output i).config) (he : (s.output i).config.enabled = true)
    (ho : o.Agrees (s.sourceValid i)) :
    ({ s.setOutput i o with setpoints := s.withItem i w, log := log } : State).Supervised := by
  have hconfigs : ∀ j, ((s.setOutput i o).output j).config = (s.output j).config := fun j => by
    rw [State.output_setOutput]
    split
    · next hj => rw [← hj]; exact hconfig
    · rfl
  refine (h.setOutput ((h.setpoints.withItem he w).congr rfl hconfigs)).supervised ?_
  have hself := s.output_setOutput_self i o
  have hv := s.sourceValid_setOutput_self (i := i) (o := o) (by rw [hconfig])
  rw [← hself, ← hv] at ho
  exact ho

theorem enterFallback (h : s.SupervisedBut i) (he : (s.output i).config.enabled = true)
    (hv : s.sourceValid i = false) : (s.enterFallback i).Supervised := by
  rw [State.enterFallback_eq]
  exact h.written (OutputRecord.fellBack_config _) he (hv ▸ OutputRecord.fellBack_agrees he)

theorem followSource (h : s.SupervisedBut i) (he : (s.output i).config.enabled = true)
    (hv : s.sourceValid i = true) : (s.followSource i).Supervised := by
  rw [State.followSource_eq]
  exact h.written (OutputRecord.withIssue_config _ _) he (hv ▸ OutputRecord.followed_agrees he rfl rfl rfl rfl)

theorem normalCompute (h : s.SupervisedBut i) (ho : (s.output i).Lawful) (hs : (s.output i).runtime.state = .normal)
    (hv : s.sourceValid i = true) (v : Half) : (s.normalCompute i v).Supervised := by
  have he := ho.enabled (by simp [hs])
  rw [State.normalCompute_setOutput]
  exact h.written (OutputRecord.withIssue_config _ _) he
    (hv ▸ OutputRecord.followed_agrees he hs (ho.forced_none (by simp [hs])) rfl rfl)

theorem exitFallback (h : s.SupervisedBut i) (ho : (s.output i).Lawful) (hs : (s.output i).runtime.state = .fallback)
    (hv : s.sourceValid i = true) (v : Half) : (s.exitFallback i v).Supervised := by
  have he := ho.enabled (by simp [hs])
  rw [State.exitFallback_eq]
  exact h.written (OutputRecord.withIssue_config _ _) he
    (hv ▸ OutputRecord.followed_agrees he rfl (ho.forced_none (by simp [hs])) rfl rfl)

/-- The entry action of an output already in FALLBACK (R107). -/
theorem entryAction (h : s.SupervisedBut i) (ho : (s.output i).Agrees (s.sourceValid i))
    (hs : (s.output i).runtime.state = .fallback) : (s.entryAction i).Supervised := by
  rw [State.entryAction_eq, State.issued_eq]
  exact h.written (OutputRecord.withIssue_config _ _) (ho.lawful.enabled (by simp [hs]))
    (ho.issued (by simp [hs]) (s.output i).runtime.refreshCount _)

theorem judgeAfresh (h : s.SupervisedBut i) (he : (s.output i).config.enabled = true) : (s.judgeAfresh i).Supervised := by
  unfold State.judgeAfresh
  split
  · next hv => exact h.followSource he hv
  · next hv => exact h.enterFallback he (Bool.eq_false_of_not_eq_true hv)

/-- WRITE_OUTPUT with the target pair kept (R107). -/
theorem rewriteSameTarget (h : s.SupervisedBut i) (ho : (s.output i).Lawful)
    (he : (s.output i).config.enabled = true) : (s.rewriteSameTarget i).Supervised := by
  unfold State.rewriteSameTarget
  split
  · next hs => exact h.supervised ⟨ho, by simp [hs], by simp [hs]⟩
  · next hs => exact absurd hs (ho.state_ne_off he)
  · next hs =>
    split
    · next hv => exact h.normalCompute ho hs hv _
    · next hv => exact h.enterFallback he (Bool.eq_false_of_not_eq_true hv)
  · next hs =>
    split
    · next hv => exact h.exitFallback ho hs hv _
    · next hv =>
      have hv' := Bool.eq_false_of_not_eq_true hv
      exact h.entryAction ⟨ho, by simp [hs], fun _ => hv'⟩ hs

/-- WRITE_OUTPUT with the target pair changed, the pending item discarded (R107, R111). -/
theorem rewriteNewTarget (h : (s.dropItem i).SupervisedBut i) (he : (s.output i).config.enabled = true) :
    (s.rewriteNewTarget i).Supervised := by
  obtain ⟨r, hr⟩ : ∃ r, r = { (s.output i).runtime with issued := none, forced := none } := ⟨_, rfl⟩
  have hself : ((s.dropItem i).setOutputRuntime i r).output i = { config := (s.output i).config, runtime := r } :=
    (s.dropItem i).output_setOutputRuntime_self i r
  have hwritten : ((s.dropItem i).setOutputRuntime i r).SupervisedBut i :=
    h.setOutput (h.setpoints.congr rfl ((s.dropItem i).setOutputRuntime_outputsOnly i r).2)
  have he' : (((s.dropItem i).setOutputRuntime i r).output i).config.enabled = true := by rw [hself]; exact he
  have hnew : s.rewriteNewTarget i =
      if ((s.dropItem i).setOutputRuntime i r).sourceValid i then ((s.dropItem i).setOutputRuntime i r).followSource i
      else if (s.output i).runtime.state = .fallback then ((s.dropItem i).setOutputRuntime i r).entryAction i
      else ((s.dropItem i).setOutputRuntime i r).enterFallback i := by
    rw [hr]; rfl
  rw [hnew]
  split
  · next hv => exact hwritten.followSource he' hv
  · next hv =>
    have hv' := Bool.eq_false_of_not_eq_true hv
    split
    · next hs =>
      have hs' : (((s.dropItem i).setOutputRuntime i r).output i).runtime.state = .fallback := by rw [hself, hr]; exact hs
      have hforced : (((s.dropItem i).setOutputRuntime i r).output i).runtime.forced = none := by rw [hself, hr]
      exact hwritten.entryAction (hv' ▸ OutputRecord.agrees_fallback he' hs' hforced) hs'
    · exact hwritten.enterFallback he' hv'

end State.SupervisedBut

namespace State.Supervised

variable {s : State} {i : OutIdx}

theorem force (h : s.Supervised) (he : (s.output i).config.enabled = true) (w : Level) : (s.force i w).Supervised := by
  have heq := s.setOutput_issued i { s.output i with
    runtime := { (s.output i).runtime with state := .forced, forced := some w } } (some w) rfl rfl
  change s.force i w = _ at heq
  rw [heq]
  exact (h.but i).written rfl he (OutputRecord.agrees_forced (o := { s.output i with
    runtime := { (s.output i).runtime with state := .forced, issued := some w, forced := some w } }) he rfl rfl _)

/-- A release judges an output in FORCED afresh (R104). -/
theorem release (h : s.Supervised) (hs : (s.output i).runtime.state = .forced) : (s.judgeAfresh i).Supervised :=
  (h.but i).judgeAfresh ((h.output i).lawful.enabled (by simp [hs]))

theorem refreshOutput (h : s.Supervised) (he : (s.output i).config.enabled = true) : (s.refreshOutput i).Supervised := by
  rw [State.refreshOutput_eq]
  exact (h.but i).written (OutputRecord.withIssue_config _ _) he
    ((h.output i).issued ((h.output i).lawful.state_ne_off he) 0 _)

theorem rewriteOutput (h : s.Supervised) (i : OutIdx) (c : OutputConfig) : (s.rewriteOutput i c).Supervised := by
  have hother : ∀ o j, j ≠ i → ((s.setOutput i o).output j).config = (s.output j).config := fun o j hj => by
    rw [State.output_setOutput, if_neg hj.symm]
  have hdropped : ∀ it ∈ (s.dropItem i).setpoints, it.output ≠ i := fun it hit => by
    simpa using List.of_mem_filter hit
  have hdrop : ∀ o, ((s.dropItem i).setOutput i o).SupervisedBut i := fun o =>
    ((h.dropItem i).but i).setOutput ((h.dropItem i).setpoints.of_free hdropped rfl (hother o))
  unfold State.rewriteOutput
  dsimp only
  split
  · next hc =>
    refine (hdrop _).supervised ?_
    rw [State.output_setOutput_self]
    exact OutputRecord.agrees_off (Bool.eq_false_of_not_eq_true hc) _
  · next hc =>
    have hc' : c.enabled = true := not_not.mp hc
    have hnew : ∀ r, ((s.setOutput i { config := c, runtime := r }).output i).config.enabled = true := fun r => by
      rw [State.output_setOutput_self]; exact hc'
    split
    · next he =>
      have hfree := h.setpoints.free_of_disabled (Bool.eq_false_of_not_eq_true he)
      exact SupervisedBut.judgeAfresh ((h.but i).setOutput (h.setpoints.of_free hfree rfl (hother _))) (hnew _)
    · next he =>
      have he' : (s.output i).config.enabled = true := not_not.mp he
      split
      · next hsame =>
        obtain ⟨hnode, hindex⟩ := hsame
        have hset : (s.setOutput i { config := c, runtime := (s.output i).runtime }).SetpointsLawful := by
          obtain ⟨hdistinct, hitems⟩ := h.setpoints
          refine ⟨hdistinct, fun it hit => ?_⟩
          rw [State.output_setOutput]
          split
          · next hi =>
            subst hi
            obtain ⟨-, hitem⟩ := hitems it hit
            rw [← hnode, ← hindex] at hitem
            exact ⟨hc', hitem⟩
          · exact hitems it hit
        refine SupervisedBut.rewriteSameTarget ((h.but i).setOutput hset) ?_ (hnew _)
        obtain ⟨hoff, hrest⟩ := (h.output i).lawful
        rw [State.output_setOutput_self]
        rw [he', ← hc'] at hoff
        exact ⟨hoff, hrest⟩
      · exact SupervisedBut.rewriteNewTarget (hdrop _) (hnew _)

end State.Supervised

end Sys2Proof.Machine
end

section
/-! SUPPORT. Supervision over every step: resets, the open tick event, the sample path, the requests, and every command
(O60). -/

namespace Sys2Proof.Machine

/-! ## Between commands -/

/-- The laws hold, and no tick event is open. -/
structure State.Settled (s : State) : Prop extends s.Supervised where
  due : s.due = .none

/-- The laws hold, and what an open tick event has still to do is due. -/
structure State.SupervisionLawful (s : State) : Prop extends s.Supervised where
  due : s.DueLawful

theorem State.Settled.lawful {s : State} (h : s.Settled) : s.SupervisionLawful :=
  ⟨h.toSupervised, by simp [State.DueLawful, h.due, DueWork.none]⟩

/-- No channel, output, setpoint item or due work differs. -/
structure State.SupervisionKept (s t : State) : Prop where
  bindings : t.bindings = s.bindings
  channels : t.channels = s.channels
  outputs : t.outputs = s.outputs
  setpoints : t.setpoints = s.setpoints
  due : t.due = s.due

theorem State.Settled.kept {s t : State} (h : s.Settled) (hk : s.SupervisionKept t) : t.Settled :=
  ⟨h.congr hk.bindings hk.channels hk.outputs hk.setpoints, hk.due.trans h.due⟩

/-! ## What leaves supervision as it is -/

namespace State.SupervisionKept

variable {s t u : State}

theorem refl (s : State) : s.SupervisionKept s :=
  ⟨rfl, rfl, rfl, rfl, rfl⟩

theorem trans (h : s.SupervisionKept t) (h' : t.SupervisionKept u) : s.SupervisionKept u :=
  ⟨h'.bindings.trans h.bindings, h'.channels.trans h.channels, h'.outputs.trans h.outputs,
    h'.setpoints.trans h.setpoints, h'.due.trans h.due⟩

theorem setPort (s : State) (p : Port) (r : PortRecord) : s.SupervisionKept (s.setPort p r) :=
  ⟨s.setPort_bindings p r, s.setPort_channels p r, s.setPort_outputs p r, s.setPort_setpoints p r, s.setPort_due p r⟩

theorem count (s : State) (p : Port) (n : StatName) : s.SupervisionKept (s.count p n) :=
  setPort s p _

theorem offerForward (s : State) (p : Port) (l : List Byte) : s.SupervisionKept (s.offerForward p l) := by
  unfold State.offerForward
  dsimp only
  split
  · exact setPort s _ _
  · exact count s p _

theorem setNode (s : State) (a : Addr) (r : NodeRecord) : s.SupervisionKept (s.setNode a r) :=
  ⟨rfl, rfl, rfl, rfl, rfl⟩

theorem raise (s : State) (kind : NoticeKind) (x : Subject) (v : Half) : s.SupervisionKept (s.raise kind x v) :=
  ⟨rfl, rfl, rfl, rfl, rfl⟩

theorem tableWritten (s : State) : s.SupervisionKept s.tableWritten :=
  ⟨rfl, rfl, rfl, rfl, rfl⟩

theorem withAnswer (s : State) (e : RequestEntry) (x : Status) (results : List Byte) :
    s.SupervisionKept (s.withAnswer e x results) :=
  ⟨rfl, rfl, rfl, rfl, rfl⟩

/-! ### Frames -/

theorem acceptFrame (s : State) (a : Addr) (seq : Byte) (j : SeqJudgement) :
    s.SupervisionKept (s.acceptFrame a seq j) := by
  unfold State.acceptFrame
  dsimp only
  split <;> split <;> exact ⟨rfl, rfl, rfl, rfl, rfl⟩

theorem nodeArrival (s : State) (a : Addr) (restart : Bool) (seq : Byte) :
    s.SupervisionKept (s.nodeArrival a restart seq).1 := by
  unfold State.nodeArrival
  dsimp only
  split
  · exact setNode s a _
  · exact setNode s a _
  · exact acceptFrame s a seq .restarted
  · exact acceptFrame s a seq .inOrder
  · exact acceptFrame s a seq (.gap _)

theorem ownershipFilter (s : State) (f : Frame) (items : List FrameItem) :
    s.SupervisionKept (s.ownershipFilter f items) := by
  unfold State.ownershipFilter
  dsimp only
  have hcounted := foldl_keeps State.SupervisionKept .refl (fun _ _ _ => .trans)
    (fun (s : State) (_ : Nat) => s.count .s .rxOwnedStripped) (fun s _ => count s _ _)
    (List.range (items.length - (items.filter fun i => ! s.ownsTarget f.dst i.index).length)) s
  split
  · exact hcounted.trans (offerForward _ _ _)
  · split
    · exact hcounted.trans (count _ _ _)
    · exact hcounted.trans (offerForward _ _ _)

theorem acceptRequest (s : State) (tag seq opcode : Byte) (params : List Byte) :
    s.SupervisionKept (s.acceptRequest tag seq opcode params) := by
  unfold State.acceptRequest
  dsimp only
  split
  · exact count s _ _
  · split <;> exact ⟨rfl, rfl, rfl, rfl, rfl⟩

theorem frameStart (s : State) (p : Port) : s.SupervisionKept (State.frameStart p s) := by
  unfold State.frameStart
  dsimp only
  split
  · exact refl s
  · split
    · exact (count s p _).trans (setPort _ p _)
    · exact setPort s p _

theorem byteArrival (s : State) (p : Port) (b : Byte) : s.SupervisionKept (State.byteArrival p b s) := by
  unfold State.byteArrival
  split
  · exact refl s
  · split
    · exact refl s
    · split
      · exact (setPort s p _).trans (count _ p _)
      · exact setPort s p _

theorem returnOfSignal (s : State) (p : Port) : s.SupervisionKept (State.returnOfSignal p s) := by
  unfold State.returnOfSignal
  split
  · exact refl s
  · exact setPort s p _

/-! ### Transmissions, ticks, the Image Store -/

theorem startForwarded (s : State) (p : Port) : s.SupervisionKept (s.startForwarded p) := by
  unfold State.startForwarded
  split
  · exact refl s
  · exact (setPort s p _).trans (setPort _ p _)

theorem startS (s : State) : s.SupervisionKept s.startS := by
  unfold State.startS
  split
  · exact refl s
  · split
    · exact refl s
    · exact (startForwarded s .s).trans ⟨rfl, rfl, rfl, rfl, rfl⟩
    · unfold State.startResponse
      split
      · exact refl s
      · exact ⟨rfl, rfl, rfl, rfl, rfl⟩
    · exact ⟨rfl, rfl, rfl, rfl, rfl⟩
    · exact refl s

theorem tick (s : State) : s.SupervisionKept s.tick := by
  unfold State.tick
  split
  · exact refl s
  · exact ⟨rfl, rfl, rfl, rfl, rfl⟩

theorem endErasure (s : State) : s.SupervisionKept s.endErasure := by
  unfold State.endErasure
  split
  · exact refl s
  · split
    · exact ⟨rfl, rfl, rfl, rfl, rfl⟩
    · exact refl s

theorem endWriting (s : State) (m : MediumResult) : s.SupervisionKept (s.endWriting m) := by
  unfold State.endWriting
  split
  · exact refl s
  · split
    · exact ⟨rfl, rfl, rfl, rfl, rfl⟩
    · exact refl s

theorem endReadBack (s : State) : s.SupervisionKept s.endReadBack := by
  unfold State.endReadBack
  split
  · exact refl s
  · split
    · dsimp only
      split <;> exact ⟨rfl, rfl, rfl, rfl, rfl⟩
    · exact refl s

theorem executeUnknown (s : State) : s.SupervisionKept s.executeUnknown := by
  unfold State.executeUnknown
  split
  · exact refl s
  · split
    · exact refl s
    · exact withAnswer s _ _ _

end State.SupervisionKept

/-! ## Resets (R62, R87, R98, R117) -/

/-- Every block after a reset: no channel holds a valid value, every enabled output is in FALLBACK. -/
theorem State.BlocksReset.settled {t : State} {value : Half} (h : t.BlocksReset value) : t.Settled := by
  have hchannel : ∀ k, t.channel k = .cleared (t.channel k).config := fun k =>
    congrArg (ChannelRecord.mk (t.channel k).config) (h.channel k)
  have hinvalid : ∀ k, (t.channel k).runtime.state.isValid = false := fun k => by
    rw [h.channel k]
    exact ChannelRuntime.clear_invalid _
  have hsource : ∀ i, t.sourceValid i = false := fun i => hinvalid _
  refine ⟨⟨fun k => ⟨?_, fun hv => ?_⟩, fun i => ?_, ?_, fun it hit => ?_⟩, h.due⟩
  · rw [hchannel k]
    exact ChannelRecord.cleared_lawful _
  · rw [hinvalid k] at hv
    cases hv
  · rw [hsource i, show t.output i = { config := (t.output i).config, runtime := (t.output i).config.resetRuntime } from
      congrArg (OutputRecord.mk (t.output i).config) (h.output i)]
    exact OutputConfig.resetRuntime_agrees _
  · rw [h.setpoints]
    exact List.pairwise_map.mpr (allOutputs_nodup.filter _)
  · rw [h.setpoints] at hit
    obtain ⟨i, hi, rfl⟩ := List.mem_map.mp hit
    obtain ⟨-, hon⟩ := List.mem_filter.mp hi
    obtain ⟨he, -⟩ := Bool.and_eq_true_iff.mp hon
    exact ⟨he, rfl, rfl⟩

/-! ## The open tick event (R28, R79, R100, R134) -/

theorem ChannelRecord.enabled_of_staleDue {c : ChannelRecord} (h : c.staleDue = true) : c.config.enabled = true := by
  simp only [ChannelRecord.staleDue, Bool.and_eq_true] at h
  obtain ⟨hcounts, -⟩ := h
  obtain ⟨he, -⟩ := c.countsSilence_iff.mp hcounts
  exact he

theorem OutputRecord.on_of_refreshDue {o : OutputRecord} (h : o.refreshDue = true) : o.runtime.state ≠ .off := by
  simp only [OutputRecord.refreshDue, Bool.and_eq_true] at h
  obtain ⟨hrefreshes, -⟩ := h
  obtain ⟨hs, -⟩ := o.refreshes_iff.mp hrefreshes
  exact hs

namespace State.Supervised

variable {s : State}

theorem settleSilent (h : s.Supervised) : s.settleSilent.Supervised :=
  (foldl_invariant State.Supervised _ _ (fun _ a _ hs => hs.silenceNode a) s h).congr rfl rfl rfl rfl

theorem settleStale (h : s.Supervised) (hdue : ∀ k ∈ s.due.stale, (s.channel k).config.enabled = true) :
    s.settleStale.Supervised := by
  have hfold := foldl_invariant (fun t : State => t.Supervised ∧ s.SupervisionOnly t) State.staleByLimit s.due.stale
    (fun t k hk ht => by
      obtain ⟨ht, hsup⟩ := ht
      have ⟨_, hconfig, _⟩ := hsup
      exact ⟨ht.enterStale (by rw [hconfig]; exact hdue k hk) (by decide),
        hsup.trans (t.enterStale_supervisionOnly k _)⟩)
    s ⟨h, .refl s⟩
  obtain ⟨hstale, -⟩ := hfold
  exact hstale.congr rfl rfl rfl rfl

theorem settleRefresh (h : s.Supervised) (hdue : ∀ i ∈ s.due.refresh, (s.output i).config.enabled = true) :
    s.settleRefresh.Supervised := by
  have hfold := foldl_invariant (fun t : State => t.Supervised ∧ s.OutputsOnly t) State.refreshOutput s.due.refresh
    (fun t i hi ht => by
      obtain ⟨ht, hout⟩ := ht
      have ⟨_, hconfig⟩ := hout
      exact ⟨ht.refreshOutput (by rw [hconfig]; exact hdue i hi), hout.trans (t.refreshOutput_outputsOnly i)⟩)
    s ⟨h, .refl s⟩
  obtain ⟨hrefresh, -⟩ := hfold
  exact hrefresh.congr rfl rfl rfl rfl

theorem settleGoBack (h : s.Supervised) : s.settleGoBack.Supervised := by
  unfold State.settleGoBack
  dsimp only
  split <;> exact h.congr rfl rfl rfl rfl

end State.Supervised

/-- The silent nodes' part of the tick event leaves the rest of what is due (R28). -/
theorem State.settleSilent_due (s : State) : s.settleSilent.due = { s.due with silent := [] } := by
  have hdue := foldl_invariant (fun t : State => t.due = s.due) State.silenceNode s.due.silent
    (fun t a _ ht => (due_of_step State.silenceNode State.silenceNode_due t a).trans ht) s rfl
  exact congrArg (fun d : DueWork => { d with silent := [] }) hdue

theorem State.settleStale_due (s : State) : s.settleStale.due = { s.due with stale := [] } := by
  have hframe := foldl_keeps State.SupervisionOnly .refl (fun _ _ _ => .trans) State.staleByLimit
    (fun s k => s.enterStale_supervisionOnly k _) s.due.stale s
  exact congrArg (fun d : DueWork => { d with stale := [] }) hframe.due_eq

/-- What is due of one owner leaves nothing due of the owners before it. -/
theorem State.DueLawful.order {s : State} (h : s.DueLawful) :
    (s.due.stale ≠ [] ∨ s.due.refresh ≠ [] ∨ s.due.goBack = true → s.due.silent = []) ∧
      (s.due.refresh ≠ [] ∨ s.due.goBack = true → s.due.stale = []) ∧ (s.due.goBack = true → s.due.refresh = []) := by
  obtain ⟨-, -, -, -, -, -, hsilent, hstale, hrefresh⟩ := h
  refine ⟨fun hlater => by_contra fun hne => ?_, fun hlater => by_contra fun hne => ?_,
    fun hback => by_contra fun hne => ?_⟩
  · simp [hsilent hne] at hlater
  · simp [hstale hne] at hlater
  · simp [hrefresh hne] at hback

namespace State.SupervisionLawful

variable {s : State}

/-- The open tick event carried to its end (log 3). -/
theorem settle (h : s.SupervisionLawful) : s.settle.Settled := by
  obtain ⟨-, -, -, hstale, -, hrefresh, -⟩ := h.due
  refine ⟨?_, s.settle_due⟩
  rw [s.settle_parts]
  obtain ⟨-, -, hchannel, houtput⟩ := s.settleSilent_runtimeOnly
  obtain ⟨-, -, -, houtput'⟩ := s.settleSilent.settleStale_runtimeOnly
  refine State.Supervised.settleGoBack ((h.settleSilent.settleStale fun k hk => ?_).settleRefresh fun i hi => ?_)
  · rw [s.settleSilent_due] at hk
    rw [hchannel]
    exact ChannelRecord.enabled_of_staleDue (hstale k hk)
  · rw [s.settleSilent.settleStale_due, s.settleSilent_due] at hi
    rw [houtput', houtput]
    exact (h.output i).lawful.enabled (OutputRecord.on_of_refreshDue (hrefresh i hi))

theorem nextSilent (h : s.SupervisionLawful) : s.nextSilent.SupervisionLawful := by
  unfold State.nextSilent
  split
  · exact h.settle.lawful
  · next a rest hs =>
    obtain ⟨hnodup, hsilent, -, -, -, -, hfirst, -, -⟩ := h.due
    rw [hs] at hnodup hsilent hfirst
    obtain ⟨ha, hrest⟩ := List.nodup_cons.mp hnodup
    obtain ⟨hstale, hrefresh, hback⟩ := hfirst (List.cons_ne_nil a rest)
    refine ⟨(h.silenceNode a).congr rfl rfl rfl rfl, hrest, fun b hb => ?_, ?_⟩
    · have hne : a ≠ b := fun hab => ha (hab ▸ hb)
      have hnode : (s.silenceNode a).node b = s.node b := (s.node_silenceNode a b).trans (s.node_setNode_ne a b _ hne)
      exact (congrArg NodeRecord.silentDue hnode).trans (hsilent b (List.mem_cons_of_mem a hb))
    · simp [hstale, hrefresh, hback]

theorem nextStale (h : s.SupervisionLawful) : s.nextStale.SupervisionLawful := by
  unfold State.nextStale
  split
  · exact h.settle.lawful
  · next k rest hs =>
    obtain ⟨hnone, -⟩ := h.due.order
    have hsilent := hnone (.inl (by simp [hs]))
    obtain ⟨-, -, hnodup, hstale, -, -, -, hsecond, -⟩ := h.due
    rw [hs] at hnodup hstale hsecond
    obtain ⟨hk, hrest⟩ := List.nodup_cons.mp hnodup
    obtain ⟨hrefresh, hback⟩ := hsecond (List.cons_ne_nil k rest)
    have he := ChannelRecord.enabled_of_staleDue (hstale k List.mem_cons_self)
    refine ⟨(h.enterStale (k := k) he (cause := .channel) (by decide)).congr rfl rfl rfl rfl, ?_, ?_, hrest,
      fun j hj => ?_, ?_⟩
    · simp [hsilent]
    · simp [hsilent]
    · have hne : k ≠ j := fun hkj => hk (hkj ▸ hj)
      have hchannel : (s.enterStale k .channel).channel j = s.channel j :=
        (s.channel_enterStale k .channel j).trans (if_neg hne)
      exact (congrArg ChannelRecord.staleDue hchannel).trans (hstale j (List.mem_cons_of_mem k hj))
    · simp [hsilent, hrefresh, hback]

theorem nextRefresh (h : s.SupervisionLawful) : s.nextRefresh.SupervisionLawful := by
  unfold State.nextRefresh
  split
  · exact h.settle.lawful
  · next i rest hs =>
    obtain ⟨hnosilent, hnostale, -⟩ := h.due.order
    have hsilent := hnosilent (.inr (.inl (by simp [hs])))
    have hstale := hnostale (.inl (by simp [hs]))
    obtain ⟨-, -, -, -, hnodup, hrefresh, -, -, hthird⟩ := h.due
    rw [hs] at hnodup hrefresh hthird
    obtain ⟨hi, hrest⟩ := List.nodup_cons.mp hnodup
    have hback := hthird (List.cons_ne_nil i rest)
    have he := (h.output i).lawful.enabled (OutputRecord.on_of_refreshDue (hrefresh i List.mem_cons_self))
    refine ⟨(h.refreshOutput he).congr rfl rfl rfl rfl, ?_, ?_, ?_, ?_, hrest, fun j hj => ?_, ?_⟩
    · simp [hsilent]
    · simp [hsilent]
    · simp [hstale]
    · simp [hstale]
    · have hne : i ≠ j := fun hij => hi (hij ▸ hj)
      have houtput : (s.refreshOutput i).output j = s.output j := by
        rw [State.refreshOutput_eq]
        exact (s.output_setOutput i j _).trans (if_neg hne)
      exact (congrArg OutputRecord.refreshDue houtput).trans (hrefresh j (List.mem_cons_of_mem i hj))
    · simp [hsilent, hstale, hback]

theorem takeGoBack (h : s.SupervisionLawful) : s.takeGoBack.SupervisionLawful := by
  unfold State.takeGoBack
  split
  · next hback =>
    obtain ⟨hsilent, hstale, hrefresh⟩ := h.due.order
    have hlast : s.settle = s.settleGoBack := by
      rw [s.settle_parts, s.settleSilent_none (hsilent (.inr (.inr hback))), s.settleStale_none (hstale (.inr hback)),
        s.settleRefresh_none (hrefresh hback)]
    rw [← hlast]
    exact h.settle.lawful
  · exact h.settle.lawful

end State.SupervisionLawful

/-! ## Every other command -/

/-- One tick at a channel counts its silence and changes nothing else (R79). -/
theorem ChannelRecord.tick_lawful {c : ChannelRecord} (h : c.Lawful) :
    c.tick.Lawful ∧ c.tick.runtime.state = c.runtime.state := by
  unfold ChannelRecord.tick
  split <;> exact ⟨h, rfl⟩

namespace State.Settled

variable {s t : State}

/-! ### Owners' ticks -/

theorem nodeTableTick (h : s.Settled) : s.nodeTableTick.SupervisionLawful := by
  unfold State.nodeTableTick
  split
  · exact h.lawful
  · dsimp only
    refine ⟨h.congr rfl rfl rfl rfl, ?_, fun a ha => (List.mem_filter.mp ha).2, ?_⟩
    · dsimp only
      exact allNodes_nodup.filter _
    · simp [h.due, DueWork.none]

theorem channelTableTick (h : s.Settled) : s.channelTableTick.SupervisionLawful := by
  unfold State.channelTableTick
  split
  · exact h.lawful
  · have hchannel := s.channel_tableMap ChannelRecord.tick
    have htick : ∀ k, (s.channel k).tick.Lawful ∧ (s.channel k).tick.runtime.state = (s.channel k).runtime.state :=
      fun k => ChannelRecord.tick_lawful (h.channels k).1
    refine ⟨(h.sameValidity (t := { s with channels := tableMap ChannelRecord.tick s.channels }) rfl rfl rfl
      (fun k => ?_) fun k => ?_).congr rfl rfl rfl rfl, ?_, ?_, ?stale,
      fun k hk => (List.mem_filter.mp hk).2, ?_⟩
    · rw [hchannel]
      exact (htick k).1
    · rw [hchannel, (htick k).2]
    case stale =>
      dsimp only
      exact allSlots_nodup.filter _
    all_goals simp [h.due, DueWork.none]

theorem outputUnitTick (h : s.Settled) : s.outputUnitTick.SupervisionLawful := by
  unfold State.outputUnitTick
  split
  · exact h.lawful
  · have houtput := s.output_tableMap OutputRecord.tick
    have hconfig : ∀ i, (({ s with outputs := tableMap OutputRecord.tick s.outputs } : State).output i).config =
        (s.output i).config := fun i => by rw [houtput, OutputRecord.tick_config]
    have hticked : ({ s with outputs := tableMap OutputRecord.tick s.outputs } : State).Supervised := by
      refine ⟨h.channels, fun i => ?_, h.setpoints.congr rfl hconfig⟩
      have hsource : ({ s with outputs := tableMap OutputRecord.tick s.outputs } : State).sourceValid i =
          s.sourceValid i := by
        unfold State.sourceValid
        rw [hconfig]
        rfl
      rw [houtput, hsource]
      exact (h.output i).tick
    refine ⟨hticked.congr rfl rfl rfl rfl, ?_, ?_, ?_, ?_, ?refresh,
      fun i hi => (List.mem_filter.mp hi).2, ?_⟩
    case refresh =>
      dsimp only
      exact allOutputs_nodup.filter _
    all_goals simp [h.due, DueWork.none]

theorem noticeLogTick (h : s.Settled) : s.noticeLogTick.SupervisionLawful := by
  unfold State.noticeLogTick
  split
  · exact h.lawful
  · refine ⟨h.congr rfl rfl rfl rfl, ?_⟩
    simp [State.DueLawful, h.due, DueWork.none]

/-! ### Frames -/

theorem supervised (h : s.Settled) (ht : t.Supervised) (hdue : t.due = s.due) : t.Settled :=
  ⟨ht, hdue.trans h.due⟩

theorem reading {src : Addr} {p : PathState} (h : p.state.Settled) (hc : ∀ k, (p.state.channel k).config.valid = true)
    (r : Reading) : (p.reading src r).state.Settled := by
  refine h.supervised ?_ (PathState.reading_supervisionOnly src p r).due_eq
  rcases PathState.reading_state src p r with hr | ⟨k, hk, he, hr | ⟨q, hr⟩⟩
  · rw [hr]; exact h.toSupervised
  · rw [hr]; exact h.badReading he
  · rw [hr]
    obtain ⟨b, hb, hslot⟩ := Option.map_eq_some_iff.mp hk
    exact h.takeReading he (hc k) ⟨b, List.mem_of_find?_eq_some hb, hslot⟩ _

theorem samplePath (h : s.Settled) (hc : ∀ k, (s.channel k).config.valid = true) (f : Frame) (rs : List Reading) :
    (s.samplePath f rs).Settled := by
  have hfold := foldl_invariant (fun p : PathState => p.state.Settled ∧ s.SupervisionOnly p.state)
    (PathState.reading f.src) rs (fun p r _ hp => by
      obtain ⟨hp, hsup⟩ := hp
      have ⟨_, hconfig, _⟩ := hsup
      exact ⟨hp.reading (fun k => by rw [hconfig]; exact hc k) r,
        hsup.trans (PathState.reading_supervisionOnly f.src p r)⟩)
    { state := s, kept := [], changed := false } ⟨h, .refl s⟩
  obtain ⟨hpath, -⟩ := hfold
  unfold State.samplePath
  dsimp only
  split
  · exact hpath.kept (.offerForward _ _ _)
  · split
    · exact hpath.kept (.count _ _ _)
    · exact hpath.kept (.offerForward _ _ _)

theorem nodeTable (h : s.Settled) (f : Frame) {accepted : State → State}
    (haccepted : ∀ t : State, t.Settled → (∀ k, t.channel k = s.channel k) → (accepted t).Settled) :
    (s.nodeTable f accepted).Settled := by
  unfold State.nodeTable
  dsimp only
  split
  · have harrival := State.SupervisionKept.nodeArrival s f.src f.restartFlag f.seq
    split
    · exact haccepted _ (h.kept harrival) fun k => by simp only [State.channel, harrival.channels]
    · exact h.kept harrival
  · split
    · exact h.kept (.offerForward _ _ _)
    · exact h.kept (.count _ _ _)

theorem handOff (h : s.Settled) (hc : ∀ k, (s.channel k).config.valid = true) (p : Port) (f : Frame) (r : Route) :
    (s.handOff p f r).Settled := by
  cases r with
  | misdirected => exact h.kept (.count s p _)
  | forward => exact h.kept (.offerForward s p _)
  | sample =>
    simp only [State.handOff]
    split
    · exact h.kept (.count s p _)
    · exact h.nodeTable f fun t ht hchannel => ht.samplePath (fun k => by rw [hchannel]; exact hc k) f _
  | status => exact h.nodeTable f fun t ht _ => ht.kept (.offerForward t .f _)
  | setpoint =>
    simp only [State.handOff]
    split
    · exact h.kept (.count s p _)
    · exact h.kept (.ownershipFilter s f _)
  | request =>
    simp only [State.handOff]
    split
    · exact h.kept (.acceptRequest s _ _ _ _)
    · exact h.kept (.count s p _)

theorem frameEnd (h : s.Settled) (hc : ∀ k, (s.channel k).config.valid = true) (p : Port) :
    (State.frameEnd p s).Settled := by
  have hclosed := h.kept (.setPort s p { s.port p with assembly := none })
  have hcounted := hclosed.kept (.count _ p .rxGood)
  unfold State.frameEnd
  split
  · exact h
  · split
    · exact h
    · unfold State.judgeEnd
      split
      · exact hclosed.kept (.count _ p _)
      · exact hclosed.kept (.count _ p _)
      · unfold State.goodFrame
        dsimp only
        split
        · exact hcounted.kept (.count _ p _)
        · refine hcounted.handOff (fun k => ?_) p _ _
          have hchannel := ((State.SupervisionKept.setPort s p { s.port p with assembly := none }).trans
            (.count _ p .rxGood)).channels
          rw [State.channel, hchannel]
          exact hc k

/-! ### Transmissions -/

theorem releaseResponse (h : s.Settled) (completed : Bool) : (s.releaseResponse completed).Settled := by
  unfold State.releaseResponse
  split
  · exact h
  · split
    · exact h
    · dsimp only
      split
      · exact (State.restartBlocks_blocksReset _ 1).settled
      · exact h.kept ⟨rfl, rfl, rfl, rfl, rfl⟩

theorem endTransmission (h : s.Settled) (p : Port) (completed : Bool) : (s.endTransmission p completed).Settled := by
  unfold State.endTransmission
  split
  · exact h
  · have hended := (h.kept (.setPort s p { s.port p with transmitter := none })).kept
      (.count _ p (if completed then .txFrames else .txAbandoned))
    dsimp only
    split
    · exact hended.releaseResponse completed
    · exact hended

theorem lossOfSignal (h : s.Settled) (p : Port) : (State.lossOfSignal p s).Settled := by
  unfold State.lossOfSignal
  split
  · exact h
  · exact (h.kept (.setPort s p _)).endTransmission p false

/-- A SETPOINT frame takes its items out of the set (R112). -/
theorem startSetpoint (h : s.Settled) : s.startSetpoint.Settled := by
  unfold State.startSetpoint
  split
  · exact h
  · next head rest _ =>
    have htaken : ({ s with setpoints := s.setpoints.filter fun it => it.node ≠ head.node } : State).Settled :=
      ⟨⟨h.channels, h.output, h.setpoints.sublist List.filter_sublist⟩, h.due⟩
    exact htaken.kept ⟨rfl, rfl, rfl, rfl, rfl⟩

theorem startF (h : s.Settled) : s.startF.Settled := by
  unfold State.startF
  split
  · exact h
  · split
    · exact h
    · exact (h.kept (.startForwarded s .f)).kept ⟨rfl, rfl, rfl, rfl, rfl⟩
    · exact h.startSetpoint.kept ⟨rfl, rfl, rfl, rfl, rfl⟩

/-! ### Requests -/

theorem tableWritten (h : s.Settled) (ht : t.Supervised) (hdue : t.due = s.due) : t.tableWritten.Settled :=
  (h.supervised ht hdue).kept (.tableWritten t)

theorem doBind (h : s.Settled) (p : List Byte) : (s.doBind p).state.Settled := by
  unfold State.doBind
  split
  · next a ch k _ _ _ =>
    split
    · exact h
    · split
      · exact h
      · split
        · exact h
        · refine h.tableWritten (h.rebind fun b hb _ => ?_) (State.clearChannel_supervisionOnly _ k).due_eq
          exact (insertBinding_perm _ _).mem_iff.mpr (List.mem_cons_of_mem _ hb)
  · exact h

theorem doUnbind (h : s.Settled) (p : List Byte) : (s.doUnbind p).state.Settled := by
  unfold State.doUnbind
  split
  · exact h
  · next k _ =>
    split
    · exact h
    · refine h.tableWritten (h.rebind fun b hb hk => ?_) (State.clearChannel_supervisionOnly _ k).due_eq
      exact List.mem_filter.mpr ⟨hb, decide_eq_true hk⟩

theorem doWriteChannel (h : s.Settled) (p : List Byte) : (s.doWriteChannel p).state.Settled := by
  unfold State.doWriteChannel
  split
  · exact h
  · next k _ =>
    split
    · exact h
    · next c _ =>
      obtain ⟨-, -, -, -, hdue, -⟩ := s.rewriteChannel_requestOnly k c
      exact h.tableWritten (h.rewriteChannel k c) hdue

theorem doAckBand (h : s.Settled) (p : List Byte) : (s.doAckBand p).state.Settled := by
  unfold State.doAckBand
  split
  · exact h
  · next k _ =>
    split
    · next hl => exact h.supervised (h.acknowledgeBand hl) (s.acknowledgeBand_supervisionOnly k).due_eq
    · exact h

theorem doWriteOutput (h : s.Settled) (p : List Byte) : (s.doWriteOutput p).state.Settled := by
  unfold State.doWriteOutput
  split
  · exact h
  · next i _ =>
    split
    · exact h
    · next c _ =>
      split
      · exact h
      · obtain ⟨-, -, -, -, hdue, -⟩ := s.rewriteOutput_requestOnly i c
        exact h.tableWritten (h.rewriteOutput i c) hdue

theorem doForceOutput (h : s.Settled) (p : List Byte) : (s.doForceOutput p).state.Settled := by
  unfold State.doForceOutput
  split
  · exact h
  · next i _ =>
    split
    · exact h
    · next he =>
      split
      · exact h
      · next w _ => exact h.supervised (h.force (not_not.mp he) w) (s.force_outputsOnly i w).due_eq

theorem doReleaseOutput (h : s.Settled) (p : List Byte) : (s.doReleaseOutput p).state.Settled := by
  unfold State.doReleaseOutput
  split
  · exact h
  · next i _ =>
    split
    · next hs => exact h.supervised (h.release hs) (s.judgeAfresh_outputsOnly i).due_eq
    · exact h

/-- Every request's owning rule; those not on channels, outputs or bindings keep them as they are. -/
theorem request (h : s.Settled) {c : Instr} {kind : RequestKind} {body : State → List Byte → Answer}
    (hc : requestOf c = some (kind, body)) (p : List Byte) : (body s p).state.Settled := by
  have hkept : ∀ t : State, s.SupervisionKept t → t.Settled := fun _ => h.kept
  cases c <;> simp only [requestOf, Option.some.injEq, Prod.mk.injEq, reduceCtorEq] at hc <;>
    obtain ⟨rfl, rfl⟩ := hc
  case echo | readSystem | readImage => exact h
  case bind => exact h.doBind p
  case unbind => exact h.doUnbind p
  case writeChannel => exact h.doWriteChannel p
  case ackBand => exact h.doAckBand p
  case writeOutput => exact h.doWriteOutput p
  case forceOutput => exact h.doForceOutput p
  case releaseOutput => exact h.doReleaseOutput p
  case capture => exact hkept _ ⟨rfl, rfl, rfl, rfl, rfl⟩
  case writeSystem => unfold State.doWriteSystem; (repeat' split) <;> exact hkept _ ⟨rfl, rfl, rfl, rfl, rfl⟩
  case readStats => unfold State.doReadStats; (repeat' split) <;> exact hkept _ ⟨rfl, rfl, rfl, rfl, rfl⟩
  case restart => unfold State.doRestart; split <;> exact hkept _ ⟨rfl, rfl, rfl, rfl, rfl⟩
  case enrolNode => unfold State.doEnrolNode; (repeat' split) <;> exact hkept _ ⟨rfl, rfl, rfl, rfl, rfl⟩
  case retireNode => unfold State.doRetireNode; (repeat' split) <;> exact hkept _ ⟨rfl, rfl, rfl, rfl, rfl⟩
  case readNode => unfold State.doReadNode; split <;> exact h
  case readChannel => unfold State.doReadChannel; split <;> exact h
  case readOutput => unfold State.doReadOutput; split <;> exact h
  case ackNotices => unfold State.doAckNotices; split <;> exact hkept _ ⟨rfl, rfl, rfl, rfl, rfl⟩
  case readCapture => unfold State.doReadCapture; (repeat' split) <;> exact h
  case commit => unfold State.doCommit; split <;> exact hkept _ ⟨rfl, rfl, rfl, rfl, rfl⟩

/-- The execution of a request, its answer included. -/
theorem executed (h : s.Settled) {c : Instr} {kind : RequestKind} {body : State → List Byte → Answer}
    (hc : requestOf c = some (kind, body)) : (effectOf c s).Settled := by
  rw [effectOf_request c kind body s hc]
  rcases s.executeRequest_cases kind body with hs | ⟨e, -, hs⟩ | ⟨e, -, -, -, hs⟩
  · rw [hs]; exact h
  · rw [hs]; exact h.kept (.withAnswer s e _ _)
  · rw [hs]; exact (h.request hc e.params).kept (.withAnswer _ e _ _)

/-! ### Every command -/

/-- A command's own effect with no tick event open; a step of a tick event then finds nothing to do. -/
theorem effect (h : s.Settled) (hvalid : ∀ k, (s.channel k).config.valid = true) (c : Instr) :
    (effectOf c s).SupervisionLawful := by
  cases hc : requestOf c with
  | some r => exact (h.executed hc).lawful
  | none =>
    cases c with
    | frameStart p => exact (h.kept (.frameStart s p)).lawful
    | byteArrival p b => exact (h.kept (.byteArrival s p b)).lawful
    | frameEnd p => exact (h.frameEnd hvalid p).lawful
    | lossOfSignal p => exact (h.lossOfSignal p).lawful
    | returnOfSignal p => exact (h.kept (.returnOfSignal s p)).lawful
    | tick => exact (h.kept (.tick s)).lawful
    | nodeTableTick => exact h.nodeTableTick
    | nodeSilent => exact h.lawful.nextSilent
    | channelTableTick => exact h.channelTableTick
    | channelStale => exact h.lawful.nextStale
    | outputUnitTick => exact h.outputUnitTick
    | refresh => exact h.lawful.nextRefresh
    | noticeLogTick => exact h.noticeLogTick
    | goBack => exact h.lawful.takeGoBack
    | sPortStart => exact (h.kept (.startS s)).lawful
    | fPortStart => exact h.startF.lawful
    | transmissionComplete p => exact (h.endTransmission p true).lawful
    | unknownRequest => exact (h.kept (.executeUnknown s)).lawful
    | erasureEnds => exact (h.kept (.endErasure s)).lawful
    | writingEnds m => exact (h.kept (.endWriting s m)).lawful
    | readBackEnds => exact (h.kept (.endReadBack s)).lawful
    | resetAsserted => exact (h.kept (t := s.assertReset) ⟨rfl, rfl, rfl, rfl, rfl⟩).lawful
    | hardReset lineF lineS => exact (s.hardReset_blocksReset lineF lineS).settled.lawful
    | echo | readSystem | writeSystem | readStats | restart | enrolNode | retireNode | readNode | bind | unbind
    | writeChannel | readChannel | ackBand | writeOutput | readOutput | forceOutput | releaseOutput | ackNotices
    | capture | readCapture | commit | readImage => cases hc

end State.Settled

namespace State.SupervisionLawful

variable {s t : State}

/-- A step of the open tick event. -/
theorem tickStep (h : s.SupervisionLawful) {c : Instr} (hc : isTickStep c = true) :
    (effectOf c s).SupervisionLawful := by
  cases c with
  | nodeSilent => exact h.nextSilent
  | channelStale => exact h.nextStale
  | refresh => exact h.nextRefresh
  | goBack => exact h.takeGoBack
  | _ => cases hc

/-- Every command keeps the laws, after any open tick event has been carried to its end. -/
theorem of_exec (h : s.SupervisionLawful) (hvalid : ∀ k, (s.channel k).config.valid = true) (c : Instr)
    (ht : exec c s = .next t) : t.SupervisionLawful := by
  have hsettled : ∀ k, (s.settle.channel k).config.valid = true := by
    obtain ⟨-, -, hconfig, -⟩ := s.settle_runtimeOnly
    intro k
    rw [hconfig]
    exact hvalid k
  rw [exec_eq] at ht
  cases ht
  split
  · next hr =>
    cases c with
    | hardReset lineF lineS => exact (s.hardReset_blocksReset lineF lineS).settled.lawful
    | _ => cases hr
  · split
    · exact h
    · split
      · next hc => exact h.tickStep hc
      · exact h.settle.effect hsettled c

end State.SupervisionLawful

/-- Settles O60: a step runs the front command on the state with the queue's rest, or idles. Of the other laws of a safe
state only the valid channel configurations are asked: they bound the release runs (R44, R64). -/
theorem supervisionStaysLawful : Obligations.SupervisionStaysLawful := by
  rintro s t ⟨-, -, -, -, -, htables, -, -, hchannels, houtputs, hset, hdue⟩ hstep
  have hs : s.SupervisionLawful := ⟨s.supervised_iff.mpr ⟨hchannels, houtputs, hset⟩, hdue⟩
  have hvalid := (s.lawfulTables_iff.mpr htables).channel
  have ht : t.SupervisionLawful := by
    unfold step at hstep
    split at hstep
    · cases hstep
      exact hs
    · next c rest _ =>
      exact State.SupervisionLawful.of_exec (s := { s with pending := rest }) ⟨hs.congr rfl rfl rfl rfl, hdue⟩ hvalid c
        hstep
  obtain ⟨hchannels', houtputs', hset'⟩ := t.supervised_iff.mp ht.toSupervised
  exact ⟨hchannels', houtputs', hset', ht.due⟩

end Sys2Proof.Machine
end

section
/-! SUPPORT. The Output Unit's arithmetic and its setpoint set: the curve, the step toward a target, the NORMAL
computation and the refresh (sections 5.1 to 5.6, 5.8). -/

namespace Sys2Proof.Machine

/-! ## The curve (R89, R94) -/

/-- The points of a curve rise, each below every later one (R89). -/
theorem risingPoints_iff (l : List CurvePoint) :
    risingPoints l = true ↔ l.Pairwise fun p q => p.x.toInt < q.x.toInt := by
  have htrans : ∀ {p q r : CurvePoint}, p.x.toInt < q.x.toInt → q.x.toInt < r.x.toInt → p.x.toInt < r.x.toInt :=
    fun h h' => h.trans h'
  induction l with
  | nil => simp [risingPoints]
  | cons p l ih =>
    cases l with
    | nil => simp [risingPoints]
    | cons q l =>
      simp only [risingPoints, Bool.and_eq_true, decide_eq_true_iff, ih]
      rw [List.pairwise_cons (a := p)]
      refine and_congr_left fun hrest => ⟨fun hpq r hr => ?_, fun h => h q List.mem_cons_self⟩
      rcases List.mem_cons.mp hr with rfl | hr
      · exact hpq
      · exact htrans hpq (List.rel_of_pairwise_cons hrest hr)

/-- A quotient truncated toward zero of a part `a` of `d` times a signed height stays between 0 and the height. -/
theorem tdiv_mul_between {a d : Int} (h0 : 0 ≤ a) (hd : a < d) (height : Int) :
    min 0 height ≤ Int.tdiv (a * height) d ∧ Int.tdiv (a * height) d ≤ max 0 height := by
  have hup : ∀ e : Int, 0 ≤ e → 0 ≤ Int.tdiv (a * e) d ∧ Int.tdiv (a * e) d ≤ e := fun e he => by
    have hnonneg : 0 ≤ a * e := mul_nonneg h0 he
    refine ⟨Int.tdiv_nonneg hnonneg (by omega), ?_⟩
    rw [Int.tdiv_eq_ediv_of_nonneg hnonneg]
    exact Int.ediv_le_of_le_mul (by omega) (by rw [mul_comm]; exact mul_le_mul_of_nonneg_left hd.le he)
  rcases le_total 0 height with hpos | hneg
  · obtain ⟨hlow, hhigh⟩ := hup height hpos
    omega
  · obtain ⟨hlow, hhigh⟩ := hup (-height) (by omega)
    rw [mul_neg, Int.neg_tdiv] at hlow hhigh
    omega

/-- Between two points the interpolation is exact in 12 bits, and lies between their y (R94). -/
theorem interpolate_toNat {p q : CurvePoint} {v : Int} (hp : p.x.toInt ≤ v) (hq : v < q.x.toInt) :
    ((interpolate p q v).toNat : Int) = p.y.toNat +
        Int.tdiv ((v - p.x.toInt) * ((q.y.toNat : Int) - p.y.toNat)) (q.x.toInt - p.x.toInt) ∧
      min p.y.toNat q.y.toNat ≤ (interpolate p q v).toNat ∧ (interpolate p q v).toNat ≤ max p.y.toNat q.y.toNat := by
  obtain ⟨hlow, hhigh⟩ := tdiv_mul_between (a := v - p.x.toInt) (d := q.x.toInt - p.x.toInt) (by omega) (by omega)
    ((q.y.toNat : Int) - p.y.toNat)
  have hpy := p.y.isLt
  have hqy := q.y.isLt
  have hexact : ((interpolate p q v).toNat : Int) = p.y.toNat +
      Int.tdiv ((v - p.x.toInt) * ((q.y.toNat : Int) - p.y.toNat)) (q.x.toInt - p.x.toInt) := by
    rw [interpolate, BitVec.toNat_ofInt, Int.toNat_of_nonneg (Int.emod_nonneg _ (by decide))]
    exact Int.emod_eq_of_lt (by omega) (by omega)
  exact ⟨hexact, by omega, by omega⟩

/-- Past the points whose next one lies at or below the value, the curve goes on from the last of them. -/
theorem curveFrom_append {v : Int} (p : CurvePoint) (post : List CurvePoint) (hp : p.x.toInt ≤ v) :
    ∀ (a : CurvePoint) (pre : List CurvePoint), (∀ q ∈ pre, q.x.toInt ≤ v) →
      curveFrom v a (pre ++ p :: post) = curveFrom v p post
  | a, [], _ => by rw [List.nil_append, curveFrom, if_neg (not_lt.mpr hp)]
  | a, b :: pre, h => by
    rw [List.cons_append, curveFrom, if_neg (not_lt.mpr (h b List.mem_cons_self))]
    exact curveFrom_append p post hp b pre fun q hq => h q (List.mem_cons_of_mem b hq)

theorem curve_first (p : CurvePoint) (rest : List CurvePoint) {v : Half} (h : v.toInt ≤ p.x.toInt) :
    curve (p :: rest) v = p.y :=
  if_pos h

/-- At its own x a point gives its y, whether the curve goes on or not. -/
theorem curveFrom_at_point {p : CurvePoint} {post : List CurvePoint} (h : risingPoints (p :: post) = true) :
    curveFrom p.x.toInt p post = p.y := by
  cases post with
  | nil => rfl
  | cons q post =>
    have hpq : p.x.toInt < q.x.toInt := List.rel_of_pairwise_cons ((risingPoints_iff _).mp h) List.mem_cons_self
    obtain ⟨hexact, -⟩ := interpolate_toNat (le_refl p.x.toInt) hpq
    rw [sub_self, zero_mul, Int.zero_tdiv, add_zero] at hexact
    rw [curveFrom, if_pos hpq]
    exact BitVec.eq_of_toNat_eq (Int.ofNat_inj.mp hexact)

/-- At or above a point of a rising curve, the curve goes on from that point (R94). -/
theorem curve_from_point {pre post : List CurvePoint} {p : CurvePoint} {v : Half}
    (h : risingPoints (pre ++ p :: post) = true) (hp : p.x.toInt ≤ v.toInt) :
    curve (pre ++ p :: post) v = curveFrom v.toInt p post := by
  cases pre with
  | nil =>
    rw [List.nil_append] at h ⊢
    rcases hp.eq_or_lt with heq | hlt
    · rw [curve_first p post heq.ge, ← heq, curveFrom_at_point h]
    · exact if_neg (not_le.mpr hlt)
  | cons a pre =>
    obtain ⟨ha, hrest⟩ := List.pairwise_cons.mp ((risingPoints_iff _).mp h)
    obtain ⟨-, -, hbelow⟩ := List.pairwise_append.mp hrest
    have hap : a.x.toInt < p.x.toInt := ha p (by simp)
    rw [List.cons_append, curve, if_neg (by omega)]
    exact curveFrom_append p post hp a pre fun q hq => (hbelow q hq p List.mem_cons_self).le.trans hp

/-- Settles O54. -/
theorem curveInterpolates : Obligations.CurveInterpolates := by
  refine ⟨fun p rest v h => curve_first p rest h, fun pre p v h hp => curve_from_point h hp,
    fun pre post p q v h hp hq => ?_⟩
  rw [curve_from_point h hp, curveFrom, if_pos hq]
  exact interpolate_toNat hp hq

/-! ## The step toward a goal (R95, R99) -/

theorem distance_comm (x y : Level) : distance x y = distance y x :=
  Nat.add_comm _ _

theorem distance_of_le {x y : Level} (h : y.toNat ≤ x.toNat) : distance x y = x.toNat - y.toNat := by
  rw [distance, Nat.sub_eq_zero_of_le h, Nat.add_zero]

/-- Without a slew, and within it, the goal itself is reached. -/
theorem approach_reaches {x goal slew : Level} (h : slew = 0 ∨ distance x goal ≤ slew.toNat) :
    approach x goal slew = goal :=
  if_pos h

/-- A goal farther above than slew is approached by slew. -/
theorem approach_up {x goal slew : Level} (h0 : slew ≠ 0) (h : x.toNat + slew.toNat < goal.toNat) :
    (approach x goal slew).toNat = x.toNat + slew.toNat := by
  have hfar : ¬ (slew = 0 ∨ distance x goal ≤ slew.toNat) := by
    rw [distance_comm, distance_of_le (by omega)]
    exact not_or.mpr ⟨h0, by omega⟩
  have hgoal := goal.isLt
  rw [approach, if_neg hfar, if_pos (BitVec.lt_def.mpr (by omega)), BitVec.toNat_add_of_lt (by omega)]

/-- A goal farther below than slew is approached by slew. -/
theorem approach_down {x goal slew : Level} (h0 : slew ≠ 0) (h : goal.toNat + slew.toNat < x.toNat) :
    (approach x goal slew).toNat = x.toNat - slew.toNat := by
  have hfar : ¬ (slew = 0 ∨ distance x goal ≤ slew.toNat) := by
    rw [distance_of_le (by omega)]
    exact not_or.mpr ⟨h0, by omega⟩
  rw [approach, if_neg hfar, if_neg (by rw [BitVec.lt_def]; omega), BitVec.toNat_sub_of_le (BitVec.le_def.mpr (by omega))]

/-- An output's step to its target from what it has issued: none at the target or within deadband, else by slew (R95). -/
theorem OutputRecord.normalIssue_of_issued {o : OutputRecord} {u w : Level} (h : o.runtime.issued = some u) :
    (w = u ∨ distance w u < o.config.deadband.toNat → o.normalIssue w = none) ∧
      (w ≠ u → o.config.deadband.toNat ≤ distance w u → o.normalIssue w = some (approach u w o.config.slew)) := by
  simp only [OutputRecord.normalIssue, h, normalStep]
  exact ⟨fun hnear => if_pos hnear, fun hne hfar => if_neg (not_or.mpr ⟨hne, not_lt.mpr hfar⟩)⟩

/-! ## The setpoint set (R110) -/

/-- An output's item takes the new value where it stands. -/
theorem placeItem_replaces {pre post : List SetpointItem} {x it : SetpointItem} (hpre : ∀ y ∈ pre, y.output ≠ it.output)
    (hx : x.output = it.output) : placeItem (pre ++ x :: post) it = pre ++ { x with value := it.value } :: post := by
  have hany : ((pre ++ x :: post).any fun y => decide (y.output = it.output)) = true :=
    List.any_eq_true.mpr ⟨x, by simp, decide_eq_true hx⟩
  rw [placeItem, if_pos hany]
  exact updateFirst_append _ _ pre x post (fun y hy => decide_eq_false (hpre y hy)) (decide_eq_true hx)

/-- Where the output has no item, the new one joins the tail. -/
theorem placeItem_joins {set : List SetpointItem} {it : SetpointItem} (h : ∀ y ∈ set, y.output ≠ it.output) :
    placeItem set it = set ++ [it] := by
  have hany : ¬ (set.any fun y => decide (y.output = it.output)) = true := by simpa using h
  rw [placeItem, if_neg hany]

/-- Settles O55. -/
theorem normalComputation : Obligations.NormalComputation := by
  refine ⟨fun pre post x it hpre => ⟨placeItem_replaces hpre, placeItem_joins hpre⟩,
    fun x y => ⟨distance_of_le, fun h => (distance_comm x y).trans (distance_of_le h)⟩, ?_⟩
  rintro s i v w rfl
  refine ⟨s.normalCompute_setOutput i v, fun h => ?_, fun u hu => ?_⟩
  · simp only [OutputRecord.normalIssue, h]
  · obtain ⟨hnear, hfar⟩ := OutputRecord.normalIssue_of_issued (w := curve (s.output i).config.points v) hu
    refine ⟨hnear, fun hne hband => ⟨fun hreach => ?_, fun h0 hslew => ⟨_, hfar hne hband, fun hup => ?_, fun hdown => ?_⟩⟩⟩
    · rw [hfar hne hband, approach_reaches (hreach.imp id ((distance_comm _ _).trans_le))]
    · rw [distance_of_le hup.le] at hslew
      exact approach_up h0 (by omega)
    · rw [distance_comm, distance_of_le hdown.le] at hslew
      rw [approach_down h0 (by omega)]
      omega

/-! ## The refresh (R99, R100) -/

/-- Settles O29. -/
theorem outputRefreshes : Obligations.OutputRefreshes := by
  refine ⟨fun s i rest hs hdue => ?_, fun slew safe => rfl, fun slew safe issued =>
    ⟨fun h0 => approach_reaches (.inl h0), fun hlow hhigh => approach_reaches (.inr ?_), approach_down, approach_up⟩⟩
  · rw [exec_tickStep hs .refresh rfl rfl]
    simp only [effectOf, State.nextRefresh, hdue, State.refreshOutput_eq]
  · rw [distance]
    omega

end Sys2Proof.Machine
end

section
/-! SUPPORT. SETPOINT frames: the F-port arbiter, the items it gathers, and the ownership filter on a supervisor's frame
(sections 5.8, 5.9, 7.4). -/

namespace Sys2Proof.Machine

/-! ## The items of a SETPOINT frame (R112) -/

/-- A frame's items stand in ascending output order. -/
theorem State.itemsFor_sorted (s : State) (a : Addr) : (s.itemsFor a).Pairwise fun x y => x.output < y.output := by
  rw [State.itemsFor, List.pairwise_filterMap]
  refine allOutputs_sorted.imp fun {i j} hij x hx y hy => ?_
  obtain ⟨hxi, -⟩ : x.output = i ∧ x.node = a := by simpa using List.find?_some hx
  obtain ⟨hyj, -⟩ : y.output = j ∧ y.node = a := by simpa using List.find?_some hy
  rw [hxi, hyj]
  exact hij

/-- With one item per output, a node's frame gathers exactly its items. -/
theorem State.mem_itemsFor {s : State} (h : s.setpoints.Pairwise fun x y => x.output ≠ y.output) (a : Addr)
    (it : SetpointItem) : it ∈ s.itemsFor a ↔ it ∈ s.setpoints ∧ it.node = a := by
  have hnodup : (s.setpoints.map SetpointItem.output).Nodup := List.pairwise_map.mpr h
  rw [State.itemsFor, List.mem_filterMap]
  constructor
  · rintro ⟨i, -, hfind⟩
    obtain ⟨-, hnode⟩ : it.output = i ∧ it.node = a := by simpa using List.find?_some hfind
    exact ⟨List.mem_of_find?_eq_some hfind, hnode⟩
  · rintro ⟨hmem, rfl⟩
    refine ⟨it.output, mem_allOutputs _, ?_⟩
    obtain ⟨x, hx⟩ := Option.isSome_iff_exists.mp
      ((List.find?_isSome (p := fun y => decide (y.output = it.output ∧ y.node = it.node))).mpr
        ⟨it, hmem, decide_eq_true ⟨rfl, rfl⟩⟩)
    obtain ⟨hout, -⟩ : x.output = it.output ∧ x.node = it.node := by simpa using List.find?_some hx
    rw [hx, List.inj_on_of_nodup_map hnodup (List.mem_of_find?_eq_some hx) hmem hout]

/-- The payload of a frame that carries these items (R112, section 12.2). -/
theorem setpointPayload_frameItems (l : List SetpointItem) :
    setpointPayload (l.map SetpointItem.frameItem) =
      BitVec.ofNat 8 l.length :: l.flatMap fun it => it.index.setWidth 8 :: halfBytes (it.value.setWidth 16) := by
  rw [setpointPayload, List.length_map, List.flatMap_map]
  rfl

/-! ## The F-port arbiter (R142, R146) -/

section
variable {s : State}

theorem State.chooseF_none (hq : s.portF.forwardQueue = []) (hset : s.setpoints = []) : s.chooseF = none := by
  simp [State.chooseF, hq, hset]

/-- A forwarded frame is taken when it waits alone, or when it is its turn. -/
theorem State.chooseF_forward (hq : s.portF.forwardQueue ≠ []) (h : s.setpoints = [] ∨ s.egress.nextTurn = .forward) :
    s.chooseF = some .forward := by
  have hwaits : s.portF.forwardQueue.isEmpty = false := List.isEmpty_eq_false_iff.mpr hq
  cases hset : s.setpoints with
  | nil => simp [State.chooseF, hwaits, hset]
  | cons it rest =>
    have hturn : s.egress.nextTurn = .forward := by simpa [hset] using h
    simp [State.chooseF, hwaits, hset, hturn]

/-- The setpoint set is served when it waits alone, or when it is its turn. -/
theorem State.chooseF_setpoint (hset : s.setpoints ≠ [])
    (h : s.portF.forwardQueue = [] ∨ s.egress.nextTurn = .setpoint) : s.chooseF = some .setpoint := by
  have hwaits : s.setpoints.isEmpty = false := List.isEmpty_eq_false_iff.mpr hset
  cases hq : s.portF.forwardQueue with
  | nil => simp [State.chooseF, hq, hwaits]
  | cons frame rest =>
    have hturn : s.egress.nextTurn = .setpoint := by simpa [hq] using h
    simp [State.chooseF, hq, hwaits, hturn]

/-- A port that is DOWN or busy starts nothing (R142). -/
theorem State.startF_idle (h : s.portF.link = .down ∨ s.portF.transmitter ≠ none) : s.startF = s := by
  have hnot : ¬ s.mayStart .f = true := by
    rw [State.mayStart_iff]
    rintro ⟨hl, ht⟩
    rcases h with h | h
    · cases h.symm.trans hl
    · exact h ht
  rw [State.startF, if_pos hnot]

theorem State.startF_none (hm : s.mayStart .f = true) (hc : s.chooseF = none) : s.startF = s := by
  simp only [State.startF, hm, hc, not_true, if_false]

/-- A forwarded frame leaves the queue for the transmitter, and the next turn is the setpoint set's (R140, R146). -/
theorem State.startF_forward (hm : s.mayStart .f = true) (hc : s.chooseF = some .forward) {frame : List Byte}
    {rest : List (List Byte)} (hq : s.portF.forwardQueue = frame :: rest) :
    s.startF = { s with
      portF := { s.portF with transmitter := some { source := .forwarded, frame := frame }, forwardQueue := rest }
      egress := { s.egress with nextTurn := .setpoint } } := by
  simp only [State.startF, hm, hc, not_true, if_false, State.startForwarded, State.port_f, hq]
  rfl

/-- A setpoint turn sends the head node's items, which leave the set, and the next turn is the forward queue's (R112,
R146, R147). -/
theorem State.startF_setpoint (hm : s.mayStart .f = true) (hc : s.chooseF = some .setpoint) {head : SetpointItem}
    {tail : List SetpointItem} (hset : s.setpoints = head :: tail) :
    s.startF = { s with
      portF := { s.portF with
        transmitter := some
          { source := .setpoint
            frame := s.ownFrame head.node 0x04 s.egress.seqF
              (setpointPayload ((s.itemsFor head.node).map SetpointItem.frameItem)) } }
      setpoints := s.setpoints.filter fun it => decide (it.node ≠ head.node)
      egress := { s.egress with nextTurn := .forward, seqF := s.egress.seqF + 1 } } := by
  simp only [State.startF, hm, hc, not_true, if_false, State.startSetpoint, hset]
  rfl

end

/-- Settles O32. -/
theorem fPortStarts : Obligations.FPortStarts := by
  refine ⟨fun s hs h => ?_, fun s hs hl ht => ?_⟩
  · rw [exec_ready hs .fPortStart rfl rfl]
    exact congrArg _ (State.startF_idle h)
  · have hm : s.mayStart .f = true := (s.mayStart_iff .f).mpr ⟨hl, ht⟩
    rw [exec_ready hs .fPortStart rfl rfl]
    refine ⟨fun frame rest hq h => ?_, fun head tail hset h =>
      ⟨s.itemsFor head.node, s.itemsFor_sorted head.node, fun hone => State.mem_itemsFor hone head.node, ?_⟩,
      fun hq hset => ?_⟩
    · exact congrArg _ (State.startF_forward hm (State.chooseF_forward (by simp [hq]) h) hq)
    · rw [← setpointPayload_frameItems]
      exact congrArg _ (State.startF_setpoint hm (State.chooseF_setpoint (by simp [hset]) h) hset)
    · exact congrArg _ (State.startF_none hm (State.chooseF_none hq hset))

/-! ## The ownership filter (R114, R115) -/

/-- A target is owned by an enabled output with that index at that node, or at any node for a broadcast (R114). -/
theorem State.ownsTarget_iff (s : State) (dst : Addr) (index : Byte) :
    s.ownsTarget dst index = true ↔ ∃ i : OutIdx, (s.output i).config.enabled = true ∧
      (s.output i).config.targetIndex.toNat = index.toNat ∧ ((s.output i).config.targetNode = dst ∨ dst = 63) := by
  simp [State.ownsTarget, State.outputs_toList]

/-- The items the filter keeps are those no enabled output owns. -/
theorem State.filter_ownsTarget (s : State) (dst : Addr) (items : List FrameItem) :
    items.filter (fun x => ! s.ownsTarget dst x.index) =
      items.filter fun x => decide (¬ ∃ i : OutIdx, (s.output i).config.enabled = true ∧
        (s.output i).config.targetIndex.toNat = x.index.toNat ∧
        ((s.output i).config.targetNode = dst ∨ dst = 63)) := by
  refine List.filter_congr fun x _ => ?_
  rw [decide_not, Bool.not_inj_iff, Bool.eq_iff_iff, decide_eq_true_iff, State.ownsTarget_iff]

/-- A frame that loses nothing is offered as it arrived (R115). -/
theorem State.ownershipFilter_whole {s : State} {f : Frame} {items : List FrameItem}
    (h : items.filter (fun x => ! s.ownsTarget f.dst x.index) = items) :
    s.ownershipFilter f items = s.offerForward .s f.bytes := by
  simp [State.ownershipFilter, h]

/-- A frame that loses items: each is counted; the rest, if any, is rebuilt with MODIFIED set (R114, R115). -/
theorem State.ownershipFilter_stripped {s t : State} {f : Frame} {items kept : List FrameItem}
    (hkept : kept = items.filter fun x => ! s.ownsTarget f.dst x.index) (hne : kept ≠ items)
    (ht : t = { s with portS := { s.portS with stats := { s.portS.stats with
      rxOwnedStripped := BitVec.ofNat 32
        (min (2 ^ 32 - 1) (s.portS.stats.rxOwnedStripped.toNat + (items.length - kept.length))) } } }) :
    (kept = [] → s.ownershipFilter f items = t.count .s .rxEmptied) ∧
      (kept ≠ [] → s.ownershipFilter f items = t.offerForward .s
        (buildFrame (byteAt f.bytes 0) (byteAt f.bytes 1) (byteAt f.bytes 2) (withModified f.flags) f.seq
          (setpointPayload kept))) := by
  have hsub : kept.Sublist items := hkept ▸ List.filter_sublist
  have hremoved : items.length - kept.length ≠ 0 := fun h => hne (hsub.eq_of_length_le (by omega))
  have hcount := s.foldl_count (List.range (items.length - kept.length))
  rw [List.length_range, ← ht] at hcount
  simp only [State.ownershipFilter, ← hkept, hcount, if_neg hremoved]
  exact ⟨fun h => if_pos h, fun h => if_neg h⟩

/-- Settles O23. -/
theorem ownershipFilter : Obligations.OwnershipFilter := by
  intro s l items kept hr hg hdst hkind hitems hkept
  have hroute : directionTable .s (FrameKind.ofCode (byteAt l 2)) (addressOf (byteAt l 0) = s.system.ownAddress)
      (addressOf (byteAt l 1) = 0) = .setpoint := by
    rw [hkind, decide_eq_false hdst]
    rfl
  have hexec : exec (.frameEnd .s) s = .next ((s.received .s).ownershipFilter { bytes := l } items) := by
    rw [exec_frameEnd_route hr hg nofun hroute]
    simp only [State.handOff, hitems]
  have hkept' : kept = items.filter fun x =>
      ! (s.received .s).ownsTarget ({ bytes := l } : Frame).dst x.index := by
    rw [State.filter_ownsTarget]
    exact hkept
  refine ⟨fun hall => ?_, fun hne => ?_⟩
  · rw [hexec, State.ownershipFilter_whole (hkept'.symm.trans hall)]
  · obtain ⟨hnone, hsome⟩ := State.ownershipFilter_stripped hkept' hne rfl
    refine ⟨_, _, hexec, rfl, fun h => hnone h, fun h => (hsome h).trans ?_⟩
    rw [hkind]
    rfl

end Sys2Proof.Machine
end

section
/-! SUPPORT. The output record: the 46 bytes of an output's configuration, read, judged and written (sections 5.1, 5.7,
12.9). -/

namespace Sys2Proof.Machine

/-! ## Bytes at offsets -/

theorem byteAt_append_add (front l : List Byte) (n : Nat) : byteAt (front ++ l) (front.length + n) = byteAt l n := by
  rw [byteAt, List.getD_append_right _ _ _ _ (Nat.le_add_right _ _), Nat.add_sub_cancel_left, byteAt]

/-- Two lists that agree in its two bytes hold the same 16-bit field. -/
theorem halfAt_congr {p q : List Byte} {i : Nat} (h0 : byteAt p i = byteAt q i)
    (h1 : byteAt p (i + 1) = byteAt q (i + 1)) : halfAt p i = halfAt q i :=
  congrArg₂ (fun a b : Byte => a ++ b) h0 h1

/-! ## The points of a curve -/

/-- Points that are read are as many as asked for, each from its own four bytes. -/
theorem pointsAt_eq_some {p : List Byte} {i n : Nat} {points : List CurvePoint} (h : pointsAt p i n = some points) :
    points.length = n ∧ ∀ (j : Nat) (hj : j < points.length),
      halfAt p (i + 4 * j) = points[j].x ∧ levelOf (halfAt p (i + 4 * j + 2)) = some points[j].y := by
  induction n generalizing i points with
  | zero =>
    cases h
    exact ⟨rfl, nofun⟩
  | succ n ih =>
    simp only [pointsAt, Option.bind_eq_bind, Option.bind_eq_some_iff, Option.some.injEq] at h
    obtain ⟨y, hy, rest, hrest, rfl⟩ := h
    obtain ⟨hlength, hpoints⟩ := ih hrest
    refine ⟨congrArg (· + 1) hlength, fun j hj => ?_⟩
    cases j with
    | zero => exact ⟨rfl, hy⟩
    | succ j =>
      have hj' := hpoints j (Nat.lt_of_succ_lt_succ hj)
      rw [show i + 4 + 4 * j = i + 4 * (j + 1) by omega] at hj'
      exact hj'

/-- Only the bytes of the points asked for decide what is read. -/
theorem pointsAt_congr {p q : List Byte} {i n : Nat} (h : ∀ j, j < 4 * n → byteAt p (i + j) = byteAt q (i + j)) :
    pointsAt p i n = pointsAt q i n := by
  induction n generalizing i with
  | zero => rfl
  | succ n ih =>
    have hx : halfAt p i = halfAt q i := halfAt_congr (h 0 (by omega)) (h 1 (by omega))
    have hy : halfAt p (i + 2) = halfAt q (i + 2) := halfAt_congr (h 2 (by omega)) (h 3 (by omega))
    have hrest : pointsAt p (i + 4) n = pointsAt q (i + 4) n := ih fun j hj => by
      rw [Nat.add_assoc]
      exact h (4 + j) (by omega)
    simp only [pointsAt, hx, hy, hrest]

/-! ## Fields out of their ranges -/

theorem boolOf_none {b : Byte} (h : 1 < b.toNat) : boolOf b = none := by
  rw [boolOf, if_neg (by rintro rfl; simp at h), if_neg (by rintro rfl; simp at h)]

theorem fallbackOf_none {b : Byte} (h : 2 < b.toNat) : fallbackOf b = none := by
  rw [fallbackOf, if_neg (by rintro rfl; simp at h), if_neg (by rintro rfl; simp at h), if_neg (by rintro rfl; simp at h)]

/-! ## Reading a record (R89, R105) -/

/-- Each field of a configuration is the one read from its place in a record (section 12.9). -/
structure OutputConfig.ReadFrom (c : OutputConfig) (p : List Byte) : Prop where
  enabled : boolOf (byteAt p 0) = some c.enabled
  targetNode : nodeOf (byteAt p 1) = some c.targetNode
  targetIndex : nibbleOf (byteAt p 2) = some c.targetIndex
  source : slotOf (byteAt p 3) = some c.source
  count : (byteAt p 4).toNat = c.points.length
  points : pointsAt p 5 c.points.length = some c.points
  deadband : levelOf (halfAt p 37) = some c.deadband
  slew : levelOf (halfAt p 39) = some c.slew
  refresh : halfAt p 41 = c.refresh
  fallback : fallbackOf (byteAt p 43) = some c.fallback
  safe : levelOf (halfAt p 44) = some c.safe

/-- The conditions of R89 that a typed configuration can still fail. -/
theorem OutputConfig.valid_iff (own : Addr) (c : OutputConfig) :
    c.valid own = true ↔ (1 ≤ c.targetNode.toNat ∧ c.targetNode.toNat ≤ 62) ∧ c.targetNode ≠ own ∧
      (2 ≤ c.points.length ∧ c.points.length ≤ 8) ∧ risingPoints c.points = true := by
  simp only [OutputConfig.valid, Bool.and_eq_true, decide_eq_true_eq, bne_iff_ne, and_assoc]

/-- A record is accepted as a configuration exactly when it is valid and its fields are those read (R89, R105). -/
theorem outputConfigOf_eq_some_iff {own : Addr} {p : List Byte} {c : OutputConfig} :
    outputConfigOf own p = some c ↔ c.valid own = true ∧ c.ReadFrom p := by
  constructor
  · intro h
    refine ⟨outputConfigOf_valid h, ?_⟩
    simp only [outputConfigOf, Option.bind_eq_bind, Option.bind_eq_some_iff] at h
    obtain ⟨enabled, henabled, node, hnode, index, hindex, source, hsource, h⟩ := h
    split at h
    · simp only [Option.bind_eq_some_iff, Option.ite_none_right_eq_some, Option.some.injEq] at h
      obtain ⟨points, hpoints, deadband, hdeadband, slew, hslew, fallback, hfallback, safe, hsafe, -, rfl⟩ := h
      obtain ⟨hlength, -⟩ := pointsAt_eq_some hpoints
      exact ⟨henabled, hnode, hindex, hsource, hlength.symm, by rw [hlength]; exact hpoints, hdeadband, hslew, rfl,
        hfallback, hsafe⟩
    · cases h
  · rintro ⟨hvalid, h⟩
    obtain ⟨-, -, hcount, -⟩ := (c.valid_iff own).mp hvalid
    simp only [outputConfigOf, h.enabled, h.targetNode, h.targetIndex, h.source, h.count, if_pos hcount, h.points,
      h.deadband, h.slew, h.refresh, h.fallback, h.safe, Option.bind_eq_bind, Option.bind_some]
    exact if_pos hvalid

/-! ## Writing a record (R108) -/

/-- The record's first five bytes, to the point count. -/
def OutputConfig.headBytes (c : OutputConfig) : List Byte :=
  [boolCode c.enabled, c.targetNode.zeroExtend 8, c.targetIndex.zeroExtend 8, indexByte c.source,
    BitVec.ofNat 8 c.points.length]

/-- The pairs beyond the point count. -/
def OutputConfig.sparePairs (c : OutputConfig) : List CurvePoint :=
  List.replicate (8 - c.points.length) (CurvePoint.mk 0 0)

/-- The record's last nine bytes, after the eight pairs. -/
def OutputConfig.tailBytes (c : OutputConfig) : List Byte :=
  halfBytes (c.deadband.zeroExtend 16) ++ halfBytes (c.slew.zeroExtend 16) ++ halfBytes c.refresh ++ [c.fallback.code] ++
    halfBytes (c.safe.zeroExtend 16)

theorem OutputConfig.bytes_eq (c : OutputConfig) :
    c.bytes = c.headBytes ++ c.points.flatMap CurvePoint.bytes ++
      (c.sparePairs.flatMap CurvePoint.bytes ++ c.tailBytes) := by
  simp only [OutputConfig.bytes, OutputConfig.headBytes, OutputConfig.sparePairs, OutputConfig.tailBytes,
    List.flatMap_append, List.append_assoc]

/-- Head and pairs are the record's first 37 bytes. -/
theorem OutputConfig.front_length {c : OutputConfig} (h : c.points.length ≤ 8) :
    (c.headBytes ++ c.points.flatMap CurvePoint.bytes ++ c.sparePairs.flatMap CurvePoint.bytes).length = 37 := by
  have hpoints := flatMap_length_const CurvePoint.bytes 4 (fun _ => rfl) c.points
  have hspare := flatMap_length_const CurvePoint.bytes 4 (fun _ => rfl) c.sparePairs
  rw [OutputConfig.sparePairs, List.length_replicate, ← OutputConfig.sparePairs] at hspare
  rw [List.length_append, List.length_append, hpoints, hspare]
  simp only [OutputConfig.headBytes, List.length_cons, List.length_nil]
  omega

/-- The bytes after the eight pairs are those of the record's tail. -/
theorem OutputConfig.byteAt_bytes_tail {c : OutputConfig} (h : c.points.length ≤ 8) (n : Nat) :
    byteAt c.bytes (37 + n) = byteAt c.tailBytes n := by
  rw [← OutputConfig.front_length h, OutputConfig.bytes_eq, ← List.append_assoc]
  exact byteAt_append_add _ _ n

theorem OutputConfig.halfAt_bytes_tail {c : OutputConfig} (h : c.points.length ≤ 8) (n : Nat) :
    halfAt c.bytes (37 + n) = halfAt c.tailBytes n :=
  congrArg₂ (fun a b : Byte => a ++ b) (OutputConfig.byteAt_bytes_tail h n) (OutputConfig.byteAt_bytes_tail h (n + 1))

/-- A configuration in range is read back from its own record. -/
theorem OutputConfig.readFrom_bytes {own : Addr} {c : OutputConfig} (h : c.valid own = true) : c.ReadFrom c.bytes := by
  obtain ⟨⟨hlow, hhigh⟩, -, ⟨-, height⟩, -⟩ := (c.valid_iff own).mp h
  have hlevel : ∀ (n : Nat) {w : Level}, halfAt c.tailBytes n = w.setWidth 16 →
      levelOf (halfAt c.bytes (37 + n)) = some w := fun n w hw => by
    rw [OutputConfig.halfAt_bytes_tail height n, hw, levelOf_setWidth]
  have hpoints : pointsAt c.bytes 5 c.points.length = some c.points := by
    rw [c.bytes_eq]
    exact pointsAt_flatMap c.points c.headBytes _
  exact {
    enabled := boolOf_boolCode c.enabled
    targetNode := nodeOf_setWidth c.targetNode (by rintro h0; simp [h0] at hlow) (by rintro h63; simp [h63] at hhigh)
    targetIndex := nibbleOf_setWidth c.targetIndex
    source := slotOf_indexByte c.source
    count := Nat.mod_eq_of_lt (by omega)
    points := hpoints
    deadband := hlevel 0 (halfBytes_join _)
    slew := hlevel 2 (halfBytes_join _)
    refresh := (OutputConfig.halfAt_bytes_tail height 4).trans (halfBytes_join _)
    fallback := (congrArg fallbackOf (OutputConfig.byteAt_bytes_tail height 6)).trans (fallbackOf_code c.fallback)
    safe := hlevel 7 (halfBytes_join _) }

/-- Settles O12. -/
theorem outputRecordRoundTrip : Obligations.OutputRecordRoundTrip := by
  intro own c h
  obtain ⟨-, -, ⟨-, height⟩, -⟩ := (c.valid_iff own).mp h
  exact ⟨OutputConfig.bytes_length height, outputConfigOf_eq_some_iff.mpr ⟨h, OutputConfig.readFrom_bytes h⟩⟩

/-! ## Records as WRITE_OUTPUT meets them (R89, R105) -/

/-- What the pairs beyond the point count hold does not matter. -/
theorem OutputConfig.ReadFrom.of_spelledBy {c : OutputConfig} {record : List Byte} (h : c.ReadFrom c.bytes)
    (hspelled : c.spelledBy record) (hcount : c.points.length ≤ 8) : c.ReadFrom record := by
  obtain ⟨-, hbyte⟩ := hspelled
  have hhead : ∀ j, j < 5 → byteAt record j = byteAt c.bytes j := fun j hj => hbyte j (.inl (by omega))
  have htail : ∀ j, 37 ≤ j → j < 46 → byteAt record j = byteAt c.bytes j := fun j hj hj' => hbyte j (.inr ⟨hj, hj'⟩)
  have hhalf : ∀ j, 37 ≤ j → j < 45 → halfAt record j = halfAt c.bytes j := fun j hj hj' =>
    halfAt_congr (htail j hj (by omega)) (htail (j + 1) (by omega) (by omega))
  have hpoints : pointsAt record 5 c.points.length = pointsAt c.bytes 5 c.points.length :=
    pointsAt_congr fun j hj => hbyte (5 + j) (.inl (by omega))
  exact {
    enabled := by rw [hhead 0 (by omega)]; exact h.enabled
    targetNode := by rw [hhead 1 (by omega)]; exact h.targetNode
    targetIndex := by rw [hhead 2 (by omega)]; exact h.targetIndex
    source := by rw [hhead 3 (by omega)]; exact h.source
    count := by rw [hhead 4 (by omega)]; exact h.count
    points := hpoints.trans h.points
    deadband := by rw [hhalf 37 (by omega) (by omega)]; exact h.deadband
    slew := by rw [hhalf 39 (by omega) (by omega)]; exact h.slew
    refresh := (hhalf 41 (by omega) (by omega)).trans h.refresh
    fallback := by rw [htail 43 (by omega) (by omega)]; exact h.fallback
    safe := by rw [hhalf 44 (by omega) (by omega)]; exact h.safe }

/-- A record that spells a valid configuration is accepted as it (R105). -/
theorem outputConfigOf_spelled {own : Addr} {c : OutputConfig} {record : List Byte} (h : c.valid own = true)
    (hspelled : c.spelledBy record) : outputConfigOf own record = some c := by
  obtain ⟨-, -, ⟨-, height⟩, -⟩ := (c.valid_iff own).mp h
  exact outputConfigOf_eq_some_iff.mpr ⟨h, (OutputConfig.readFrom_bytes h).of_spelledBy hspelled height⟩

/-- The points read from a record have their y in range and their x rising (R89). -/
theorem OutputConfig.ReadFrom.points_inRange {c : OutputConfig} {record : List Byte} (h : c.ReadFrom record)
    (hrising : risingPoints c.points = true) {j : Nat} :
    (j < c.points.length → ¬ 4095 < (halfAt record (7 + 4 * j)).toNat) ∧
      (j + 1 < c.points.length → (halfAt record (5 + 4 * j)).toInt < (halfAt record (9 + 4 * j)).toInt) := by
  obtain ⟨-, hpoints⟩ := pointsAt_eq_some h.points
  refine ⟨fun hj hbad => ?_, fun hj => ?_⟩
  · obtain ⟨-, hy⟩ := hpoints j hj
    rw [show 5 + 4 * j + 2 = 7 + 4 * j by omega, levelOf_none _ hbad] at hy
    cases hy
  · obtain ⟨hx, -⟩ := hpoints j (by omega)
    obtain ⟨hx', -⟩ := hpoints (j + 1) hj
    rw [show 9 + 4 * j = 5 + 4 * (j + 1) by omega, hx, hx']
    exact List.pairwise_iff_getElem.mp ((risingPoints_iff _).mp hrising) j (j + 1) _ _ (Nat.lt_succ_self j)

/-- A record from which a valid configuration is read fails no condition of R89. -/
theorem OutputConfig.ReadFrom.not_bad {own : Addr} {c : OutputConfig} {record : List Byte} (h : c.ReadFrom record)
    (hvalid : c.valid own = true) : ¬ outputRecordBad own record := by
  obtain ⟨-, hown, ⟨htwo, height⟩, hrising⟩ := (c.valid_iff own).mp hvalid
  have hnode : ¬ ((byteAt record 1).toNat = 0 ∨ 62 < (byteAt record 1).toNat ∨
      byteAt record 1 = own.setWidth 8) := fun hbad => by
    rcases nodeOf_refused hbad with hnone | hsome
    · exact absurd (hnone.symm.trans h.targetNode) nofun
    · exact hown (Option.some.inj (h.targetNode.symm.trans hsome))
  rintro (hbad | hbad | hbad | hbad | hbad | hbad | hbad | hbad | ⟨j, hj, hbad⟩ | ⟨j, hj, hbad⟩ | hbad | hbad | hbad | hbad)
  · exact absurd ((boolOf_none hbad).symm.trans h.enabled) nofun
  · exact hnode (.inl hbad)
  · exact hnode (.inr (.inl hbad))
  · exact hnode (.inr (.inr hbad))
  · exact absurd ((nibbleOf_none _ hbad).symm.trans h.targetIndex) nofun
  · exact absurd ((slotOf_none _ hbad).symm.trans h.source) nofun
  · rw [h.count] at hbad
    omega
  · rw [h.count] at hbad
    omega
  · obtain ⟨hy, -⟩ := h.points_inRange hrising (j := j)
    exact hy (h.count ▸ hj) hbad
  · obtain ⟨-, hx⟩ := h.points_inRange hrising (j := j)
    exact absurd (hx (h.count ▸ hj)) (not_lt.mpr hbad)
  · exact absurd ((levelOf_none _ hbad).symm.trans h.deadband) nofun
  · exact absurd ((levelOf_none _ hbad).symm.trans h.slew) nofun
  · exact absurd ((fallbackOf_none hbad).symm.trans h.fallback) nofun
  · exact absurd ((levelOf_none _ hbad).symm.trans h.safe) nofun

/-- A record that fails a condition of R89 is no configuration (R105). -/
theorem outputConfigOf_bad {own : Addr} {record : List Byte} (h : outputRecordBad own record) :
    outputConfigOf own record = none :=
  Option.eq_none_iff_forall_ne_some.mpr fun _ hc =>
    let ⟨hvalid, hread⟩ := outputConfigOf_eq_some_iff.mp hc
    hread.not_bad hvalid h

end Sys2Proof.Machine
end

section
/-! SUPPORT. The requests that change an output: FORCE_OUTPUT, RELEASE_OUTPUT, WRITE_OUTPUT (section 5.7). -/

namespace Sys2Proof.Machine

/-! ## FORCE_OUTPUT and RELEASE_OUTPUT (R102, R104) -/

/-- A force writes the record and issues the value, in one equation (R102). -/
theorem State.force_eq (s : State) (i : OutIdx) (w : Level) :
    s.force i w = { s.setOutput i { s.output i with
        runtime := { (s.output i).runtime with state := .forced, forced := some w, issued := some w } } with
      setpoints := s.withItem i (some w) } :=
  s.setOutput_issued i { s.output i with
    runtime := { (s.output i).runtime with state := .forced, forced := some w } } (some w) rfl rfl

/-- FORCE_OUTPUT's own rule: its three checks in order, then the force (R102). -/
theorem State.doForceOutput_eq (s : State) (b : Byte) (v : Half) :
    (outputOf b = none → s.doForceOutput ([b] ++ halfBytes v) = s.refuse .badIndex) ∧
    (∀ i, outputOf b = some i →
      ((s.output i).config.enabled = false → s.doForceOutput ([b] ++ halfBytes v) = s.refuse .notEnabled) ∧
      ((s.output i).config.enabled = true →
        (levelOf v = none → s.doForceOutput ([b] ++ halfBytes v) = s.refuse .invalidRecord) ∧
        (∀ w, levelOf v = some w → s.doForceOutput ([b] ++ halfBytes v) = (s.force i w).okay))) := by
  have hb : byteAt ([b] ++ halfBytes v) 0 = b := rfl
  have hv : halfAt ([b] ++ halfBytes v) 1 = v := halfAt_one b v []
  simp only [State.doForceOutput, hb, hv]
  refine ⟨fun h => by rw [h], fun i hi => ⟨fun he => ?_, fun he => ⟨fun hw => ?_, fun w hw => ?_⟩⟩⟩
  · simp only [hi, he, Bool.false_eq_true, not_false_eq_true, if_true]
  · simp only [hi, he, not_true, if_false, hw]
  · simp only [hi, he, not_true, if_false, hw]

/-- RELEASE_OUTPUT's own rule (R104). -/
theorem State.doReleaseOutput_eq (s : State) (b : Byte) :
    (outputOf b = none → s.doReleaseOutput [b] = s.refuse .badIndex) ∧
    (∀ i, outputOf b = some i →
      ((s.output i).runtime.state ≠ .forced → s.doReleaseOutput [b] = s.refuse .notForced) ∧
      ((s.output i).runtime.state = .forced → s.doReleaseOutput [b] = (s.judgeAfresh i).okay)) := by
  have hb : byteAt [b] 0 = b := rfl
  simp only [State.doReleaseOutput, hb]
  refine ⟨fun h => by rw [h], fun i hi => ⟨fun hs => ?_, fun hs => ?_⟩⟩
  · simp only [hi, if_neg hs]
  · simp only [hi, if_pos hs]

theorem State.judgeAfresh_valid {s : State} {i : OutIdx} (h : s.sourceValid i = true) :
    s.judgeAfresh i = s.followSource i :=
  if_pos h

theorem State.judgeAfresh_invalid {s : State} {i : OutIdx} (h : s.sourceValid i = false) :
    s.judgeAfresh i = s.enterFallback i :=
  if_neg (by simp [h])

/-- Settles O44. -/
theorem forceAndRelease : Obligations.ForceAndRelease := by
  refine ⟨fun s e b v h => ⟨fun hb => ?_, ?_⟩, fun s e b h => ⟨fun hb => ?_, ?_⟩⟩
  · obtain ⟨hnone, -⟩ := s.doForceOutput_eq b v
    exact exec_refuse .forceOutput State.doForceOutput rfl h rfl (hnone (outputOf_none b hb))
  · rintro i rfl
    obtain ⟨-, hsome⟩ := s.doForceOutput_eq (indexByte i) v
    obtain ⟨hdisabled, henabled⟩ := hsome i (outputOf_indexByte i)
    refine ⟨fun he => exec_refuse .forceOutput State.doForceOutput rfl h rfl (hdisabled he), fun he => ?_⟩
    obtain ⟨hbad, hforce⟩ := henabled he
    refine ⟨fun hv => exec_refuse .forceOutput State.doForceOutput rfl h rfl (hbad (levelOf_none v hv)), ?_⟩
    rintro w rfl
    rw [exec_okay .forceOutput State.doForceOutput rfl h rfl (hforce w (levelOf_setWidth w)), s.force_eq i w]
  · obtain ⟨hnone, -⟩ := s.doReleaseOutput_eq b
    exact exec_refuse .releaseOutput State.doReleaseOutput rfl h rfl (hnone (outputOf_none b hb))
  · rintro i rfl
    obtain ⟨-, hsome⟩ := s.doReleaseOutput_eq (indexByte i)
    obtain ⟨hnot, hrelease⟩ := hsome i (outputOf_indexByte i)
    refine ⟨fun hs => exec_refuse .releaseOutput State.doReleaseOutput rfl h rfl (hnot hs), ?_, fun hs hv => ?_⟩
    · rintro hs hv _ rfl
      rw [exec_okay .releaseOutput State.doReleaseOutput rfl h rfl (hrelease hs), State.judgeAfresh_valid hv,
        s.followSource_eq i]
    · rw [exec_okay .releaseOutput State.doReleaseOutput rfl h rfl (hrelease hs), State.judgeAfresh_invalid hv,
        s.enterFallback_eq i]

/-! ## Judging an output whose record was just written (R95, R97, R98) -/

section
variable (s : State) (i : OutIdx) (o : OutputRecord)

theorem State.sourceValid_setOutput :
    (s.setOutput i o).sourceValid i = (s.channel o.config.source).runtime.state.isValid := by
  rw [State.sourceValid, State.output_setOutput_self]
  rfl

theorem State.sourceValue_setOutput :
    (s.setOutput i o).sourceValue i = (s.channel o.config.source).runtime.value := by
  rw [State.sourceValue, State.output_setOutput_self]
  rfl

/-- What the output then issues is placed with its new target pair. -/
theorem State.withItem_setOutput (w : Option Level) :
    (s.setOutput i o).withItem i w = match w with
      | none => s.setpoints
      | some x => placeItem s.setpoints
          { output := i, node := o.config.targetNode, index := o.config.targetIndex, value := x } := by
  cases w with
  | none => rfl
  | some x => simp only [State.withItem, State.output_setOutput_self, State.setOutput_setpoints]

theorem State.withItem_setOutput_same (hnode : o.config.targetNode = (s.output i).config.targetNode)
    (hindex : o.config.targetIndex = (s.output i).config.targetIndex) (w : Option Level) :
    (s.setOutput i o).withItem i w = s.withItem i w := by
  rw [State.withItem_setOutput, hnode, hindex]
  cases w <;> rfl

theorem State.setOutput_followSource {v : Level}
    (hv : v = curve o.config.points (s.channel o.config.source).runtime.value) :
    (s.setOutput i o).followSource i = { s.setOutput i (({ o with
        runtime := { o.runtime with state := .normal, forced := none, target := some v } } : OutputRecord).withIssue
          (o.normalIssue v)) with
      setpoints := (s.setOutput i o).withItem i (o.normalIssue v) } := by
  rw [State.followSource_eq, State.sourceValue_setOutput, State.output_setOutput_self, State.setOutput_setOutput, hv]

theorem State.setOutput_normalCompute (v : Half) :
    (s.setOutput i o).normalCompute i v = { s.setOutput i (({ o with
        runtime := { o.runtime with target := some (curve o.config.points v) } } : OutputRecord).withIssue
          (o.normalIssue (curve o.config.points v))) with
      setpoints := (s.setOutput i o).withItem i (o.normalIssue (curve o.config.points v)) } := by
  rw [State.normalCompute_setOutput, State.output_setOutput_self, State.setOutput_setOutput]

theorem State.setOutput_exitFallback (v : Half) :
    (s.setOutput i o).exitFallback i v = { s.setOutput i (({ o with
        runtime := { o.runtime with state := .normal, target := some (curve o.config.points v) } } :
          OutputRecord).withIssue (o.normalIssue (curve o.config.points v))) with
      setpoints := (s.setOutput i o).withItem i (o.normalIssue (curve o.config.points v))
      log := s.log.raise s.system.classMask s.time.counter .fallbackExit (.output i) (BitVec.ofNat 16 i.val) } := by
  rw [State.exitFallback_eq, State.output_setOutput_self, State.setOutput_setOutput]
  rfl

theorem State.setOutput_enterFallback :
    (s.setOutput i o).enterFallback i = { s.setOutput i o.fellBack with
      setpoints := (s.setOutput i o).withItem i o.entryIssue
      log := s.log.raise s.system.classMask s.time.counter .fallbackEnter (.output i) (BitVec.ofNat 16 i.val) } := by
  rw [State.enterFallback_eq, State.output_setOutput_self, State.setOutput_setOutput]
  rfl

theorem State.setOutput_entryAction :
    (s.setOutput i o).entryAction i = { s.setOutput i (o.withIssue o.entryIssue) with
      setpoints := (s.setOutput i o).withItem i o.entryIssue } := by
  rw [State.entryAction_eq, State.issued_eq, State.output_setOutput_self, State.setOutput_setOutput]

end

/-! ## An output that has issued nothing -/

/-- What the fallback policy issues first: the ramp begins at safe (R98, R99). -/
def OutputConfig.firstFallback (c : OutputConfig) : Option Level :=
  match c.fallback with
  | .hold => none
  | .safe => some c.safe
  | .ramp => some c.safe

section
variable {o : OutputRecord} (h : o.runtime.issued = none)
include h

theorem OutputRecord.entryIssue_unissued : o.entryIssue = o.config.firstFallback := by
  unfold OutputRecord.entryIssue OutputConfig.firstFallback
  cases o.config.fallback with
  | hold => rfl
  | safe => rfl
  | ramp => rw [h]; rfl

theorem OutputRecord.normalIssue_unissued (v : Level) : o.normalIssue v = some v := by
  rw [OutputRecord.normalIssue, h]

theorem OutputRecord.withIssue_unissued (w : Option Level) :
    o.withIssue w = { o with runtime := { o.runtime with issued := w } } := by
  cases w with
  | none =>
    obtain ⟨config, runtime⟩ := o
    cases runtime
    cases h
    rfl
  | some w => rfl

theorem OutputRecord.fellBack_unissued :
    o.fellBack = { o with runtime := { o.runtime with
      state := .fallback, forced := none, issued := o.config.firstFallback } } := by
  rw [OutputRecord.fellBack, OutputRecord.entryIssue_unissued h]
  exact OutputRecord.withIssue_unissued
    (o := { o with runtime := { o.runtime with state := .fallback, forced := none } }) h _

end

/-! ## WRITE_OUTPUT (R105 to R107) -/

theorem State.targetHeld_iff (s : State) (i : OutIdx) (node : Addr) (index : BitVec 4) :
    s.targetHeld i node index = true ↔ ∃ j, j ≠ i ∧ (s.output j).config.enabled = true ∧
      (s.output j).config.targetNode = node ∧ (s.output j).config.targetIndex = index := by
  simp [State.targetHeld]

/-- WRITE_OUTPUT's own rule: its checks in order, then the output rewritten (R105). -/
theorem State.doWriteOutput_eq (s : State) (b : Byte) (record : List Byte) :
    (outputOf b = none → s.doWriteOutput (b :: record) = s.refuse .badIndex) ∧
    (∀ i, outputOf b = some i →
      (outputRecordBad s.system.ownAddress record → s.doWriteOutput (b :: record) = s.refuse .invalidRecord) ∧
      (∀ c : OutputConfig, c.valid s.system.ownAddress = true → c.spelledBy record →
        (c.enabled = true → (∃ j, j ≠ i ∧ (s.output j).config.enabled = true ∧
            (s.output j).config.targetNode = c.targetNode ∧ (s.output j).config.targetIndex = c.targetIndex) →
          s.doWriteOutput (b :: record) = s.refuse .duplicate) ∧
        ((c.enabled = true → ∀ j, j ≠ i → (s.output j).config.enabled = true →
            ¬ ((s.output j).config.targetNode = c.targetNode ∧ (s.output j).config.targetIndex = c.targetIndex)) →
          s.doWriteOutput (b :: record) = (s.rewriteOutput i c).tableWritten.okay))) := by
  have hb : byteAt (b :: record) 0 = b := rfl
  simp only [State.doWriteOutput, hb, List.drop_succ_cons, List.drop_zero]
  refine ⟨fun h => by rw [h], fun i hi => ⟨fun hbad => ?_, fun c hvalid hspelled => ⟨fun he hheld => ?_, fun hfree => ?_⟩⟩⟩
  · simp only [hi, outputConfigOf_bad hbad]
  · simp only [hi, outputConfigOf_spelled hvalid hspelled]
    exact if_pos ⟨he, (s.targetHeld_iff i _ _).mpr hheld⟩
  · simp only [hi, outputConfigOf_spelled hvalid hspelled]
    refine if_neg fun ⟨he, hheld⟩ => ?_
    obtain ⟨j, hj, hen, hpair⟩ := (s.targetHeld_iff i _ _).mp hheld
    exact hfree he j hj hen hpair

/-- WRITE_OUTPUT answered OK: the output rewritten, the tables marked (R105, R186). -/
theorem exec_writeOutput {s : State} {e : RequestEntry} {i : OutIdx} {c : OutputConfig} {record : List Byte}
    (h : s.Executes e .writeOutput (indexByte i :: record)) (hvalid : c.valid s.system.ownAddress = true)
    (hspelled : c.spelledBy record)
    (hfree : c.enabled = true → ∀ j, j ≠ i → (s.output j).config.enabled = true →
      ¬ ((s.output j).config.targetNode = c.targetNode ∧ (s.output j).config.targetIndex = c.targetIndex)) :
    exec .writeOutput s = .next ((s.rewriteOutput i c).tableWritten.withAnswer e .ok []) := by
  have ⟨hlength, _⟩ := hspelled
  have hok : RequestKind.writeOutput.lengthOk (indexByte i :: record).length = true := by
    rw [List.length_cons, hlength]
    rfl
  obtain ⟨-, hsome⟩ := s.doWriteOutput_eq (indexByte i) record
  obtain ⟨-, hrecord⟩ := hsome i (outputOf_indexByte i)
  obtain ⟨-, hwrite⟩ := hrecord c hvalid hspelled
  exact exec_okay .writeOutput State.doWriteOutput rfl h hok (hwrite hfree)

section
variable {s : State} {i : OutIdx} {c : OutputConfig}

/-- An output disabled becomes OFF, cleared, and its item goes (R106, R111). -/
theorem State.rewriteOutput_disabled (hc : c.enabled = false) :
    s.rewriteOutput i c = { s.setOutput i { config := c, runtime := .cleared .off } with
      setpoints := s.setpoints.filter fun it => decide (it.output ≠ i) } := by
  simp only [State.rewriteOutput, hc, Bool.false_eq_true, not_false_eq_true, if_true]
  rfl

/-- An output newly enabled is judged from a cleared runtime (R106). -/
theorem State.rewriteOutput_newlyEnabled (hc : c.enabled = true) (hold : (s.output i).config.enabled = false) :
    s.rewriteOutput i c = (s.setOutput i { config := c, runtime := .cleared .off }).judgeAfresh i := by
  simp only [State.rewriteOutput, hc, hold, not_true, if_false, Bool.false_eq_true, not_false_eq_true, if_true]

theorem State.rewriteOutput_sameTarget (hc : c.enabled = true) (hold : (s.output i).config.enabled = true)
    (hpair : c.targetNode = (s.output i).config.targetNode ∧ c.targetIndex = (s.output i).config.targetIndex) :
    s.rewriteOutput i c = (s.setOutput i { config := c, runtime := (s.output i).runtime }).rewriteSameTarget i := by
  simp only [State.rewriteOutput, hc, hold, not_true, if_false]
  exact if_pos hpair

theorem State.rewriteOutput_newTarget (hc : c.enabled = true) (hold : (s.output i).config.enabled = true)
    (hpair : ¬ (c.targetNode = (s.output i).config.targetNode ∧ c.targetIndex = (s.output i).config.targetIndex)) :
    s.rewriteOutput i c = (s.setOutput i { config := c, runtime := (s.output i).runtime }).rewriteNewTarget i := by
  simp only [State.rewriteOutput, hc, hold, not_true, if_false]
  exact if_neg hpair

end

/-- A newly enabled output whose source is valid follows it at once (R95, R106). -/
theorem State.setOutput_judgeAfresh_valid (s : State) (i : OutIdx) {c : OutputConfig} {v : Level}
    (hvalid : (s.channel c.source).runtime.state.isValid = true)
    (hv : v = curve c.points (s.channel c.source).runtime.value) :
    (s.setOutput i { config := c, runtime := .cleared .off }).judgeAfresh i = { s.setOutput i { config := c, runtime :=
        { state := .normal, issued := some v, target := some v, forced := none, refreshCount := 0 } } with
      setpoints := placeItem s.setpoints { output := i, node := c.targetNode, index := c.targetIndex, value := v } } := by
  rw [State.judgeAfresh_valid ((s.sourceValid_setOutput i _).trans hvalid), State.setOutput_followSource s i _ hv,
    OutputRecord.normalIssue_unissued rfl, State.withItem_setOutput]
  rfl

/-- A newly enabled output whose source is invalid enters FALLBACK (R98, R106). -/
theorem State.setOutput_judgeAfresh_invalid (s : State) (i : OutIdx) {c : OutputConfig}
    (hinvalid : (s.channel c.source).runtime.state.isValid = false) :
    (s.setOutput i { config := c, runtime := .cleared .off }).judgeAfresh i = { s.setOutput i { config := c, runtime :=
        { state := .fallback, issued := c.firstFallback, target := none, forced := none, refreshCount := 0 } } with
      setpoints := (s.setOutput i { config := c, runtime := .cleared .off }).withItem i c.firstFallback
      log := s.log.raise s.system.classMask s.time.counter .fallbackEnter (.output i) (BitVec.ofNat 16 i.val) } := by
  rw [State.judgeAfresh_invalid ((s.sourceValid_setOutput i _).trans hinvalid), State.setOutput_enterFallback,
    OutputRecord.fellBack_unissued rfl, OutputRecord.entryIssue_unissued rfl]
  rfl

/-- Settles O45. -/
theorem writeOutputEnabling : Obligations.WriteOutputEnabling := by
  intro s e b record hlength h
  obtain ⟨hnone, hsome⟩ := s.doWriteOutput_eq b record
  have hok : RequestKind.writeOutput.lengthOk (b :: record).length = true := by
    rw [List.length_cons, hlength]
    rfl
  refine ⟨fun hb => exec_refuse .writeOutput State.doWriteOutput rfl h hok (hnone (outputOf_none b hb)),
    fun hb hbad => ?_, ?_⟩
  · have hi : outputOf b = some ⟨b.toNat, Nat.lt_succ_of_le hb⟩ := dif_pos (Nat.lt_succ_of_le hb)
    obtain ⟨hinvalid, -⟩ := hsome _ hi
    exact exec_refuse .writeOutput State.doWriteOutput rfl h hok (hinvalid hbad)
  · rintro i c rfl hvalid hspelled
    obtain ⟨-, hrecord⟩ := hsome i (outputOf_indexByte i)
    obtain ⟨hduplicate, -⟩ := hrecord c hvalid hspelled
    refine ⟨fun he hheld => exec_refuse .writeOutput State.doWriteOutput rfl h hok (hduplicate he hheld), fun he => ?_,
      fun he hold hfree => ⟨fun hsource v hv => ?_, ?_⟩⟩
    · rw [exec_writeOutput h hvalid hspelled (by simp [he]), State.rewriteOutput_disabled he]
      rfl
    · rw [exec_writeOutput h hvalid hspelled fun _ => hfree, State.rewriteOutput_newlyEnabled he hold,
        s.setOutput_judgeAfresh_valid i hsource hv]
      rfl
    · rintro hsource _ rfl
      rw [exec_writeOutput h hvalid hspelled fun _ => hfree, State.rewriteOutput_newlyEnabled he hold,
        s.setOutput_judgeAfresh_invalid i hsource, State.withItem_setOutput]
      rfl

/-! ## WRITE_OUTPUT on an output that stays enabled (R107) -/

section
variable (s : State) (i : OutIdx) (o : OutputRecord)

/-- A kept target pair: FORCED stands, NORMAL and FALLBACK are judged against the source (R107). -/
theorem State.setOutput_rewriteSameTarget :
    (o.runtime.state = .forced → (s.setOutput i o).rewriteSameTarget i = s.setOutput i o) ∧
    ((s.channel o.config.source).runtime.state.isValid = true →
      (o.runtime.state = .normal → (s.setOutput i o).rewriteSameTarget i =
        (s.setOutput i o).normalCompute i (s.channel o.config.source).runtime.value) ∧
      (o.runtime.state = .fallback → (s.setOutput i o).rewriteSameTarget i =
        (s.setOutput i o).exitFallback i (s.channel o.config.source).runtime.value)) ∧
    ((s.channel o.config.source).runtime.state.isValid = false →
      (o.runtime.state = .normal → (s.setOutput i o).rewriteSameTarget i = (s.setOutput i o).enterFallback i) ∧
      (o.runtime.state = .fallback → (s.setOutput i o).rewriteSameTarget i = (s.setOutput i o).entryAction i)) := by
  simp only [State.rewriteSameTarget, State.output_setOutput_self, State.sourceValid_setOutput,
    State.sourceValue_setOutput]
  refine ⟨fun hs => by rw [hs], fun hv => ⟨fun hs => ?_, fun hs => ?_⟩, fun hv => ⟨fun hs => ?_, fun hs => ?_⟩⟩
  · simp only [hs, hv, if_true]
  · simp only [hs, hv, if_true]
  · simp only [hs, hv, Bool.false_eq_true, if_false]
  · simp only [hs, hv, Bool.false_eq_true, if_false]

/-- The record of an output once its target pair has changed: nothing issued to it yet, and not forced (R107). -/
def OutputRecord.retargeted (o : OutputRecord) : OutputRecord :=
  { o with runtime := { o.runtime with issued := none, forced := none } }

/-- A changed target pair: the item goes, and the output is judged with nothing issued (R107, R111). -/
theorem State.setOutput_rewriteNewTarget :
    (s.setOutput i o).rewriteNewTarget i =
      if (s.channel o.config.source).runtime.state.isValid then
        ((s.dropItem i).setOutput i o.retargeted).followSource i
      else if o.runtime.state = .fallback then ((s.dropItem i).setOutput i o.retargeted).entryAction i
      else ((s.dropItem i).setOutput i o.retargeted).enterFallback i := by
  have hdrop : (s.setOutput i o).dropItem i = (s.dropItem i).setOutput i o := rfl
  have hsource := (s.dropItem i).sourceValid_setOutput i o.retargeted
  simp only [State.rewriteNewTarget, hdrop, State.setOutputRuntime, State.output_setOutput_self,
    State.setOutput_setOutput]
  rw [← OutputRecord.retargeted, hsource]
  rfl

/-- A new item of an output whose old one was dropped joins the tail (R110, R111). -/
theorem State.withItem_dropItem (w : Option Level) :
    ((s.dropItem i).setOutput i o).withItem i w =
      (s.setpoints.filter fun it => decide (it.output ≠ i)) ++ match w with
        | none => []
        | some x => [{ output := i, node := o.config.targetNode, index := o.config.targetIndex, value := x }] := by
  rw [State.withItem_setOutput]
  cases w with
  | none => exact (List.append_nil _).symm
  | some x => exact placeItem_joins fun y hy => by simpa using List.of_mem_filter hy

end

/-- A retargeted output whose source is valid follows it (R107). -/
theorem State.rewriteNewTarget_valid {s : State} {i : OutIdx} {o : OutputRecord} {v : Level}
    (hvalid : (s.channel o.config.source).runtime.state.isValid = true)
    (hv : v = curve o.config.points (s.channel o.config.source).runtime.value) :
    (s.setOutput i o).rewriteNewTarget i = { s.setOutput i { config := o.config, runtime :=
        { state := .normal, issued := some v, target := some v, forced := none,
          refreshCount := o.runtime.refreshCount } } with
      setpoints := (s.setpoints.filter fun it => decide (it.output ≠ i)) ++
        [{ output := i, node := o.config.targetNode, index := o.config.targetIndex, value := v }] } := by
  rw [State.setOutput_rewriteNewTarget, if_pos hvalid, (s.dropItem i).setOutput_followSource i o.retargeted hv,
    OutputRecord.normalIssue_unissued rfl, State.withItem_dropItem]
  rfl

/-- A retargeted output whose source is invalid is in FALLBACK, newly so with its notice, and acts by its policy (R98,
R107). -/
theorem State.rewriteNewTarget_invalid {s : State} {i : OutIdx} {o : OutputRecord}
    (hinvalid : (s.channel o.config.source).runtime.state.isValid = false) :
    (s.setOutput i o).rewriteNewTarget i = { s.setOutput i { config := o.config, runtime :=
        { state := .fallback, issued := o.config.firstFallback, target := o.runtime.target, forced := none,
          refreshCount := o.runtime.refreshCount } } with
      setpoints := ((s.dropItem i).setOutput i o.retargeted).withItem i o.config.firstFallback
      log := if o.runtime.state = .fallback then s.log else
        s.log.raise s.system.classMask s.time.counter .fallbackEnter (.output i) (BitVec.ofNat 16 i.val) } := by
  rw [State.setOutput_rewriteNewTarget, if_neg (by simp [hinvalid])]
  split
  · next hs =>
    rw [State.setOutput_entryAction, OutputRecord.entryIssue_unissued rfl, OutputRecord.withIssue_unissued rfl, ← hs]
    rfl
  · rw [State.setOutput_enterFallback, OutputRecord.entryIssue_unissued rfl, OutputRecord.fellBack_unissued rfl]
    rfl

/-- Settles O46. -/
theorem writeOutputStaysEnabled : Obligations.WriteOutputStaysEnabled := by
  constructor
  · rintro s e i c o record h hspelled hvalid he hold hnode hindex hfree rfl
    have hexec := exec_writeOutput h hvalid hspelled fun _ => hfree
    rw [State.rewriteOutput_sameTarget he hold ⟨hnode, hindex⟩] at hexec
    have hset := s.withItem_setOutput_same i { config := c, runtime := (s.output i).runtime } hnode hindex
    obtain ⟨hforced, hfollow, hfallback⟩ :=
      s.setOutput_rewriteSameTarget i { config := c, runtime := (s.output i).runtime }
    refine ⟨fun hs => ?_, ?_, fun hsource => ?_⟩
    · rw [hexec, hforced hs]
      rfl
    · rintro hsource _ rfl
      obtain ⟨hnormal, hback⟩ := hfollow hsource
      refine ⟨fun hs => ?_, fun hs => ?_⟩
      · rw [hexec, hnormal hs, State.setOutput_normalCompute, hset]
        rfl
      · rw [hexec, hback hs, State.setOutput_exitFallback, hset]
        rfl
    · obtain ⟨hnormal, hstay⟩ := hfallback hsource
      refine ⟨fun hs => ?_, fun hs => ?_⟩
      · rw [hexec, hnormal hs, State.setOutput_enterFallback, hset]
        rfl
      · rw [hexec, hstay hs, State.setOutput_entryAction, hset]
        rfl
  · rintro s e i c r kept record h hspelled hvalid he hold hpair hfree - rfl rfl
    have hexec := exec_writeOutput h hvalid hspelled fun _ => hfree
    rw [State.rewriteOutput_newTarget he hold hpair] at hexec
    refine ⟨fun hsource v hv => ?_, ?_⟩
    · rw [hexec, State.rewriteNewTarget_valid hsource hv]
      rfl
    · rintro hsource _ rfl
      rw [hexec, State.rewriteNewTarget_invalid hsource, State.withItem_dropItem]
      rfl

end Sys2Proof.Machine
end

section
/-! SUPPORT. The Notice Log over every step: its laws survive every command (sections 6.1 to 6.8). -/

namespace Sys2Proof.Machine

/-! ## What leaves the log as it is -/

theorem State.frameStart_log (s : State) (p : Port) : (State.frameStart p s).log = s.log := by
  unfold State.frameStart
  split
  · rfl
  · dsimp only
    split <;> simp

theorem State.byteArrival_log (s : State) (p : Port) (b : Byte) : (State.byteArrival p b s).log = s.log := by
  unfold State.byteArrival
  split
  · rfl
  · split
    · rfl
    · split <;> simp

theorem State.returnOfSignal_log (s : State) (p : Port) : (State.returnOfSignal p s).log = s.log := by
  unfold State.returnOfSignal
  split
  · rfl
  · exact s.setPort_log p _

theorem State.startForwarded_log (s : State) (p : Port) : (s.startForwarded p).log = s.log := by
  unfold State.startForwarded
  split
  · rfl
  · simp

theorem State.startResponse_log (s : State) : s.startResponse.log = s.log := by
  unfold State.startResponse
  split <;> rfl

theorem State.startSetpoint_log (s : State) : s.startSetpoint.log = s.log := by
  unfold State.startSetpoint
  split <;> rfl

theorem State.startF_log (s : State) : s.startF.log = s.log := by
  unfold State.startF
  split
  · rfl
  · split
    · rfl
    · exact s.startForwarded_log .f
    · exact s.startSetpoint_log

theorem State.tick_log (s : State) : s.tick.log = s.log := by
  unfold State.tick
  split <;> rfl

theorem State.nodeTableTick_log (s : State) : s.nodeTableTick.log = s.log := by
  unfold State.nodeTableTick
  split <;> rfl

theorem State.channelTableTick_log (s : State) : s.channelTableTick.log = s.log := by
  unfold State.channelTableTick
  split <;> rfl

theorem State.outputUnitTick_log (s : State) : s.outputUnitTick.log = s.log := by
  unfold State.outputUnitTick
  split <;> rfl

/-- The log's own tick only finds the go-back due (log 3). -/
theorem State.noticeLogTick_log (s : State) : s.noticeLogTick.log = s.log := by
  unfold State.noticeLogTick
  split <;> rfl

theorem State.endErasure_log (s : State) : s.endErasure.log = s.log := by
  unfold State.endErasure
  split
  · rfl
  · split <;> rfl

theorem State.endWriting_log (s : State) (m : MediumResult) : (s.endWriting m).log = s.log := by
  unfold State.endWriting
  split
  · rfl
  · split <;> rfl

theorem State.executeUnknown_log (s : State) : s.executeUnknown.log = s.log := by
  unfold State.executeUnknown
  split
  · rfl
  · split <;> rfl

/-! ## What changes the log keeps its laws -/

namespace State.LogLawful

variable {s t : State}

/-- A reset leaves the log with its RESTARTED entry alone (R138, R139). -/
theorem of_restarted {v : Half} (h : t.log = .restarted v) : t.LogLawful := by
  unfold State.LogLawful
  rw [h]
  exact NoticeLog.restarted_lawful v

theorem frameEnd (h : s.LogLawful) (p : Port) : (State.frameEnd p s).LogLawful := by
  unfold State.frameEnd
  split
  · exact h
  · split
    · exact h
    · exact State.judgeEnd_lawful _ (h.congr (s.setPort_log p _)) p _

/-! ### Transmissions -/

/-- The response of a RESTART restarts the part at its end; any other leaves the log (R162, R171). -/
theorem releaseResponse (h : s.LogLawful) (completed : Bool) : (s.releaseResponse completed).LogLawful := by
  unfold State.releaseResponse
  split
  · exact h
  · split
    · exact h
    · dsimp only
      split
      · exact of_restarted (State.restartBlocks_log _ 1)
      · exact h.congr rfl

theorem endTransmission (h : s.LogLawful) (p : Port) (completed : Bool) :
    (s.endTransmission p completed).LogLawful := by
  cases ht : (s.port p).transmitter with
  | none => rwa [s.endTransmission_none p completed ht]
  | some x =>
    rw [s.endTransmission_eq p completed x ht]
    have hended := fun r => h.congr (s.setPort_log p r)
    split
    · exact (hended _).releaseResponse completed
    · exact hended _

theorem lossOfSignal (h : s.LogLawful) (p : Port) : (State.lossOfSignal p s).LogLawful := by
  unfold State.lossOfSignal
  split
  · exact h
  · exact (h.congr (s.setPort_log p _)).endTransmission p false

/-- Of the S-port's sources only a NOTICE touches the log: its entries become SENT (R128). -/
theorem startS (h : s.LogLawful) : s.startS.LogLawful := by
  unfold State.startS
  split
  · exact h
  · split
    · exact h
    · exact h.congr (s.startForwarded_log .s)
    · exact h.congr s.startResponse_log
    · exact NoticeLog.Lawful.afterSend (l := s.log) h s.time.counter
    · exact h

/-! ### Within a tick event -/

theorem settleGoBack (h : s.LogLawful) : s.settleGoBack.LogLawful := by
  unfold State.settleGoBack
  dsimp only
  split
  · exact NoticeLog.Lawful.goBack (l := s.log) h s.time.counter
  · exact h.congr rfl

theorem nextSilent (h : s.LogLawful) : s.nextSilent.LogLawful := by
  unfold State.nextSilent
  split
  · exact s.settle_lawful h
  · exact (s.silenceNode_lawful h _).congr rfl

theorem nextStale (h : s.LogLawful) : s.nextStale.LogLawful := by
  unfold State.nextStale
  split
  · exact s.settle_lawful h
  · exact (s.enterStale_lawful h _ .channel).congr rfl

theorem nextRefresh (h : s.LogLawful) : s.nextRefresh.LogLawful := by
  unfold State.nextRefresh
  split
  · exact s.settle_lawful h
  · exact h.congr (s.refreshOutput_log _)

theorem takeGoBack (h : s.LogLawful) : s.takeGoBack.LogLawful := by
  unfold State.takeGoBack
  split
  · exact h.settleGoBack
  · exact s.settle_lawful h

/-! ### Commits and requests -/

/-- The end of a read-back raises COMMIT_DONE or COMMIT_FAILED, of no subject (R192, R193). -/
theorem endReadBack (h : s.LogLawful) : s.endReadBack.LogLawful := by
  unfold State.endReadBack
  split
  · exact h
  · split
    · dsimp only
      split
      · exact State.raise_lawful _ (h.congr rfl) .commitDone .none _ (by decide) (by decide)
      · exact State.raise_lawful _ (h.congr rfl) .commitFailed .none _ (by decide) (by decide)
    · exact h

theorem withAnswer (h : t.LogLawful) (e : RequestEntry) (status : Status) (results : List Byte) :
    (t.withAnswer e status results).LogLawful :=
  h.congr rfl

theorem request (h : s.LogLawful) {c : Instr} {kind : RequestKind} {body : State → List Byte → Answer}
    (hc : requestOf c = some (kind, body)) : (effectOf c s).LogLawful := by
  rw [effectOf_request c kind body s hc]
  rcases s.executeRequest_cases kind body with hs | ⟨e, -, hs⟩ | ⟨e, -, -, -, hs⟩
  · rw [hs]; exact h
  · rw [hs]; exact h.withAnswer e _ _
  · rw [hs]; exact (requestOf_lawful c kind body hc s h _).withAnswer e _ _

/-! ### Every command -/

theorem effect (h : s.LogLawful) (c : Instr) : (effectOf c s).LogLawful := by
  cases hc : requestOf c with
  | some r => exact h.request hc
  | none =>
    cases c with
    | frameStart p => exact h.congr (s.frameStart_log p)
    | byteArrival p b => exact h.congr (s.byteArrival_log p b)
    | frameEnd p => exact h.frameEnd p
    | lossOfSignal p => exact h.lossOfSignal p
    | returnOfSignal p => exact h.congr (s.returnOfSignal_log p)
    | tick => exact h.congr s.tick_log
    | nodeTableTick => exact h.congr s.nodeTableTick_log
    | nodeSilent => exact h.nextSilent
    | channelTableTick => exact h.congr s.channelTableTick_log
    | channelStale => exact h.nextStale
    | outputUnitTick => exact h.congr s.outputUnitTick_log
    | refresh => exact h.nextRefresh
    | noticeLogTick => exact h.congr s.noticeLogTick_log
    | goBack => exact h.takeGoBack
    | sPortStart => exact h.startS
    | fPortStart => exact h.congr s.startF_log
    | transmissionComplete p => exact h.endTransmission p true
    | unknownRequest => exact h.congr s.executeUnknown_log
    | erasureEnds => exact h.congr s.endErasure_log
    | writingEnds m => exact h.congr (s.endWriting_log m)
    | readBackEnds => exact h.endReadBack
    | resetAsserted => exact h.congr rfl
    | hardReset lineF lineS => exact of_restarted (s.hardReset_blocksReset lineF lineS).log
    | echo | readSystem | writeSystem | readStats | restart | enrolNode | retireNode | readNode | bind | unbind
    | writeChannel | readChannel | ackBand | writeOutput | readOutput | forceOutput | releaseOutput | ackNotices
    | capture | readCapture | commit | readImage => cases hc

end State.LogLawful

/-- Settles O57: the laws survive the end of an open tick event and every command's own effect. -/
theorem noticeLogStaysLawful : Obligations.NoticeLogStaysLawful :=
  step_keeps State.LogLawful (fun _ _ h => h.congr rfl)
    (exec_keeps State.LogLawful (fun s _ h => s.settle_lawful h) (fun c _ _ _ h => h.effect c)
      (fun c _ _ _ _ _ h => h.effect c) fun _ lineF lineS h => h.effect (.hardReset lineF lineS))

end Sys2Proof.Machine
end

section
/-! SUPPORT. The Notice Log's operations: a raised event, an acknowledgement and the go-back (sections 6.1 to 6.6). -/

namespace Sys2Proof.Machine

/-! ## Raising an event (R119, R122 to R125) -/

section
variable {l : NoticeLog} {mask : BitVec 4} {now : Quad} {kind : NoticeKind} {subject : Subject} {value : Half}
  {pre post : List NoticeEntry} {x : NoticeEntry}

theorem NoticeEntry.takesIn_iff {e : NoticeEntry} :
    e.takesIn subject = true ↔ e.sendState = .new ∧ e.subject = subject := by
  simp [NoticeEntry.takesIn]

theorem NoticeLog.raise_masked (h : kind.noticeClass.enabledIn mask = false) :
    l.raise mask now kind subject value = l :=
  if_pos (by simp [h])

/-- The event folds into the subject's first NEW entry (R123). -/
theorem NoticeLog.raise_coalesced (hmask : kind.noticeClass.enabledIn mask = true) (hclass : kind.noticeClass ≠ .system)
    (hl : l.entries = pre ++ x :: post) (hpre : ∀ y ∈ pre, ¬ (y.sendState = .new ∧ y.subject = subject))
    (hnew : x.sendState = .new) (hsubject : x.subject = subject) :
    l.raise mask now kind subject value =
      { l with entries := pre ++ x.coalesce now kind value :: post } := by
  have hx : x.takesIn subject = true := NoticeEntry.takesIn_iff.mpr ⟨hnew, hsubject⟩
  have hany : l.entries.any (NoticeEntry.takesIn subject) = true := List.any_eq_true.mpr ⟨x, by simp [hl], hx⟩
  have hmiss : ∀ y ∈ pre, y.takesIn subject = false := fun y hy =>
    Bool.eq_false_iff.mpr fun hy' => hpre y hy (NoticeEntry.takesIn_iff.mp hy')
  rw [NoticeLog.raise, if_neg (not_not_intro hmask), if_pos ⟨hclass, hany⟩, hl, updateFirst_append _ _ pre x post hmiss hx]

/-- An event with no entry to fold into is appended or lost, by the room for it (R122 checks 3 and 4). -/
theorem NoticeLog.raise_uncoalesced (hmask : kind.noticeClass.enabledIn mask = true)
    (h : kind.noticeClass = .system ∨ ∀ y ∈ l.entries, ¬ (y.sendState = .new ∧ y.subject = subject)) :
    l.raise mask now kind subject value =
      if l.ordinaryCount < 31 then l.append now kind subject value else l.lose now := by
  have hnone : ¬ (kind.noticeClass ≠ .system ∧ l.entries.any (NoticeEntry.takesIn subject) = true) := by
    rintro ⟨hclass, hany⟩
    obtain ⟨y, hy, htakes⟩ := List.any_eq_true.mp hany
    exact (h.resolve_left hclass) y hy (NoticeEntry.takesIn_iff.mp htakes)
  rw [NoticeLog.raise, if_neg (not_not_intro hmask), if_neg hnone]

/-- The first lost event appends the OVERFLOW entry (R125). -/
theorem NoticeLog.lose_first (h : ∀ y ∈ l.entries, y.kind ≠ .overflow) :
    l.lose now = l.append now .overflow .none 1 := by
  have hfind : (l.entries.find? fun e => decide (e.kind = .overflow)) = none :=
    List.find?_eq_none.mpr fun y hy => by simp [h y hy]
  rw [NoticeLog.lose, hfind]

/-- A later one counts in the OVERFLOW entry, or beside it while that entry is SENT (R125). -/
theorem NoticeLog.lose_later (hl : l.entries = pre ++ x :: post) (hpre : ∀ y ∈ pre, y.kind ≠ .overflow)
    (hx : x.kind = .overflow) :
    l.lose now =
      if x.sendState = .sent then { l with lostSinceMarker := satInc l.lostSinceMarker }
      else { l with entries := pre ++ { x with value := satInc x.value, stamp := now } :: post } := by
  have hmiss : ∀ y ∈ pre, decide (y.kind = .overflow) = false := fun y hy => decide_eq_false (hpre y hy)
  have hfind : (l.entries.find? fun e => decide (e.kind = .overflow)) = some x :=
    List.find?_eq_some_iff_append.mpr ⟨decide_eq_true hx, pre, post, hl, fun y hy => by simp [hpre y hy]⟩
  rw [NoticeLog.lose, hfind, hl, updateFirst_append _ _ pre x post hmiss (decide_eq_true hx)]

end

/-- Settles O50: the classes and the mask by their tables, then the four checks in order. -/
theorem raiseEvent : Obligations.RaiseEvent := by
  refine ⟨fun kind => by cases kind <;> decide, fun mask => ⟨rfl, rfl, rfl, rfl, rfl⟩,
    fun l mask now kind subject value => ⟨NoticeLog.raise_masked, fun hmask => ⟨?_, fun hroom => ?_⟩⟩⟩
  · intro pre x post hclass hl hpre hnew hsubject
    exact NoticeLog.raise_coalesced hmask hclass hl hpre hnew hsubject
  · rw [NoticeLog.raise_uncoalesced hmask hroom]
    refine ⟨fun hfew => if_pos hfew, fun hfull => ?_⟩
    have hfull : ¬ l.ordinaryCount < 31 := not_lt.mpr hfull
    rw [if_neg hfull]
    refine ⟨NoticeLog.lose_first, fun pre x post hl hpre hx => ?_⟩
    rw [NoticeLog.lose_later hl hpre hx]
    exact ⟨fun hs => if_pos hs, fun hs => if_neg hs⟩

/-! ## Acknowledging (R131, R132) -/

theorem NoticeEntry.isSent_iff {e : NoticeEntry} : e.isSent = true ↔ e.sendState = .sent := by
  simp [NoticeEntry.isSent]

/-- A number found splits the list after the entry that has it, with every entry through it SENT. -/
theorem ackSplit_some {n : Half} {l : List NoticeEntry} {r : List NoticeEntry × List NoticeEntry}
    (h : ackSplit n l = some r) :
    ∃ pre x, r.1 = pre ++ [x] ∧ l = pre ++ x :: r.2 ∧ x.number = n ∧ ∀ y ∈ pre ++ [x], y.sendState = .sent := by
  obtain ⟨hl, hsent⟩ := ackSplit_eq n l r h
  suffices hlast : ∃ pre x, r.1 = pre ++ [x] ∧ x.number = n by
    obtain ⟨pre, x, hr, hx⟩ := hlast
    refine ⟨pre, x, hr, ?_, hx, hr ▸ hsent⟩
    rw [hl, hr, List.append_assoc, List.singleton_append]
  clear hl hsent
  induction l generalizing r with
  | nil => cases h
  | cons e l ih =>
    rw [ackSplit] at h
    split at h
    · cases h
    · split at h
      · next hn => cases h; exact ⟨[], e, rfl, hn⟩
      · obtain ⟨q, hq, rfl⟩ := Option.map_eq_some_iff.mp h
        obtain ⟨pre, x, hr, hx⟩ := ih hq
        exact ⟨e :: pre, x, by rw [hr]; rfl, hx⟩

/-- The first entry with the number is found when every entry through it is SENT. -/
theorem ackSplit_of_sent {n : Half} {x : NoticeEntry} (post : List NoticeEntry) (hx : x.number = n) :
    ∀ pre : List NoticeEntry, (∀ y ∈ pre ++ [x], y.sendState = .sent) → (∀ y ∈ pre, y.number ≠ n) →
      ackSplit n (pre ++ x :: post) = some (pre ++ [x], post)
  | [], hsent, _ => by
    have hs : x.isSent = true := NoticeEntry.isSent_iff.mpr (hsent x (by simp))
    rw [List.nil_append, ackSplit, if_neg (not_not_intro hs), if_pos hx]
    rfl
  | e :: pre, hsent, hne => by
    have hs : e.isSent = true := NoticeEntry.isSent_iff.mpr (hsent e (by simp))
    rw [List.cons_append, ackSplit, if_neg (not_not_intro hs), if_neg (hne e List.mem_cons_self),
      ackSplit_of_sent post hx pre (fun y hy => hsent y (List.mem_cons_of_mem e hy))
        fun y hy => hne y (List.mem_cons_of_mem e hy)]
    rfl

section
variable {l : NoticeLog} {now : Quad} {n : Half} {pre post : List NoticeEntry} {x : NoticeEntry}

/-- A number that none of the SENT entries at the head has is refused (R131). -/
theorem NoticeLog.acknowledge_refused
    (h : ∀ pre x post, l.entries = pre ++ x :: post → x.number = n → ∃ y ∈ pre ++ [x], y.sendState ≠ .sent) :
    l.acknowledge now n = none := by
  rw [NoticeLog.acknowledge, Option.map_eq_none_iff, Option.eq_none_iff_forall_ne_some]
  intro r hr
  obtain ⟨pre, x, -, hl, hx, hsent⟩ := ackSplit_some hr
  obtain ⟨y, hy, hne⟩ := h pre x r.2 hl hx
  exact hne (hsent y hy)

/-- Any other number takes the entries through it away, and an OVERFLOW entry among them leaves a new one for the events
lost since (R131, R132). -/
theorem NoticeLog.acknowledge_accepted (hl : l.entries = pre ++ x :: post) (hx : x.number = n)
    (hsent : ∀ y ∈ pre ++ [x], y.sendState = .sent) (hne : ∀ y ∈ pre, y.number ≠ n) :
    l.acknowledge now n = some
      (if (∃ y ∈ pre ++ [x], y.kind = .overflow) ∧ l.lostSinceMarker ≠ 0 then
        { NoticeLog.append { l with entries := post } now .overflow .none l.lostSinceMarker with lostSinceMarker := 0 }
      else { l with entries := post }) := by
  rw [NoticeLog.acknowledge, hl, ackSplit_of_sent post hx pre hsent hne, Option.map_some]
  simp only [List.any_eq_true, decide_eq_true_eq]

end

/-- ACK_NOTICES' parameters are the number (section 12.9). -/
theorem halfAt_halfBytes (n : Half) : halfAt (halfBytes n) 0 = n :=
  halfBytes_join n

theorem State.doAckNotices_refused {s : State} {n : Half} (h : s.log.acknowledge s.time.counter n = none) :
    s.doAckNotices (halfBytes n) = s.refuse .badAckRange := by
  simp only [State.doAckNotices, halfAt_halfBytes, h]

theorem State.doAckNotices_accepted {s : State} {n : Half} {l : NoticeLog}
    (h : s.log.acknowledge s.time.counter n = some l) :
    s.doAckNotices (halfBytes n) = State.okay { s with log := l } := by
  simp only [State.doAckNotices, halfAt_halfBytes, h]

/-- Settles O47. -/
theorem ackNotices : Obligations.AckNotices := by
  intro s e n h
  refine ⟨fun hnot => ?_, fun pre x post hl hx hsent hne => ?_⟩
  · exact exec_refuse .ackNotices State.doAckNotices rfl h rfl
      (State.doAckNotices_refused (NoticeLog.acknowledge_refused hnot))
  · rw [exec_okay .ackNotices State.doAckNotices rfl h rfl
      (State.doAckNotices_accepted (NoticeLog.acknowledge_accepted hl hx hsent hne))]
    refine ⟨fun hkept => ?_, fun hlost hover => ?_⟩
    · rw [if_neg]
      rintro ⟨⟨y, hy, hk⟩, hlost⟩
      exact hkept.elim hlost fun hnone => hnone y hy hk
    · rw [if_pos ⟨hover, hlost⟩]
      rfl

/-! ## Going back (R134, R135) -/

theorem satAdd_toNat {w : Nat} (x y : BitVec w) : (satAdd x y).toNat = min (x.toNat + y.toNat) (2 ^ w - 1) := by
  unfold satAdd
  split
  · next h =>
    rw [BitVec.toNat_add_of_lt h]
    omega
  · rw [BitVec.toNat_allOnes]
    omega

/-- The go-back is due when the head is SENT and has waited resend_ticks (R134). -/
theorem NoticeLog.goBackDue_iff (l : NoticeLog) (now : Quad) (resendTicks : Half) :
    l.goBackDue now resendTicks = true ↔
      ∃ e stamp, l.entries.head? = some e ∧ e.sendState = .sent ∧ e.sentStamp = some stamp ∧
        resendTicks.toNat ≤ (now - stamp).toNat := by
  unfold NoticeLog.goBackDue
  cases hl : l.entries with
  | nil => simp
  | cons e rest =>
    cases hs : e.sentStamp with
    | none => simp [hs]
    | some stamp => simp [hs, NoticeEntry.isSent]

theorem NoticeEntry.goBack_eq (now : Quad) (lost : Half) (e : NoticeEntry) :
    e.goBack now lost =
      if e.sendState = .sent then
        (if e.kind = .overflow ∧ lost ≠ 0 then
          { e with sendState := .resend, value := satAdd e.value lost, stamp := now }
        else { e with sendState := .resend })
      else e := by
  unfold NoticeEntry.goBack
  simp only [NoticeEntry.isSent_iff, ite_not]

theorem NoticeLog.goBack_lostSinceMarker (l : NoticeLog) (now : Quad) :
    (l.goBack now).lostSinceMarker =
      if ∃ e ∈ l.entries, e.sendState = .sent ∧ e.kind = .overflow then 0 else l.lostSinceMarker := by
  simp [NoticeLog.goBack, NoticeEntry.isSent]

theorem exec_noticeLogTick {s : State} (hs : s.Ready) (hh : s.time.handedOn.noticeLog = true) :
    exec .noticeLogTick s = .next { s with
      time := { s.time with handedOn := { s.time.handedOn with noticeLog := false } }
      due := { DueWork.none with goBack := s.log.goBackDue s.time.counter s.system.resendTicks } } := by
  rw [exec_ready hs .noticeLogTick rfl rfl, ← hs.2]
  simp only [effectOf, State.noticeLogTick, hh, not_true, if_false]

theorem exec_goBack {s : State} (hs : s.held = false) (hdue : s.due = { DueWork.none with goBack := true }) :
    exec .goBack s = .next { s with log := s.log.goBack s.time.counter, due := .none } := by
  rw [exec_tickStep hs .goBack rfl rfl]
  simp only [effectOf, State.takeGoBack, State.settleGoBack, hdue, if_true]
  rfl

/-- Settles O30. -/
theorem goBack : Obligations.GoBack := by
  refine ⟨fun s hs hh => ⟨_, exec_noticeLogTick hs hh, s.log.goBackDue_iff _ _⟩,
    fun s hs hdue => ⟨_, exec_goBack hs hdue, rfl, rfl, ?_, s.log.goBack_lostSinceMarker s.time.counter⟩, satAdd_toNat⟩
  exact List.map_congr_left fun e _ => e.goBack_eq s.time.counter s.log.lostSinceMarker

end Sys2Proof.Machine
end

section
/-! SUPPORT. A start on the S-port: the source taken, the frame built, and what the start leaves in the queue, the log and
the arbiters (sections 6.4, 7.2, 7.3, 7.5). -/

namespace Sys2Proof.Machine

/-! ## The sources (R127, R128, R143) -/

/-- A head entry that is DONE offers its response (R143). -/
theorem RequestQueue.offered_done {q : RequestQueue} {e : RequestEntry} {rest : List RequestEntry}
    (hq : q.entries = e :: rest) (he : e.state = .done) : q.offered = e.response := by
  simp [RequestQueue.offered, hq, he]

/-- No other queue offers one. -/
theorem RequestQueue.offered_none {q : RequestQueue} (h : ∀ e, q.entries.head? = some e → e.state ≠ .done) :
    q.offered = none := by
  unfold RequestQueue.offered
  split
  · rfl
  · next e rest hq => exact if_neg (h e (by rw [hq]; rfl))

theorem RequestQueue.headSending_eq {q : RequestQueue} {e : RequestEntry} {rest : List RequestEntry}
    (hq : q.entries = e :: rest) : q.headSending = { q with entries := { e with state := .sending } :: rest } := by
  simp [RequestQueue.headSending, hq]

/-- A notice turn is available exactly when an entry is not SENT (R127). -/
theorem NoticeLog.turnAvailable_iff (l : NoticeLog) :
    l.turnAvailable = true ↔ ∃ e ∈ l.entries, e.sendState ≠ .sent := by
  simp [NoticeLog.turnAvailable, NoticeEntry.isSent]

theorem NoticeLog.turnAvailable_allSent {l : NoticeLog} (h : ∀ e ∈ l.entries, e.sendState = .sent) :
    l.turnAvailable = false :=
  Bool.eq_false_iff.mpr fun hturn =>
    let ⟨e, he, hne⟩ := l.turnAvailable_iff.mp hturn
    hne (h e he)

section
variable {l : NoticeLog} {sent selected rest : List NoticeEntry} (hl : l.entries = sent ++ selected ++ rest)
  (hsent : ∀ e ∈ sent, e.sendState = .sent) (hhead : ∃ e, selected.head? = some e ∧ e.sendState ≠ .sent)
  (hcount : selected.length = 8 ∨ (selected.length < 8 ∧ rest = []))
include hl hsent hhead

/-- The SENT entries at the head end before the first entry that is not SENT. -/
theorem NoticeLog.span_isSent :
    l.entries.takeWhile NoticeEntry.isSent = sent ∧ l.entries.dropWhile NoticeEntry.isSent = selected ++ rest := by
  obtain ⟨e, he, hne⟩ := hhead
  obtain ⟨tail, rfl⟩ := List.head?_eq_some_iff.mp he
  have hs : ∀ y ∈ sent, y.isSent = true := fun y hy => NoticeEntry.isSent_iff.mpr (hsent y hy)
  have hn : ¬ e.isSent = true := fun h => hne (NoticeEntry.isSent_iff.mp h)
  rw [hl, List.append_assoc, List.takeWhile_append_of_pos hs, List.dropWhile_append_of_pos hs, List.cons_append,
    List.takeWhile_cons_of_neg hn, List.dropWhile_cons_of_neg hn, List.append_nil]
  exact ⟨rfl, rfl⟩

include hcount

/-- A NOTICE takes the entries after the SENT ones, eight or all that are left (R128). -/
theorem NoticeLog.selected_eq : l.selected = selected := by
  obtain ⟨-, hdrop⟩ := NoticeLog.span_isSent hl hsent hhead
  rw [NoticeLog.selected, hdrop]
  rcases hcount with h | ⟨h, rfl⟩
  · exact List.take_left' h
  · rw [List.append_nil, List.take_of_length_le h.le]

/-- They become SENT where they stand (R128). -/
theorem NoticeLog.afterSend_eq (now : Quad) :
    l.afterSend now = { l with
      entries := sent ++ selected.map (fun e => { e with sendState := .sent, sentStamp := some now }) ++ rest } := by
  obtain ⟨htake, hdrop⟩ := NoticeLog.span_isSent hl hsent hhead
  have hrest : (selected ++ rest).drop 8 = rest := by
    rcases hcount with h | ⟨h, rfl⟩
    · exact List.drop_left' h
    · rw [List.append_nil, List.drop_of_length_le h.le]
  rw [NoticeLog.afterSend, htake, hdrop, hrest, NoticeLog.selected_eq hl hsent hhead hcount]

end

/-- The send state is not carried: a payload reads the same before and after its entries become SENT (R129). -/
theorem noticePayload_sent (summary : Summary) (now : Quad) (es : List NoticeEntry) :
    noticePayload summary (es.map fun e => { e with sendState := .sent, sentStamp := some now }) =
      noticePayload summary es := by
  simp only [noticePayload, List.length_map, List.flatMap_map]
  rfl

/-! ## The choice (R143) -/

section
variable {s : State}

/-- A forwarded frame is taken by the bound, or when neither response nor notice waits. -/
theorem State.chooseS_forwarded (hq : s.portS.forwardQueue ≠ [])
    (h : s.egress.starvationCount = 4 ∨ (s.queue.offered = none ∧ s.log.turnAvailable = false)) :
    s.chooseS = some .forwarded := by
  rcases h with hbound | ⟨hresponse, hnotice⟩
  · exact if_pos ⟨hq, hbound⟩
  · simp [State.chooseS, hq, hresponse, hnotice]

theorem State.chooseS_response (hbound : s.portS.forwardQueue = [] ∨ s.egress.starvationCount ≠ 4)
    (h : s.queue.offered.isSome = true) : s.chooseS = some .response := by
  rw [State.chooseS, if_neg fun ⟨hq, hc⟩ => hbound.elim hq (absurd hc), if_pos h]

theorem State.chooseS_notice (hbound : s.portS.forwardQueue = [] ∨ s.egress.starvationCount ≠ 4)
    (hresponse : s.queue.offered = none) (h : s.log.turnAvailable = true) : s.chooseS = some .notice := by
  rw [State.chooseS, if_neg fun ⟨hq, hc⟩ => hbound.elim hq (absurd hc),
    if_neg (by simp [hresponse]), if_pos h]

theorem State.chooseS_none (hq : s.portS.forwardQueue = []) (hresponse : s.queue.offered = none)
    (hnotice : s.log.turnAvailable = false) : s.chooseS = none := by
  simp [State.chooseS, hq, hresponse, hnotice]

/-! ## The start (R142, R144, R145, R147) -/

/-- A port that is DOWN or busy starts nothing (R142). -/
theorem State.startS_idle (h : s.portS.link = .down ∨ s.portS.transmitter ≠ none) : s.startS = s := by
  have hnot : ¬ s.mayStart .s = true := by
    rw [State.mayStart_iff]
    rintro ⟨hl, ht⟩
    rcases h with h | h
    · cases h.symm.trans hl
    · exact h ht
  rw [State.startS, if_pos hnot]

theorem State.startS_none (hm : s.mayStart .s = true) (hc : s.chooseS = none) : s.startS = s := by
  simp only [State.startS, hm, hc, not_true, if_false]

/-- A forwarded frame leaves the queue for the transmitter, and the bound counts anew (R140, R145). -/
theorem State.startS_forwarded (hm : s.mayStart .s = true) (hc : s.chooseS = some .forwarded) {frame : List Byte}
    {rest : List (List Byte)} (hq : s.portS.forwardQueue = frame :: rest) :
    s.startS = { s with
      portS := { s.portS with transmitter := some { source := .forwarded, frame := frame }, forwardQueue := rest }
      egress := { s.egress with starvationCount := 0 } } := by
  simp only [State.startS, hm, hc, not_true, if_false, State.startForwarded, State.port_s, hq]
  rfl

/-- A response is sent from the head entry, which becomes SENDING (R144). -/
theorem State.startS_response (hm : s.mayStart .s = true) (hc : s.chooseS = some .response) {r : Response}
    (hr : s.queue.offered = some r) {e : RequestEntry} {rest : List RequestEntry} (hq : s.queue.entries = e :: rest) :
    s.startS = { s with
      portS := { s.portS with
        transmitter := some { source := .response, frame := s.ownFrame 0 0x06 s.egress.seqS r.bytes } }
      queue := { s.queue with entries := { e with state := .sending } :: rest }
      egress := s.egress.afterOwnStart } := by
  simp only [State.startS, hm, hc, not_true, if_false, State.startResponse, hr, RequestQueue.headSending_eq hq]
  rfl

/-- A NOTICE carries the log's selected entries, which become SENT (R128, R129). -/
theorem State.startS_notice (hm : s.mayStart .s = true) (hc : s.chooseS = some .notice) :
    s.startS = { s with
      portS := { s.portS with
        transmitter := some
          { source := .notice
            frame := s.ownFrame 0 0x07 s.egress.seqS (noticePayload s.summary s.log.selected) } }
      log := s.log.afterSend s.time.counter
      egress := s.egress.afterOwnStart } := by
  simp only [State.startS, hm, hc, not_true, if_false, State.startNotice, noticePayload_sent]
  rfl

end

/-- Settles O31. -/
theorem sPortStarts : Obligations.SPortStarts := by
  refine ⟨⟨rfl, rfl⟩, fun s hs h => ?_, fun s hs hl ht => ?_⟩
  · rw [exec_ready hs .sPortStart rfl rfl]
    exact congrArg _ (State.startS_idle h)
  · have hm : s.mayStart .s = true := (s.mayStart_iff .s).mpr ⟨hl, ht⟩
    rw [exec_ready hs .sPortStart rfl rfl]
    refine ⟨fun frame rest hq h => ?_, fun e rest r hbound hq he hr => ?_,
      fun sent selected rest hbound hresponse hlog hsent hhead hcount => ?_, fun hq hresponse hsent => ?_⟩
    · have hc : s.chooseS = some .forwarded := State.chooseS_forwarded (by simp [hq]) (h.imp_right
        fun ⟨hresponse, hsent⟩ => ⟨RequestQueue.offered_none hresponse, NoticeLog.turnAvailable_allSent hsent⟩)
      exact congrArg _ (State.startS_forwarded hm hc hq)
    · have hoffer : s.queue.offered = some r := (RequestQueue.offered_done hq he).trans hr
      have hc : s.chooseS = some .response := State.chooseS_response hbound (by rw [hoffer]; rfl)
      exact congrArg _ (State.startS_response hm hc hoffer hq)
    · have hturn : s.log.turnAvailable = true := by
        obtain ⟨e, he, hne⟩ := hhead
        exact s.log.turnAvailable_iff.mpr ⟨e, by simp [hlog, List.mem_of_head? he], hne⟩
      have hc : s.chooseS = some .notice :=
        State.chooseS_notice hbound (RequestQueue.offered_none hresponse) hturn
      have hstart := State.startS_notice hm hc
      rw [NoticeLog.selected_eq hlog hsent hhead hcount, NoticeLog.afterSend_eq hlog hsent hhead hcount] at hstart
      exact congrArg _ hstart
    · have hc : s.chooseS = none :=
        State.chooseS_none hq (RequestQueue.offered_none hresponse) (NoticeLog.turnAvailable_allSent hsent)
      exact congrArg _ (State.startS_none hm hc)

end Sys2Proof.Machine
end

section
/-! SUPPORT. Ends of what is in flight: RESET asserted, and a transmission whose end restarts nothing (sections 7.6, 7.9
and 10.6). -/

namespace Sys2Proof.Machine

/-! ## RESET asserted (R153, R194, R196) -/

/-- While RESET holds the part only the hard reset is taken (R196). -/
theorem exec_held {s : State} (hs : s.held = true) {c : Instr} (hc : isHardReset c = false) : exec c s = .next s := by
  rw [exec_eq, hc, hs]
  rfl

/-- Settles O3. -/
theorem resetHoldsThePart : Obligations.ResetHoldsThePart := by
  refine ⟨fun c s hs hr => exec_held hs ?_, fun s hs => exec_ready hs .resetAsserted rfl rfl⟩
  cases c with
  | hardReset lineF lineS => exact absurd rfl (hr lineF lineS)
  | _ => rfl

/-! ## The end of a transmission (R148, R149, R162, R171) -/

theorem exec_transmissionComplete {s : State} (hs : s.Ready) (p : Port) :
    exec (.transmissionComplete p) s = .next (s.endTransmission p true) :=
  exec_ready hs (.transmissionComplete p) rfl rfl

/-- What tells the response of the RESTART itself from every other (log 14). -/
theorem RequestEntry.isRestart_iff {e : RequestEntry} {r : Response} (he : e.response = some r) :
    e.isRestart = true ↔ r.opcode = 0x05 ∧ r.status = .ok ∧ r.repeated = false := by
  rw [RequestEntry.isRestart, he]
  exact decide_eq_true_iff

/-- The end of a response that restarts nothing: the transmitter free, the end counted, the head entry released (R148,
R149, R162). -/
theorem State.endTransmission_response {s : State} {p : Port} {x : Transmission} {e : RequestEntry}
    {rest : List RequestEntry} (ht : (s.port p).transmitter = some x) (hx : x.source = .response)
    (hq : s.queue.entries = e :: rest) (he : e.state = .sending)
    (hno : ¬ (s.queue.restartPending = true ∧ e.isRestart = true)) (completed : Bool) :
    s.endTransmission p completed =
      { s.setPort p { s.port p with
          transmitter := none, stats := (s.port p).stats.inc (if completed then .txFrames else .txAbandoned) } with
        queue := s.queue.released completed e rest } := by
  rw [s.endTransmission_eq p completed x ht, if_pos hx,
    State.releaseResponse_sending (by rwa [State.setPort_queue]) he, State.setPort_queue, if_neg hno]

theorem RequestQueue.released_completed (q : RequestQueue) {e : RequestEntry} {r : Response}
    (hr : e.response = some r) (rest : List RequestEntry) :
    q.released true e rest =
      { q with entries := rest, memory := some { tag := e.tag, seq := e.seq, response := r } } := by
  simp only [RequestQueue.released, hr]

/-- An abandoned response is not remembered (R162). -/
theorem RequestQueue.released_abandoned (q : RequestQueue) (e : RequestEntry) (rest : List RequestEntry) :
    q.released false e rest = { q with entries := rest } := rfl

/-- Settles O33: completion ends the transmission on the port as it stands, a loss of signal on the port taken DOWN. -/
theorem transmissionEnds : Obligations.TransmissionEnds := by
  intro s p x hs ht
  refine ⟨fun hx => ?_, fun e rest r hx hq he hr hother => ?_⟩
  · rw [exec_transmissionComplete hs, s.endTransmission_eq p true x ht, if_neg hx]
    rfl
  · have hno : ¬ (s.queue.restartPending = true ∧ e.isRestart = true) := by
      rw [RequestEntry.isRestart_iff hr]
      rintro ⟨hpending, hopcode, hstatus, hrepeated⟩
      simp [hpending, hopcode, hstatus, hrepeated] at hother
    refine ⟨?_, fun hl => ?_⟩
    · rw [exec_transmissionComplete hs, State.endTransmission_response ht hx hq he hno,
        RequestQueue.released_completed _ hr]
      rfl
    · rw [exec_lossOfSignal hs, State.lossOfSignal_up hl,
        State.endTransmission_response (by rwa [State.port_setPort_self]) hx (by rwa [State.setPort_queue]) he
          (by rwa [State.setPort_queue]),
        RequestQueue.released_abandoned, State.setPort_setPort, State.port_setPort_self, State.setPort_queue]
      rfl

end Sys2Proof.Machine
end

section
/-! SUPPORT. The Request Queue: the acceptance of an arrival, and its laws over every step (sections 8.2 to 8.4, 7.6). -/

namespace Sys2Proof.Machine

/-! ## The four checks (R156, R157, R158) -/

theorem RequestEntry.any_matches_iff {l : List RequestEntry} {tag seq : Byte} :
    l.any (RequestEntry.matches tag seq) = true ↔ ∃ e ∈ l, e.tag = tag ∧ e.seq = seq := by
  simp [RequestEntry.matches]

theorem RequestEntry.any_matches_eq_false {l : List RequestEntry} {tag seq : Byte}
    (h : ∀ e ∈ l, ¬ (e.tag = tag ∧ e.seq = seq)) : l.any (RequestEntry.matches tag seq) = false :=
  Bool.eq_false_iff.mpr fun hany =>
    let ⟨e, he, hts⟩ := RequestEntry.any_matches_iff.mp hany
    h e he hts

section
variable {s : State} {tag seq : Byte} (opcode : Byte) (params : List Byte)

/-- An entry with the arrival's tag and seq makes it a duplicate (R156 check 1). -/
theorem State.acceptRequest_duplicate (h : ∃ e ∈ s.queue.entries, e.tag = tag ∧ e.seq = seq) :
    s.acceptRequest tag seq opcode params = s.count .s .rxDuplicateRequest := by
  simp only [State.acceptRequest, RequestEntry.any_matches_iff.mpr h, if_true]

variable (hnew : ∀ e ∈ s.queue.entries, ¬ (e.tag = tag ∧ e.seq = seq))
include hnew

/-- A full queue loses the arrival (R156 check 2, R157). -/
theorem State.acceptRequest_full (hfull : 4 ≤ s.queue.entries.length) :
    s.acceptRequest tag seq opcode params =
      { s with queue := { s.queue with lostCount := satInc s.queue.lostCount } } := by
  simp only [State.acceptRequest, RequestEntry.any_matches_eq_false hnew, Bool.false_eq_true, if_false, if_pos hfull]

variable (hroom : s.queue.entries.length < 4)
include hroom

/-- The request the memory holds is answered from it, REPEATED set (R156 check 3, R158). -/
theorem State.acceptRequest_repeat {m : SavedResponse} (hm : s.queue.memory = some m) (htag : m.tag = tag)
    (hseq : m.seq = seq) :
    s.acceptRequest tag seq opcode params =
      { s with queue := { s.queue with
          entries := s.queue.entries ++ [
            { tag := tag, seq := seq, opcode := opcode, params := params,
              state := .done, response := some { m.response with repeated := true } }] } } := by
  simp only [State.acceptRequest, RequestEntry.any_matches_eq_false hnew, Bool.false_eq_true, if_false,
    if_neg (Nat.not_le.mpr hroom), hm, htag, hseq, and_self, if_true]

/-- Any other arrival waits for its execution (R156 check 4). -/
theorem State.acceptRequest_new (hm : ∀ m, s.queue.memory = some m → ¬ (m.tag = tag ∧ m.seq = seq)) :
    s.acceptRequest tag seq opcode params =
      { s with queue := { s.queue with
          entries := s.queue.entries ++ [
            { tag := tag, seq := seq, opcode := opcode, params := params,
              state := .waiting, response := none }] } } := by
  simp only [State.acceptRequest, RequestEntry.any_matches_eq_false hnew, Bool.false_eq_true, if_false,
    if_neg (Nat.not_le.mpr hroom)]
  cases hmem : s.queue.memory with
  | none => rfl
  | some m => simp only [if_neg (hm m hmem)]

end

/-- A good REQUEST frame from the supervisor to the part reaches the Request Queue (R11, R16). -/
theorem exec_frameEnd_request {s : State} {l : List Byte} {tag opcode : Byte} {params : List Byte}
    (h : s.Receives .s l) (hg : judgeFrame l = .good) (hdst : addressOf (byteAt l 0) = s.system.ownAddress)
    (hsrc : addressOf (byteAt l 1) = 0) (hk : byteAt l 2 = 0x05)
    (hp : ({ bytes := l } : Frame).payload = tag :: opcode :: params) :
    exec (.frameEnd .s) s = .next ((s.received .s).acceptRequest tag (byteAt l 4) opcode params) := by
  have hroute : directionTable .s (FrameKind.ofCode (byteAt l 2)) (addressOf (byteAt l 0) = s.system.ownAddress)
      (addressOf (byteAt l 1) = 0) = .request := by
    rw [hk, decide_eq_true hdst, decide_eq_true hsrc]
    rfl
  rw [exec_frameEnd_route h hg nofun hroute]
  simp only [State.handOff, hp]
  rfl

/-- Settles O24: the frame reaches the queue, and the four checks are made there in their order. -/
theorem requestAcceptance : Obligations.RequestAcceptance := by
  intro s l tag opcode params h hg hdst hsrc hk hp
  have hqueue : (s.received .s).queue = s.queue := s.setPort_queue .s _
  rw [exec_frameEnd_request h hg hdst hsrc hk hp, ← hqueue]
  refine ⟨fun hdup => ?_, fun hnew => ⟨fun hfull => ?_, fun hroom => ⟨fun m hm htag hseq => ?_, fun hm => ?_⟩⟩⟩
  · rw [State.acceptRequest_duplicate opcode params hdup]
  · rw [State.acceptRequest_full opcode params hnew hfull]
  · rw [State.acceptRequest_repeat opcode params hnew hroom hm htag hseq]
  · rw [State.acceptRequest_new opcode params hnew hroom hm]

/-! ## The laws, taken apart (R155, R156, R162, R171) -/

/-- The laws that look at the queue alone. -/
structure RequestQueue.Lawful (q : RequestQueue) : Prop where
  room : q.entries.length ≤ 4
  answered : ∀ e ∈ q.entries, (e.state = .waiting ↔ e.response = none)
  tail : ∀ e ∈ q.entries.tail, e.state ≠ .sending
  distinct : q.entries.Pairwise fun e e' => ¬ (e.tag = e'.tag ∧ e.seq = e'.seq)
  restart : q.restartPending = true → ∃ e ∈ q.entries, e.isRestart = true

/-- The oldest entry is SENDING. -/
def RequestQueue.Sends (q : RequestQueue) : Prop :=
  ∃ e ∈ q.entries.head?, e.state = .sending

/-- A response is in flight on the port. -/
def PortRecord.FliesResponse (r : PortRecord) : Prop :=
  ∃ x ∈ r.transmitter, x.source = .response

/-- The queue's laws are its own, and those of the flight of its head's response. -/
theorem State.queueLawful_iff (s : State) :
    s.QueueLawful ↔ s.queue.Lawful ∧ (s.held = false → (s.queue.Sends ↔ s.portS.FliesResponse)) ∧
      ¬ s.portF.FliesResponse := by
  constructor
  · rintro ⟨hroom, hanswered, htail, hdistinct, hrestart, hflight, hF⟩
    exact ⟨⟨hroom, hanswered, htail, hdistinct, hrestart⟩, hflight, fun ⟨x, hx, hr⟩ => hF x hx hr⟩
  · rintro ⟨⟨hroom, hanswered, htail, hdistinct, hrestart⟩, hflight, hF⟩
    exact ⟨hroom, hanswered, htail, hdistinct, hrestart, hflight, fun x hx hr => hF ⟨x, hx, hr⟩⟩

theorem PortRecord.not_fliesResponse_of_free {r : PortRecord} (h : r.transmitter = none) : ¬ r.FliesResponse := by
  rintro ⟨x, hx, -⟩
  rw [h] at hx
  cases hx

theorem PortRecord.fliesResponse_iff {r : PortRecord} {x : Transmission} (h : r.transmitter = some x) :
    r.FliesResponse ↔ x.source = .response := by
  simp [PortRecord.FliesResponse, h]

theorem RequestQueue.sends_iff {q : RequestQueue} {e : RequestEntry} {rest : List RequestEntry}
    (h : q.entries = e :: rest) : q.Sends ↔ e.state = .sending := by
  simp [RequestQueue.Sends, h]

/-- Only a DONE head offers its response (R143). -/
theorem RequestQueue.head_done_of_offered {q : RequestQueue} {r : Response} (h : q.offered = some r) :
    ∃ e rest, q.entries = e :: rest ∧ e.state = .done := by
  unfold RequestQueue.offered at h
  split at h
  · cases h
  · next e rest hq =>
    split at h
    · next he => exact ⟨e, rest, hq, he⟩
    · cases h

namespace RequestQueue.Lawful

variable {q : RequestQueue} {e : RequestEntry} {rest : List RequestEntry}

/-- The head, once DONE, may become SENDING (R144). -/
theorem headSending (h : q.Lawful) (hq : q.entries = e :: rest) (he : e.state = .done) : q.headSending.Lawful := by
  obtain ⟨hroom, hanswered, htail, hdistinct, hrestart⟩ := h
  rw [hq] at hroom hanswered htail hdistinct hrestart
  rw [RequestQueue.headSending_eq hq]
  refine ⟨hroom, fun x hx => ?_, htail, ?_, fun hp => ?_⟩
  · rcases List.mem_cons.mp hx with rfl | hx
    · have hresponse := hanswered e List.mem_cons_self
      rw [he] at hresponse
      simpa using hresponse
    · exact hanswered x (List.mem_cons_of_mem e hx)
  · exact List.pairwise_cons.mpr (List.pairwise_cons.mp hdistinct)
  · obtain ⟨x, hx, hr⟩ := hrestart hp
    rcases List.mem_cons.mp hx with rfl | hx
    · exact ⟨_, List.mem_cons_self, hr⟩
    · exact ⟨x, List.mem_cons_of_mem _ hx, hr⟩

/-- The head leaves the queue at its response's end, unless its own restart is then carried out (R162, R171). -/
theorem released (h : q.Lawful) (hq : q.entries = e :: rest)
    (hno : ¬ (q.restartPending = true ∧ e.isRestart = true)) (completed : Bool) :
    (q.released completed e rest).Lawful := by
  obtain ⟨hroom, hanswered, htail, hdistinct, hrestart⟩ := h
  rw [hq] at hroom hanswered htail hdistinct hrestart
  obtain ⟨-, hdistinct⟩ := List.pairwise_cons.mp hdistinct
  refine ⟨Nat.le_of_succ_le hroom, fun x hx => hanswered x (List.mem_cons_of_mem e hx),
    fun x hx => htail x (List.mem_of_mem_tail hx), hdistinct, fun hp => ?_⟩
  obtain ⟨x, hx, hr⟩ := hrestart hp
  rcases List.mem_cons.mp hx with rfl | hx
  · exact absurd ⟨hp, hr⟩ hno
  · exact ⟨x, hx, hr⟩

/-- No entry behind the head is SENDING: with the head gone, none is. -/
theorem not_sends_released (h : q.Lawful) (hq : q.entries = e :: rest) (completed : Bool) :
    ¬ (q.released completed e rest).Sends := by
  rintro ⟨x, hx, hs⟩
  refine h.tail x ?_ hs
  rw [hq]
  exact List.mem_of_head? hx

end RequestQueue.Lawful

/-! ## What the commands do to the queue and the flight -/

namespace State.QueueLawful

variable {s t : State}

/-- The queue's laws look of the ports only at whether a response is in flight. -/
theorem flight (h : s.QueueLawful) (hq : t.queue = s.queue) (hh : t.held = s.held)
    (hf : ∀ p, (t.port p).FliesResponse ↔ (s.port p).FliesResponse) : t.QueueLawful := by
  rw [State.queueLawful_iff] at h ⊢
  obtain ⟨hqueue, hflight, hF⟩ := h
  rw [hq, hh]
  exact ⟨hqueue, fun hheld => (hflight hheld).trans (hf .s).symm, mt (hf .f).mp hF⟩

theorem setPort (h : s.QueueLawful) {p : Port} {r : PortRecord} (hr : r.FliesResponse ↔ (s.port p).FliesResponse) :
    (s.setPort p r).QueueLawful := by
  refine h.flight (s.setPort_queue p r) (s.setPort_held p r) fun q => ?_
  rw [State.port_setPort]
  split
  · next hpq => rw [← hpq]; exact hr
  · exact Iff.rfl

/-- A free port may send any frame but a response. -/
theorem transmit (h : s.QueueLawful) {p : Port} (hfree : (s.port p).transmitter = none) {x : TxSource}
    (hx : x ≠ .response) (frame : List Byte) : (s.transmit p x frame).QueueLawful :=
  h.setPort (iff_of_false (mt (PortRecord.fliesResponse_iff rfl).mp hx) (PortRecord.not_fliesResponse_of_free hfree))

/-! ### The line events -/

theorem frameStart (h : s.QueueLawful) (p : Port) : (State.frameStart p s).QueueLawful := by
  cases hl : (s.port p).link with
  | down =>
    obtain ⟨hstart, -⟩ := State.lineEvents_down hl
    rw [hstart]; exact h
  | up =>
    cases ha : (s.port p).assembly with
    | none => rw [State.frameStart_closed hl ha]; exact h.setPort Iff.rfl
    | some l => rw [State.frameStart_open hl ha]; exact h.setPort Iff.rfl

theorem byteArrival (h : s.QueueLawful) (p : Port) (b : Byte) : (State.byteArrival p b s).QueueLawful := by
  unfold State.byteArrival
  split
  · exact h
  · split
    · exact h
    · split
      · have hclosed : (s.setPort p { s.port p with assembly := none }).QueueLawful := h.setPort Iff.rfl
        exact hclosed.arrival (State.count_arrivalOnly _ p .rxLengthError)
      · exact h.setPort Iff.rfl

/-- The end of a frame may bring a request to the queue (R156). -/
theorem frameEnd (h : s.QueueLawful) (p : Port) : (State.frameEnd p s).QueueLawful := by
  unfold State.frameEnd
  split
  · exact h
  · split
    · exact h
    · next l _ =>
      have hclosed : (s.setPort p { s.port p with assembly := none }).QueueLawful := h.setPort Iff.rfl
      rcases State.judgeEnd_cases (s.setPort p { s.port p with assembly := none }) p l with
        ha | ⟨-, -, tag, opcode, params, -, hs⟩
      · exact hclosed.arrival ha
      · rw [hs]
        exact (hclosed.arrival (State.count_arrivalOnly _ .s .rxGood)).acceptRequest tag _ opcode params

theorem returnOfSignal (h : s.QueueLawful) (p : Port) : (State.returnOfSignal p s).QueueLawful := by
  unfold State.returnOfSignal
  split
  · exact h
  · exact h.setPort Iff.rfl

/-! ### The end of a transmission (R148, R149, R162, R171) -/

/-- A response has ended and its port is free: its entry, the head, leaves the queue, or the part restarts. -/
theorem releaseResponse (hq : s.queue.Lawful) (hsends : s.queue.Sends) (hS : ¬ s.portS.FliesResponse)
    (hF : ¬ s.portF.FliesResponse) (completed : Bool) : (s.releaseResponse completed).QueueLawful := by
  obtain ⟨e, hhead, he⟩ := hsends
  obtain ⟨rest, hentries⟩ := List.head?_eq_some_iff.mp hhead
  rw [State.releaseResponse_sending hentries he]
  split
  · refine .empty (State.restartBlocks_queue _ 1) ?_ ?_
    · rw [State.softRestart, State.restartBlocks_portS]
      exact fun x hx hr => hS ⟨x, hx, hr⟩
    · rw [State.softRestart, State.restartBlocks_portF]
      exact fun x hx hr => hF ⟨x, hx, hr⟩
  · next hno =>
    exact (State.queueLawful_iff _).mpr ⟨hq.released hentries hno completed,
      fun _ => iff_of_false (hq.not_sends_released hentries completed) hS, hF⟩

/-- A transmission ends; only the S-port's can be a response, and then the head is SENDING. -/
theorem endTransmission (h : s.QueueLawful) (hh : s.held = false) (p : Port) (completed : Bool) :
    (s.endTransmission p completed).QueueLawful := by
  cases ht : (s.port p).transmitter with
  | none => rwa [s.endTransmission_none p completed ht]
  | some x =>
    have hx := PortRecord.fliesResponse_iff ht
    rw [s.endTransmission_eq p completed x ht]
    split
    · next hr =>
      obtain ⟨hq, hflight, hF⟩ := s.queueLawful_iff.mp h
      cases p with
      | f => exact absurd (hx.mpr hr) hF
      | s =>
        refine releaseResponse ?_ ?_ (PortRecord.not_fliesResponse_of_free ?_) ?_ completed
        · exact hq
        · exact (hflight hh).mpr (hx.mpr hr)
        · rfl
        · exact hF
    · next hr => exact h.setPort (iff_of_false (PortRecord.not_fliesResponse_of_free rfl) (mt hx.mp hr))

theorem lossOfSignal (h : s.QueueLawful) (hh : s.held = false) (p : Port) : (State.lossOfSignal p s).QueueLawful := by
  unfold State.lossOfSignal
  split
  · exact h
  · have hdown : (s.setPort p { s.port p with link := .down, assembly := none }).QueueLawful := h.setPort Iff.rfl
    exact hdown.endTransmission ((s.setPort_held p _).trans hh) p false

/-! ### Starts (R142 to R146) -/

theorem startForwarded (h : s.QueueLawful) {p : Port} (hfree : (s.port p).transmitter = none) :
    (s.startForwarded p).QueueLawful := by
  unfold State.startForwarded
  split
  · exact h
  · next frame rest _ =>
    have hdequeued : (s.setPort p { s.port p with forwardQueue := rest }).QueueLawful := h.setPort Iff.rfl
    exact hdequeued.transmit (by rwa [State.port_setPort_self]) (x := .forwarded) nofun frame

/-- The head, DONE, becomes SENDING as its response takes off (R144). -/
theorem startResponse (h : s.QueueLawful) : s.startResponse.QueueLawful := by
  unfold State.startResponse
  split
  · exact h
  · next r hoffer =>
    obtain ⟨e, rest, hentries, he⟩ := RequestQueue.head_done_of_offered hoffer
    obtain ⟨hq, -, hF⟩ := s.queueLawful_iff.mp h
    have hsends : s.queue.headSending.Sends := by
      rw [RequestQueue.headSending_eq hentries]
      exact (RequestQueue.sends_iff rfl).mpr rfl
    exact (State.queueLawful_iff _).mpr ⟨hq.headSending hentries he,
      fun _ => iff_of_true hsends ((PortRecord.fliesResponse_iff rfl).mpr rfl), hF⟩

theorem startS (h : s.QueueLawful) : s.startS.QueueLawful := by
  unfold State.startS
  split
  · exact h
  · next hstart =>
    obtain ⟨-, hfree⟩ := (s.mayStart_iff .s).mp (not_not.mp hstart)
    split
    · exact h
    · exact (h.startForwarded hfree).congr rfl rfl rfl rfl
    · exact h.startResponse
    · exact (h.transmit hfree (x := .notice) nofun _).congr rfl rfl rfl rfl
    · exact h

theorem startSetpoint (h : s.QueueLawful) (hfree : s.portF.transmitter = none) : s.startSetpoint.QueueLawful := by
  unfold State.startSetpoint
  split
  · exact h
  · exact (h.transmit (p := .f) hfree (x := .setpoint) nofun _).congr rfl rfl rfl rfl

theorem startF (h : s.QueueLawful) : s.startF.QueueLawful := by
  unfold State.startF
  split
  · exact h
  · next hstart =>
    obtain ⟨-, hfree⟩ := (s.mayStart_iff .f).mp (not_not.mp hstart)
    split
    · exact h
    · exact (h.startForwarded hfree).congr rfl rfl rfl rfl
    · exact (h.startSetpoint hfree).congr rfl rfl rfl rfl

/-! ### Requests (R159 to R161, R170) -/

/-- A refusal answers the oldest WAITING entry and changes nothing else. -/
theorem refused (h : s.QueueLawful) {e : RequestEntry} (hn : s.nextToExecute = some e) (status : Status) :
    (s.withAnswer e status []).QueueLawful :=
  h.withAnswer e status [] hn rfl rfl rfl rfl .inl

/-- RESTART's own rule, answered: a restart is pending only with its OK in the queue (R170, R171). -/
theorem restartAnswered (h : s.QueueLawful) {e : RequestEntry} (hn : s.nextToExecute = some e)
    (ho : e.opcode = RequestKind.restart.opcode) (p results : List Byte) :
    ((s.doRestart p).state.withAnswer e (s.doRestart p).status results).QueueLawful := by
  rcases s.doRestart_state p with ⟨-, hs⟩ | ⟨-, hok, hs⟩
  · rw [hs]
    exact h.withAnswer e _ results hn rfl rfl rfl rfl .inl
  · rw [hs, hok]
    exact h.withAnswer e .ok results hn rfl rfl rfl rfl fun _ => .inr ⟨ho, rfl⟩

theorem request (h : s.QueueLawful) {c : Instr} {kind : RequestKind} {body : State → List Byte → Answer}
    (hc : requestOf c = some (kind, body)) : (effectOf c s).QueueLawful := by
  rw [effectOf_request c kind body s hc]
  rcases s.executeRequest_cases kind body with hs | ⟨e, hn, hs⟩ | ⟨e, hn, ho, -, hs⟩
  · rw [hs]; exact h
  · rw [hs]; exact h.refused hn .badLength
  · rw [hs]
    by_cases hk : kind = .restart
    · subst hk
      rw [requestOf_restart c body hc]
      exact h.restartAnswered hn ho _ _
    · obtain ⟨-, hheld, -, -, -, hF, hS, hqueue⟩ := requestOf_requestOnly c kind body hc hk s e.params
      refine h.withAnswer e _ _ hn (by rw [hqueue]) (by rw [hF]) (by rw [hS]) hheld fun hp => .inl ?_
      rwa [hqueue] at hp

theorem executeUnknown (h : s.QueueLawful) : s.executeUnknown.QueueLawful := by
  unfold State.executeUnknown
  split
  · exact h
  · next e hn =>
    split
    · exact h
    · rw [State.withAnswer_refuse]
      exact h.refused hn .unknownRequest

/-! ### Ticks -/

theorem tick (h : s.QueueLawful) : s.tick.QueueLawful := by
  unfold State.tick
  split
  · exact h
  · exact h.congr rfl rfl rfl rfl

theorem nodeTableTick (h : s.QueueLawful) : s.nodeTableTick.QueueLawful := by
  unfold State.nodeTableTick
  split
  · exact h
  · exact h.congr rfl rfl rfl rfl

theorem channelTableTick (h : s.QueueLawful) : s.channelTableTick.QueueLawful := by
  unfold State.channelTableTick
  split
  · exact h
  · exact h.congr rfl rfl rfl rfl

theorem outputUnitTick (h : s.QueueLawful) : s.outputUnitTick.QueueLawful := by
  unfold State.outputUnitTick
  split
  · exact h
  · exact h.congr rfl rfl rfl rfl

theorem noticeLogTick (h : s.QueueLawful) : s.noticeLogTick.QueueLawful := by
  unfold State.noticeLogTick
  split
  · exact h
  · exact h.congr rfl rfl rfl rfl

theorem settle (h : s.QueueLawful) : s.settle.QueueLawful :=
  h.runtime s.settle_runtimeOnly

theorem nextSilent (h : s.QueueLawful) : s.nextSilent.QueueLawful := by
  unfold State.nextSilent
  split
  · exact h.settle
  · exact h.runtime ((s.silenceNode_runtimeOnly _).trans (State.due_runtimeOnly _ _))

theorem nextStale (h : s.QueueLawful) : s.nextStale.QueueLawful := by
  unfold State.nextStale
  split
  · exact h.settle
  · exact h.runtime ((s.enterStale_supervisionOnly _ _).runtimeOnly.trans (State.due_runtimeOnly _ _))

theorem nextRefresh (h : s.QueueLawful) : s.nextRefresh.QueueLawful := by
  unfold State.nextRefresh
  split
  · exact h.settle
  · exact h.runtime ((s.refreshOutput_outputsOnly _).supervisionOnly.runtimeOnly.trans (State.due_runtimeOnly _ _))

theorem takeGoBack (h : s.QueueLawful) : s.takeGoBack.QueueLawful := by
  unfold State.takeGoBack
  split
  · exact h.runtime s.settleGoBack_runtimeOnly
  · exact h.settle

/-! ### The Image Store and the resets -/

theorem endErasure (h : s.QueueLawful) : s.endErasure.QueueLawful := by
  unfold State.endErasure
  split
  · exact h
  · split
    · exact h.congr rfl rfl rfl rfl
    · exact h

theorem endWriting (h : s.QueueLawful) (m : MediumResult) : (s.endWriting m).QueueLawful := by
  unfold State.endWriting
  split
  · exact h
  · split
    · exact h.congr rfl rfl rfl rfl
    · exact h

theorem endReadBack (h : s.QueueLawful) : s.endReadBack.QueueLawful := by
  unfold State.endReadBack
  split
  · exact h
  · split
    · dsimp only
      split <;> exact h.congr rfl rfl rfl rfl
    · exact h

/-- RESET asserted ends the transmissions, and while it holds the part the flight is not asked (R153, R196). -/
theorem assertReset (h : s.QueueLawful) : s.assertReset.QueueLawful := by
  obtain ⟨hq, -, -⟩ := s.queueLawful_iff.mp h
  exact (State.queueLawful_iff _).mpr ⟨hq, nofun, PortRecord.not_fliesResponse_of_free rfl⟩

theorem hardReset (s : State) (lineF lineS : LinkState) : (s.hardReset lineF lineS).QueueLawful := by
  obtain ⟨hF, hS⟩ := s.hardReset_ports lineF lineS
  refine .empty (s.hardReset_blocksReset lineF lineS).queue ?_ ?_
  · rw [hS]; exact nofun
  · rw [hF]; exact nofun

/-! ### Every command -/

theorem effect (h : s.QueueLawful) (hh : s.held = false) (c : Instr) : (effectOf c s).QueueLawful := by
  cases hc : requestOf c with
  | some r => exact h.request hc
  | none =>
    cases c with
    | frameStart p => exact h.frameStart p
    | byteArrival p b => exact h.byteArrival p b
    | frameEnd p => exact h.frameEnd p
    | lossOfSignal p => exact h.lossOfSignal hh p
    | returnOfSignal p => exact h.returnOfSignal p
    | tick => exact h.tick
    | nodeTableTick => exact h.nodeTableTick
    | nodeSilent => exact h.nextSilent
    | channelTableTick => exact h.channelTableTick
    | channelStale => exact h.nextStale
    | outputUnitTick => exact h.outputUnitTick
    | refresh => exact h.nextRefresh
    | noticeLogTick => exact h.noticeLogTick
    | goBack => exact h.takeGoBack
    | sPortStart => exact h.startS
    | fPortStart => exact h.startF
    | transmissionComplete p => exact h.endTransmission hh p true
    | unknownRequest => exact h.executeUnknown
    | erasureEnds => exact h.endErasure
    | writingEnds m => exact h.endWriting m
    | readBackEnds => exact h.endReadBack
    | resetAsserted => exact h.assertReset
    | hardReset lineF lineS => exact hardReset s lineF lineS
    | echo | readSystem | writeSystem | readStats | restart | enrolNode | retireNode | readNode | bind | unbind
    | writeChannel | readChannel | ackBand | writeOutput | readOutput | forceOutput | releaseOutput | ackNotices
    | capture | readCapture | commit | readImage => cases hc

end State.QueueLawful

/-- Settles O58: the laws survive the end of an open tick event and every command's own effect. -/
theorem requestQueueStaysLawful : Obligations.RequestQueueStaysLawful :=
  step_keeps State.QueueLawful (fun _ _ h => h.congr rfl rfl rfl rfl)
    (exec_keeps State.QueueLawful (fun _ _ h => h.settle) (fun c _ _ hh h => h.effect hh c)
      (fun c _ _ _ hh _ h => h.effect hh c) fun s lineF lineS _ => .hardReset s lineF lineS)

end Sys2Proof.Machine
end

section
/-! SUPPORT. The requests on the part as a whole: READ_STATS, WRITE_SYSTEM, RESTART and COMMIT (sections 8.6, 8.7 and
10.4). -/

namespace Sys2Proof.Machine

/-! ## READ_STATS (R19, R169) -/

/-- READ_STATS's own rule: a clear code that is no flag is refused; the results are taken before the clear (R169). -/
theorem State.doReadStats_eq (s : State) (b : Byte) :
    (boolOf b = none → s.doReadStats [b] = s.refuse .invalidRecord) ∧
    (boolOf b = some false → s.doReadStats [b] = s.okayWith (s.portF.statsBytes ++ s.portS.statsBytes)) ∧
    (boolOf b = some true → s.doReadStats [b] = s.clearStats.okayWith (s.portF.statsBytes ++ s.portS.statsBytes)) := by
  have hb : byteAt [b] 0 = b := rfl
  simp only [State.doReadStats, hb]
  refine ⟨fun h => ?_, fun h => ?_, fun h => ?_⟩
  · simp only [h]
  · simp only [h, Bool.false_eq_true, if_false]
  · simp only [h, if_true]

/-- Settles O37. -/
theorem readStats : Obligations.ReadStats := by
  intro s e b stats h hstats
  obtain ⟨hbad, hno, hyes⟩ := s.doReadStats_eq b
  have hport : ∀ p : PortRecord, p.statsBytes = stats p := fun p => by
    rw [hstats, PortRecord.statsBytes]
    cases p.link <;> rfl
  have hresults : s.portF.statsBytes ++ s.portS.statsBytes = stats s.portF ++ stats s.portS :=
    congrArg₂ _ (hport s.portF) (hport s.portS)
  refine ⟨fun hb => ?_, ?_, ?_⟩
  · exact exec_refuse .readStats State.doReadStats rfl h rfl (hbad (boolOf_none hb))
  · rintro rfl
    exact exec_okayWith .readStats State.doReadStats rfl h rfl (hno rfl) hresults
  · rintro rfl
    exact exec_okayWith .readStats State.doReadStats rfl h rfl (hyes rfl) hresults

/-! ## WRITE_SYSTEM (R167, R168, R186) -/

theorem policyOf_none {b : Byte} (h : 1 < b.toNat) : policyOf b = none := by
  rw [policyOf, if_neg (by rintro rfl; simp at h), if_neg (by rintro rfl; simp at h)]

theorem policyOf_code {b : Byte} (h : b.toNat ≤ 1) : policyOf b = some (if b = 0 then .pass else .block) := by
  obtain rfl | rfl : b = 0 ∨ b = 1 := by bv_omega
  · rfl
  · rfl

/-- Check 1 of R167, on a record's fields: the address and the policy must be read, the numbers be in their ranges. -/
theorem systemRecordOf_eq_some_iff {p : List Byte} {r : SystemRecord} :
    systemRecordOf p = some r ↔
      nodeOf (byteAt p 0) = some r.ownAddress ∧ policyOf (byteAt p 6) = some r.policy ∧
        (1 ≤ (halfAt p 1).toNat ∧ (halfAt p 1).toNat ≤ 1000) ∧ halfAt p 3 ≠ 0 ∧ (byteAt p 5).toNat < 16 ∧
        r.tickPeriod = halfAt p 1 ∧ r.resendTicks = halfAt p 3 ∧ r.classMask = (byteAt p 5).setWidth 4 := by
  simp only [systemRecordOf, Option.bind_eq_bind, Option.bind_eq_some_iff, Option.ite_none_right_eq_some,
    Option.some.injEq]
  constructor
  · rintro ⟨own, hown, policy, hpolicy, ⟨hlow, hhigh, hresend, hmask⟩, rfl⟩
    exact ⟨hown, hpolicy, ⟨hlow, hhigh⟩, hresend, hmask, rfl, rfl, rfl⟩
  · rintro ⟨hown, hpolicy, ⟨hlow, hhigh⟩, hresend, hmask, hp, hr, hm⟩
    refine ⟨_, hown, _, hpolicy, ⟨hlow, hhigh, hresend, hmask⟩, ?_⟩
    rw [← hp, ← hr, ← hm]

section
variable {own mask policy : Byte} {period resend : Half}

/-- The seven parameter bytes of WRITE_SYSTEM hold a System Record exactly when each field is in its range; the record is
then theirs (R167 check 1, section 12.9). -/
theorem systemRecordOf_parameters :
    (own.toNat = 0 ∨ 62 < own.toNat ∨ period.toNat = 0 ∨ 1000 < period.toNat ∨ resend = 0 ∨ 15 < mask.toNat ∨
        1 < policy.toNat →
      systemRecordOf ([own] ++ halfBytes period ++ halfBytes resend ++ [mask, policy]) = none) ∧
    (1 ≤ own.toNat → own.toNat ≤ 62 → 1 ≤ period.toNat → period.toNat ≤ 1000 → resend ≠ 0 → mask.toNat ≤ 15 →
      policy.toNat ≤ 1 →
      systemRecordOf ([own] ++ halfBytes period ++ halfBytes resend ++ [mask, policy]) =
        some { ownAddress := addressOf own, tickPeriod := period, resendTicks := resend,
               classMask := mask.setWidth 4, policy := if policy = 0 then .pass else .block }) := by
  generalize hrecord : [own] ++ halfBytes period ++ halfBytes resend ++ [mask, policy] = p
  have hown : byteAt p 0 = own := by rw [← hrecord]; rfl
  have hperiod : halfAt p 1 = period := by
    rw [← hrecord]
    exact halfAt_one own period (halfBytes resend ++ [mask, policy])
  have hresend : halfAt p 3 = resend := by
    rw [← hrecord, List.append_assoc]
    exact halfAt_append ([own] ++ halfBytes period) resend [mask, policy] 3 rfl
  have hmask : byteAt p 5 = mask := by rw [← hrecord]; rfl
  have hpolicy : byteAt p 6 = policy := by rw [← hrecord]; rfl
  refine ⟨fun h => Option.eq_none_iff_forall_ne_some.mpr fun r hr => ?_, fun h1 h62 hlow hhigh hr hm hp => ?_⟩
  · rw [systemRecordOf_eq_some_iff, hown, hperiod, hresend, hmask, hpolicy] at hr
    obtain ⟨hnode, hpol, ⟨hlow, hhigh⟩, hne, hm, -⟩ := hr
    rcases h with h | h | h | h | h | h | h
    · rw [nodeOf_none own (.inl h)] at hnode; cases hnode
    · rw [nodeOf_none own (.inr h)] at hnode; cases hnode
    · omega
    · omega
    · exact hne h
    · omega
    · rw [policyOf_none h] at hpol; cases hpol
  · rw [systemRecordOf_eq_some_iff, hown, hperiod, hresend, hmask, hpolicy]
    exact ⟨nodeOf_addressOf own h1 h62, policyOf_code hp, ⟨hlow, hhigh⟩, hr, Nat.lt_succ_of_le hm, rfl, rfl, rfl⟩

end

/-- Check 2 of R167: an enrolled node, or an output's target. -/
theorem State.addressInUse_iff (s : State) (a : Addr) :
    s.addressInUse a = true ↔ (s.node a).config.enrolled = true ∨ ∃ i, (s.output i).config.targetNode = a := by
  simp [State.addressInUse, State.outputs_toList, mem_allOutputs]

/-- WRITE_SYSTEM's own rule: its two checks in order, then the record replaced (R167, R168). -/
theorem State.doWriteSystem_eq (s : State) (p : List Byte) :
    (systemRecordOf p = none → s.doWriteSystem p = s.refuse .invalidRecord) ∧
    (∀ r, systemRecordOf p = some r →
      (s.addressInUse r.ownAddress = true → s.doWriteSystem p = s.refuse .inUse) ∧
      (s.addressInUse r.ownAddress = false →
        s.doWriteSystem p = ({ s with system := r } : State).tableWritten.okay)) := by
  unfold State.doWriteSystem
  refine ⟨fun h => ?_, fun r hr => ⟨fun hu => ?_, fun hu => ?_⟩⟩
  · simp only [h]
  · simp only [hr, hu, if_true]
  · simp only [hr, hu, Bool.false_eq_true, if_false]

/-- Settles O38. -/
theorem writeSystem : Obligations.WriteSystem := by
  refine ⟨fun s e own mask policy period resend h => ?_, fun s => rfl⟩
  obtain ⟨hinvalid, hvalid⟩ :=
    s.doWriteSystem_eq ([own] ++ halfBytes period ++ halfBytes resend ++ [mask, policy])
  obtain ⟨hbad, hgood⟩ := systemRecordOf_parameters (own := own) (mask := mask) (policy := policy) (period := period)
    (resend := resend)
  refine ⟨fun hb => exec_refuse .writeSystem State.doWriteSystem rfl h rfl (hinvalid (hbad hb)),
    fun h1 h62 hlow hhigh hr hm hp => ?_⟩
  obtain ⟨hused, hfree⟩ := hvalid _ (hgood h1 h62 hlow hhigh hr hm hp)
  refine ⟨fun hu => ?_, fun hnode htarget => ?_⟩
  · exact exec_refuse .writeSystem State.doWriteSystem rfl h rfl (hused ((s.addressInUse_iff _).mpr hu))
  · have hnot : s.addressInUse (addressOf own) = false := by
      rw [Bool.eq_false_iff, ne_eq, State.addressInUse_iff]
      rintro (hn | ⟨i, hi⟩)
      · rw [hnode] at hn; cases hn
      · exact htarget i hi
    exact exec_okay .writeSystem State.doWriteSystem rfl h rfl (hfree hnot)

/-! ## RESTART and COMMIT (R170, R189 to R191) -/

/-- RESTART's own rule (R170). -/
theorem State.doRestart_eq (s : State) (p : List Byte) :
    (s.store.commit ≠ none → s.doRestart p = s.refuse .busy) ∧
    (s.store.commit = none →
      s.doRestart p = ({ s with queue := { s.queue with restartPending := true } } : State).okay) := by
  unfold State.doRestart
  exact ⟨fun h => if_pos (Option.isSome_iff_ne_none.mpr h), fun h => if_neg (by simp [h])⟩

/-- COMMIT's own rule (R189). -/
theorem State.doCommit_eq (s : State) (p : List Byte) :
    (s.store.commit ≠ none → s.doCommit p = s.refuse .busy) ∧
    (s.store.commit = none → s.doCommit p =
      s.startCommit.okayWith (bankCode (some s.store.nextTarget) :: halfBytes s.store.nextGeneration)) := by
  unfold State.doCommit
  exact ⟨fun h => if_pos (Option.isSome_iff_ne_none.mpr h), fun h => if_neg (by simp [h])⟩

/-- A commit goes to the bank that is not current, one generation on; with no current bank, to bank A as generation 1
(R189). -/
theorem ImageStore.next_eq {st : ImageStore} {target : BankId} {generation : Half}
    (h : (st.current = some .a ∧ target = .b ∧ generation = st.bankA.generation + 1) ∨
      (st.current = some .b ∧ target = .a ∧ generation = st.bankB.generation + 1) ∨
      (st.current = none ∧ target = .a ∧ generation = 1)) :
    st.nextTarget = target ∧ st.nextGeneration = generation := by
  rcases h with ⟨hc, rfl, rfl⟩ | ⟨hc, rfl, rfl⟩ | ⟨hc, rfl, rfl⟩ <;>
    simp only [ImageStore.nextTarget, ImageStore.nextGeneration, hc, ImageStore.bank, and_self]

/-- Settles O39. -/
theorem restartAndCommit : Obligations.RestartAndCommit := by
  refine ⟨fun s e h => ?_, fun s e h => ?_⟩
  · obtain ⟨hbusy, hfree⟩ := s.doRestart_eq []
    exact ⟨fun hc => exec_refuse .restart State.doRestart rfl h rfl (hbusy hc),
      fun hc => exec_okay .restart State.doRestart rfl h rfl (hfree hc)⟩
  · obtain ⟨hbusy, hfree⟩ := s.doCommit_eq []
    refine ⟨fun hc => exec_refuse .commit State.doCommit rfl h rfl (hbusy hc), fun hc target generation hnext => ?_⟩
    obtain ⟨rfl, rfl⟩ := ImageStore.next_eq hnext
    exact exec_okayWith .commit State.doCommit rfl h rfl (hfree hc) rfl

end Sys2Proof.Machine
end

section
/-! SUPPORT. The time base's tick, and the requests CAPTURE and READ_CAPTURE (chapter 9). -/

namespace Sys2Proof.Machine

/-! ## The tick (R172, R173) -/

/-- A tick that comes once every owner has taken the one before is counted and handed on (R172, R173; log 4). -/
theorem State.tick_of_idle {s : State} (h : s.time.handedOn = .idle) :
    s.tick = { s with
      time := { counter := s.time.counter + 1, interval := s.system.tickPeriod,
                handedOn := { nodeTable := true, channelTable := true, outputUnit := true, noticeLog := true } } } :=
  if_neg (not_not_intro h)

/-- Settles O25. -/
theorem tickAdvances : Obligations.TickAdvances := by
  intro s hs hidle
  rw [exec_ready hs .tick rfl rfl]
  exact congrArg _ (State.tick_of_idle hidle)

/-! ## CAPTURE (R176 to R179) -/

/-- The first capture after a reset takes number 1 (R178). -/
theorem State.nextCaptureNumber_first {s : State} (h : s.capture = none) : s.nextCaptureNumber = 1 := by
  simp only [State.nextCaptureNumber, State.captureNumber, h]
  rfl

/-- A later capture takes the number after the last one's, and 1 after 255 (R178). -/
theorem State.nextCaptureNumber_next {s : State} {old : Capture} (h : s.capture = some old) :
    s.nextCaptureNumber = if old.number = 255 then 1 else old.number + 1 := by
  simp only [State.nextCaptureNumber, State.captureNumber, h]

/-- The number never returns to 0 by advancing (R178). -/
theorem State.nextCaptureNumber_ne_zero (s : State) : s.nextCaptureNumber ≠ 0 := by
  unfold State.nextCaptureNumber
  split
  · decide
  · next h =>
    intro hzero
    exact h (by bv_omega)

/-- The addresses that a capture leaves unused, by number (R176). -/
theorem State.unusedAddress_iff (s : State) (a : Fin 64) :
    (BitVec.ofNat 6 a.val = 0 ∨ BitVec.ofNat 6 a.val = 63 ∨ BitVec.ofNat 6 a.val = s.system.ownAddress) ↔
      (BitVec.ofNat 6 a.val = s.system.ownAddress ∨ a.val = 0 ∨ a.val = 63) := by
  have hzero : BitVec.ofNat 6 a.val = 0 ↔ a.val = 0 := by
    have ha := a.isLt
    bv_omega
  have hlast : BitVec.ofNat 6 a.val = 63 ↔ a.val = 63 := by
    have ha := a.isLt
    bv_omega
  rw [hzero, hlast]
  tauto

/-- The entries of a capture are those of the state it is taken in, at one moment (R177, R179). -/
theorem State.takeCapture_entries (s : State) :
    (∀ k : Slot, s.takeCapture.channels[k.val] = (s.channel k).snapshot) ∧
      (∀ i : OutIdx, s.takeCapture.outputs[i.val] = (s.output i).snapshot) ∧
      (∀ a : Fin 64, s.takeCapture.nodes[a.val] = s.nodeSnapshot (BitVec.ofNat 6 a.val)) :=
  ⟨fun k => tableMap_getElem _ _ _ k.isLt, fun i => tableMap_getElem _ _ _ i.isLt,
    fun a => tableOf_getElem _ _ _ a.isLt⟩

/-! ## READ_CAPTURE (R180) -/

theorem sectionOf_none {b : Byte} (h : 2 < b.toNat) : sectionOf b = none := by
  rw [sectionOf, if_neg (by rintro rfl; simp at h), if_neg (by rintro rfl; simp at h), if_neg (by rintro rfl; simp at h)]

/-- READ_CAPTURE's own rule: the section and its page first, then the want of a capture (R180). -/
theorem State.doReadCapture_eq (s : State) (sec page : Byte) :
    (sectionOf sec = none ∨ (∃ x, sectionOf sec = some x ∧ x.pages ≤ page.toNat) →
      s.doReadCapture [sec, page] = s.refuse .badIndex) ∧
    (∀ x, sectionOf sec = some x → page.toNat < x.pages →
      (s.capture = none → s.doReadCapture [sec, page] = s.refuse .notCaptured) ∧
      (∀ c, s.capture = some c → s.doReadCapture [sec, page] =
        s.okayWith ([sec, page, c.number] ++ quadBytes c.stamp ++ c.page x page.toNat))) := by
  have hsec : byteAt [sec, page] 0 = sec := rfl
  have hpage : byteAt [sec, page] 1 = page := rfl
  simp only [State.doReadCapture, hsec, hpage]
  refine ⟨?_, fun x hx hp => ⟨fun hc => ?_, fun c hc => ?_⟩⟩
  · rintro (hx | ⟨x, hx, hp⟩)
    · simp only [hx]
    · simp only [hx, if_pos hp]
  · simp only [hx, if_neg (Nat.not_le.mpr hp), hc]
  · simp only [hx, if_neg (Nat.not_le.mpr hp), hc]

/-- READ_CAPTURE of a page in range, the bytes of the page spelled out (R180). -/
theorem exec_readCapture_page {s : State} {e : RequestEntry} {sec page : Byte} {x : CaptureSection}
    (h : s.Executes e .readCapture [sec, page]) (hx : sectionOf sec = some x) (hp : page.toNat < x.pages)
    {bytes : Capture → List Byte} (hbytes : ∀ c, c.page x page.toNat = bytes c) :
    (s.capture = none → exec .readCapture s = .next (s.withAnswer e .notCaptured [])) ∧
      (∀ c, s.capture = some c → exec .readCapture s =
        .next (s.withAnswer e .ok ([sec, page, c.number] ++ quadBytes c.stamp ++ bytes c))) := by
  obtain ⟨-, hanswer⟩ := s.doReadCapture_eq sec page
  obtain ⟨hwant, hread⟩ := hanswer x hx hp
  exact ⟨fun hc => exec_refuse .readCapture State.doReadCapture rfl h rfl (hwant hc),
    fun c hc => exec_okayWith .readCapture State.doReadCapture rfl h rfl (hread c hc) (congrArg _ (hbytes c))⟩

/-- The section OUTPUTS has one page, of all sixteen entries (R180). -/
theorem Capture.page_outputs (c : Capture) : c.page .outputs 0 = c.outputs.toList.flatMap OutputSnapshot.bytes := by
  have hall : c.outputs.toList.take 16 = c.outputs.toList := List.take_of_length_le (by simp)
  simp only [Capture.page, Nat.mul_zero, List.drop_zero, hall]

/-- Settles O48. -/
theorem captureAndReadCapture : Obligations.CaptureAndReadCapture := by
  refine ⟨fun s e h => ?_, fun s e sec page h => ?_⟩
  · obtain ⟨hchannels, houtputs, hnodes⟩ := s.takeCapture_entries
    refine ⟨s.takeCapture, exec_okayWith .capture State.doCapture rfl h rfl rfl rfl, rfl, s.nextCaptureNumber_ne_zero,
      State.nextCaptureNumber_first, fun old hold => ⟨fun hlast => ?_, fun hlast => ?_⟩, hchannels, houtputs,
      fun a hown h0 h63 => ?_, fun a hunused => ?_⟩
    · exact (State.nextCaptureNumber_next hold).trans (if_pos hlast)
    · exact (State.nextCaptureNumber_next hold).trans (if_neg hlast)
    · have hused := mt (s.unusedAddress_iff a).mp (by tauto)
      exact (hnodes a).trans (if_neg hused)
    · exact (hnodes a).trans (if_pos ((s.unusedAddress_iff a).mpr hunused))
  · obtain ⟨hrefused, -⟩ := s.doReadCapture_eq sec page
    refine ⟨fun hbad => exec_refuse .readCapture State.doReadCapture rfl h rfl (hrefused ?_), fun hgood => ?_⟩
    · rcases hbad with hsec | ⟨rfl, hpage⟩ | ⟨rfl, hpage⟩ | ⟨rfl, hpage⟩
      · exact .inl (sectionOf_none hsec)
      · exact .inr ⟨.channels, rfl, hpage⟩
      · exact .inr ⟨.outputs, rfl, hpage⟩
      · exact .inr ⟨.nodes, rfl, hpage⟩
    · rcases hgood with ⟨rfl, hpage⟩ | ⟨rfl, rfl⟩ | ⟨rfl, hpage⟩
      · refine exec_readCapture_page (x := .channels) h rfl hpage fun c => ?_
        rw [if_pos rfl]
        refine List.flatMap_congr fun x _ => ?_
        rw [ChannelSnapshot.bytes, qualityCode_eq]
        rfl
      · refine exec_readCapture_page (x := .outputs) h rfl Nat.zero_lt_one fun c => ?_
        rw [if_neg (by decide), if_pos rfl]
        refine c.page_outputs.trans (List.flatMap_congr fun x _ => ?_)
        rw [OutputSnapshot.bytes]
        cases x.issued <;> rfl
      · refine exec_readCapture_page (x := .nodes) h rfl hpage fun c => ?_
        rw [if_neg (by decide), if_neg (by decide)]
        exact List.flatMap_congr fun x _ => rfl

end Sys2Proof.Machine
end

section
/-! SUPPORT. The stored image and start-up (chapter 10): the reset state's laws, the bank a hard reset selects, and the
phases of a commit. -/

namespace Sys2Proof.Machine

/-! ## The reset state (R188, R197) -/

/-- The reset state is one that a reset of the blocks leaves, on tables of factory defaults: no output is enabled, so that
none has taken an entry action (R117, R197). -/
theorem State.reset_blocksReset : State.reset.BlocksReset 0 where
  node a := by rw [State.reset_node]; rfl
  channel k := by rw [State.reset_channel]; rfl
  output i := by rw [State.reset_output]; rfl
  setpoints := by
    have hoff : ∀ i, (State.reset.output i).config.enabled = false := fun i => by rw [State.reset_output]; rfl
    simp only [State.resetSetpoints, hoff, Bool.false_and, List.filter_false, List.map_nil]
    rfl
  log := rfl
  queue := rfl
  egress := rfl
  time := rfl
  due := rfl
  capture := rfl

/-- With no valid bank the part runs on the factory defaults (R188). -/
theorem State.reset_liveImage : State.reset.liveImage = .factory := by
  have hnodes : tableMap (·.config) State.reset.nodes = Image.factory.nodes :=
    Vector.ext fun i hi => by simp [State.reset, Image.factory, NodeRecord.empty]
  have hchannels : tableMap (·.config) State.reset.channels = Image.factory.channels :=
    Vector.ext fun i hi => by simp [State.reset, Image.factory, ChannelRecord.cleared]
  have houtputs : tableMap (·.config) State.reset.outputs = Image.factory.outputs :=
    Vector.ext fun i hi => by
      have hout := State.reset_output ⟨i, hi⟩
      exact (tableMap_getElem _ _ i hi).trans
        ((congrArg OutputRecord.config hout).trans (Image.factory_output ⟨i, hi⟩).symm)
  rw [State.liveImage, hnodes, hchannels, houtputs]
  rfl

theorem State.reset_framesSafe : State.reset.FramesSafe where
  port p := by rw [State.reset_port]; exact .blank .up
  starvation := Nat.zero_le 4
  fits := ⟨nofun, nofun⟩

theorem State.reset_tablesLawful : State.reset.TablesLawful :=
  ⟨State.reset_liveImage ▸ Image.factory_lawful, fun a _ => State.reset_node a⟩

/-- Both banks are erased, none is current and no commit is in flight (R184, R188). -/
theorem State.reset_storeLawful : State.reset.store.ImagesLawful ∧ State.reset.store.Lawful :=
  ⟨⟨Bank.erased_lawful, Bank.erased_lawful, nofun⟩, nofun, nofun⟩

/-- Settles O6: each block's laws follow from what a reset leaves there, as the step lemmas' own reset cases do. -/
theorem resetIsSafe : Obligations.ResetIsSafe := by
  obtain ⟨hports, hframes, hresults⟩ := State.reset.framesSafe_iff.mp State.reset_framesSafe
  have hlog := State.LogLawful.of_restarted State.reset_blocksReset.log
  have hqueue : State.reset.QueueLawful := .empty State.reset_blocksReset.queue nofun nofun
  obtain ⟨himages, hstore⟩ := State.reset_storeLawful
  have hsupervised := State.reset_blocksReset.settled.lawful
  obtain ⟨hchannels, houtputs, hset⟩ := State.reset.supervised_iff.mp hsupervised.toSupervised
  exact ⟨hports, hframes, hresults, hlog, hqueue, State.reset_tablesLawful, himages, hstore, hchannels, houtputs, hset,
    hsupervised.due⟩

/-! ## The bank a hard reset selects (R187) -/

theorem Bank.load_invalid {b : Bank} (h : b.valid = false) : b.load = none := by
  unfold Bank.load
  split
  · exact if_neg (by simp [h])
  · rfl
  · rfl

/-- A valid bank that holds a whole image loads it. -/
theorem Bank.load_whole {b : Bank} (hwhole : b.valid = true → ∃ img, b.image = .intact img) (hv : b.valid = true) :
    ∃ img, b.load = some img := by
  obtain ⟨img, hi⟩ := hwhole hv
  exact ⟨img, Bank.load_intact hi hv⟩

theorem newer_iff (x y : Half) : newer x y = true ↔ 1 ≤ (x - y).toNat ∧ (x - y).toNat ≤ 32767 := by
  simp [newer]

section
variable {st : ImageStore} {x y : Image}

theorem ImageStore.select_none (ha : st.bankA.load = none) (hb : st.bankB.load = none) : st.select = none := by
  simp only [ImageStore.select, ha, hb]

theorem ImageStore.select_a (ha : st.bankA.load = some x) (hb : st.bankB.load = none) : st.select = some (.a, x) := by
  simp only [ImageStore.select, ha, hb]

theorem ImageStore.select_b (ha : st.bankA.load = none) (hb : st.bankB.load = some y) : st.select = some (.b, y) := by
  simp only [ImageStore.select, ha, hb]

/-- With both banks to load, bank B is taken exactly when its generation is the newer one. -/
theorem ImageStore.select_both (ha : st.bankA.load = some x) (hb : st.bankB.load = some y) :
    st.select = if newer st.bankB.generation st.bankA.generation = true then some (.b, y) else some (.a, x) := by
  simp only [ImageStore.select, ha, hb]

end

/-- Settles O8: what each bank loads follows from its validity, and the two loads decide the selection. -/
theorem hardResetSelectsNewerBank : Obligations.HardResetSelectsNewerBank := by
  intro st hwholeA hwholeB
  refine ⟨fun hA hB => ?_, fun hA hB => ?_, fun hA hB => ?_, fun hA hB => ⟨fun hlow hhigh => ?_, fun hfar => ?_⟩,
    fun id img h => Bank.load_some (ImageStore.select_load h)⟩
  · exact ImageStore.select_none (Bank.load_invalid hA) (Bank.load_invalid hB)
  · obtain ⟨x, hx⟩ := Bank.load_whole hwholeA hA
    rw [ImageStore.select_a hx (Bank.load_invalid hB)]
    rfl
  · obtain ⟨y, hy⟩ := Bank.load_whole hwholeB hB
    rw [ImageStore.select_b (Bank.load_invalid hA) hy]
    rfl
  all_goals
    obtain ⟨x, hx⟩ := Bank.load_whole hwholeA hA
    obtain ⟨y, hy⟩ := Bank.load_whole hwholeB hB
    rw [ImageStore.select_both hx hy]
  · rw [if_pos ((newer_iff _ _).mpr ⟨hlow, hhigh⟩)]
    rfl
  · rw [if_neg (by rw [newer_iff]; omega)]
    rfl

/-! ## The phases of a commit (R191 to R193) -/

section
variable {s : State} {j : CommitJob}

theorem State.endErasure_erasing (hc : s.store.commit = some j) (hp : j.phase = .erasing) :
    s.endErasure = { s with store := { s.store with commit := some { j with phase := .writing } } } := by
  simp only [State.endErasure, hc, hp, if_true]

theorem State.endWriting_writing (hc : s.store.commit = some j) (hp : j.phase = .writing) (m : MediumResult) :
    s.endWriting m = { s with
      store := { s.store.setBank j.target (j.written m) with commit := some { j with phase := .verifying } } } := by
  simp only [State.endWriting, hc, hp, if_true]

/-- The read-back compares the target with the generation and the copy it was to hold. -/
theorem State.endReadBack_verifying (hc : s.store.commit = some j) (hp : j.phase = .verifying) :
    s.endReadBack =
      if (s.store.bank j.target).generation = j.generation ∧ (s.store.bank j.target).image = .intact j.copy then
        s.commitSucceeds j
      else s.commitFails j := by
  simp only [State.endReadBack, hc, hp, if_true]

end

/-! ### The two outcomes -/

theorem State.commitSucceeds_target (s : State) (j : CommitJob) :
    (s.commitSucceeds j).store.bank j.target =
      { s.store.bank j.target with
        integrity := integrityWord (s.store.bank j.target).generation (s.store.bank j.target).image } := by
  rw [State.commitSucceeds_bank, ImageStore.bank_setBank, if_pos rfl]

theorem State.commitSucceeds_other (s : State) {j : CommitJob} {id : BankId} (h : id ≠ j.target) :
    (s.commitSucceeds j).store.bank id = s.store.bank id := by
  rw [State.commitSucceeds_bank, ImageStore.bank_setBank, if_neg h]

/-- The banks after a failure (R193). -/
theorem State.commitFails_bank (s : State) (j : CommitJob) (id : BankId) :
    (s.commitFails j).store.bank id =
      (s.store.setBank j.target { s.store.bank j.target with integrity := 0xFFFFFFFF }).bank id :=
  ImageStore.bank_flags _ _ none .failed true id

theorem State.commitFails_target (s : State) (j : CommitJob) :
    (s.commitFails j).store.bank j.target = { s.store.bank j.target with integrity := 0xFFFFFFFF } := by
  rw [State.commitFails_bank, ImageStore.bank_setBank, if_pos rfl]

theorem State.commitFails_other (s : State) {j : CommitJob} {id : BankId} (h : id ≠ j.target) :
    (s.commitFails j).store.bank id = s.store.bank id := by
  rw [State.commitFails_bank, ImageStore.bank_setBank, if_neg h]

/-- A failure changes the store and the log only. -/
theorem State.commitFails_only (s : State) (j : CommitJob) :
    s.commitFails j = { s with store := (s.commitFails j).store, log := (s.commitFails j).log } := rfl

/-- A failure leaves the bank that is current as it was (R193). -/
theorem State.commitFails_current (s : State) (j : CommitJob) :
    (s.commitFails j).store.current = s.store.current :=
  s.store.setBank_current j.target _

/-- Settles O49: each end is the phase's own effect; what a success or a failure leaves is read off the bank it wrote. -/
theorem commitPhases : Obligations.CommitPhases := by
  intro s j h hc
  refine ⟨fun hp => ?_, fun hp => ⟨?_, fun g => ?_⟩, fun hp => ?_⟩
  · exact (exec_ready h .erasureEnds rfl rfl).trans (congrArg _ (State.endErasure_erasing hc hp))
  · exact (exec_ready h (.writingEnds .good) rfl rfl).trans (congrArg _ (State.endWriting_writing hc hp .good))
  · exact (exec_ready h (.writingEnds (.faulty g)) rfl rfl).trans
      (congrArg _ (State.endWriting_writing hc hp (.faulty g)))
  · have hexec : exec .readBackEnds s = .next s.endReadBack := exec_ready h .readBackEnds rfl rfl
    rw [State.endReadBack_verifying hc hp] at hexec
    refine ⟨fun hsame => ⟨s.commitSucceeds j, hexec.trans (congrArg _ (if_pos hsame)), s.commitSucceeds_only j, ?_⟩,
      fun hdiffers => ⟨s.commitFails j, hexec.trans (congrArg _ (if_neg hdiffers)), s.commitFails_only j, ?_⟩⟩
    · obtain ⟨hgeneration, himage⟩ := hsame
      rw [State.commitSucceeds_target]
      exact ⟨Bank.valid_written _, himage, hgeneration, fun id hid => s.commitSucceeds_other hid, rfl, rfl, rfl, rfl, rfl⟩
    · rw [State.commitFails_target]
      exact ⟨Bank.invalid_erasedWord _, fun id hid => s.commitFails_other hid, s.commitFails_current j, rfl, rfl, rfl, rfl⟩

end Sys2Proof.Machine
end

section
/-! SUPPORT. The queue of commands: a step takes its front command, and no command's own effect touches it. -/

namespace Sys2Proof.Machine

/-! ## A step -/

theorem step_nil {s : State} (h : s.pending = []) : step s = .next s := by
  simp only [step, h]

theorem step_cons {s : State} {c : Instr} {rest : List Instr} (h : s.pending = c :: rest) :
    step s = exec c { s with pending := rest } := by
  simp only [step, h]

/-- Settles O1. -/
theorem stepTakesFrontCommand : Obligations.StepTakesFrontCommand :=
  ⟨fun _ _ _ => step_cons, fun _ => step_nil⟩

/-! ## The line events -/

@[simp] theorem State.acceptRequest_pending (s : State) (tag seq opcode : Byte) (params : List Byte) :
    (s.acceptRequest tag seq opcode params).pending = s.pending := by
  unfold State.acceptRequest
  dsimp only
  split
  · exact s.count_pending .s _
  · split <;> rfl

@[simp] theorem State.judgeEnd_pending (s : State) (p : Port) (l : List Byte) :
    (s.judgeEnd p l).pending = s.pending := by
  rcases s.judgeEnd_cases p l with ⟨hpending, -⟩ | ⟨-, -, tag, opcode, params, -, hrequest⟩
  · exact hpending
  · rw [hrequest, State.acceptRequest_pending, State.count_pending]

@[simp] theorem State.frameStart_pending (p : Port) (s : State) : (State.frameStart p s).pending = s.pending := by
  unfold State.frameStart
  dsimp only
  split
  · rfl
  · rw [State.setPort_pending]
    split
    · exact s.count_pending p _
    · rfl

@[simp] theorem State.byteArrival_pending (p : Port) (b : Byte) (s : State) :
    (State.byteArrival p b s).pending = s.pending := by
  unfold State.byteArrival
  split
  · rfl
  · split
    · rfl
    · split
      · rw [State.count_pending, State.setPort_pending]
      · exact s.setPort_pending p _

@[simp] theorem State.frameEnd_pending (p : Port) (s : State) : (State.frameEnd p s).pending = s.pending := by
  unfold State.frameEnd
  split
  · rfl
  · split
    · rfl
    · rw [State.judgeEnd_pending, State.setPort_pending]

@[simp] theorem State.returnOfSignal_pending (p : Port) (s : State) :
    (State.returnOfSignal p s).pending = s.pending := by
  unfold State.returnOfSignal
  split
  · rfl
  · exact s.setPort_pending p _

/-! ## The ends of transmissions -/

/-- The soft restart that a released response may bring keeps the queue of commands (R171). -/
@[simp] theorem State.releaseResponse_pending (s : State) (completed : Bool) :
    (s.releaseResponse completed).pending = s.pending := by
  unfold State.releaseResponse
  split
  · rfl
  · split
    · rfl
    · dsimp only
      split
      · exact State.restartBlocks_pending _ 1
      · rfl

@[simp] theorem State.endTransmission_pending (s : State) (p : Port) (completed : Bool) :
    (s.endTransmission p completed).pending = s.pending := by
  cases ht : (s.port p).transmitter with
  | none => rw [s.endTransmission_none p completed ht]
  | some x =>
    rw [s.endTransmission_eq p completed x ht]
    split
    · rw [State.releaseResponse_pending, State.setPort_pending]
    · exact s.setPort_pending p _

@[simp] theorem State.lossOfSignal_pending (p : Port) (s : State) : (State.lossOfSignal p s).pending = s.pending := by
  unfold State.lossOfSignal
  split
  · rfl
  · rw [State.endTransmission_pending, State.setPort_pending]

/-! ## The starts of transmissions -/

@[simp] theorem State.startForwarded_pending (s : State) (p : Port) : (s.startForwarded p).pending = s.pending := by
  unfold State.startForwarded
  split
  · rfl
  · rw [State.transmit_pending, State.setPort_pending]

@[simp] theorem State.startResponse_pending (s : State) : s.startResponse.pending = s.pending := by
  unfold State.startResponse
  split
  · rfl
  · simp only [State.transmit_pending]

@[simp] theorem State.startNotice_pending (s : State) : s.startNotice.pending = s.pending := by
  simp only [State.startNotice, State.transmit_pending]

@[simp] theorem State.startS_pending (s : State) : s.startS.pending = s.pending := by
  unfold State.startS
  split
  · rfl
  · split
    · rfl
    · exact s.startForwarded_pending .s
    · exact s.startResponse_pending
    · exact s.startNotice_pending
    · rfl

@[simp] theorem State.startSetpoint_pending (s : State) : s.startSetpoint.pending = s.pending := by
  unfold State.startSetpoint
  split
  · rfl
  · simp only [State.transmit_pending]

@[simp] theorem State.startF_pending (s : State) : s.startF.pending = s.pending := by
  unfold State.startF
  split
  · rfl
  · split
    · rfl
    · exact s.startForwarded_pending .f
    · exact s.startSetpoint_pending

/-! ## The executions of requests -/

/-- RESTART makes a restart pending, which no other rule does; every rule keeps the queue of commands. -/
theorem requestOf_pending {c : Instr} {kind : RequestKind} {body : State → List Byte → Answer}
    (hc : requestOf c = some (kind, body)) (s : State) (p : List Byte) : (body s p).state.pending = s.pending := by
  by_cases hk : kind = .restart
  · subst hk
    rw [requestOf_restart c body hc]
    rcases s.doRestart_state p with ⟨-, hs⟩ | ⟨-, -, hs⟩ <;> rw [hs]
  · obtain ⟨hpending, -⟩ := requestOf_requestOnly c kind body hc hk s p
    exact hpending

@[simp] theorem State.withAnswer_pending (s : State) (e : RequestEntry) (status : Status) (results : List Byte) :
    (s.withAnswer e status results).pending = s.pending := rfl

theorem effectOf_request_pending {c : Instr} {kind : RequestKind} {body : State → List Byte → Answer}
    (hc : requestOf c = some (kind, body)) (s : State) : (effectOf c s).pending = s.pending := by
  rw [effectOf_request c kind body s hc]
  rcases s.executeRequest_cases kind body with hs | ⟨e, -, hs⟩ | ⟨e, -, -, -, hs⟩
  · rw [hs]
  · rw [hs, State.withAnswer_pending]
  · rw [hs, State.withAnswer_pending, requestOf_pending hc]

@[simp] theorem State.executeUnknown_pending (s : State) : s.executeUnknown.pending = s.pending := by
  unfold State.executeUnknown
  split
  · rfl
  · split <;> rfl

/-! ## The ticks -/

@[simp] theorem State.tick_pending (s : State) : s.tick.pending = s.pending := by
  unfold State.tick
  split <;> rfl

@[simp] theorem State.nodeTableTick_pending (s : State) : s.nodeTableTick.pending = s.pending := by
  unfold State.nodeTableTick
  split <;> rfl

@[simp] theorem State.channelTableTick_pending (s : State) : s.channelTableTick.pending = s.pending := by
  unfold State.channelTableTick
  split <;> rfl

@[simp] theorem State.outputUnitTick_pending (s : State) : s.outputUnitTick.pending = s.pending := by
  unfold State.outputUnitTick
  split <;> rfl

@[simp] theorem State.noticeLogTick_pending (s : State) : s.noticeLogTick.pending = s.pending := by
  unfold State.noticeLogTick
  split <;> rfl

@[simp] theorem State.settle_pending (s : State) : s.settle.pending = s.pending :=
  s.settle_runtimeOnly.pending_eq

@[simp] theorem State.nextSilent_pending (s : State) : s.nextSilent.pending = s.pending := by
  unfold State.nextSilent
  split
  · exact s.settle_pending
  · exact (s.silenceNode_runtimeOnly _).pending_eq

@[simp] theorem State.nextStale_pending (s : State) : s.nextStale.pending = s.pending := by
  unfold State.nextStale
  split
  · exact s.settle_pending
  · exact (s.enterStale_supervisionOnly _ .channel).pending_eq

@[simp] theorem State.nextRefresh_pending (s : State) : s.nextRefresh.pending = s.pending := by
  unfold State.nextRefresh
  split
  · exact s.settle_pending
  · exact (s.refreshOutput_outputsOnly _).pending_eq

@[simp] theorem State.takeGoBack_pending (s : State) : s.takeGoBack.pending = s.pending := by
  unfold State.takeGoBack
  split
  · exact s.settleGoBack_runtimeOnly.pending_eq
  · exact s.settle_pending

/-! ## The Image Store and the resets -/

@[simp] theorem State.endErasure_pending (s : State) : s.endErasure.pending = s.pending := by
  unfold State.endErasure
  split
  · rfl
  · split <;> rfl

@[simp] theorem State.endWriting_pending (s : State) (m : MediumResult) : (s.endWriting m).pending = s.pending := by
  unfold State.endWriting
  split
  · rfl
  · split <;> rfl

@[simp] theorem State.endReadBack_pending (s : State) : s.endReadBack.pending = s.pending := by
  unfold State.endReadBack
  split
  · rfl
  · split
    · dsimp only
      split <;> rfl
    · rfl

@[simp] theorem State.hardReset_pending (s : State) (lineF lineS : LinkState) :
    (s.hardReset lineF lineS).pending = s.pending := by
  obtain ⟨hpending, -⟩ := s.hardReset_frame lineF lineS
  exact hpending

/-! ## Every command -/

/-- No command's own effect touches the queue of commands. -/
theorem effectOf_pending (c : Instr) (s : State) : (effectOf c s).pending = s.pending := by
  cases hc : requestOf c with
  | some r => exact effectOf_request_pending hc s
  | none =>
    cases c with
    | frameStart p => exact State.frameStart_pending p s
    | byteArrival p b => exact State.byteArrival_pending p b s
    | frameEnd p => exact State.frameEnd_pending p s
    | lossOfSignal p => exact State.lossOfSignal_pending p s
    | returnOfSignal p => exact State.returnOfSignal_pending p s
    | tick => exact s.tick_pending
    | nodeTableTick => exact s.nodeTableTick_pending
    | nodeSilent => exact s.nextSilent_pending
    | channelTableTick => exact s.channelTableTick_pending
    | channelStale => exact s.nextStale_pending
    | outputUnitTick => exact s.outputUnitTick_pending
    | refresh => exact s.nextRefresh_pending
    | noticeLogTick => exact s.noticeLogTick_pending
    | goBack => exact s.takeGoBack_pending
    | sPortStart => exact s.startS_pending
    | fPortStart => exact s.startF_pending
    | transmissionComplete p => exact s.endTransmission_pending p true
    | unknownRequest => exact s.executeUnknown_pending
    | erasureEnds => exact s.endErasure_pending
    | writingEnds m => exact s.endWriting_pending m
    | readBackEnds => exact s.endReadBack_pending
    | resetAsserted => rfl
    | hardReset lineF lineS => exact s.hardReset_pending lineF lineS
    | echo | readSystem | writeSystem | readStats | restart | enrolNode | retireNode | readNode | bind | unbind
    | writeChannel | readChannel | ackBand | writeOutput | readOutput | forceOutput | releaseOutput | ackNotices
    | capture | readCapture | commit | readImage => cases hc

/-- Settles O2: a command answers its own effect, on the state as it is or with the open tick event ended, or the state
itself while RESET holds the part. -/
theorem everyCommandCompletes : Obligations.EveryCommandCompletes := by
  intro c s
  refine ⟨_, exec_eq c s, ?_⟩
  split
  · exact effectOf_pending c s
  · split
    · rfl
    · split
      · exact effectOf_pending c s
      · exact (effectOf_pending c s.settle).trans s.settle_pending

end Sys2Proof.Machine
end
